-- ==== Sys2Proof/Word.lean ====
section
/-!
DEFINITION. The widths the block stores values at (10_state.md R31 to R37): a 32-bit word and an 8-bit byte.
Nothing is computed here; the arithmetic of a rule is on unbounded integers (40_control.md R145) and stands
with the rule that does it.
-/

namespace Sys2Proof

/-- A 32-bit register: A0..A3, Y0..Y3, COEF[i], a command word (10_state.md R31 to R33, 30_encoding.md R100). -/
abbrev Word := BitVec 32

/-- An entry of BUF or RAWBUF (10_state.md R37). -/
abbrev Byte := BitVec 8

end Sys2Proof
end

