-- ==== Sys2Proof/Config.lean ====
section
/-!
DEFINITION. What is fixed for one block: the parameters of 00_scope.md R7 (the OPEN ones are the record
`Params`, which every state carries and no command changes, so that a statement about every state holds for
every value of them), the sizes the spec itself fixes, and the FREE VALUES: constants without a body, which
nothing in Lean can evaluate, for what the spec leaves unspecified.
-/

namespace Sys2Proof

/-- The two readings of more_rbsp_data (00_scope.md R7, 92_eei_decisions.md D10). -/
inductive MoreDataPolicy where
  | strict
  | lastOne
deriving DecidableEq, Repr

/-- One entry of the OPEN table `CabacInitMN` (44_cabac_engine.md R272): the (m, n) of context `ctxIdx` under
table selector `tableSel`. -/
structure CabacInitRow where
  tableSel : Nat
  ctxIdx : Nat
  m : Int
  n : Int
deriving DecidableEq, Repr

/-- The OPEN parameters of 00_scope.md R7, as data. `maxBufBytes` is a 32-bit value because LEN and CAP, which
reach it, are 32-bit registers (10_state.md R35). A context with no row in `cabacInit` has no initial value. -/
structure Params where
  maxBufBytes : Word
  growBlock : Nat
  maxMbs : Nat
  maxMapUnits : Nat
  maxLevelPrefix : Nat
  moreData : MoreDataPolicy
  cabacInit : List CabacInitRow
deriving DecidableEq, Repr

/-- The bounds R7, 43_cavlc.md R235 and 44_cabac_engine.md R272 put on the OPEN parameters. -/
def Params.wf (p : Params) : Bool :=
  decide (1 ≤ p.growBlock) && decide (15 ≤ p.maxLevelPrefix) && decide (p.maxLevelPrefix ≤ 31) &&
    p.cabacInit.all fun r =>
      decide (r.tableSel ≤ 3) && decide (r.ctxIdx ≤ 1023) && decide (-128 ≤ r.m) && decide (r.m ≤ 127) &&
        decide (-128 ≤ r.n) && decide (r.n ≤ 127)

/-- The parameter values the spec's own vectors and programs use (95_test_vectors.md section 0); the ones
`State.reset` carries. DESIGN CHOICE (notes/assumptions/2.md): no statement rests on them. -/
def Config.vectorParams : Params where
  maxBufBytes := 64
  growBlock := 16
  maxMbs := 64
  maxMapUnits := 64
  maxLevelPrefix := 15
  moreData := .strict
  cabacInit := [⟨0, 0, 20, -15⟩, ⟨0, 1, 0, 64⟩, ⟨0, 2, 0, 63⟩, ⟨0, 3, -28, 127⟩]

/-- RawBufBytes, the size of RAWBUF (00_scope.md R7). -/
def Config.rawBufBytes : Nat := 4096

/-- NumCtx, the number of CABAC contexts (00_scope.md R7). -/
def Config.numCtx : Nat := 1024

/-- The places whose contents the spec calls unspecified, "a model draws the value" (70_reset_and_hazards.md R430,
60_exceptions.md R401, 93_implementation_defined.md I1 to I5): each names the state element that is drawn. -/
inductive Drawn where
  | y (i : Nat)
  | coef (i : Nat)
  | bin (i : Nat)
  | binLen
  | mode
  | ep
  | grow
  | len
  | cap
  | off
  | cache
  | cnt
  | zeros
  | bits
  | buf (addr : Nat)
  | raw (addr : Nat)
  | ctxValid (c : Nat)
  | ctxState (c : Nat)
  | ctxMps (c : Nat)
  | eLow
  | eRange
  | eOutstanding
  | eFirst
  | eActive
  | dRange
  | dOffset
  | dActive
  | csr (number : Nat)
  | mbValid (a : Nat)
  | mbFlag (a i : Nat)
  | mbType (a : Nat)
  | mbNz (a i : Nat)
  | mbNz8 (a i : Nat)
  | currMbAddr
  | currValid
  | sgid (i : Nat)
  | mapUnit (i : Nat)
  | mbGroup (i : Nat)
  | mapValid
deriving DecidableEq, Repr

/-- FREE VALUE. What the place `d` holds in epoch `k`, while the spec leaves it unspecified. The epoch counter of
the state advances at every RESET and every failing command, so each of them draws afresh. -/
opaque Config.draw (k : Nat) (d : Drawn) : Word

/-- FREE VALUE. The value CSR PIC_SIZE_MBS shows when PicSizeInMbs does not fit 32 bits: the spec states none
(10_state.md R40, R43; 40_control.md R145). A function of the exact product. -/
opaque Config.picSizeOverflow (exact : Nat) : Word

/-- FREE VALUE. Y0 of SG_NEXT when the address it finds does not fit Y0's 32 bits: 47_slice_group_map.md R383 has no
range check and the spec states no value (40_control.md R145; notes/assumptions/7.md). A function of the exact
address. -/
opaque Config.sgNextOverflow (exact : Nat) : Word

/-- FREE VALUE. NumC8x8 for a ChromaArrayType other than 1 and 2, at most 4 because NZ has 16 entries: 43_cavlc.md
R220 gives it for 1 and 2 only, and with NCX = 1 a residual command may ask for it at 0 and 3. -/
opaque Config.numC8x8Other (cat : Nat) : Fin 5

/-- FREE VALUE. `x % m` for a negative x: 00_scope.md R8 uses `%` on non-negative operands only, but
46_mb_addressing.md R339's field row "yM = 2 * yN" reaches (yM + maxH) % maxH with yM + maxH negative. -/
opaque Config.remOfNegative (x : Int) (m : Nat) : Word

end Sys2Proof
end

