-- ==== Sys2Proof/Machine/Table.lean ====
section
/-!
DEFINITION. The sparse tables the state is made of: a list of (index, value) pairs in ONE canonical form, indexes
strictly rising. BUF, RAWBUF, the context memory, the MB info table and SGID (10_state.md R47) are such tables.
-/

namespace Sys2Proof.Machine

/-- A sparse table. What an index that is not listed means is said where each table is declared (State.lean). -/
abbrev Table (β : Type) := List (Nat × β)

/-- The value listed at `a`. -/
def Table.find {β : Type} : Table β → Nat → Option β
  | [], _ => none
  | (k, v) :: t, a => if a = k then some v else Table.find t a

/-- The table with `v` listed at `a`. -/
def Table.put {β : Type} : Table β → Nat → β → Table β
  | [], a, v => [(a, v)]
  | (k, w) :: t, a, v =>
    if a < k then (a, v) :: (k, w) :: t
    else if a = k then (a, v) :: t
    else (k, w) :: Table.put t a v

/-- The table with nothing listed at `a`. -/
def Table.drop {β : Type} : Table β → Nat → Table β
  | [], _ => []
  | (k, w) :: t, a => if a = k then t else (k, w) :: Table.drop t a

/-- Every listed index is at least `b`, and they rise strictly. -/
def Table.risingFrom {β : Type} : Nat → Table β → Bool
  | _, [] => true
  | b, (k, _) :: t => decide (b ≤ k) && Table.risingFrom (k + 1) t

/-- The canonical form: indexes strictly rising. -/
def Table.wf {β : Type} (t : Table β) : Bool := Table.risingFrom 0 t

/-- The table of the values `f` gives on `a`, `a + 1`, ..., `n` indexes in all. -/
def Table.build {β : Type} (f : Nat → Option β) : Nat → Nat → Table β
  | 0, _ => []
  | n + 1, a =>
    match f a with
    | some v => (a, v) :: Table.build f n (a + 1)
    | none => Table.build f n (a + 1)

end Sys2Proof.Machine
end

