-- ==== Sys2Proof/Machine/State.lean ====
section
/-!
DEFINITION. The state of one LH264-EC block as plain data (10_state.md): every element of R31 to R45 and R430's
reset table, the host port's pending actions, the parameters of R7 and the epoch counter of the free values.
-/

namespace Sys2Proof.Machine

/-- STATUS.CODE (10_state.md R42); 9..15 are never produced. -/
inductive Code where
  | ok
  | einval
  | eio
  | eproto
  | enomem
  | eillegal
  | eunsupp
  | estate
  | efaulted
deriving DecidableEq, Repr

/-- STATUS (10_state.md R42, CSR 0x000). -/
structure Status where
  code : Code
  fault : Bool
  failop : Byte
deriving DecidableEq, Repr

/-- The cursor mode (10_state.md R35): 0 NONE, 1 DEC, 2 ENC; 3 is never held. -/
inductive CursorMode where
  | idle
  | dec
  | enc
deriving DecidableEq, Repr

/-- The bit cursor (10_state.md R35). CNT is 0..8 and Z is 0..2. -/
structure Cursor where
  mode : CursorMode
  ep : Bool
  grow : Bool
  len : Word
  cap : Word
  off : Word
  cache : Byte
  cnt : Nat
  zeros : Nat
  bits : Word
deriving DecidableEq, Repr

/-- A byte memory (10_state.md R37): the bytes written since the memory last became unspecified, by rising address. -/
abbrev Memory := List Host.Cell

/-- What an unlisted address reads as: no byte of its own. The spec leaves it unspecified, so the reading
operation (`State.bufByte`, `State.rawByte` of Ops.lean) supplies a free value there. -/
def Memory.unlisted : Option Byte := none

/-- The canonical form of a byte memory: addresses strictly rising (no listed byte can equal `Memory.unlisted`). -/
def Memory.wf (m : Memory) : Bool := Table.wf m

/-- A context whose VALID is 1 (10_state.md R38). -/
structure Ctx where
  pStateIdx : BitVec 6
  valMPS : Bool
deriving DecidableEq, Repr

/-- The encoding engine (10_state.md R39). -/
structure Encoder where
  low : BitVec 10
  range : BitVec 9
  outstanding : Word
  first : Bool
  active : Bool
deriving DecidableEq, Repr

/-- The decoding engine (10_state.md R39). -/
structure Decoder where
  range : BitVec 9
  offset : BitVec 9
  active : Bool
deriving DecidableEq, Repr

/-- The RW geometry CSRs 0x020 to 0x026 (10_state.md R40). The derived CSRs of R43 are functions of them
(Operands.lean), so that they always show the value for the present inputs. -/
structure Geometry where
  picWidthMbs : BitVec 16
  picHeightMapUnits : BitVec 16
  frameMbsOnly : Bool
  mbaffEnable : Bool
  fieldPic : Bool
  chromaArrayType : BitVec 2
  cipDp : Bool
deriving DecidableEq, Repr

/-- An MB info table entry whose VALID is 1 (10_state.md R44). NZ[c][k] is `nz[16 * c + k]` and NZ8[c][j] is
`nz8[4 * c + j]`. -/
structure MbEntry where
  skip : Bool
  ipcm : Bool
  intra : Bool
  field : Bool
  mbType : Byte
  nz : Vector (BitVec 5) 48
  nz8 : Vector (BitVec 7) 12
deriving DecidableEq, Repr

/-- The slice-group state (10_state.md R45) with its RW CSRs 0x040 to 0x067 (R40). SGID reads 0 at an unlisted
index; a map index beyond its list is unspecified. -/
structure SliceGroups where
  numMinus1 : BitVec 3
  mapType : Fin 7
  changeDir : Bool
  changeRateMinus1 : Word
  changeCycle : Word
  runLengthMinus1 : Vector Word 8
  topLeft : Vector Word 8
  bottomRight : Vector Word 8
  sgid : Table (BitVec 3)
  mapUnits : List (BitVec 3)
  mbGroups : List (BitVec 3)
  mapValid : Bool
deriving DecidableEq, Repr

/-- What the host does at its port (10_state.md R30, 30_encoding.md R130): issue a command word, write an operand
register, or write a byte of BUF or RAWBUF or a coefficient register. Host reads change nothing (20_memory.md R85). -/
inductive HostAction where
  | command (w : Word)
  | setA (i : Fin 4) (v : Word)
  | writeBuf (addr : Nat) (b : Byte)
  | writeRaw (addr : Nat) (b : Byte)
  | writeCoef (i : Fin 16) (v : Word)
deriving DecidableEq, Repr

/-- The block's state and, in `port`, the host actions it has not taken yet, oldest first.
Unlisted contexts and MB entries have VALID = 0. `epoch` is the model's own field: it counts the times the
unspecified state was drawn (RESET and failing commands) and selects the free values. -/
structure State where
  params : Params
  port : List HostAction
  epoch : Nat
  a0 : Word
  a1 : Word
  a2 : Word
  a3 : Word
  y0 : Word
  y1 : Word
  y2 : Word
  y3 : Word
  coef : Vector Word 16
  bins : Vector Bool 128
  binLen : Nat
  cur : Cursor
  buf : Memory
  raw : Memory
  ctx : Table Ctx
  enc : Encoder
  dec : Decoder
  status : Status
  geom : Geometry
  mb : Table MbEntry
  currMbAddr : Word
  currValid : Bool
  sg : SliceGroups
deriving DecidableEq, Repr

/-- Why the machine stops. No command raises one. -/
inductive Fault where
  /-- The host port addressed a byte BUF or RAWBUF does not have (20_memory.md R86, R87: each space is indexed from 0
  to its size); raised by `hostPort` only. Safe. -/
  | noSuchAddress
deriving DecidableEq, Repr

/-- Why a step has no meaning. No command raises one. -/
inductive Refusal where
  /-- An instruction without a meaning yet; no arm of `exec` says so. Safe. -/
  | notModelled (mnemonic : String)
  /-- The host wrote BUF while MODE is DEC or ENC: "A model gives such a host write no move" (20_memory.md R92);
  raised by `hostPort` only. Safe. -/
  | hostWriteInStream
deriving DecidableEq, Repr

/-- The cursor's reset values (10_state.md R35, 70_reset_and_hazards.md R430). -/
def Cursor.reset : Cursor where
  mode := .idle
  ep := false
  grow := false
  len := 0
  cap := 0
  off := 0
  cache := 0
  cnt := 0
  zeros := 0
  bits := 0

/-- The geometry CSRs' reset values (10_state.md R40, 70_reset_and_hazards.md R430). -/
def Geometry.reset : Geometry where
  picWidthMbs := 0
  picHeightMapUnits := 0
  frameMbsOnly := true
  mbaffEnable := false
  fieldPic := false
  chromaArrayType := 1
  cipDp := false

/-- The slice-group state's reset values (10_state.md R40, R45, 70_reset_and_hazards.md R430). -/
def SliceGroups.reset : SliceGroups where
  numMinus1 := 0
  mapType := 0
  changeDir := false
  changeRateMinus1 := 0
  changeCycle := 0
  runLengthMinus1 := Vector.replicate 8 0
  topLeft := Vector.replicate 8 0
  bottomRight := Vector.replicate 8 0
  sgid := []
  mapUnits := []
  mbGroups := []
  mapValid := false

/-- The state right after reset (70_reset_and_hazards.md R430) of a block with parameters `p`, whose host has the
actions `port` still to come; what R430 calls unspecified is drawn in epoch `k`. -/
def State.resetWith (p : Params) (k : Nat) (port : List HostAction) : State where
  params := p
  port := port
  epoch := k
  a0 := 0
  a1 := 0
  a2 := 0
  a3 := 0
  y0 := 0
  y1 := 0
  y2 := 0
  y3 := 0
  coef := Vector.replicate 16 0
  bins := Vector.replicate 128 false
  binLen := 0
  cur := Cursor.reset
  buf := []
  raw := []
  ctx := []
  enc := ⟨0, 0, 0, false, false⟩
  dec := ⟨0, 0, false⟩
  status := ⟨.ok, false, 0⟩
  geom := Geometry.reset
  mb := []
  currMbAddr := 0
  currValid := false
  sg := SliceGroups.reset

/-- The machine right after power-on reset (70_reset_and_hazards.md R430), with no host action pending. The
parameters are the spec's vector values (notes/assumptions/2.md) and the epoch is 0 (notes/assumptions/1.md). -/
def State.reset : State := State.resetWith Config.vectorParams 0 []

end Sys2Proof.Machine
end

