-- ==== Sys2Proof/Machine/Flags.lean ====
section
/-!
DEFINITION. The block has no condition codes (10_state.md R46); its flags are in STATUS. How a completing command
writes STATUS (60_exceptions.md R400) and how STATUS and the cursor mode read as numbers (10_state.md R40, R42).
-/

namespace Sys2Proof.Machine

/-- The number of a status code (10_state.md R42, 60_exceptions.md R403). -/
def Code.toNat : Code → Nat
  | .ok => 0
  | .einval => 1
  | .eio => 2
  | .eproto => 3
  | .enomem => 4
  | .eillegal => 5
  | .eunsupp => 6
  | .estate => 7
  | .efaulted => 8

/-- The number of a cursor mode (10_state.md R35). -/
def CursorMode.toNat : CursorMode → Nat
  | .idle => 0
  | .dec => 1
  | .enc => 2

/-- STATUS as CSR 0x000 shows it: CODE [3:0], FAULT [4], FAILOP [15:8] (10_state.md R40). -/
def Status.toNat (st : Status) : Nat := st.code.toNat + 16 * st.fault.toNat + 256 * st.failop.toNat

/-- STATUS after a command that completes with OK or EFAULTED: only CODE changes (60_exceptions.md R400). -/
def Status.complete (c : Code) (st : Status) : Status := { st with code := c }

/-- STATUS after the command with opcode `opc` fails with `e`: FAULT is set, and FAILOP records the opcode if FAULT
was 0 (60_exceptions.md R400). -/
def Status.failWith (e : Code) (opc : Nat) (st : Status) : Status where
  code := e
  fault := true
  failop := if st.fault then st.failop else BitVec.ofNat 8 opc

end Sys2Proof.Machine
end

