-- ==== Sys2Proof/Syntax.lean ====
section
/-!
DEFINITION. The command set as data: one constructor per row of spec/opcode_table.json (30_encoding.md R101),
its arguments the sub-fields of F8 and F16 under the names R130 gives them. One-bit fields are Booleans; the
wider ones are counts, indexes and register numbers, kept as numbers whose width WellFormed checks.
-/

namespace Sys2Proof

/-- A decoded command (30_encoding.md R101). Register operands A0..A3 are read by the meaning, not encoded. -/
inductive Instr where
  | nop
  | reset
  | csrRd (csr : Nat)
  | csrWr (csr : Nat)
  | bcInit (mode : Nat) (ep grow : Bool)
  | bcRdu (n : Nat)
  | bcRds (n : Nat)
  | bcWru (n : Nat)
  | bcWrs (n : Nat)
  | bcAligned
  | bcMore
  | bcRdbytes
  | bcWrbytes
  | egRdue
  | egWrue
  | egRdse
  | egWrse
  | egRdte
  | egWrte
  | cvNc (blkKind blkIdx : Nat)
  | cvRdtoken
  | cvWrtoken
  | cvRdlevel
  | cvWrlevel
  | cvRdtz
  | cvWrtz
  | cvRdrun
  | cvWrrun
  | cvRdres (blkKind : Nat) (store ncx : Bool) (blkIdx : Nat)
  | cvWrres (blkKind : Nat) (store ncx : Bool) (blkIdx : Nat)
  | cvRdcbp (intra : Bool)
  | cvWrcbp (intra : Bool)
  | cbCtxinit (tableSel : Nat)
  | cbCtxset (ctxIdx : Nat)
  | cbCtxget (ctxIdx : Nat)
  | cbEinit
  | cbEdec (ctxIdx : Nat)
  | cbEbyp
  | cbEterm
  | cbDinit
  | cbDdec (ctxIdx : Nat)
  | cbDbyp
  | cbDterm
  | cbDbin (f8 f16 : Nat)
  | bnU
  | bnTu
  | bnFl
  | bnUegk (k : Nat) (signed : Bool)
  | bnEnc (ctxIdx : Nat)
  | mbSlice
  | mbBegin
  | mbSetnz (comp : Nat) (size8 : Bool) (blkIdx : Nat)
  | mbGet
  | mbNbmb (dir : Bool)
  | mbNbloc (chroma : Bool)
  | mbNbblk (dir : Bool) (kind blkIdx : Nat)
  | sgIdwr
  | sgGen
  | sgMbgrp
  | sgNext
deriving DecidableEq, Repr

end Sys2Proof
end

