-- ==== Sys2Proof/WellFormed.lean ====
section
/-!
DEFINITION. Which commands have a command word: every field fits the bits 30_encoding.md R101 gives it. A value
that fits but is outside a command's legal range (n = 200, ctxIdx = 2000) is well formed: R102 has the command
run and complete with EINVAL.
-/

namespace Sys2Proof

/-- Each field fits its bits of F8 or F16 (30_encoding.md R101). -/
def Instr.wellFormed : Instr → Bool
  | .nop => true
  | .reset => true
  | .csrRd csr => decide (csr < 4096)
  | .csrWr csr => decide (csr < 4096)
  | .bcInit mode _ _ => decide (mode < 4)
  | .bcRdu n => decide (n < 256)
  | .bcRds n => decide (n < 256)
  | .bcWru n => decide (n < 256)
  | .bcWrs n => decide (n < 256)
  | .bcAligned => true
  | .bcMore => true
  | .bcRdbytes => true
  | .bcWrbytes => true
  | .egRdue => true
  | .egWrue => true
  | .egRdse => true
  | .egWrse => true
  | .egRdte => true
  | .egWrte => true
  | .cvNc blkKind blkIdx => decide (blkKind < 256) && decide (blkIdx < 65536)
  | .cvRdtoken => true
  | .cvWrtoken => true
  | .cvRdlevel => true
  | .cvWrlevel => true
  | .cvRdtz => true
  | .cvWrtz => true
  | .cvRdrun => true
  | .cvWrrun => true
  | .cvRdres blkKind _ _ blkIdx => decide (blkKind < 8) && decide (blkIdx < 65536)
  | .cvWrres blkKind _ _ blkIdx => decide (blkKind < 8) && decide (blkIdx < 65536)
  | .cvRdcbp _ => true
  | .cvWrcbp _ => true
  | .cbCtxinit tableSel => decide (tableSel < 256)
  | .cbCtxset ctxIdx => decide (ctxIdx < 65536)
  | .cbCtxget ctxIdx => decide (ctxIdx < 65536)
  | .cbEinit => true
  | .cbEdec ctxIdx => decide (ctxIdx < 65536)
  | .cbEbyp => true
  | .cbEterm => true
  | .cbDinit => true
  | .cbDdec ctxIdx => decide (ctxIdx < 65536)
  | .cbDbyp => true
  | .cbDterm => true
  | .cbDbin f8 f16 => decide (f8 < 256) && decide (f16 < 65536)
  | .bnU => true
  | .bnTu => true
  | .bnFl => true
  | .bnUegk k _ => decide (k < 16)
  | .bnEnc ctxIdx => decide (ctxIdx < 65536)
  | .mbSlice => true
  | .mbBegin => true
  | .mbSetnz comp _ blkIdx => decide (comp < 4) && decide (blkIdx < 65536)
  | .mbGet => true
  | .mbNbmb _ => true
  | .mbNbloc _ => true
  | .mbNbblk _ kind blkIdx => decide (kind < 4) && decide (blkIdx < 65536)
  | .sgIdwr => true
  | .sgGen => true
  | .sgMbgrp => true
  | .sgNext => true

end Sys2Proof
end

