-- ==== Sys2Proof/Decode.lean ====
section
/-!
DEFINITION. The command word (30_encoding.md R100): OPC in bits 31..24, F8 in 23..16, F16 in 15..0, and the opcode
map R101 in both directions. `decode` rejects by name: an opcode not in R101 (R105), or a must-be-zero bit that
is 1 (R103).
-/

namespace Sys2Proof

/-- Why a word is no command (30_encoding.md R103, R105); either way it completes with EILLEGAL. -/
inductive Reject where
  | unknownOpcode (opc : Nat)
  | mustBeZero (opc : Nat)
deriving DecidableEq, Repr

/-- `v[lo + width - 1 : lo]` (00_scope.md R8). -/
def bitField (v lo width : Nat) : Nat := v / 2 ^ lo % 2 ^ width

/-- `v[i]` as a Boolean (00_scope.md R8). -/
def bitAt (v i : Nat) : Bool := decide (v / 2 ^ i % 2 = 1)

/-- The OPC field (30_encoding.md R100). -/
def wordOpc (w : Word) : Nat := w.toNat / 2 ^ 24

/-- The F8 field (30_encoding.md R100). -/
def wordF8 (w : Word) : Nat := w.toNat / 2 ^ 16 % 2 ^ 8

/-- The F16 field (30_encoding.md R100). -/
def wordF16 (w : Word) : Nat := w.toNat % 2 ^ 16

/-- The must-be-zero check of 30_encoding.md R103. -/
def mbz (opc : Nat) (zero : Bool) (i : Instr) : Except Reject Instr :=
  if zero then .ok i else .error (.mustBeZero opc)

/-- The opcode map, from the fields (30_encoding.md R101; must-be-zero bits R103). -/
def decodeFields (opc f8 f16 : Nat) : Except Reject Instr :=
  match opc with
  | 0x00 => mbz opc (f8 == 0 && f16 == 0) .nop
  | 0x01 => mbz opc (f8 == 0 && f16 == 0) .reset
  | 0x02 => mbz opc (f8 == 0 && bitField f16 12 4 == 0) (.csrRd (bitField f16 0 12))
  | 0x03 => mbz opc (f8 == 0 && bitField f16 12 4 == 0) (.csrWr (bitField f16 0 12))
  | 0x10 => mbz opc (bitField f8 4 4 == 0 && f16 == 0) (.bcInit (bitField f8 0 2) (bitAt f8 2) (bitAt f8 3))
  | 0x11 => mbz opc (f16 == 0) (.bcRdu f8)
  | 0x12 => mbz opc (f16 == 0) (.bcRds f8)
  | 0x13 => mbz opc (f16 == 0) (.bcWru f8)
  | 0x14 => mbz opc (f16 == 0) (.bcWrs f8)
  | 0x15 => mbz opc (f8 == 0 && f16 == 0) .bcAligned
  | 0x16 => mbz opc (f8 == 0 && f16 == 0) .bcMore
  | 0x17 => mbz opc (f8 == 0 && f16 == 0) .bcRdbytes
  | 0x18 => mbz opc (f8 == 0 && f16 == 0) .bcWrbytes
  | 0x20 => mbz opc (f8 == 0 && f16 == 0) .egRdue
  | 0x21 => mbz opc (f8 == 0 && f16 == 0) .egWrue
  | 0x22 => mbz opc (f8 == 0 && f16 == 0) .egRdse
  | 0x23 => mbz opc (f8 == 0 && f16 == 0) .egWrse
  | 0x24 => mbz opc (f8 == 0 && f16 == 0) .egRdte
  | 0x25 => mbz opc (f8 == 0 && f16 == 0) .egWrte
  | 0x30 => .ok (.cvNc f8 f16)
  | 0x31 => mbz opc (f8 == 0 && f16 == 0) .cvRdtoken
  | 0x32 => mbz opc (f8 == 0 && f16 == 0) .cvWrtoken
  | 0x33 => mbz opc (f8 == 0 && f16 == 0) .cvRdlevel
  | 0x34 => mbz opc (f8 == 0 && f16 == 0) .cvWrlevel
  | 0x35 => mbz opc (f8 == 0 && f16 == 0) .cvRdtz
  | 0x36 => mbz opc (f8 == 0 && f16 == 0) .cvWrtz
  | 0x37 => mbz opc (f8 == 0 && f16 == 0) .cvRdrun
  | 0x38 => mbz opc (f8 == 0 && f16 == 0) .cvWrrun
  | 0x39 => mbz opc (bitField f8 3 3 == 0) (.cvRdres (bitField f8 0 3) (bitAt f8 6) (bitAt f8 7) f16)
  | 0x3A => mbz opc (bitField f8 3 3 == 0) (.cvWrres (bitField f8 0 3) (bitAt f8 6) (bitAt f8 7) f16)
  | 0x3B => mbz opc (bitField f8 1 7 == 0 && f16 == 0) (.cvRdcbp (bitAt f8 0))
  | 0x3C => mbz opc (bitField f8 1 7 == 0 && f16 == 0) (.cvWrcbp (bitAt f8 0))
  | 0x40 => mbz opc (f16 == 0) (.cbCtxinit f8)
  | 0x41 => mbz opc (f8 == 0) (.cbCtxset f16)
  | 0x42 => mbz opc (f8 == 0) (.cbCtxget f16)
  | 0x43 => mbz opc (f8 == 0 && f16 == 0) .cbEinit
  | 0x44 => mbz opc (f8 == 0) (.cbEdec f16)
  | 0x45 => mbz opc (f8 == 0 && f16 == 0) .cbEbyp
  | 0x46 => mbz opc (f8 == 0 && f16 == 0) .cbEterm
  | 0x48 => mbz opc (f8 == 0 && f16 == 0) .cbDinit
  | 0x49 => mbz opc (f8 == 0) (.cbDdec f16)
  | 0x4A => mbz opc (f8 == 0 && f16 == 0) .cbDbyp
  | 0x4B => mbz opc (f8 == 0 && f16 == 0) .cbDterm
  | 0x4C => .ok (.cbDbin f8 f16)
  | 0x50 => mbz opc (f8 == 0 && f16 == 0) .bnU
  | 0x51 => mbz opc (f8 == 0 && f16 == 0) .bnTu
  | 0x52 => mbz opc (f8 == 0 && f16 == 0) .bnFl
  | 0x53 => mbz opc (bitField f8 5 3 == 0 && f16 == 0) (.bnUegk (bitField f8 0 4) (bitAt f8 4))
  | 0x54 => mbz opc (f8 == 0) (.bnEnc f16)
  | 0x60 => mbz opc (f8 == 0 && f16 == 0) .mbSlice
  | 0x61 => mbz opc (f8 == 0 && f16 == 0) .mbBegin
  | 0x62 =>
    mbz opc (bitField f8 2 2 == 0 && bitField f8 5 3 == 0) (.mbSetnz (bitField f8 0 2) (bitAt f8 4) f16)
  | 0x63 => mbz opc (f8 == 0 && f16 == 0) .mbGet
  | 0x64 => mbz opc (bitField f8 1 7 == 0 && f16 == 0) (.mbNbmb (bitAt f8 0))
  | 0x65 => mbz opc (bitField f8 1 7 == 0 && f16 == 0) (.mbNbloc (bitAt f8 0))
  | 0x66 => mbz opc (bitField f8 3 5 == 0) (.mbNbblk (bitAt f8 0) (bitField f8 1 2) f16)
  | 0x70 => mbz opc (f8 == 0 && f16 == 0) .sgIdwr
  | 0x71 => mbz opc (f8 == 0 && f16 == 0) .sgGen
  | 0x72 => mbz opc (f8 == 0 && f16 == 0) .sgMbgrp
  | 0x73 => mbz opc (f8 == 0 && f16 == 0) .sgNext
  | _ => .error (.unknownOpcode opc)

/-- Step 2 of the command cycle (40_control.md R144): the command a word encodes, or why it is none. -/
def decode (w : Word) : Except Reject Instr := decodeFields (wordOpc w) (wordF8 w) (wordF16 w)

/-- The OPC of each command (30_encoding.md R101); also what FAILOP records (60_exceptions.md R400). -/
def Instr.opcode : Instr → Nat
  | .nop => 0x00
  | .reset => 0x01
  | .csrRd _ => 0x02
  | .csrWr _ => 0x03
  | .bcInit _ _ _ => 0x10
  | .bcRdu _ => 0x11
  | .bcRds _ => 0x12
  | .bcWru _ => 0x13
  | .bcWrs _ => 0x14
  | .bcAligned => 0x15
  | .bcMore => 0x16
  | .bcRdbytes => 0x17
  | .bcWrbytes => 0x18
  | .egRdue => 0x20
  | .egWrue => 0x21
  | .egRdse => 0x22
  | .egWrse => 0x23
  | .egRdte => 0x24
  | .egWrte => 0x25
  | .cvNc _ _ => 0x30
  | .cvRdtoken => 0x31
  | .cvWrtoken => 0x32
  | .cvRdlevel => 0x33
  | .cvWrlevel => 0x34
  | .cvRdtz => 0x35
  | .cvWrtz => 0x36
  | .cvRdrun => 0x37
  | .cvWrrun => 0x38
  | .cvRdres _ _ _ _ => 0x39
  | .cvWrres _ _ _ _ => 0x3A
  | .cvRdcbp _ => 0x3B
  | .cvWrcbp _ => 0x3C
  | .cbCtxinit _ => 0x40
  | .cbCtxset _ => 0x41
  | .cbCtxget _ => 0x42
  | .cbEinit => 0x43
  | .cbEdec _ => 0x44
  | .cbEbyp => 0x45
  | .cbEterm => 0x46
  | .cbDinit => 0x48
  | .cbDdec _ => 0x49
  | .cbDbyp => 0x4A
  | .cbDterm => 0x4B
  | .cbDbin _ _ => 0x4C
  | .bnU => 0x50
  | .bnTu => 0x51
  | .bnFl => 0x52
  | .bnUegk _ _ => 0x53
  | .bnEnc _ => 0x54
  | .mbSlice => 0x60
  | .mbBegin => 0x61
  | .mbSetnz _ _ _ => 0x62
  | .mbGet => 0x63
  | .mbNbmb _ => 0x64
  | .mbNbloc _ => 0x65
  | .mbNbblk _ _ _ => 0x66
  | .sgIdwr => 0x70
  | .sgGen => 0x71
  | .sgMbgrp => 0x72
  | .sgNext => 0x73

/-- The F8 field each command is encoded with (30_encoding.md R101). -/
def Instr.f8 : Instr → Nat
  | .bcInit mode ep grow => mode + 4 * ep.toNat + 8 * grow.toNat
  | .bcRdu n | .bcRds n | .bcWru n | .bcWrs n => n
  | .cvNc blkKind _ => blkKind
  | .cvRdres blkKind store ncx _ | .cvWrres blkKind store ncx _ => blkKind + 64 * store.toNat + 128 * ncx.toNat
  | .cvRdcbp intra | .cvWrcbp intra => intra.toNat
  | .cbCtxinit tableSel => tableSel
  | .cbDbin f8 _ => f8
  | .bnUegk k signed => k + 16 * signed.toNat
  | .mbSetnz comp size8 _ => comp + 16 * size8.toNat
  | .mbNbmb dir => dir.toNat
  | .mbNbloc chroma => chroma.toNat
  | .mbNbblk dir kind _ => dir.toNat + 2 * kind
  | _ => 0

/-- The F16 field each command is encoded with (30_encoding.md R101). -/
def Instr.f16 : Instr → Nat
  | .csrRd csr | .csrWr csr => csr
  | .cvNc _ blkIdx => blkIdx
  | .cvRdres _ _ _ blkIdx | .cvWrres _ _ _ blkIdx => blkIdx
  | .cbCtxset ctxIdx | .cbCtxget ctxIdx | .cbEdec ctxIdx | .cbDdec ctxIdx | .bnEnc ctxIdx => ctxIdx
  | .cbDbin _ f16 => f16
  | .mbSetnz _ _ blkIdx => blkIdx
  | .mbNbblk _ _ blkIdx => blkIdx
  | _ => 0

/-- The word with these fields (30_encoding.md R100). -/
def wordOf (opc f8 f16 : Nat) : Word := BitVec.ofNat 32 (opc * 2 ^ 24 + f8 * 2 ^ 16 + f16)

/-- The command word of a well-formed command (30_encoding.md R100, R101). -/
def encode (i : Instr) : Word := wordOf i.opcode i.f8 i.f16

/-- The command the decoder reads from a table row's bits: a row is one 32-bit word, numbered as R100 numbers it,
and bits above `nbits` are 0. -/
def decodeTableWord (nbits w : Nat) : Option Instr :=
  match decode (BitVec.ofNat 32 (w % 2 ^ nbits)) with
  | .ok i => some i
  | .error _ => none

end Sys2Proof
end

