-- ==== Sys2Proof/Machine/Operands.lean ====
section
/-!
DEFINITION. Operand forms (30_encoding.md R102, R104): registers read unsigned or signed, values written back to
32 bits, the flags words, and the derived geometry values (10_state.md R43) that commands take as operands.
-/

namespace Sys2Proof.Machine

/-- `sext_32(v)`: a register taken as a signed integer (00_scope.md R8, 30_encoding.md R104). -/
def sext32 (w : Word) : Int := w.toInt

/-- `v mod 2^32`, two's complement (30_encoding.md R104). -/
def intWord (v : Int) : Word := BitVec.ofInt 32 v

/-- A natural number written to a 32-bit register. -/
def natWord (n : Nat) : Word := BitVec.ofNat 32 n

/-- A Boolean result is 0 or 1 (30_encoding.md R104). -/
def boolWord (b : Bool) : Word := if b then 1 else 0

/-- `v[hi:lo]` of a register, with `width = hi - lo + 1` (00_scope.md R8). -/
def wordField (w : Word) (lo width : Nat) : Nat := bitField w.toNat lo width

/-- `v[i]` of a register (00_scope.md R8). -/
def wordBit (w : Word) (i : Nat) : Bool := bitAt w.toNat i

/-- `Clip3(lo, hi, v)` (00_scope.md R9). -/
def clip3 (lo hi v : Int) : Int := min hi (max lo v)

/-- The least e in 0..`fuel` with 2^e >= x, counted up from `e` (00_scope.md R9). -/
def ceilLog2From : Nat → Nat → Nat → Nat
  | 0, e, _ => e
  | fuel + 1, e, x => if 2 ^ e ≥ x then e else ceilLog2From fuel (e + 1) x

/-- `Ceil(Log2(x))` for x up to 2^32 (00_scope.md R9). -/
def ceilLog2 (x : Nat) : Nat := ceilLog2From 33 0 x

/-- `Floor(Log2(x))` for x >= 1 (00_scope.md R9). -/
def floorLog2 (x : Nat) : Nat := Nat.log2 x

/-- CHROMA_ARRAY_TYPE as a number, CAT in the rules. -/
def Geometry.cat (g : Geometry) : Nat := g.chromaArrayType.toNat

/-- W = PicWidthInMbs (10_state.md R43). -/
def Geometry.width (g : Geometry) : Nat := g.picWidthMbs.toNat

/-- H = PicHeightInMapUnits (10_state.md R43). -/
def Geometry.heightMapUnits (g : Geometry) : Nat := g.picHeightMapUnits.toNat

/-- MbaffFrameFlag (10_state.md R43). -/
def Geometry.mbaffFrame (g : Geometry) : Bool := g.mbaffEnable && !g.fieldPic

/-- FrameHeightInMbs (10_state.md R43). -/
def Geometry.frameHeightInMbs (g : Geometry) : Nat := (2 - g.frameMbsOnly.toNat) * g.heightMapUnits

/-- PicHeightInMbs (10_state.md R43). -/
def Geometry.picHeightInMbs (g : Geometry) : Nat := g.frameHeightInMbs / (1 + g.fieldPic.toNat)

/-- PicSizeInMbs, exact (10_state.md R43; no intermediate value wraps, 40_control.md R145). -/
def Geometry.picSizeInMbs (g : Geometry) : Nat := g.width * g.picHeightInMbs

/-- N = PicSizeInMapUnits (10_state.md R43). -/
def Geometry.picSizeInMapUnits (g : Geometry) : Nat := g.width * g.heightMapUnits

/-- MbWidthC (10_state.md R43). -/
def Geometry.mbWidthC (g : Geometry) : Nat :=
  match g.cat with
  | 0 => 0
  | 1 => 8
  | 2 => 8
  | _ => 16

/-- MbHeightC (10_state.md R43). -/
def Geometry.mbHeightC (g : Geometry) : Nat :=
  match g.cat with
  | 0 => 0
  | 1 => 8
  | _ => 16

/-- GEOM_VALID (10_state.md R43). -/
def Geometry.valid (g : Geometry) : Bool :=
  decide (1 ≤ g.width) && decide (1 ≤ g.heightMapUnits) && !(g.frameMbsOnly && (g.fieldPic || g.mbaffEnable))

/-- SliceGroupChangeRate = (SG_CHANGE_RATE_MINUS1 + 1) mod 2^32 (10_state.md R40). -/
def SliceGroups.changeRate (sg : SliceGroups) : Nat := (sg.changeRateMinus1.toNat + 1) % 2 ^ 32

/-- MapUnitsInSliceGroup0 for N map units, the product taken without wrap (47_slice_group_map.md R371). -/
def SliceGroups.mapUnitsInGroup0 (sg : SliceGroups) (n : Nat) : Nat :=
  min (sg.changeCycle.toNat * sg.changeRate) n

end Sys2Proof.Machine
end

