-- ==== Sys2Proof/Machine/Ops.lean ====
section
/-!
DEFINITION. The operations every command shares: reading and writing the memories and tables, failing (the block's
one exception, 60_exceptions.md R400, R401) and leaving the faulted state (RESET, R405), and the command cycle
(40_control.md R144).
-/

namespace Sys2Proof.Machine

/-- `require c else E` (00_scope.md R12). -/
def require (c : Prop) [Decidable c] (e : Code) : Except Code Unit := if c then .ok () else .error e

/-- The byte of a memory at `a`, where an unlisted one reads `free` (10_state.md R37). -/
def Memory.read (m : Memory) (free : Byte) (a : Nat) : Byte := (Table.find m a).getD free

/-- What BUF reads at an address nothing has written: a free value of the present epoch (10_state.md R37). -/
def State.bufFree (s : State) (a : Nat) : Byte := (Config.draw s.epoch (.buf a)).setWidth 8

/-- What RAWBUF reads at an address nothing has written: a free value of the present epoch (10_state.md R37). -/
def State.rawFree (s : State) (a : Nat) : Byte := (Config.draw s.epoch (.raw a)).setWidth 8

/-- `MemRead(BUF, a, 1)` (00_scope.md R10, 10_state.md R37). -/
def State.bufByte (s : State) (a : Nat) : Byte := Memory.read s.buf (s.bufFree a) a

/-- `MemRead(RAWBUF, a, 1)` (00_scope.md R10, 10_state.md R37). -/
def State.rawByte (s : State) (a : Nat) : Byte := Memory.read s.raw (s.rawFree a) a

/-- `MemWrite(m, a, 1, b)` (00_scope.md R10), keeping the canonical form. -/
def Memory.write (m : Memory) (a : Nat) (b : Byte) : Memory := Table.put m a b

/-- `slice_group_id[i]` (10_state.md R45); an unlisted index reads 0. -/
def SliceGroups.groupId (sg : SliceGroups) (i : Nat) : BitVec 3 := (Table.find sg.sgid i).getD 0

/-- SGID[i] <- v, keeping the canonical form: a 0 is not listed. -/
def SliceGroups.setGroupId (sg : SliceGroups) (i : Nat) (v : BitVec 3) : SliceGroups :=
  { sg with sgid := if v = 0 then Table.drop sg.sgid i else Table.put sg.sgid i v }

/-- mapUnitToSliceGroupMap[i]; unspecified where no SG_GEN has written it (10_state.md R45). -/
def State.mapUnit (s : State) (i : Nat) : BitVec 3 :=
  (s.sg.mapUnits[i]?).getD ((Config.draw s.epoch (.mapUnit i)).setWidth 3)

/-- MbToSliceGroupMap[i]; unspecified where no SG_GEN has written it (10_state.md R45). -/
def State.mbGroup (s : State) (i : Nat) : BitVec 3 :=
  (s.sg.mbGroups[i]?).getD ((Config.draw s.epoch (.mbGroup i)).setWidth 3)

/-- A list written over the first entries of another; the entries past it keep their values. -/
def overlay {α : Type} (new old : List α) : List α := new ++ old.drop new.length

/-- COEF[i] (10_state.md R33). -/
def State.coefAt (s : State) (i : Nat) : Word := (s.coef[i]?).getD 0

/-- BINBUF[i] (10_state.md R34). -/
def State.binAt (s : State) (i : Nat) : Bool := (s.bins[i]?).getD false

/-- BINBUF[i], BINBUF[i+1], ... <- bs; the other bins keep their values (45_cabac_binarization.md R310). -/
def writeBins (bins : Vector Bool 128) (i : Nat) : List Bool → Vector Bool 128
  | [] => bins
  | b :: bs => writeBins (bins.setIfInBounds i b) (i + 1) bs

/-- An MB entry whose fields the spec leaves unspecified (10_state.md R44, R430): what MB[a] holds when VALID is 0. -/
def drawnMbEntry (k a : Nat) : MbEntry where
  skip := (Config.draw k (.mbFlag a 0)).getLsbD 0
  ipcm := (Config.draw k (.mbFlag a 1)).getLsbD 0
  intra := (Config.draw k (.mbFlag a 2)).getLsbD 0
  field := (Config.draw k (.mbFlag a 3)).getLsbD 0
  mbType := (Config.draw k (.mbType a)).setWidth 8
  nz := Vector.ofFn fun i => BitVec.ofNat 5 ((Config.draw k (.mbNz a i.val)).toNat % 17)
  nz8 := Vector.ofFn fun i => BitVec.ofNat 7 ((Config.draw k (.mbNz8 a i.val)).toNat % 65)

/-- MB[a] (00_scope.md R10); its fields are unspecified when VALID is 0. -/
def State.mbEntry (s : State) (a : Nat) : MbEntry := (Table.find s.mb a).getD (drawnMbEntry s.epoch a)

/-- MB[a].VALID (10_state.md R44). -/
def State.mbValid (s : State) (a : Nat) : Bool := (Table.find s.mb a).isSome

/-- MB[a].NZ[c][k] (10_state.md R44). -/
def MbEntry.nzAt (e : MbEntry) (c k : Nat) : Nat := ((e.nz[16 * c + k]?).getD 0).toNat

/-- MB[a].NZ8[c][j] (10_state.md R44). -/
def MbEntry.nz8At (e : MbEntry) (c j : Nat) : Nat := ((e.nz8[4 * c + j]?).getD 0).toNat

/-- MB[a].NZ[c][k] <- n (46_mb_addressing.md R333, 43_cavlc.md R245). The fields of an entry whose VALID is 0 are
unspecified, and stay so (10_state.md R44). -/
def State.storeNz (s : State) (a c k n : Nat) : State :=
  match Table.find s.mb a with
  | none => s
  | some e =>
    { s with mb := Table.put s.mb a { e with nz := e.nz.setIfInBounds (16 * c + k) (BitVec.ofNat 5 n) } }

/-- MB[a].NZ8[c][j] <- n (46_mb_addressing.md R333), an entry whose VALID is 0 as for `State.storeNz`. -/
def State.storeNz8 (s : State) (a c j n : Nat) : State :=
  match Table.find s.mb a with
  | none => s
  | some e =>
    { s with mb := Table.put s.mb a { e with nz8 := e.nz8.setIfInBounds (4 * c + j) (BitVec.ofNat 7 n) } }

/-- Clearing the MB info table: every VALID and CURR_VALID 0, CurrMbAddr unchanged (10_state.md R44). -/
def State.clearMbTable (s : State) : State := { s with mb := [], currValid := false }

/-- SG_MAP_VALID <- 0 (10_state.md R45). -/
def State.clearMapValid (s : State) : State := { s with sg := { s.sg with mapValid := false } }

/-- A cursor mode drawn freely. -/
def drawnMode (k : Nat) : CursorMode :=
  match (Config.draw k .mode).toNat % 3 with
  | 0 => .idle
  | 1 => .dec
  | _ => .enc

/-- A cursor drawn freely, its fields within the widths of 10_state.md R35. -/
def drawnCursor (k : Nat) : Cursor where
  mode := drawnMode k
  ep := (Config.draw k .ep).getLsbD 0
  grow := (Config.draw k .grow).getLsbD 0
  len := Config.draw k .len
  cap := Config.draw k .cap
  off := Config.draw k .off
  cache := (Config.draw k .cache).setWidth 8
  cnt := (Config.draw k .cnt).toNat % 9
  zeros := (Config.draw k .zeros).toNat % 3
  bits := Config.draw k .bits

/-- An encoding engine drawn freely (10_state.md R39). -/
def drawnEncoder (k : Nat) : Encoder where
  low := (Config.draw k .eLow).setWidth 10
  range := (Config.draw k .eRange).setWidth 9
  outstanding := Config.draw k .eOutstanding
  first := (Config.draw k .eFirst).getLsbD 0
  active := (Config.draw k .eActive).getLsbD 0

/-- A decoding engine drawn freely (10_state.md R39). -/
def drawnDecoder (k : Nat) : Decoder where
  range := (Config.draw k .dRange).setWidth 9
  offset := (Config.draw k .dOffset).setWidth 9
  active := (Config.draw k .dActive).getLsbD 0

/-- The geometry CSRs drawn freely within their field widths (10_state.md R40). -/
def drawnGeometry (k : Nat) : Geometry where
  picWidthMbs := (Config.draw k (.csr 0x020)).setWidth 16
  picHeightMapUnits := (Config.draw k (.csr 0x021)).setWidth 16
  frameMbsOnly := (Config.draw k (.csr 0x022)).getLsbD 0
  mbaffEnable := (Config.draw k (.csr 0x023)).getLsbD 0
  fieldPic := (Config.draw k (.csr 0x024)).getLsbD 0
  chromaArrayType := (Config.draw k (.csr 0x025)).setWidth 2
  cipDp := (Config.draw k (.csr 0x026)).getLsbD 0

/-- A context table drawn freely, each VALID bit too (10_state.md R38). -/
def drawnCtx (k : Nat) : Table Ctx :=
  Table.build (fun c =>
    if (Config.draw k (.ctxValid c)).getLsbD 0 then
      some ⟨(Config.draw k (.ctxState c)).setWidth 6, (Config.draw k (.ctxMps c)).getLsbD 0⟩
    else none) Config.numCtx 0

/-- An MB info table of `n` entries drawn freely, each VALID bit too (10_state.md R44). -/
def drawnMb (k n : Nat) : Table MbEntry :=
  Table.build (fun a => if (Config.draw k (.mbValid a)).getLsbD 0 then some (drawnMbEntry k a) else none) n 0

/-- SGID[0..n-1] drawn freely (10_state.md R45). -/
def drawnSgid (k n : Nat) : Table (BitVec 3) :=
  Table.build (fun i =>
    let v := (Config.draw k (.sgid i)).setWidth 3
    if v = 0 then none else some v) n 0

/-- The slice-group state of a block with `n` map units drawn freely (10_state.md R40, R45). -/
def drawnSliceGroups (k n : Nat) : SliceGroups where
  numMinus1 := (Config.draw k (.csr 0x040)).setWidth 3
  mapType := ⟨(Config.draw k (.csr 0x041)).toNat % 7, Nat.mod_lt _ (by decide)⟩
  changeDir := (Config.draw k (.csr 0x042)).getLsbD 0
  changeRateMinus1 := Config.draw k (.csr 0x043)
  changeCycle := Config.draw k (.csr 0x044)
  runLengthMinus1 := Vector.ofFn fun i => Config.draw k (.csr (0x050 + i.val))
  topLeft := Vector.ofFn fun i => Config.draw k (.csr (0x058 + i.val))
  bottomRight := Vector.ofFn fun i => Config.draw k (.csr (0x060 + i.val))
  sgid := drawnSgid k n
  mapUnits := []
  mbGroups := []
  mapValid := (Config.draw k .mapValid).getLsbD 0

/-- The state a failing command leaves (60_exceptions.md R401): Y0..Y3, COEF, BINBUF, BINLEN, BUF, RAWBUF, the cursor,
the engines, the contexts, the MB info table, SGID, both maps and every CSR other than STATUS hold free values of
the next epoch. A0..A3 keep their values (10_state.md R31). -/
def State.drawUnspecified (s : State) : State :=
  let k := s.epoch + 1
  { s with
    epoch := k
    y0 := Config.draw k (.y 0)
    y1 := Config.draw k (.y 1)
    y2 := Config.draw k (.y 2)
    y3 := Config.draw k (.y 3)
    coef := Vector.ofFn fun i => Config.draw k (.coef i.val)
    bins := Vector.ofFn fun i => (Config.draw k (.bin i.val)).getLsbD 0
    binLen := (Config.draw k .binLen).toNat % 129
    cur := drawnCursor k
    buf := []
    raw := []
    ctx := drawnCtx k
    enc := drawnEncoder k
    dec := drawnDecoder k
    geom := drawnGeometry k
    mb := drawnMb k s.params.maxMbs
    currMbAddr := Config.draw k .currMbAddr
    currValid := (Config.draw k .currValid).getLsbD 0
    sg := drawnSliceGroups k s.params.maxMapUnits }

/-- Taking the exception: the command with opcode `opc` fails with `e` (60_exceptions.md R400, R401). STATUS records
the failure and the rest of the state is unspecified until RESET. -/
def State.failWith (e : Code) (opc : Nat) (s : State) : State :=
  { s.drawUnspecified with status := s.status.failWith e opc }

/-- The way out of FAULT = 1 (60_exceptions.md R405, 40_control.md R141): every piece of state takes its value of
70_reset_and_hazards.md R430; what R430 leaves unspecified is drawn afresh. -/
def State.recover (s : State) : State := State.resetWith s.params (s.epoch + 1) s.port

/-- `done` and EFAULTED: only CODE changes (60_exceptions.md R400). -/
def State.complete (c : Code) (s : State) : State := { s with status := s.status.complete c }

/-- Steps 3 and 4 of the command cycle (40_control.md R144): run the command's rule, then write STATUS. -/
def runRule (opc : Nat) (rule : State → Except Code State) (s : State) : Host.Outcome State Fault Refusal :=
  match rule s with
  | .ok t => .next (t.complete .ok)
  | .error e => .next (s.failWith e opc)

/-- The command cycle of every command but NOP, RESET and CSR_RD: EFAULTED while FAULT = 1, changing nothing but
CODE (40_control.md R144 step 1), else the command's rule. -/
def runCommand (opc : Nat) (rule : State → Except Code State) (s : State) : Host.Outcome State Fault Refusal :=
  if s.status.fault then .next (s.complete .efaulted) else runRule opc rule s

/-- A word that is no command (30_encoding.md R103, R105): EFAULTED first while FAULT = 1, unless the opcode is that
of NOP, RESET or CSR_RD (40_control.md R144 step 1), else EILLEGAL. -/
def rejectWord (opc : Nat) (s : State) : Host.Outcome State Fault Refusal :=
  if s.status.fault ∧ 3 ≤ opc then .next (s.complete .efaulted) else .next (s.failWith .eillegal opc)

end Sys2Proof.Machine
end

