-- ==== Sys2Proof/Machine/BitPrims.lean ====
section
/-!
DEFINITION. The bit cursor's primitives (41_bitcursor.md R161 to R163) and the fields built from them: ReadBits,
WriteBits (00_scope.md R11), the zero-run prefixes of the Exp-Golomb and level codes, and prefix-free code tables.
A read is given BUF as a function of the byte index; a write works on the cursor and BUF together.
-/

namespace Sys2Proof.Machine

/-- Z after the byte `b` has been fetched or emitted (41_bitcursor.md R162, R163). -/
def nextZeros (ep : Bool) (z : Nat) (b : Byte) : Nat :=
  if ep then (if b = 0 then min (z + 1) 2 else 0) else z

/-- The byte at OFF is an emulation-prevention byte (41_bitcursor.md R162). -/
def isEscape (rd : Nat → Byte) (c : Cursor) : Bool :=
  c.ep && decide (c.zeros = 2) && decide (rd c.off.toNat = 3)

/-- Discarding an emulation-prevention byte, if one is next. Z is 0 afterwards, so the loop of R162 discards at most
one byte before the byte it delivers. -/
def skipEscape (rd : Nat → Byte) (c : Cursor) : Cursor :=
  if c.off < c.len ∧ isEscape rd c then { c with off := c.off + 1, zeros := 0 } else c

/-- The loop of `GetBit()`, run when CNT = 0: the next RBSP byte into CACHE, or EIO (41_bitcursor.md R162). -/
def fetchByte (rd : Nat → Byte) (c : Cursor) : Except Code Cursor :=
  let d := skipEscape rd c
  if d.off < d.len then
    let b := rd d.off.toNat
    .ok { d with off := d.off + 1, zeros := nextZeros d.ep d.zeros b, cache := b, cnt := 8 }
  else .error .eio

/-- Delivering the next bit of CACHE (41_bitcursor.md R162). -/
def takeCacheBit (c : Cursor) : Bool × Cursor :=
  (c.cache.getLsbD (c.cnt - 1), { c with cnt := c.cnt - 1, bits := c.bits + 1 })

/-- `GetBit()` (41_bitcursor.md R162). -/
def getBit (rd : Nat → Byte) (c : Cursor) : Except Code (Bool × Cursor) :=
  if c.cnt = 0 then
    match fetchByte rd c with
    | .ok d => .ok (takeCacheBit d)
    | .error e => .error e
  else .ok (takeCacheBit c)

/-- `n` more bits appended to the value `acc`, most significant first. -/
def readBitsFrom (rd : Nat → Byte) : Nat → Nat → Cursor → Except Code (Nat × Cursor)
  | 0, acc, c => .ok (acc, c)
  | n + 1, acc, c => do
    let (b, d) ← getBit rd c
    readBitsFrom rd n (2 * acc + b.toNat) d

/-- `ReadBits(n)` (00_scope.md R11). -/
def readBits (rd : Nat → Byte) (n : Nat) (c : Cursor) : Except Code (Nat × Cursor) := readBitsFrom rd n 0 c

/-- `p = 0; while GetBit() = 0: p = p + 1; require p <= limit else EPROTO`, with `room` more zeros allowed after
the `p` seen (42_expgolomb.md R200, 43_cavlc.md R235). -/
def readZeroRun (rd : Nat → Byte) : Nat → Nat → Cursor → Except Code (Nat × Cursor)
  | 0, p, c => do
    let (b, d) ← getBit rd c
    if b then .ok (p, d) else .error .eproto
  | room + 1, p, c => do
    let (b, d) ← getBit rd c
    if b then .ok (p, d) else readZeroRun rd room (p + 1) d

/-- The bits of a byte, bit 7 first (20_memory.md R80). -/
def byteBits (b : Byte) : List Bool :=
  [b.getLsbD 7, b.getLsbD 6, b.getLsbD 5, b.getLsbD 4, b.getLsbD 3, b.getLsbD 2, b.getLsbD 1, b.getLsbD 0]

/-- The `n` low bits of CACHE not yet delivered, the next one first (10_state.md R36). -/
def cacheBits (cache : Byte) : Nat → List Bool
  | 0 => []
  | n + 1 => cache.getLsbD n :: cacheBits cache n

/-- The bits of the `n` bytes of BUF from index `o`, escapes removed, when Z is `z` (41_bitcursor.md R161). -/
def remBytes (rd : Nat → Byte) (ep : Bool) : Nat → Nat → Nat → List Bool
  | 0, _, _ => []
  | n + 1, o, z =>
    if ep && decide (z = 2) && decide (rd o = 3) then remBytes rd ep n (o + 1) 0
    else byteBits (rd o) ++ remBytes rd ep n (o + 1) (nextZeros ep z (rd o))

/-- `RemBits()` (41_bitcursor.md R161). -/
def remBits (rd : Nat → Byte) (c : Cursor) : List Bool :=
  cacheBits c.cache c.cnt ++ remBytes rd c.ep (c.len.toNat - c.off.toNat) c.off.toNat c.zeros

/-- The cursor together with BUF, which writing changes together (41_bitcursor.md R163). -/
structure Stream where
  cur : Cursor
  buf : Memory
deriving DecidableEq, Repr

/-- The stream part of a state. -/
def State.stream (s : State) : Stream := ⟨s.cur, s.buf⟩

/-- A state with its stream part replaced. -/
def State.setStream (s : State) (t : Stream) : State := { s with cur := t.cur, buf := t.buf }

/-- The capacity a growable buffer grows to for `k` more bytes (41_bitcursor.md R163). -/
def grownCap (p : Params) (c : Cursor) (k : Nat) : Nat :=
  c.cap.toNat + p.growBlock * ((c.len.toNat + k - c.cap.toNat + p.growBlock - 1) / p.growBlock)

/-- `Ensure(k)` (41_bitcursor.md R163). It moves CAP and leaves BUF alone. DESIGN CHOICE (notes/assumptions/19.md): what
a growable buffer holds between BC_LEN and its capacity, and what BUF holds beyond BC_LEN at the end of a run, is open
(93_implementation_defined.md I23 and I6, 70_reset_and_hazards.md R432); the model keeps the bytes BUF held there. -/
def ensureSpace (p : Params) (k : Nat) (c : Cursor) : Except Code Cursor :=
  if c.cap.toNat < c.len.toNat + k then
    if c.grow then
      if grownCap p c k ≤ p.maxBufBytes.toNat then .ok { c with cap := natWord (grownCap p c k) }
      else .error .enomem
    else .error .eio
  else .ok c

/-- `BUF[LEN] <- v; LEN <- LEN + 1; OFF <- LEN` (41_bitcursor.md R163; OFF equals LEN in ENC mode, 10_state.md R35). -/
def storeByte (v : Byte) (t : Stream) : Stream where
  cur := { t.cur with len := t.cur.len + 1, off := t.cur.len + 1 }
  buf := Memory.write t.buf t.cur.len.toNat v

/-- `EmitByte(v)` needs an escape byte before `v` (41_bitcursor.md R163). -/
def needsEscape (c : Cursor) (v : Byte) : Bool := c.ep && decide (c.zeros = 2) && decide (v ≤ 3)

/-- `EmitByte(v)` (41_bitcursor.md R163). -/
def emitByte (p : Params) (v : Byte) (t : Stream) : Except Code Stream := do
  let esc := needsEscape t.cur v
  let c ← ensureSpace p (if esc then 2 else 1) t.cur
  let t1 : Stream := ⟨c, t.buf⟩
  let t2 : Stream := if esc then storeByte 3 { t1 with cur := { t1.cur with zeros := 0 } } else t1
  let t3 := storeByte v t2
  .ok { t3 with cur := { t3.cur with zeros := nextZeros t3.cur.ep t3.cur.zeros v } }

/-- Shifting a bit into CACHE, the first step of `PutBit1(b)` (41_bitcursor.md R163). -/
def shiftIn (b : Bool) (c : Cursor) : Cursor :=
  { c with cache := BitVec.ofNat 8 (2 * c.cache.toNat + b.toNat), cnt := c.cnt + 1, bits := c.bits + 1 }

/-- `PutBit1(b)` (41_bitcursor.md R163). -/
def putBit1 (p : Params) (b : Bool) (t : Stream) : Except Code Stream :=
  let c := shiftIn b t.cur
  if c.cnt = 8 then
    match emitByte p c.cache { t with cur := c } with
    | .ok u => .ok { u with cur := { u.cur with cache := 0, cnt := 0 } }
    | .error e => .error e
  else .ok { t with cur := c }

/-- `PutBit1` of each bit in turn. -/
def putBits (p : Params) : List Bool → Stream → Except Code Stream
  | [], t => .ok t
  | b :: bs, t => do
    let u ← putBit1 p b t
    putBits p bs u

/-- The bits v[n-1], ..., v[0] (00_scope.md R11). -/
def fieldBits (v : Nat) : Nat → List Bool
  | 0 => []
  | n + 1 => v.testBit n :: fieldBits v n

/-- `WriteBits(v, n)` (00_scope.md R11). -/
def writeBits (p : Params) (v n : Nat) (t : Stream) : Except Code Stream := putBits p (fieldBits v n) t

/-- One codeword of a prefix-free table: its length, its value read most significant bit first, and its symbol. -/
structure Vlc (α : Type) where
  len : Nat
  code : Nat
  sym : α
deriving DecidableEq, Repr

/-- The symbol of the codeword with this length and value, if there is one. -/
def findCodeword {α : Type} (t : List (Vlc α)) (len code : Nat) : Option α :=
  (t.find? fun r => r.len == len && r.code == code).map (·.sym)

/-- Reading a codeword bit by bit until one matches, with `room` more bits allowed after the `len` bits of value
`code` seen; EPROTO when none matches (43_cavlc.md R233, R239, R242). -/
def readCodeword {α : Type} (rd : Nat → Byte) (t : List (Vlc α)) :
    Nat → Nat → Nat → Cursor → Except Code (α × Cursor)
  | 0, _, _, _ => .error .eproto
  | room + 1, len, code, c => do
    let (b, d) ← getBit rd c
    match findCodeword t (len + 1) (2 * code + b.toNat) with
    | some x => .ok (x, d)
    | none => readCodeword rd t room (len + 1) (2 * code + b.toNat) d

/-- Writing the codeword of `x`, first bit first. A symbol without a codeword, which no rule asks for, is EINVAL. -/
def writeCodeword {α : Type} [DecidableEq α] (p : Params) (t : List (Vlc α)) (x : α) (u : Stream) :
    Except Code Stream :=
  match t.find? fun r => decide (r.sym = x) with
  | some r => writeBits p r.code r.len u
  | none => .error .einval

end Sys2Proof.Machine
end

