-- ==== Sys2Proof/Machine/Cabac.lean ====
section
/-!
DEFINITION. The CABAC context memory and arithmetic engine commands (44_cabac_engine.md R270 to R287). Inside a
command the engine registers are natural numbers, which do not wrap; they are stored at its end.
-/

namespace Sys2Proof.Machine

/-- `CabacInitMN(t, c)` (44_cabac_engine.md R272), the OPEN table of 00_scope.md R7. -/
def cabacInitMN (p : Params) (t c : Nat) : Option (Int × Int) :=
  (p.cabacInit.find? fun r => r.tableSel == t && r.ctxIdx == c).map fun r => (r.m, r.n)

/-- The context with initialisation value `pre`, 1 to 126 (44_cabac_engine.md R272). -/
def ctxOfPre (pre : Nat) : Ctx :=
  if pre ≤ 63 then ⟨BitVec.ofNat 6 (63 - pre), false⟩ else ⟨BitVec.ofNat 6 (pre - 64), true⟩

/-- `InitCtx(t, c, SliceQPY)`; none stands for VALID 0 (44_cabac_engine.md R272). -/
def initCtx (p : Params) (t : Nat) (q : Int) (c : Nat) : Option Ctx :=
  if c = 276 then some ⟨63, false⟩
  else
    match cabacInitMN p t c with
    | none => none
    | some (m, n) => some (ctxOfPre (clip3 1 126 ((m * clip3 0 51 q) / 16 + n)).toNat)

/-- The context after a most probable symbol (44_cabac_engine.md R278, R284). -/
def Ctx.afterMps (x : Ctx) : Ctx := { x with pStateIdx := BitVec.ofNat 6 (transIdxMPS x.pStateIdx.toNat) }

/-- The context after a least probable symbol (44_cabac_engine.md R278, R284). -/
def Ctx.afterLps (x : Ctx) : Ctx where
  pStateIdx := BitVec.ofNat 6 (transIdxLPS x.pStateIdx.toNat)
  valMPS := if x.pStateIdx = 0 then !x.valMPS else x.valMPS

/-- The encoding engine, its stream and the contexts during a command. -/
structure EncRun where
  low : Nat
  range : Nat
  outstanding : Nat
  first : Bool
  stream : Stream
  ctx : Table Ctx
deriving DecidableEq, Repr

/-- The encoding engine of a state, at the start of a command. -/
def State.encRun (s : State) : EncRun where
  low := s.enc.low.toNat
  range := s.enc.range.toNat
  outstanding := s.enc.outstanding.toNat
  first := s.enc.first
  stream := s.stream
  ctx := s.ctx

/-- The registers a run leaves (10_state.md R39). -/
def EncRun.encoder (r : EncRun) (active : Bool) : Encoder where
  low := BitVec.ofNat 10 r.low
  range := BitVec.ofNat 9 r.range
  outstanding := natWord r.outstanding
  first := r.first
  active := active

/-- The state after a command that ran the encoding engine. -/
def State.setEncRun (s : State) (active : Bool) (r : EncRun) : State :=
  { s.setStream r.stream with enc := r.encoder active, ctx := r.ctx }

/-- `n` outstanding bits of value `b` (44_cabac_engine.md R276). -/
def putRepeated (p : Params) (b : Bool) : Nat → Stream → Except Code Stream
  | 0, t => .ok t
  | n + 1, t => do
    let u ← putBit1 p b t
    putRepeated p b n u

/-- The bit of `PutBit(b)` itself, withheld when it is the first (44_cabac_engine.md R276). -/
def putUnlessFirst (p : Params) (first b : Bool) (t : Stream) : Except Code Stream :=
  if first then .ok t else putBit1 p b t

/-- `PutBit(b)` (44_cabac_engine.md R276). -/
def EncRun.putBit (p : Params) (b : Bool) (r : EncRun) : Except Code EncRun := do
  let t ← putUnlessFirst p r.first b r.stream
  let u ← putRepeated p (!b) r.outstanding t
  return { r with first := false, outstanding := 0, stream := u }

/-- `IncOutstanding()` (44_cabac_engine.md R276). -/
def EncRun.incOutstanding (r : EncRun) : Except Code EncRun := do
  require (r.outstanding < 2 ^ 32 - 1) .eproto
  return { r with outstanding := r.outstanding + 1 }

/-- One turn of the loop of `RenormE()` before the shifts (44_cabac_engine.md R276). -/
def EncRun.settle (p : Params) (r : EncRun) : Except Code EncRun :=
  if r.low < 256 then r.putBit p false
  else if 512 ≤ r.low then EncRun.putBit p true { r with low := r.low - 512 }
  else EncRun.incOutstanding { r with low := r.low - 256 }

/-- `RenormE()` (44_cabac_engine.md R276). A codIRange of 1 or more needs at most 8 turns to reach 256. -/
def EncRun.renorm (p : Params) : Nat → EncRun → Except Code EncRun
  | 0, r => .ok r
  | fuel + 1, r =>
    if r.range < 256 then do
      let t ← r.settle p
      EncRun.renorm p fuel { t with range := 2 * t.range, low := 2 * t.low }
    else .ok r

/-- `EncodeDecision(c, binVal)` (44_cabac_engine.md R278). -/
def EncRun.decision (p : Params) (c : Nat) (bin : Bool) (r : EncRun) : Except Code EncRun :=
  match Table.find r.ctx c with
  | none => .error .estate
  | some x =>
    let lps := rangeTabLPS x.pStateIdx.toNat ((r.range / 64) % 4)
    let range := r.range - lps
    if bin ≠ x.valMPS then
      EncRun.renorm p 8 { r with low := r.low + range, range := lps, ctx := Table.put r.ctx c x.afterLps }
    else EncRun.renorm p 8 { r with range := range, ctx := Table.put r.ctx c x.afterMps }

/-- The body of CB_EBYP, EncodeBypassBin of BN_ENC (44_cabac_engine.md R280). -/
def EncRun.bypass (p : Params) (bin : Bool) (r : EncRun) : Except Code EncRun :=
  let low := 2 * r.low + (if bin then r.range else 0)
  if 1024 ≤ low then do
    let t ← EncRun.putBit p true { r with low := low }
    return { t with low := t.low - 1024 }
  else if low < 512 then EncRun.putBit p false { r with low := low }
  else EncRun.incOutstanding { r with low := low - 512 }

/-- `EncodeFlush()` (44_cabac_engine.md R282). -/
def EncRun.flush (p : Params) (r : EncRun) : Except Code EncRun := do
  let r1 ← EncRun.renorm p 8 { r with range := 2 }
  let r2 ← r1.putBit p (r1.low.testBit 9)
  let u ← writeBits p (2 * ((r2.low / 256) % 2) + 1) 2 r2.stream
  return { r2 with stream := u }

/-- The rule of CB_CTXINIT (44_cabac_engine.md R273). -/
def ruleCbCtxinit (t : Nat) (s : State) : Except Code State := do
  let q := sext32 s.a0
  require (t ≤ 3) .einval
  require (-48 ≤ q ∧ q ≤ 51) .einval
  return { s with ctx := Table.build (initCtx s.params t q) Config.numCtx 0 }

/-- The rule of CB_CTXSET (44_cabac_engine.md R274). -/
def ruleCbCtxset (c : Nat) (s : State) : Except Code State := do
  require (c ≤ 1023) .einval
  require (wordField s.a0 7 25 = 0) .einval
  return { s with ctx := Table.put s.ctx c ⟨BitVec.ofNat 6 (wordField s.a0 0 6), wordBit s.a0 6⟩ }

/-- The rule of CB_CTXGET, whose range check comes before ESTATE (44_cabac_engine.md R275). -/
def ruleCbCtxget (c : Nat) (s : State) : Except Code State := do
  require (c ≤ 1023) .einval
  match Table.find s.ctx c with
  | some x => return { s with y0 := natWord (64 * x.valMPS.toNat + x.pStateIdx.toNat) }
  | none => .error .estate

/-- The rule of CB_EINIT (44_cabac_engine.md R277). -/
def ruleCbEinit (s : State) : Except Code State := do
  require (s.cur.mode = .enc) .estate
  return { s with enc := ⟨0, 510, 0, true, true⟩ }

/-- The rule of CB_EDEC (44_cabac_engine.md R279). -/
def ruleCbEdec (c : Nat) (s : State) : Except Code State := do
  require (s.cur.mode = .enc ∧ s.enc.active) .estate
  require (c ≤ 1023 ∧ s.a0.toNat ≤ 1) .einval
  let r ← s.encRun.decision s.params c (decide (s.a0 = 1))
  return s.setEncRun true r

/-- The rule of CB_EBYP (44_cabac_engine.md R280). -/
def ruleCbEbyp (s : State) : Except Code State := do
  require (s.cur.mode = .enc ∧ s.enc.active) .estate
  require (s.a0.toNat ≤ 1) .einval
  let r ← s.encRun.bypass s.params (decide (s.a0 = 1))
  return s.setEncRun true r

/-- The rule of CB_ETERM (44_cabac_engine.md R281). -/
def ruleCbEterm (s : State) : Except Code State := do
  require (s.cur.mode = .enc ∧ s.enc.active) .estate
  require (s.a0.toNat ≤ 1) .einval
  let r0 := s.encRun
  let range := r0.range - 2
  if s.a0 = 1 then
    let r ← EncRun.flush s.params { r0 with range := range, low := r0.low + range }
    return s.setEncRun false r
  else
    let r ← EncRun.renorm s.params 8 { r0 with range := range }
    return s.setEncRun true r

/-- The decoding engine and its cursor during a command. -/
structure DecRun where
  range : Nat
  offset : Nat
  cur : Cursor
deriving DecidableEq, Repr

/-- The decoding engine of a state, at the start of a command. -/
def State.decRun (s : State) : DecRun := ⟨s.dec.range.toNat, s.dec.offset.toNat, s.cur⟩

/-- The state after a command that ran the decoding engine and decoded `bin`. -/
def State.setDecRun (s : State) (active bin : Bool) (r : DecRun) : State :=
  { s with
    cur := r.cur
    dec := ⟨BitVec.ofNat 9 r.range, BitVec.ofNat 9 r.offset, active⟩
    y0 := boolWord bin }

/-- `RenormD` (44_cabac_engine.md R284). A dRange of 1 or more needs at most 8 turns to reach 256. -/
def DecRun.renorm (rd : Nat → Byte) : Nat → DecRun → Except Code DecRun
  | 0, r => .ok r
  | fuel + 1, r =>
    if r.range < 256 then do
      let (b, c) ← getBit rd r.cur
      DecRun.renorm rd fuel ⟨2 * r.range, 2 * r.offset + b.toNat, c⟩
    else .ok r

/-- The rule of CB_DINIT (44_cabac_engine.md R283). -/
def ruleCbDinit (s : State) : Except Code State := do
  require (s.cur.mode = .dec) .estate
  let (v, c) ← readBits s.bufByte 9 s.cur
  require (v < 510) .eproto
  return { s with cur := c, dec := ⟨510, BitVec.ofNat 9 v, true⟩ }

/-- The rule of CB_DDEC (44_cabac_engine.md R284). -/
def ruleCbDdec (c : Nat) (s : State) : Except Code State := do
  require (s.cur.mode = .dec ∧ s.dec.active) .estate
  require (c ≤ 1023) .einval
  match Table.find s.ctx c with
  | none => .error .estate
  | some x =>
    let r0 := s.decRun
    let lps := rangeTabLPS x.pStateIdx.toNat ((r0.range / 64) % 4)
    let range := r0.range - lps
    if range ≤ r0.offset then
      let r ← DecRun.renorm s.bufByte 8 ⟨lps, r0.offset - range, r0.cur⟩
      return State.setDecRun { s with ctx := Table.put s.ctx c x.afterLps } true (!x.valMPS) r
    else
      let r ← DecRun.renorm s.bufByte 8 ⟨range, r0.offset, r0.cur⟩
      return State.setDecRun { s with ctx := Table.put s.ctx c x.afterMps } true x.valMPS r

/-- The rule of CB_DBYP (44_cabac_engine.md R285). -/
def ruleCbDbyp (s : State) : Except Code State := do
  require (s.cur.mode = .dec ∧ s.dec.active) .estate
  let r0 := s.decRun
  let (b, c) ← getBit s.bufByte r0.cur
  let offset := 2 * r0.offset + b.toNat
  if r0.range ≤ offset then return s.setDecRun true true ⟨r0.range, offset - r0.range, c⟩
  else return s.setDecRun true false ⟨r0.range, offset, c⟩

/-- The rule of CB_DTERM (44_cabac_engine.md R286). -/
def ruleCbDterm (s : State) : Except Code State := do
  require (s.cur.mode = .dec ∧ s.dec.active) .estate
  let r0 := s.decRun
  let range := r0.range - 2
  if range ≤ r0.offset then return s.setDecRun false true ⟨range, r0.offset, r0.cur⟩
  else
    let r ← DecRun.renorm s.bufByte 8 ⟨range, r0.offset, r0.cur⟩
    return s.setDecRun true false r

/-- CB_CTXINIT (44_cabac_engine.md R273). -/
def execCbCtxinit (t : Nat) (s : State) : Host.Outcome State Fault Refusal :=
  runCommand (Instr.cbCtxinit t).opcode (ruleCbCtxinit t) s

/-- CB_CTXSET (44_cabac_engine.md R274). -/
def execCbCtxset (c : Nat) (s : State) : Host.Outcome State Fault Refusal :=
  runCommand (Instr.cbCtxset c).opcode (ruleCbCtxset c) s

/-- CB_CTXGET (44_cabac_engine.md R275). -/
def execCbCtxget (c : Nat) (s : State) : Host.Outcome State Fault Refusal :=
  runCommand (Instr.cbCtxget c).opcode (ruleCbCtxget c) s

/-- CB_EINIT (44_cabac_engine.md R277). -/
def execCbEinit (s : State) : Host.Outcome State Fault Refusal := runCommand Instr.cbEinit.opcode ruleCbEinit s

/-- CB_EDEC (44_cabac_engine.md R279). -/
def execCbEdec (c : Nat) (s : State) : Host.Outcome State Fault Refusal :=
  runCommand (Instr.cbEdec c).opcode (ruleCbEdec c) s

/-- CB_EBYP (44_cabac_engine.md R280). -/
def execCbEbyp (s : State) : Host.Outcome State Fault Refusal := runCommand Instr.cbEbyp.opcode ruleCbEbyp s

/-- CB_ETERM (44_cabac_engine.md R281). -/
def execCbEterm (s : State) : Host.Outcome State Fault Refusal := runCommand Instr.cbEterm.opcode ruleCbEterm s

/-- CB_DINIT (44_cabac_engine.md R283). -/
def execCbDinit (s : State) : Host.Outcome State Fault Refusal := runCommand Instr.cbDinit.opcode ruleCbDinit s

/-- CB_DDEC (44_cabac_engine.md R284). -/
def execCbDdec (c : Nat) (s : State) : Host.Outcome State Fault Refusal :=
  runCommand (Instr.cbDdec c).opcode (ruleCbDdec c) s

/-- CB_DBYP (44_cabac_engine.md R285). -/
def execCbDbyp (s : State) : Host.Outcome State Fault Refusal := runCommand Instr.cbDbyp.opcode ruleCbDbyp s

/-- CB_DTERM (44_cabac_engine.md R286). -/
def execCbDterm (s : State) : Host.Outcome State Fault Refusal := runCommand Instr.cbDterm.opcode ruleCbDterm s

/-- CB_DBIN, which fails with EUNSUPP whatever its operands (44_cabac_engine.md R287). -/
def execCbDbin (f8 f16 : Nat) (s : State) : Host.Outcome State Fault Refusal :=
  runCommand (Instr.cbDbin f8 f16).opcode (fun _ => .error .eunsupp) s

end Sys2Proof.Machine
end

