-- ==== Sys2Proof/Machine/Binarization.lean ====
section
/-!
DEFINITION. The CABAC binarization commands (45_cabac_binarization.md R310 to R315).
-/

namespace Sys2Proof.Machine

/-- The unary string of v (45_cabac_binarization.md R311). -/
def unaryBins (v : Nat) : List Bool := List.replicate v true ++ [false]

/-- The truncated unary string of v (45_cabac_binarization.md R312). -/
def truncatedUnaryBins (v cMax : Nat) : List Bool := if v < cMax then unaryBins v else List.replicate v true

/-- The fixed-length string of v, its least significant bit first (45_cabac_binarization.md R313). -/
def fixedLengthBins (v cMax : Nat) : List Bool := (List.range (ceilLog2 (cMax + 1))).map fun i => v.testBit i

/-- The suffix of UEGk for sufS, by the loop of 45_cabac_binarization.md R314. Each turn takes 2^k from sufS, so a
32-bit sufS ends it within 33 turns. -/
def expGolombSuffix : Nat → Nat → Nat → List Bool
  | 0, _, _ => []
  | fuel + 1, k, suf =>
    if 2 ^ k ≤ suf then true :: expGolombSuffix fuel (k + 1) (suf - 2 ^ k) else false :: fieldBits suf k

/-- The UEGk string of v (45_cabac_binarization.md R314). -/
def uegkBins (k : Nat) (signed : Bool) (uCoff : Nat) (v : Int) : List Bool :=
  truncatedUnaryBins (min uCoff v.natAbs) uCoff ++
    (if uCoff ≤ v.natAbs then expGolombSuffix 40 k (v.natAbs - uCoff) else []) ++
    (if signed ∧ v ≠ 0 then [decide (v < 0)] else [])

/-- Replacing the bin buffer (45_cabac_binarization.md R310). -/
def State.setBins (s : State) (b : List Bool) : State := { s with bins := writeBins s.bins 0 b, binLen := b.length }

/-- The rule of BN_U (45_cabac_binarization.md R311). -/
def ruleBnU (s : State) : Except Code State := do
  require (s.a0.toNat ≤ 127) .einval
  return s.setBins (unaryBins s.a0.toNat)

/-- The rule of BN_TU (45_cabac_binarization.md R312). -/
def ruleBnTu (s : State) : Except Code State := do
  require (s.a1.toNat ≤ 127) .einval
  require (s.a0.toNat ≤ s.a1.toNat) .einval
  return s.setBins (truncatedUnaryBins s.a0.toNat s.a1.toNat)

/-- The rule of BN_FL (45_cabac_binarization.md R313). -/
def ruleBnFl (s : State) : Except Code State := do
  require (s.a0.toNat ≤ s.a1.toNat) .einval
  return s.setBins (fixedLengthBins s.a0.toNat s.a1.toNat)

/-- The rule of BN_UEGK (45_cabac_binarization.md R314). -/
def ruleBnUegk (k : Nat) (signed : Bool) (s : State) : Except Code State := do
  require (s.a1.toNat ≤ 32) .einval
  return s.setBins (uegkBins k signed s.a1.toNat (if signed then sext32 s.a0 else s.a0.toNat))

/-- Coding one bin, as a bypass bin for c = 0xFFFF (45_cabac_binarization.md R315). -/
def encodeBin (p : Params) (c : Nat) (b : Bool) (r : EncRun) : Except Code EncRun :=
  if c = 0xFFFF then r.bypass p b else r.decision p c b

/-- Coding bins in turn (45_cabac_binarization.md R315). -/
def encodeBins (p : Params) (c : Nat) : List Bool → EncRun → Except Code EncRun
  | [], r => .ok r
  | b :: bs, r => do
    let t ← encodeBin p c b r
    encodeBins p c bs t

/-- BINBUF[first..first+count-1] (45_cabac_binarization.md R315). -/
def State.binSlice (s : State) (first count : Nat) : List Bool :=
  (List.range count).map fun i => s.binAt (first + i)

/-- The rule of BN_ENC (45_cabac_binarization.md R315). -/
def ruleBnEnc (c : Nat) (s : State) : Except Code State := do
  require (s.cur.mode = .enc ∧ s.enc.active) .estate
  require (c ≤ 1023 ∨ c = 0xFFFF) .einval
  require (s.a0.toNat + s.a1.toNat ≤ s.binLen) .einval
  let r ← encodeBins s.params c (s.binSlice s.a0.toNat s.a1.toNat) s.encRun
  return s.setEncRun true r

/-- BN_U (45_cabac_binarization.md R311). -/
def execBnU (s : State) : Host.Outcome State Fault Refusal := runCommand Instr.bnU.opcode ruleBnU s

/-- BN_TU (45_cabac_binarization.md R312). -/
def execBnTu (s : State) : Host.Outcome State Fault Refusal := runCommand Instr.bnTu.opcode ruleBnTu s

/-- BN_FL (45_cabac_binarization.md R313). -/
def execBnFl (s : State) : Host.Outcome State Fault Refusal := runCommand Instr.bnFl.opcode ruleBnFl s

/-- BN_UEGK (45_cabac_binarization.md R314). -/
def execBnUegk (k : Nat) (signed : Bool) (s : State) : Host.Outcome State Fault Refusal :=
  runCommand (Instr.bnUegk k signed).opcode (ruleBnUegk k signed) s

/-- BN_ENC (45_cabac_binarization.md R315). -/
def execBnEnc (c : Nat) (s : State) : Host.Outcome State Fault Refusal :=
  runCommand (Instr.bnEnc c).opcode (ruleBnEnc c) s

end Sys2Proof.Machine
end

