-- ==== Sys2Proof/Machine/BitCursor.lean ====
section
/-!
DEFINITION. The bit cursor commands (41_bitcursor.md R164 to R172).
-/

namespace Sys2Proof.Machine

/-- The MODE field of BC_INIT as a mode; 3 is no mode (41_bitcursor.md R164). -/
def modeOfField : Nat → Option CursorMode
  | 0 => some .idle
  | 1 => some .dec
  | 2 => some .enc
  | _ => none

/-- The cursor BC_INIT starts (41_bitcursor.md R164). -/
def startCursor (m : CursorMode) (ep grow : Bool) (a : Word) : Cursor where
  mode := m
  ep := ep
  grow := grow
  len := if m = .dec then a else 0
  cap := if m = .enc ∧ grow then 0 else a
  off := 0
  cache := 0
  cnt := 0
  zeros := 0
  bits := 0

/-- The operand check of BC_INIT (41_bitcursor.md R164). -/
def bcInitOk (p : Params) (m : CursorMode) (ep grow : Bool) (a : Word) : Bool :=
  match m with
  | .idle => !ep && !grow && decide (a = 0)
  | .dec => !grow && decide (1 ≤ a.toNat) && decide (a ≤ p.maxBufBytes)
  | .enc => if grow then decide (a = 0) else decide (a ≤ p.maxBufBytes)

/-- The rule of BC_INIT; a new stream ends any arithmetic-coding run (41_bitcursor.md R164). -/
def ruleBcInit (mode : Nat) (ep grow : Bool) (s : State) : Except Code State :=
  match modeOfField mode with
  | none => .error .einval
  | some m => do
    require (bcInitOk s.params m ep grow s.a0) .einval
    return { s with
      cur := startCursor m ep grow s.a0
      enc := { s.enc with active := false }
      dec := { s.dec with active := false } }

/-- The rule of BC_RDU (41_bitcursor.md R165). -/
def ruleBcRdu (n : Nat) (s : State) : Except Code State := do
  require (s.cur.mode = .dec) .estate
  require (n ≤ 32) .einval
  let (v, c) ← readBits s.bufByte n s.cur
  return { s with cur := c, y0 := natWord v }

/-- `sext_32` of an n-bit field value (41_bitcursor.md R166). -/
def signedField (n u : Nat) : Int := if n = 0 then 0 else (u : Int) - (if u.testBit (n - 1) then 2 ^ n else 0)

/-- The rule of BC_RDS (41_bitcursor.md R166). -/
def ruleBcRds (n : Nat) (s : State) : Except Code State := do
  require (s.cur.mode = .dec) .estate
  require (n ≤ 32) .einval
  let (u, c) ← readBits s.bufByte n s.cur
  return { s with cur := c, y0 := intWord (signedField n u) }

/-- The rule of BC_WRU (41_bitcursor.md R167). -/
def ruleBcWru (n : Nat) (s : State) : Except Code State := do
  require (s.cur.mode = .enc) .estate
  require (n ≤ 32) .einval
  require (s.a0.toNat < 2 ^ n) .einval
  let t ← writeBits s.params s.a0.toNat n s.stream
  return s.setStream t

/-- The range check of BC_WRS (41_bitcursor.md R168). -/
def fitsSigned (n : Nat) (v : Int) : Bool :=
  if n = 0 then decide (v = 0) else decide (-(2 ^ (n - 1)) ≤ v) && decide (v ≤ 2 ^ (n - 1) - 1)

/-- The rule of BC_WRS (41_bitcursor.md R168). -/
def ruleBcWrs (n : Nat) (s : State) : Except Code State := do
  require (s.cur.mode = .enc) .estate
  require (n ≤ 32) .einval
  let v := sext32 s.a0
  require (fitsSigned n v) .einval
  let t ← writeBits s.params (v % 2 ^ n).toNat n s.stream
  return s.setStream t

/-- The rule of BC_ALIGNED (41_bitcursor.md R169). -/
def ruleBcAligned (s : State) : Except Code State := do
  require (s.cur.mode ≠ .idle) .estate
  return { s with y0 := boolWord (decide (s.cur.cnt = 0)) }

/-- more_rbsp_data of the remaining bits, STRICT: not (empty, or a 1 followed by at most 7 zeros)
(41_bitcursor.md R170). -/
def moreStrict : List Bool → Bool
  | [] => false
  | b :: bs => !(b && decide (bs.length ≤ 7) && bs.all (!·))

/-- more_rbsp_data of the remaining bits, LASTONE: not (no 1, or the only 1 is the first bit)
(41_bitcursor.md R170). -/
def moreLastOne : List Bool → Bool
  | [] => false
  | _ :: bs => bs.any id

/-- more_rbsp_data under the parameter MoreDataPolicy (41_bitcursor.md R170). -/
def moreData (p : Params) (r : List Bool) : Bool :=
  match p.moreData with
  | .strict => moreStrict r
  | .lastOne => moreLastOne r

/-- The rule of BC_MORE (41_bitcursor.md R170). -/
def ruleBcMore (s : State) : Except Code State := do
  require (s.cur.mode = .dec) .estate
  return { s with y0 := boolWord (moreData s.params (remBits s.bufByte s.cur)) }

/-- `n` bytes read to RAWBUF from index `i` on (41_bitcursor.md R171). -/
def readRawBytes (rd : Nat → Byte) : Nat → Nat → Memory → Cursor → Except Code (Memory × Cursor)
  | 0, _, m, c => .ok (m, c)
  | n + 1, i, m, c => do
    let (v, d) ← readBits rd 8 c
    readRawBytes rd n (i + 1) (Memory.write m i (BitVec.ofNat 8 v)) d

/-- The rule of BC_RDBYTES (41_bitcursor.md R171). -/
def ruleBcRdbytes (s : State) : Except Code State := do
  require (s.cur.mode = .dec) .estate
  require (s.cur.cnt = 0) .estate
  require (s.a1.toNat + s.a0.toNat ≤ Config.rawBufBytes) .einval
  let (m, c) ← readRawBytes s.bufByte s.a0.toNat s.a1.toNat s.raw s.cur
  return { s with raw := m, cur := c }

/-- `n` bytes written from RAWBUF, given as a function, from index `i` on (41_bitcursor.md R172). -/
def writeRawBytes (p : Params) (raw : Nat → Byte) : Nat → Nat → Stream → Except Code Stream
  | 0, _, t => .ok t
  | n + 1, i, t => do
    let u ← writeBits p (raw i).toNat 8 t
    writeRawBytes p raw n (i + 1) u

/-- The rule of BC_WRBYTES (41_bitcursor.md R172). -/
def ruleBcWrbytes (s : State) : Except Code State := do
  require (s.cur.mode = .enc) .estate
  require (s.cur.cnt = 0) .estate
  require (s.a1.toNat + s.a0.toNat ≤ Config.rawBufBytes) .einval
  let t ← writeRawBytes s.params s.rawByte s.a0.toNat s.a1.toNat s.stream
  return s.setStream t

/-- BC_INIT (41_bitcursor.md R164). -/
def execBcInit (mode : Nat) (ep grow : Bool) (s : State) : Host.Outcome State Fault Refusal :=
  runCommand (Instr.bcInit mode ep grow).opcode (ruleBcInit mode ep grow) s

/-- BC_RDU (41_bitcursor.md R165). -/
def execBcRdu (n : Nat) (s : State) : Host.Outcome State Fault Refusal :=
  runCommand (Instr.bcRdu n).opcode (ruleBcRdu n) s

/-- BC_RDS (41_bitcursor.md R166). -/
def execBcRds (n : Nat) (s : State) : Host.Outcome State Fault Refusal :=
  runCommand (Instr.bcRds n).opcode (ruleBcRds n) s

/-- BC_WRU (41_bitcursor.md R167). -/
def execBcWru (n : Nat) (s : State) : Host.Outcome State Fault Refusal :=
  runCommand (Instr.bcWru n).opcode (ruleBcWru n) s

/-- BC_WRS (41_bitcursor.md R168). -/
def execBcWrs (n : Nat) (s : State) : Host.Outcome State Fault Refusal :=
  runCommand (Instr.bcWrs n).opcode (ruleBcWrs n) s

/-- BC_ALIGNED (41_bitcursor.md R169). -/
def execBcAligned (s : State) : Host.Outcome State Fault Refusal :=
  runCommand Instr.bcAligned.opcode ruleBcAligned s

/-- BC_MORE (41_bitcursor.md R170). -/
def execBcMore (s : State) : Host.Outcome State Fault Refusal := runCommand Instr.bcMore.opcode ruleBcMore s

/-- BC_RDBYTES (41_bitcursor.md R171). -/
def execBcRdbytes (s : State) : Host.Outcome State Fault Refusal :=
  runCommand Instr.bcRdbytes.opcode ruleBcRdbytes s

/-- BC_WRBYTES (41_bitcursor.md R172). -/
def execBcWrbytes (s : State) : Host.Outcome State Fault Refusal :=
  runCommand Instr.bcWrbytes.opcode ruleBcWrbytes s

end Sys2Proof.Machine
end

