-- ==== Sys2Proof/Machine/CavlcTables.lean ====
section
/-!
DEFINITION. The CAVLC code tables of 43_cavlc.md R232, R238, R241 and R247 (the default of the parameter CavlcTables,
00_scope.md R7), each codeword as its length and its value read first bit first.
-/

namespace Sys2Proof.Machine

/-- coeff_token for 0 <= nC < 2 (43_cavlc.md R232); a symbol is (TrailingOnes, TotalCoeff). -/
def coeffTokenV0 : List (Vlc (Nat × Nat)) :=
  [⟨1, 1, (0, 0)⟩] ++
  [⟨6, 5, (0, 1)⟩, ⟨2, 1, (1, 1)⟩] ++
  [⟨8, 7, (0, 2)⟩, ⟨6, 4, (1, 2)⟩, ⟨3, 1, (2, 2)⟩] ++
  [⟨9, 7, (0, 3)⟩, ⟨8, 6, (1, 3)⟩, ⟨7, 5, (2, 3)⟩, ⟨5, 3, (3, 3)⟩] ++
  [⟨10, 7, (0, 4)⟩, ⟨9, 6, (1, 4)⟩, ⟨8, 5, (2, 4)⟩, ⟨6, 3, (3, 4)⟩] ++
  [⟨11, 7, (0, 5)⟩, ⟨10, 6, (1, 5)⟩, ⟨9, 5, (2, 5)⟩, ⟨7, 4, (3, 5)⟩] ++
  [⟨13, 15, (0, 6)⟩, ⟨11, 6, (1, 6)⟩, ⟨10, 5, (2, 6)⟩, ⟨8, 4, (3, 6)⟩] ++
  [⟨13, 11, (0, 7)⟩, ⟨13, 14, (1, 7)⟩, ⟨11, 5, (2, 7)⟩, ⟨9, 4, (3, 7)⟩] ++
  [⟨13, 8, (0, 8)⟩, ⟨13, 10, (1, 8)⟩, ⟨13, 13, (2, 8)⟩, ⟨10, 4, (3, 8)⟩] ++
  [⟨14, 15, (0, 9)⟩, ⟨14, 14, (1, 9)⟩, ⟨13, 9, (2, 9)⟩, ⟨11, 4, (3, 9)⟩] ++
  [⟨14, 11, (0, 10)⟩, ⟨14, 10, (1, 10)⟩, ⟨14, 13, (2, 10)⟩, ⟨13, 12, (3, 10)⟩] ++
  [⟨15, 15, (0, 11)⟩, ⟨15, 14, (1, 11)⟩, ⟨14, 9, (2, 11)⟩, ⟨14, 12, (3, 11)⟩] ++
  [⟨15, 11, (0, 12)⟩, ⟨15, 10, (1, 12)⟩, ⟨15, 13, (2, 12)⟩, ⟨14, 8, (3, 12)⟩] ++
  [⟨16, 15, (0, 13)⟩, ⟨15, 1, (1, 13)⟩, ⟨15, 9, (2, 13)⟩, ⟨15, 12, (3, 13)⟩] ++
  [⟨16, 11, (0, 14)⟩, ⟨16, 14, (1, 14)⟩, ⟨16, 13, (2, 14)⟩, ⟨15, 8, (3, 14)⟩] ++
  [⟨16, 7, (0, 15)⟩, ⟨16, 10, (1, 15)⟩, ⟨16, 9, (2, 15)⟩, ⟨16, 12, (3, 15)⟩] ++
  [⟨16, 4, (0, 16)⟩, ⟨16, 6, (1, 16)⟩, ⟨16, 5, (2, 16)⟩, ⟨16, 8, (3, 16)⟩]

/-- coeff_token for 2 <= nC < 4 (43_cavlc.md R232). -/
def coeffTokenV1 : List (Vlc (Nat × Nat)) :=
  [⟨2, 3, (0, 0)⟩] ++
  [⟨6, 11, (0, 1)⟩, ⟨2, 2, (1, 1)⟩] ++
  [⟨6, 7, (0, 2)⟩, ⟨5, 7, (1, 2)⟩, ⟨3, 3, (2, 2)⟩] ++
  [⟨7, 7, (0, 3)⟩, ⟨6, 10, (1, 3)⟩, ⟨6, 9, (2, 3)⟩, ⟨4, 5, (3, 3)⟩] ++
  [⟨8, 7, (0, 4)⟩, ⟨6, 6, (1, 4)⟩, ⟨6, 5, (2, 4)⟩, ⟨4, 4, (3, 4)⟩] ++
  [⟨8, 4, (0, 5)⟩, ⟨7, 6, (1, 5)⟩, ⟨7, 5, (2, 5)⟩, ⟨5, 6, (3, 5)⟩] ++
  [⟨9, 7, (0, 6)⟩, ⟨8, 6, (1, 6)⟩, ⟨8, 5, (2, 6)⟩, ⟨6, 8, (3, 6)⟩] ++
  [⟨11, 15, (0, 7)⟩, ⟨9, 6, (1, 7)⟩, ⟨9, 5, (2, 7)⟩, ⟨6, 4, (3, 7)⟩] ++
  [⟨11, 11, (0, 8)⟩, ⟨11, 14, (1, 8)⟩, ⟨11, 13, (2, 8)⟩, ⟨7, 4, (3, 8)⟩] ++
  [⟨12, 15, (0, 9)⟩, ⟨11, 10, (1, 9)⟩, ⟨11, 9, (2, 9)⟩, ⟨9, 4, (3, 9)⟩] ++
  [⟨12, 11, (0, 10)⟩, ⟨12, 14, (1, 10)⟩, ⟨12, 13, (2, 10)⟩, ⟨11, 12, (3, 10)⟩] ++
  [⟨12, 8, (0, 11)⟩, ⟨12, 10, (1, 11)⟩, ⟨12, 9, (2, 11)⟩, ⟨11, 8, (3, 11)⟩] ++
  [⟨13, 15, (0, 12)⟩, ⟨13, 14, (1, 12)⟩, ⟨13, 13, (2, 12)⟩, ⟨12, 12, (3, 12)⟩] ++
  [⟨13, 11, (0, 13)⟩, ⟨13, 10, (1, 13)⟩, ⟨13, 9, (2, 13)⟩, ⟨13, 12, (3, 13)⟩] ++
  [⟨13, 7, (0, 14)⟩, ⟨14, 11, (1, 14)⟩, ⟨13, 6, (2, 14)⟩, ⟨13, 8, (3, 14)⟩] ++
  [⟨14, 9, (0, 15)⟩, ⟨14, 8, (1, 15)⟩, ⟨14, 10, (2, 15)⟩, ⟨13, 1, (3, 15)⟩] ++
  [⟨14, 7, (0, 16)⟩, ⟨14, 6, (1, 16)⟩, ⟨14, 5, (2, 16)⟩, ⟨14, 4, (3, 16)⟩]

/-- coeff_token for 4 <= nC < 8 (43_cavlc.md R232). -/
def coeffTokenV2 : List (Vlc (Nat × Nat)) :=
  [⟨4, 15, (0, 0)⟩] ++
  [⟨6, 15, (0, 1)⟩, ⟨4, 14, (1, 1)⟩] ++
  [⟨6, 11, (0, 2)⟩, ⟨5, 15, (1, 2)⟩, ⟨4, 13, (2, 2)⟩] ++
  [⟨6, 8, (0, 3)⟩, ⟨5, 12, (1, 3)⟩, ⟨5, 14, (2, 3)⟩, ⟨4, 12, (3, 3)⟩] ++
  [⟨7, 15, (0, 4)⟩, ⟨5, 10, (1, 4)⟩, ⟨5, 11, (2, 4)⟩, ⟨4, 11, (3, 4)⟩] ++
  [⟨7, 11, (0, 5)⟩, ⟨5, 8, (1, 5)⟩, ⟨5, 9, (2, 5)⟩, ⟨4, 10, (3, 5)⟩] ++
  [⟨7, 9, (0, 6)⟩, ⟨6, 14, (1, 6)⟩, ⟨6, 13, (2, 6)⟩, ⟨4, 9, (3, 6)⟩] ++
  [⟨7, 8, (0, 7)⟩, ⟨6, 10, (1, 7)⟩, ⟨6, 9, (2, 7)⟩, ⟨4, 8, (3, 7)⟩] ++
  [⟨8, 15, (0, 8)⟩, ⟨7, 14, (1, 8)⟩, ⟨7, 13, (2, 8)⟩, ⟨5, 13, (3, 8)⟩] ++
  [⟨8, 11, (0, 9)⟩, ⟨8, 14, (1, 9)⟩, ⟨7, 10, (2, 9)⟩, ⟨6, 12, (3, 9)⟩] ++
  [⟨9, 15, (0, 10)⟩, ⟨8, 10, (1, 10)⟩, ⟨8, 13, (2, 10)⟩, ⟨7, 12, (3, 10)⟩] ++
  [⟨9, 11, (0, 11)⟩, ⟨9, 14, (1, 11)⟩, ⟨8, 9, (2, 11)⟩, ⟨8, 12, (3, 11)⟩] ++
  [⟨9, 8, (0, 12)⟩, ⟨9, 10, (1, 12)⟩, ⟨9, 13, (2, 12)⟩, ⟨8, 8, (3, 12)⟩] ++
  [⟨10, 13, (0, 13)⟩, ⟨9, 7, (1, 13)⟩, ⟨9, 9, (2, 13)⟩, ⟨9, 12, (3, 13)⟩] ++
  [⟨10, 9, (0, 14)⟩, ⟨10, 12, (1, 14)⟩, ⟨10, 11, (2, 14)⟩, ⟨10, 10, (3, 14)⟩] ++
  [⟨10, 5, (0, 15)⟩, ⟨10, 8, (1, 15)⟩, ⟨10, 7, (2, 15)⟩, ⟨10, 6, (3, 15)⟩] ++
  [⟨10, 1, (0, 16)⟩, ⟨10, 4, (1, 16)⟩, ⟨10, 3, (2, 16)⟩, ⟨10, 2, (3, 16)⟩]

/-- coeff_token for nC = -1, chroma DC 4:2:0 (43_cavlc.md R232). -/
def coeffTokenVM1 : List (Vlc (Nat × Nat)) :=
  [⟨2, 1, (0, 0)⟩] ++
  [⟨6, 7, (0, 1)⟩, ⟨1, 1, (1, 1)⟩] ++
  [⟨6, 4, (0, 2)⟩, ⟨6, 6, (1, 2)⟩, ⟨3, 1, (2, 2)⟩] ++
  [⟨6, 3, (0, 3)⟩, ⟨7, 3, (1, 3)⟩, ⟨7, 2, (2, 3)⟩, ⟨6, 5, (3, 3)⟩] ++
  [⟨6, 2, (0, 4)⟩, ⟨8, 3, (1, 4)⟩, ⟨8, 2, (2, 4)⟩, ⟨7, 0, (3, 4)⟩]

/-- coeff_token for nC = -2, chroma DC 4:2:2 (43_cavlc.md R232). -/
def coeffTokenVM2 : List (Vlc (Nat × Nat)) :=
  [⟨1, 1, (0, 0)⟩] ++
  [⟨7, 15, (0, 1)⟩, ⟨2, 1, (1, 1)⟩] ++
  [⟨7, 14, (0, 2)⟩, ⟨7, 13, (1, 2)⟩, ⟨3, 1, (2, 2)⟩] ++
  [⟨9, 7, (0, 3)⟩, ⟨7, 12, (1, 3)⟩, ⟨7, 11, (2, 3)⟩, ⟨5, 1, (3, 3)⟩] ++
  [⟨9, 6, (0, 4)⟩, ⟨9, 5, (1, 4)⟩, ⟨7, 10, (2, 4)⟩, ⟨6, 1, (3, 4)⟩] ++
  [⟨10, 7, (0, 5)⟩, ⟨10, 6, (1, 5)⟩, ⟨9, 4, (2, 5)⟩, ⟨7, 9, (3, 5)⟩] ++
  [⟨11, 7, (0, 6)⟩, ⟨11, 6, (1, 6)⟩, ⟨10, 5, (2, 6)⟩, ⟨7, 8, (3, 6)⟩] ++
  [⟨12, 7, (0, 7)⟩, ⟨12, 6, (1, 7)⟩, ⟨11, 5, (2, 7)⟩, ⟨10, 4, (3, 7)⟩] ++
  [⟨13, 7, (0, 8)⟩, ⟨12, 5, (1, 8)⟩, ⟨12, 4, (2, 8)⟩, ⟨11, 4, (3, 8)⟩]

/-- total_zeros for maxNumCoeff 15 and 16: the row of each tzVlcIndex (43_cavlc.md R238); a symbol is total_zeros. -/
def totalZeros4x4 : Nat → List (Vlc Nat)
  | 1 => [⟨1, 1, 0⟩, ⟨3, 3, 1⟩, ⟨3, 2, 2⟩, ⟨4, 3, 3⟩, ⟨4, 2, 4⟩, ⟨5, 3, 5⟩, ⟨5, 2, 6⟩, ⟨6, 3, 7⟩, ⟨6, 2, 8⟩, ⟨7, 3, 9⟩, ⟨7, 2, 10⟩, ⟨8, 3, 11⟩, ⟨8, 2, 12⟩, ⟨9, 3, 13⟩, ⟨9, 2, 14⟩, ⟨9, 1, 15⟩]
  | 2 => [⟨3, 7, 0⟩, ⟨3, 6, 1⟩, ⟨3, 5, 2⟩, ⟨3, 4, 3⟩, ⟨3, 3, 4⟩, ⟨4, 5, 5⟩, ⟨4, 4, 6⟩, ⟨4, 3, 7⟩, ⟨4, 2, 8⟩, ⟨5, 3, 9⟩, ⟨5, 2, 10⟩, ⟨6, 3, 11⟩, ⟨6, 2, 12⟩, ⟨6, 1, 13⟩, ⟨6, 0, 14⟩]
  | 3 => [⟨4, 5, 0⟩, ⟨3, 7, 1⟩, ⟨3, 6, 2⟩, ⟨3, 5, 3⟩, ⟨4, 4, 4⟩, ⟨4, 3, 5⟩, ⟨3, 4, 6⟩, ⟨3, 3, 7⟩, ⟨4, 2, 8⟩, ⟨5, 3, 9⟩, ⟨5, 2, 10⟩, ⟨6, 1, 11⟩, ⟨5, 1, 12⟩, ⟨6, 0, 13⟩]
  | 4 => [⟨5, 3, 0⟩, ⟨3, 7, 1⟩, ⟨4, 5, 2⟩, ⟨4, 4, 3⟩, ⟨3, 6, 4⟩, ⟨3, 5, 5⟩, ⟨3, 4, 6⟩, ⟨4, 3, 7⟩, ⟨3, 3, 8⟩, ⟨4, 2, 9⟩, ⟨5, 2, 10⟩, ⟨5, 1, 11⟩, ⟨5, 0, 12⟩]
  | 5 => [⟨4, 5, 0⟩, ⟨4, 4, 1⟩, ⟨4, 3, 2⟩, ⟨3, 7, 3⟩, ⟨3, 6, 4⟩, ⟨3, 5, 5⟩, ⟨3, 4, 6⟩, ⟨3, 3, 7⟩, ⟨4, 2, 8⟩, ⟨5, 1, 9⟩, ⟨4, 1, 10⟩, ⟨5, 0, 11⟩]
  | 6 => [⟨6, 1, 0⟩, ⟨5, 1, 1⟩, ⟨3, 7, 2⟩, ⟨3, 6, 3⟩, ⟨3, 5, 4⟩, ⟨3, 4, 5⟩, ⟨3, 3, 6⟩, ⟨3, 2, 7⟩, ⟨4, 1, 8⟩, ⟨3, 1, 9⟩, ⟨6, 0, 10⟩]
  | 7 => [⟨6, 1, 0⟩, ⟨5, 1, 1⟩, ⟨3, 5, 2⟩, ⟨3, 4, 3⟩, ⟨3, 3, 4⟩, ⟨2, 3, 5⟩, ⟨3, 2, 6⟩, ⟨4, 1, 7⟩, ⟨3, 1, 8⟩, ⟨6, 0, 9⟩]
  | 8 => [⟨6, 1, 0⟩, ⟨4, 1, 1⟩, ⟨5, 1, 2⟩, ⟨3, 3, 3⟩, ⟨2, 3, 4⟩, ⟨2, 2, 5⟩, ⟨3, 2, 6⟩, ⟨3, 1, 7⟩, ⟨6, 0, 8⟩]
  | 9 => [⟨6, 1, 0⟩, ⟨6, 0, 1⟩, ⟨4, 1, 2⟩, ⟨2, 3, 3⟩, ⟨2, 2, 4⟩, ⟨3, 1, 5⟩, ⟨2, 1, 6⟩, ⟨5, 1, 7⟩]
  | 10 => [⟨5, 1, 0⟩, ⟨5, 0, 1⟩, ⟨3, 1, 2⟩, ⟨2, 3, 3⟩, ⟨2, 2, 4⟩, ⟨2, 1, 5⟩, ⟨4, 1, 6⟩]
  | 11 => [⟨4, 0, 0⟩, ⟨4, 1, 1⟩, ⟨3, 1, 2⟩, ⟨3, 2, 3⟩, ⟨1, 1, 4⟩, ⟨3, 3, 5⟩]
  | 12 => [⟨4, 0, 0⟩, ⟨4, 1, 1⟩, ⟨2, 1, 2⟩, ⟨1, 1, 3⟩, ⟨3, 1, 4⟩]
  | 13 => [⟨3, 0, 0⟩, ⟨3, 1, 1⟩, ⟨1, 1, 2⟩, ⟨2, 1, 3⟩]
  | 14 => [⟨2, 0, 0⟩, ⟨2, 1, 1⟩, ⟨1, 1, 2⟩]
  | 15 => [⟨1, 0, 0⟩, ⟨1, 1, 1⟩]
  | _ => []

/-- total_zeros for chroma DC 2x2, maxNumCoeff 4: the row of each tzVlcIndex (43_cavlc.md R238); a symbol is total_zeros. -/
def totalZeros2x2 : Nat → List (Vlc Nat)
  | 1 => [⟨1, 1, 0⟩, ⟨2, 1, 1⟩, ⟨3, 1, 2⟩, ⟨3, 0, 3⟩]
  | 2 => [⟨1, 1, 0⟩, ⟨2, 1, 1⟩, ⟨2, 0, 2⟩]
  | 3 => [⟨1, 1, 0⟩, ⟨1, 0, 1⟩]
  | _ => []

/-- total_zeros for chroma DC 2x4, maxNumCoeff 8: the row of each tzVlcIndex (43_cavlc.md R238); a symbol is total_zeros. -/
def totalZeros2x4 : Nat → List (Vlc Nat)
  | 1 => [⟨1, 1, 0⟩, ⟨3, 2, 1⟩, ⟨3, 3, 2⟩, ⟨4, 2, 3⟩, ⟨4, 3, 4⟩, ⟨4, 1, 5⟩, ⟨5, 1, 6⟩, ⟨5, 0, 7⟩]
  | 2 => [⟨3, 0, 0⟩, ⟨2, 1, 1⟩, ⟨3, 1, 2⟩, ⟨3, 4, 3⟩, ⟨3, 5, 4⟩, ⟨3, 6, 5⟩, ⟨3, 7, 6⟩]
  | 3 => [⟨3, 0, 0⟩, ⟨3, 1, 1⟩, ⟨2, 1, 2⟩, ⟨2, 2, 3⟩, ⟨3, 6, 4⟩, ⟨3, 7, 5⟩]
  | 4 => [⟨3, 6, 0⟩, ⟨2, 0, 1⟩, ⟨2, 1, 2⟩, ⟨2, 2, 3⟩, ⟨3, 7, 4⟩]
  | 5 => [⟨2, 0, 0⟩, ⟨2, 1, 1⟩, ⟨2, 2, 2⟩, ⟨2, 3, 3⟩]
  | 6 => [⟨2, 0, 0⟩, ⟨2, 1, 1⟩, ⟨1, 1, 2⟩]
  | 7 => [⟨1, 0, 0⟩, ⟨1, 1, 1⟩]
  | _ => []

/-- run_before: the column of each zerosLeft, 7 standing for ">6" (43_cavlc.md R241); a symbol is run_before. -/
def runBefore : Nat → List (Vlc Nat)
  | 1 => [⟨1, 1, 0⟩, ⟨1, 0, 1⟩]
  | 2 => [⟨1, 1, 0⟩, ⟨2, 1, 1⟩, ⟨2, 0, 2⟩]
  | 3 => [⟨2, 3, 0⟩, ⟨2, 2, 1⟩, ⟨2, 1, 2⟩, ⟨2, 0, 3⟩]
  | 4 => [⟨2, 3, 0⟩, ⟨2, 2, 1⟩, ⟨2, 1, 2⟩, ⟨3, 1, 3⟩, ⟨3, 0, 4⟩]
  | 5 => [⟨2, 3, 0⟩, ⟨2, 2, 1⟩, ⟨3, 3, 2⟩, ⟨3, 2, 3⟩, ⟨3, 1, 4⟩, ⟨3, 0, 5⟩]
  | 6 => [⟨2, 3, 0⟩, ⟨3, 0, 1⟩, ⟨3, 1, 2⟩, ⟨3, 3, 3⟩, ⟨3, 2, 4⟩, ⟨3, 5, 5⟩, ⟨3, 4, 6⟩]
  | 7 => [⟨3, 7, 0⟩, ⟨3, 6, 1⟩, ⟨3, 5, 2⟩, ⟨3, 4, 3⟩, ⟨3, 3, 4⟩, ⟨3, 2, 5⟩, ⟨3, 1, 6⟩, ⟨4, 1, 7⟩, ⟨5, 1, 8⟩, ⟨6, 1, 9⟩, ⟨7, 1, 10⟩, ⟨8, 1, 11⟩, ⟨9, 1, 12⟩, ⟨10, 1, 13⟩, ⟨11, 1, 14⟩]
  | _ => []

/-- coded_block_pattern by codeNum, N = 48, Intra (43_cavlc.md R247). -/
def cbp48Intra : List Nat :=
  [47, 31, 15, 0, 23, 27, 29, 30, 7, 11, 13, 14, 39, 43, 45, 46] ++
  [16, 3, 5, 10, 12, 19, 21, 26, 28, 35, 37, 42, 44, 1, 2, 4] ++
  [8, 17, 18, 20, 24, 6, 9, 22, 25, 32, 33, 34, 36, 40, 38, 41]

/-- coded_block_pattern by codeNum, N = 48, Inter (43_cavlc.md R247). -/
def cbp48Inter : List Nat :=
  [0, 16, 1, 2, 4, 8, 32, 3, 5, 10, 12, 15, 47, 7, 11, 13] ++
  [14, 6, 9, 31, 35, 37, 42, 44, 33, 34, 36, 40, 39, 43, 45, 46] ++
  [17, 18, 20, 24, 19, 21, 26, 28, 23, 27, 29, 30, 22, 25, 38, 41]

/-- coded_block_pattern by codeNum, N = 16, Intra (43_cavlc.md R247). -/
def cbp16Intra : List Nat :=
  [15, 0, 7, 11, 13, 14, 3, 5, 10, 12, 1, 2, 4, 8, 6, 9]

/-- coded_block_pattern by codeNum, N = 16, Inter (43_cavlc.md R247). -/
def cbp16Inter : List Nat :=
  [0, 1, 2, 4, 8, 3, 5, 10, 12, 15, 7, 11, 13, 14, 6, 9]

end Sys2Proof.Machine
end

