-- ==== Sys2Proof/Machine/ExpGolomb.lean ====
section
/-!
DEFINITION. The Exp-Golomb commands (42_expgolomb.md R200 to R206).
-/

namespace Sys2Proof.Machine

/-- `ReadUE()` (42_expgolomb.md R200): at most 31 leading zeros. -/
def readUE (rd : Nat → Byte) (c : Cursor) : Except Code (Nat × Cursor) := do
  let (m, d) ← readZeroRun rd 31 0 c
  let (x, e) ← readBits rd m d
  return (2 ^ m - 1 + x, e)

/-- `WriteUE(k)` (42_expgolomb.md R200). -/
def writeUE (p : Params) (k : Nat) (t : Stream) : Except Code Stream := do
  let m := floorLog2 (k + 1)
  let t1 ← writeBits p 0 m t
  let t2 ← putBit1 p true t1
  writeBits p (k + 1 - 2 ^ m) m t2

/-- The signed value of codeNum k (42_expgolomb.md R203, 30_encoding.md R111). -/
def seValue (k : Nat) : Int := if k % 2 = 1 then ((k : Int) + 1) / 2 else -((k : Int) / 2)

/-- The codeNum of the signed value v (42_expgolomb.md R204). -/
def seCodeNum (v : Int) : Nat := if 0 < v then (2 * v - 1).toNat else (-2 * v).toNat

/-- The rule of EG_RDUE (42_expgolomb.md R201). -/
def ruleEgRdue (s : State) : Except Code State := do
  require (s.cur.mode = .dec) .estate
  let (k, c) ← readUE s.bufByte s.cur
  return { s with cur := c, y0 := natWord k }

/-- The rule of EG_WRUE (42_expgolomb.md R202). -/
def ruleEgWrue (s : State) : Except Code State := do
  require (s.cur.mode = .enc) .estate
  require (s.a0.toNat ≤ 2 ^ 32 - 2) .einval
  let t ← writeUE s.params s.a0.toNat s.stream
  return s.setStream t

/-- The rule of EG_RDSE (42_expgolomb.md R203). -/
def ruleEgRdse (s : State) : Except Code State := do
  require (s.cur.mode = .dec) .estate
  let (k, c) ← readUE s.bufByte s.cur
  return { s with cur := c, y0 := intWord (seValue k) }

/-- The rule of EG_WRSE (42_expgolomb.md R204). -/
def ruleEgWrse (s : State) : Except Code State := do
  require (s.cur.mode = .enc) .estate
  require (sext32 s.a0 ≠ -(2 ^ 31)) .einval
  let t ← writeUE s.params (seCodeNum (sext32 s.a0)) s.stream
  return s.setStream t

/-- The rule of EG_RDTE (42_expgolomb.md R205). -/
def ruleEgRdte (s : State) : Except Code State := do
  require (s.cur.mode = .dec) .estate
  if s.a0 = 2 then
    let (b, c) ← getBit s.bufByte s.cur
    return { s with cur := c, y0 := natWord (1 - b.toNat) }
  else
    let (k, c) ← readUE s.bufByte s.cur
    return { s with cur := c, y0 := natWord k }

/-- The rule of EG_WRTE (42_expgolomb.md R206). -/
def ruleEgWrte (s : State) : Except Code State := do
  require (s.cur.mode = .enc) .estate
  if s.a0 = 2 then
    require (s.a1.toNat ≤ 1) .einval
    let t ← putBit1 s.params (decide (s.a1 = 0)) s.stream
    return s.setStream t
  else
    require (s.a1.toNat ≤ 2 ^ 32 - 2) .einval
    let t ← writeUE s.params s.a1.toNat s.stream
    return s.setStream t

/-- EG_RDUE (42_expgolomb.md R201). -/
def execEgRdue (s : State) : Host.Outcome State Fault Refusal := runCommand Instr.egRdue.opcode ruleEgRdue s

/-- EG_WRUE (42_expgolomb.md R202). -/
def execEgWrue (s : State) : Host.Outcome State Fault Refusal := runCommand Instr.egWrue.opcode ruleEgWrue s

/-- EG_RDSE (42_expgolomb.md R203). -/
def execEgRdse (s : State) : Host.Outcome State Fault Refusal := runCommand Instr.egRdse.opcode ruleEgRdse s

/-- EG_WRSE (42_expgolomb.md R204). -/
def execEgWrse (s : State) : Host.Outcome State Fault Refusal := runCommand Instr.egWrse.opcode ruleEgWrse s

/-- EG_RDTE (42_expgolomb.md R205). -/
def execEgRdte (s : State) : Host.Outcome State Fault Refusal := runCommand Instr.egRdte.opcode ruleEgRdte s

/-- EG_WRTE (42_expgolomb.md R206). -/
def execEgWrte (s : State) : Host.Outcome State Fault Refusal := runCommand Instr.egWrte.opcode ruleEgWrte s

end Sys2Proof.Machine
end

