-- ==== Sys2Proof/Machine/MbAddressing.lean ====
section
/-!
DEFINITION. The macroblock info table commands and neighbour addressing (46_mb_addressing.md R330 to R345).
Addresses, locations and their remainders are computed as integers, since a neighbour's address or location can
be negative.
-/

namespace Sys2Proof.Machine

/-- The rule of MB_SLICE (46_mb_addressing.md R331). -/
def ruleMbSlice (s : State) : Except Code State := .ok s.clearMbTable

/-- The entry MB_BEGIN makes from its flags word (46_mb_addressing.md R332). -/
def newMbEntry (f : Word) : MbEntry where
  skip := wordBit f 0
  ipcm := wordBit f 1
  intra := wordBit f 2
  field := wordBit f 3
  mbType := BitVec.ofNat 8 (wordField f 8 8)
  nz := Vector.replicate 48 0
  nz8 := Vector.replicate 12 0

/-- MB_BEGIN's check of FIELD (46_mb_addressing.md R332): FIELD_PIC outside MBAFF frames, one flag per pair inside. -/
def fieldFlagOk (s : State) (a : Nat) (field : Bool) : Bool :=
  if s.geom.mbaffFrame then
    !(decide (a % 2 = 1) && s.mbValid (a - 1)) || (field == (s.mbEntry (a - 1)).field)
  else field == s.geom.fieldPic

/-- The rule of MB_BEGIN (46_mb_addressing.md R332). -/
def ruleMbBegin (s : State) : Except Code State := do
  require (s.geom.valid) .estate
  let a := s.a0.toNat
  let f := s.a1
  require (wordField f 4 4 = 0 ∧ wordField f 16 16 = 0) .einval
  require (a < s.geom.picSizeInMbs) .einval
  require (s.currValid = false ∨ s.currMbAddr.toNat < a) .einval
  require (¬(wordBit f 0 = true ∧ wordBit f 1 = true)) .einval
  require (wordBit f 1 = false ∨ wordBit f 2 = true) .einval
  require (wordBit f 0 = false ∨ wordBit f 2 = false) .einval
  require (fieldFlagOk s a (wordBit f 3)) .einval
  require (a < s.params.maxMbs) .enomem
  return { s with mb := Table.put s.mb a (newMbEntry f), currMbAddr := s.a0, currValid := true }

/-- The rule of MB_SETNZ (46_mb_addressing.md R333). -/
def ruleMbSetnz (comp : Nat) (size8 : Bool) (blkIdx : Nat) (s : State) : Except Code State := do
  require s.currValid .estate
  require (comp ≤ 2) .einval
  if size8 then
    require (blkIdx ≤ 3 ∧ s.a0.toNat ≤ 64) .einval
    return s.storeNz8 s.currMbAddr.toNat comp blkIdx s.a0.toNat
  else
    require (blkIdx ≤ 15 ∧ s.a0.toNat ≤ 16) .einval
    return s.storeNz s.currMbAddr.toNat comp blkIdx s.a0.toNat

/-- MB_GET's Y0 of a valid entry: VALID [0], SKIP [1], IPCM [2], INTRA [3], FIELD [4], MBTYPE [15:8]
(46_mb_addressing.md R334). -/
def MbEntry.flagsWord (e : MbEntry) : Word :=
  natWord (1 + 2 * e.skip.toNat + 4 * e.ipcm.toNat + 8 * e.intra.toNat + 16 * e.field.toNat + 256 * e.mbType.toNat)

/-- MB_GET's Y0 and Y1 (46_mb_addressing.md R334): 0 and 0 for an entry whose VALID is 0. -/
def mbGetResult (s : State) (a c k : Nat) (size8 : Bool) : Word × Word :=
  match Table.find s.mb a with
  | none => (0, 0)
  | some e => (e.flagsWord, natWord (if size8 then e.nz8At c k else e.nzAt c k))

/-- The rule of MB_GET (46_mb_addressing.md R334): sel is blkIdx [3:0], comp [9:8], SIZE8 [12]. -/
def ruleMbGet (s : State) : Except Code State := do
  let a := s.a0.toNat
  let sel := s.a1
  require (wordField sel 4 4 = 0 ∧ wordField sel 10 2 = 0 ∧ wordField sel 13 19 = 0) .einval
  let c := wordField sel 8 2
  let k := wordField sel 0 4
  let size8 := wordBit sel 12
  require (a < s.params.maxMbs ∧ c ≤ 2 ∧ (size8 = false ∨ k ≤ 3)) .einval
  let r := mbGetResult s a c k size8
  return { s with y0 := r.1, y1 := r.2 }

/-- `Avail(a)` (46_mb_addressing.md R335). -/
def State.avail (s : State) (a : Int) : Bool :=
  decide (0 ≤ a) && decide (a < s.currMbAddr.toNat) && s.mbValid a.toNat

/-- Luma or chroma locations (46_mb_addressing.md R338). -/
inductive Plane where
  | luma
  | chroma
deriving DecidableEq, Repr

/-- (maxW, maxH) (46_mb_addressing.md R338, R341). -/
def planeSize (g : Geometry) : Plane → Nat × Nat
  | .luma => (16, 16)
  | .chroma => (g.mbWidthC, g.mbHeightC)

/-- A neighbouring macroblock's address and whether it is available (46_mb_addressing.md R336). -/
structure NbMb where
  addr : Int
  avail : Bool
deriving DecidableEq, Repr

/-- mbAddrA and availA (46_mb_addressing.md R336): the left macroblock, or in MBAFF frames the top macroblock of the
left pair. -/
def State.leftMb (s : State) : NbMb :=
  let curr := s.currMbAddr.toNat
  if s.geom.mbaffFrame then
    let a : Int := 2 * ((curr / 2 : Nat) - 1)
    ⟨a, s.avail a && decide ((curr / 2) % s.geom.width ≠ 0)⟩
  else
    let a : Int := (curr : Int) - 1
    ⟨a, s.avail a && decide (curr % s.geom.width ≠ 0)⟩

/-- mbAddrB and availB (46_mb_addressing.md R336): the macroblock above, or in MBAFF frames the top macroblock of the
pair above. -/
def State.aboveMb (s : State) : NbMb :=
  let curr := s.currMbAddr.toNat
  if s.geom.mbaffFrame then
    let b : Int := 2 * ((curr / 2 : Nat) - (s.geom.width : Int))
    ⟨b, s.avail b⟩
  else
    let b : Int := (curr : Int) - s.geom.width
    ⟨b, s.avail b⟩

/-- The regions of Table 6-3 that are answered, with "not available" for a location right of or below the
macroblock (46_mb_addressing.md R338). -/
inductive Region where
  | left
  | above
  | current
  | outside
deriving DecidableEq, Repr

/-- The region of a location; D (above-left) and C (above-right) are EINVAL (46_mb_addressing.md R338). -/
def classify (maxW maxH : Nat) (xN yN : Int) : Except Code Region :=
  if xN < 0 ∧ yN < 0 then .error .einval
  else if xN < 0 ∧ yN ≤ maxH - 1 then .ok .left
  else if 0 ≤ xN ∧ xN ≤ maxW - 1 ∧ yN < 0 then .ok .above
  else if 0 ≤ xN ∧ xN ≤ maxW - 1 ∧ yN ≤ maxH - 1 then .ok .current
  else if 0 ≤ xN ∧ yN < 0 then .error .einval
  else .ok .outside

/-- The macroblock that covers a location, whether it is available, and the row yM in it. -/
structure Covering where
  addr : Int
  avail : Bool
  yM : Int
deriving DecidableEq, Repr

/-- Table 6-4's rows for region A (46_mb_addressing.md R339), `frame` and `top` of the current macroblock: mbAddrN and
yM in the left pair at `a`, whose field flag is `xField`. -/
def mbaffLeft (frame top xField : Bool) (maxH : Nat) (a yN : Int) : Int × Int :=
  match frame, top, xField with
  | true, true, false => (a, yN)
  | true, true, true => if yN % 2 = 0 then (a, yN / 2) else (a + 1, yN / 2)
  | true, false, false => (a + 1, yN)
  | true, false, true => if yN % 2 = 0 then (a, (yN + maxH) / 2) else (a + 1, (yN + maxH) / 2)
  | false, true, false => if yN < maxH / 2 then (a, 2 * yN) else (a + 1, 2 * yN - maxH)
  | false, true, true => (a, yN)
  | false, false, false => if yN < maxH / 2 then (a, 2 * yN + 1) else (a + 1, 2 * yN + 1 - maxH)
  | false, false, true => (a + 1, yN)

/-- The covering macroblock of a left or above location in an MBAFF frame (Table 6-4, 46_mb_addressing.md R339). -/
def State.mbaffCovering (s : State) (maxH : Nat) (r : Region) (yN : Int) : Covering :=
  let curr := s.currMbAddr.toNat
  let frame := !(s.mbEntry curr).field
  let top := decide (curr % 2 = 0)
  match r with
  | .left =>
    let x := s.leftMb
    let n := mbaffLeft frame top (s.mbEntry x.addr.toNat).field maxH x.addr yN
    ⟨n.1, x.avail && s.avail n.1, n.2⟩
  | .above =>
    let x := s.aboveMb
    match frame, top with
    | true, true => ⟨x.addr + 1, x.avail && s.avail (x.addr + 1), yN⟩
    | true, false => ⟨(curr : Int) - 1, s.avail ((curr : Int) - 1), yN⟩
    | false, true =>
      if (s.mbEntry x.addr.toNat).field then ⟨x.addr, x.avail && s.avail x.addr, yN⟩
      else ⟨x.addr + 1, x.avail && s.avail (x.addr + 1), 2 * yN⟩
    | false, false => ⟨x.addr + 1, x.avail && s.avail (x.addr + 1), yN⟩
  | .current => ⟨curr, true, yN⟩
  | .outside => ⟨0, false, 0⟩

/-- The covering macroblock of a location outside MBAFF frames (46_mb_addressing.md R338). -/
def State.plainCovering (s : State) (r : Region) (yN : Int) : Covering :=
  match r with
  | .left => ⟨s.leftMb.addr, s.leftMb.avail, yN⟩
  | .above => ⟨s.aboveMb.addr, s.aboveMb.avail, yN⟩
  | .current => ⟨s.currMbAddr.toNat, true, yN⟩
  | .outside => ⟨0, false, 0⟩

/-- `x % m` of the rules (00_scope.md R8): on a negative x, for which the spec defines no remainder, a free value. -/
def ruleRem (x : Int) (m : Nat) : Nat := if 0 ≤ x then x.toNat % m else (Config.remOfNegative x m).toNat

/-- (mbAddrN, availN, xW, yW): the address is none exactly when the location is not available. -/
structure NbResult where
  addr : Option Nat
  xW : Nat
  yW : Nat
deriving DecidableEq, Repr

/-- `NbLoc(plane, xN, yN)` (46_mb_addressing.md R338, R339). -/
def State.nbLoc (s : State) (plane : Plane) (xN yN : Int) : Except Code NbResult := do
  let (maxW, maxH) := planeSize s.geom plane
  let r ← classify maxW maxH xN yN
  let c := if s.geom.mbaffFrame then s.mbaffCovering maxH r yN else s.plainCovering r yN
  if c.avail then return ⟨some c.addr.toNat, ruleRem (xN + maxW) maxW, ruleRem (c.yM + maxH) maxH⟩
  else return ⟨none, 0, 0⟩

/-- Y0 of the neighbour commands: 0xFFFFFFFF when not available (46_mb_addressing.md R337, 92_eei_decisions.md D52). -/
def nbAddrWord : Option Nat → Word
  | some a => natWord a
  | none => 0xFFFFFFFF

/-- The directions A (left, 0) and B (above, 1) as the neighbour of (x, y) (46_mb_addressing.md R337, R342). -/
def nbOffset (above : Bool) (x y : Int) : Int × Int := if above then (x, y - 1) else (x - 1, y)

/-- `Luma4x4Idx` (46_mb_addressing.md R340). -/
def luma4x4Idx (xW yW : Nat) : Nat := 8 * (yW / 8) + 4 * (xW / 8) + 2 * ((yW % 8) / 4) + (xW % 8) / 4

/-- `Chroma4x4Idx` (46_mb_addressing.md R340). -/
def chroma4x4Idx (xW yW : Nat) : Nat := 2 * (yW / 4) + xW / 4

/-- `Luma8x8Idx` (46_mb_addressing.md R340). -/
def luma8x8Idx (xW yW : Nat) : Nat := 2 * (yW / 8) + xW / 8

/-- (mbAddrN, availN, blkN): the neighbouring macroblock and the block in it (46_mb_addressing.md R342 to R344). -/
structure NbBlock where
  addr : Option Nat
  blk : Nat
deriving DecidableEq, Repr

/-- The block at a location's neighbour, its index by `idx` when available and 0 otherwise. -/
def State.nbBlockAt (s : State) (plane : Plane) (idx : Nat → Nat → Nat) (above : Bool) (x y : Nat) :
    Except Code NbBlock := do
  let (xN, yN) := nbOffset above x y
  let n ← s.nbLoc plane xN yN
  return ⟨n.addr, if n.addr.isSome then idx n.xW n.yW else 0⟩

/-- `NbLuma4x4(idx, N)` (46_mb_addressing.md R342). -/
def State.nbLuma4x4 (s : State) (idx : Nat) (above : Bool) : Except Code NbBlock :=
  s.nbBlockAt .luma luma4x4Idx above
    (((idx / 4) % 2) * 8 + ((idx % 4) % 2) * 4) (((idx / 4) / 2) * 8 + ((idx % 4) / 2) * 4)

/-- `NbChroma4x4(idx, N)` (46_mb_addressing.md R343). -/
def State.nbChroma4x4 (s : State) (idx : Nat) (above : Bool) : Except Code NbBlock :=
  s.nbBlockAt .chroma chroma4x4Idx above ((idx % 2) * 4) ((idx / 2) * 4)

/-- `NbLuma8x8(idx, N)` (46_mb_addressing.md R344). -/
def State.nbLuma8x8 (s : State) (idx : Nat) (above : Bool) : Except Code NbBlock :=
  s.nbBlockAt .luma luma8x8Idx above ((idx % 2) * 8) ((idx / 2) * 8)

/-- The rule of MB_NBMB (46_mb_addressing.md R337). -/
def ruleMbNbmb (dir : Bool) (s : State) : Except Code State := do
  require (s.geom.valid ∧ s.currValid) .estate
  let (xN, yN) := nbOffset dir 0 0
  let n ← s.nbLoc .luma xN yN
  return { s with y0 := nbAddrWord n.addr, y1 := boolWord n.addr.isSome }

/-- The rule of MB_NBLOC (46_mb_addressing.md R341). -/
def ruleMbNbloc (chroma : Bool) (s : State) : Except Code State := do
  require (s.geom.valid ∧ s.currValid) .estate
  require (chroma = false ∨ s.geom.cat = 1 ∨ s.geom.cat = 2) .estate
  let plane : Plane := if chroma then .chroma else .luma
  let (maxW, maxH) := planeSize s.geom plane
  let xN := sext32 s.a0
  let yN := sext32 s.a1
  require (-(maxW : Int) ≤ xN ∧ -(maxH : Int) ≤ yN) .einval
  let n ← s.nbLoc plane xN yN
  return { s with y0 := nbAddrWord n.addr, y1 := boolWord n.addr.isSome, y2 := natWord n.xW, y3 := natWord n.yW }

/-- The neighbouring block of MB_NBBLK's kind (46_mb_addressing.md R345). -/
def State.nbBlk (s : State) (kind idx : Nat) (above : Bool) : Except Code NbBlock :=
  if kind = 0 then s.nbLuma4x4 idx above
  else if kind = 1 then s.nbChroma4x4 idx above
  else s.nbLuma8x8 idx above

/-- The number of blocks of MB_NBBLK's kind (46_mb_addressing.md R345). -/
def nbBlkRange (g : Geometry) (kind : Nat) : Nat :=
  if kind = 0 then 16 else if kind = 1 then (g.mbHeightC / 4) * 2 else 4

/-- The rule of MB_NBBLK (46_mb_addressing.md R345). -/
def ruleMbNbblk (dir : Bool) (kind blkIdx : Nat) (s : State) : Except Code State := do
  require (s.geom.valid ∧ s.currValid) .estate
  require (kind ≠ 1 ∨ s.geom.cat = 1 ∨ s.geom.cat = 2) .estate
  require (kind ≤ 2) .einval
  require (blkIdx < nbBlkRange s.geom kind) .einval
  let n ← s.nbBlk kind blkIdx dir
  return { s with y0 := nbAddrWord n.addr, y1 := boolWord n.addr.isSome, y2 := natWord n.blk }

/-- MB_SLICE (46_mb_addressing.md R331). -/
def execMbSlice (s : State) : Host.Outcome State Fault Refusal := runCommand Instr.mbSlice.opcode ruleMbSlice s

/-- MB_BEGIN (46_mb_addressing.md R332). -/
def execMbBegin (s : State) : Host.Outcome State Fault Refusal := runCommand Instr.mbBegin.opcode ruleMbBegin s

/-- MB_SETNZ (46_mb_addressing.md R333). -/
def execMbSetnz (comp : Nat) (size8 : Bool) (blkIdx : Nat) (s : State) : Host.Outcome State Fault Refusal :=
  runCommand (Instr.mbSetnz comp size8 blkIdx).opcode (ruleMbSetnz comp size8 blkIdx) s

/-- MB_GET (46_mb_addressing.md R334). -/
def execMbGet (s : State) : Host.Outcome State Fault Refusal := runCommand Instr.mbGet.opcode ruleMbGet s

/-- MB_NBMB (46_mb_addressing.md R337). -/
def execMbNbmb (dir : Bool) (s : State) : Host.Outcome State Fault Refusal :=
  runCommand (Instr.mbNbmb dir).opcode (ruleMbNbmb dir) s

/-- MB_NBLOC (46_mb_addressing.md R341). -/
def execMbNbloc (chroma : Bool) (s : State) : Host.Outcome State Fault Refusal :=
  runCommand (Instr.mbNbloc chroma).opcode (ruleMbNbloc chroma) s

/-- MB_NBBLK (46_mb_addressing.md R345). -/
def execMbNbblk (dir : Bool) (kind blkIdx : Nat) (s : State) : Host.Outcome State Fault Refusal :=
  runCommand (Instr.mbNbblk dir kind blkIdx).opcode (ruleMbNbblk dir kind blkIdx) s

end Sys2Proof.Machine
end

