-- ==== Sys2Proof/Machine/Cavlc.lean ====
section
/-!
DEFINITION. The CAVLC commands (43_cavlc.md R220 to R249). Levels, level codes and nC are integers.
-/

namespace Sys2Proof.Machine

/-- NumC8x8 (43_cavlc.md R220): 1 for ChromaArrayType 1, 2 for 2; elsewhere a free value. -/
def numC8x8 (cat : Nat) : Nat :=
  if cat = 1 then 1 else if cat = 2 then 2 else (Config.numC8x8Other cat).val

/-- The number of blocks of a kind, its blkIdx range being 0 to one less (43_cavlc.md R220); none for 6 and 7. -/
def kindRange (cat kind : Nat) : Nat :=
  match kind with
  | 0 => 16
  | 1 => 16
  | 2 => 16
  | 3 => 4 * numC8x8 cat
  | 4 => 4 * numC8x8 cat
  | 5 => 1
  | _ => 0

/-- The component c of NZ of a kind (43_cavlc.md R220). -/
def kindComponent (kind : Nat) : Nat :=
  match kind with
  | 1 => 1
  | 2 => 2
  | 3 => 1
  | 4 => 2
  | _ => 0

/-- CHROMA_ARRAY_TYPE meets the kind's "needs" (43_cavlc.md R220). -/
def kindNeeds (cat kind : Nat) : Bool :=
  match kind with
  | 1 => decide (cat = 3)
  | 2 => decide (cat = 3)
  | 3 => decide (cat = 1 ∨ cat = 2)
  | 4 => decide (cat = 1 ∨ cat = 2)
  | 5 => decide (cat = 1 ∨ cat = 2)
  | _ => true

/-- nA or nB of a neighbouring block, none where it is not available or constrained intra prediction under data
partitioning hides it (43_cavlc.md R221). -/
def State.nbCount (s : State) (c : Nat) (b : NbBlock) : Option Nat :=
  match b.addr with
  | none => none
  | some a =>
    let e := s.mbEntry a
    if s.geom.cipDp && (s.mbEntry s.currMbAddr.toNat).intra && !e.intra then none
    else if e.skip then some 0
    else if e.ipcm then some 16
    else some (e.nzAt c b.blk)

/-- nC from nA and nB (43_cavlc.md R221). -/
def combineCounts : Option Nat → Option Nat → Nat
  | some a, some b => (a + b + 1) / 2
  | some a, none => a
  | none, some b => b
  | none, none => 0

/-- The neighbouring block DeriveNC asks about (43_cavlc.md R221). -/
def State.ncBlock (s : State) (kind blkIdx : Nat) (above : Bool) : Except Code NbBlock :=
  if kind ≤ 2 then s.nbLuma4x4 blkIdx above else s.nbChroma4x4 blkIdx above

/-- `DeriveNC(kind, blkIdx)` (43_cavlc.md R221). -/
def State.deriveNC (s : State) (kind blkIdx : Nat) : Except Code Int :=
  if kind = 5 then .ok (if s.geom.cat = 1 then -1 else -2)
  else do
    let a ← s.ncBlock kind blkIdx false
    let b ← s.ncBlock kind blkIdx true
    return (combineCounts (s.nbCount (kindComponent kind) a) (s.nbCount (kindComponent kind) b) : Int)

/-- The coeff_token table of an nC below 8 (43_cavlc.md R232). -/
def coeffTokenTable (nC : Int) : List (Vlc (Nat × Nat)) :=
  if nC = -2 then coeffTokenVM2
  else if nC = -1 then coeffTokenVM1
  else if nC < 2 then coeffTokenV0
  else if nC < 4 then coeffTokenV1
  else coeffTokenV2

/-- maxTC(nC) (43_cavlc.md R234). -/
def maxTotalCoeff (nC : Int) : Nat := if nC = -1 then 4 else if nC = -2 then 8 else 16

/-- `ReadCoeffToken(nC)`: (TrailingOnes, TotalCoeff) (43_cavlc.md R233). -/
def readCoeffToken (rd : Nat → Byte) (nC : Int) (c : Cursor) : Except Code ((Nat × Nat) × Cursor) :=
  if 8 ≤ nC then do
    let (v, d) ← readBits rd 6 c
    if v = 3 then return ((0, 0), d)
    else
      require (v % 4 ≤ min 3 (v / 4 + 1)) .eproto
      return ((v % 4, v / 4 + 1), d)
  else readCodeword rd (coeffTokenTable nC) 16 0 0 c

/-- `WriteCoeffToken(nC, T1, TC)` (43_cavlc.md R234). -/
def writeCoeffToken (p : Params) (nC : Int) (t1 tc : Nat) (t : Stream) : Except Code Stream :=
  if 8 ≤ nC then writeBits p (if tc = 0 then 3 else 4 * (tc - 1) + t1) 6 t
  else writeCodeword p (coeffTokenTable nC) (t1, tc) t

/-- `NextSL(sL, levelVal)` (43_cavlc.md R235). -/
def nextSuffixLength (sL : Nat) (levelVal : Int) : Nat :=
  let n := if sL = 0 then 1 else sL
  if levelVal.natAbs > 3 * 2 ^ (n - 1) ∧ n < 6 then n + 1 else n

/-- The number of suffix bits after level_prefix p (43_cavlc.md R235). -/
def levelSuffixSize (sL p : Nat) : Nat := if p = 14 ∧ sL = 0 then 4 else if p ≥ 15 then p - 3 else sL

/-- levelCode from level_prefix and level_suffix (43_cavlc.md R235). -/
def levelCodeOf (sL : Nat) (off : Bool) (p suffix : Nat) : Nat :=
  min 15 p * 2 ^ sL + suffix + (if p ≥ 15 ∧ sL = 0 then 15 else 0) +
    (if p ≥ 16 then 2 ^ (p - 3) - 4096 else 0) + (if off then 2 else 0)

/-- levelVal from levelCode (43_cavlc.md R235). -/
def levelValOf (levelCode : Nat) : Int :=
  if levelCode % 2 = 0 then ((levelCode : Int) + 2) / 2 else (-(levelCode : Int) - 1) / 2

/-- `ReadLevel(sL, off)`: (levelVal, new suffixLength), the prefix at most `maxPrefix` (43_cavlc.md R235). -/
def readLevel (rd : Nat → Byte) (maxPrefix sL : Nat) (off : Bool) (c : Cursor) :
    Except Code ((Int × Nat) × Cursor) := do
  let (p, d) ← readZeroRun rd maxPrefix 0 c
  let (suffix, e) ← readBits rd (levelSuffixSize sL p) d
  let v := levelValOf (levelCodeOf sL off p suffix)
  return ((v, nextSuffixLength sL v), e)

/-- levelCode of a non-zero levelVal; 0 or more whenever the caller keeps R235's guarantee (43_cavlc.md R235). -/
def levelCodeFor (off : Bool) (v : Int) : Nat :=
  ((if 0 < v then 2 * v - 2 else -2 * v - 1) - (if off then 2 else 0)).toNat

/-- The least p, counted up from the one given, with x < 2^(p-2) - 4096 (43_cavlc.md R235). -/
def escapePrefix : Nat → Nat → Nat → Nat
  | 0, p, _ => p
  | fuel + 1, p, x => if x + 4096 < 2 ^ (p - 2) then p else escapePrefix fuel (p + 1) x

/-- level_prefix, the size of level_suffix and level_suffix of a level code (43_cavlc.md R235). -/
def levelFields (sL levelCode : Nat) : Nat × Nat × Nat :=
  let base := 15 * 2 ^ sL + (if sL = 0 then 15 else 0)
  if sL = 0 ∧ levelCode < 14 then (levelCode, 0, 0)
  else if sL = 0 ∧ levelCode < 30 then (14, 4, levelCode - 14)
  else if 0 < sL ∧ levelCode < 15 * 2 ^ sL then (levelCode / 2 ^ sL, sL, levelCode % 2 ^ sL)
  else
    let x := levelCode - base
    let p := escapePrefix 24 15 x
    (p, p - 3, x + 4096 - 2 ^ (p - 3))

/-- `WriteLevel(sL, off, levelVal)`: the new suffixLength beside the stream (43_cavlc.md R235). -/
def writeLevel (p : Params) (sL : Nat) (off : Bool) (v : Int) (t : Stream) : Except Code (Nat × Stream) := do
  let (pre, size, suffix) := levelFields sL (levelCodeFor off v)
  require (pre ≤ p.maxLevelPrefix) .eproto
  let t1 ← writeBits p 0 pre t
  let t2 ← putBit1 p true t1
  let t3 ← writeBits p suffix size t2
  return (nextSuffixLength sL v, t3)

/-- The total_zeros table of maxNumCoeff m, row t (43_cavlc.md R238). -/
def totalZerosTable (m t : Nat) : List (Vlc Nat) :=
  if m = 4 then totalZeros2x2 t else if m = 8 then totalZeros2x4 t else totalZeros4x4 t

/-- tzMax(m) (43_cavlc.md R239). -/
def tzMax (m : Nat) : Nat := if m = 4 then 3 else if m = 8 then 7 else 15

/-- `ReadTotalZeros(t, m)` (43_cavlc.md R239). -/
def readTotalZeros (rd : Nat → Byte) (t m : Nat) (c : Cursor) : Except Code (Nat × Cursor) := do
  let (tz, d) ← readCodeword rd (totalZerosTable m t) 9 0 0 c
  require (tz + t ≤ m) .eproto
  return (tz, d)

/-- `ReadRunBefore(zl)` (43_cavlc.md R242). -/
def readRunBefore (rd : Nat → Byte) (zl : Nat) (c : Cursor) : Except Code (Nat × Cursor) := do
  let (r, d) ← readCodeword rd (runBefore (min zl 7)) 11 0 0 c
  require (r ≤ zl) .eproto
  return (r, d)

/-- The first suffixLength of a residual block (43_cavlc.md R244). -/
def firstSuffixLength (t1 tc : Nat) : Nat := if tc > 10 ∧ t1 < 3 then 1 else 0

/-- The levels of a residual block from index `i` on, `n` of them (43_cavlc.md R244). -/
def readLevels (rd : Nat → Byte) (maxPrefix t1 : Nat) : Nat → Nat → Nat → Cursor → Except Code (List Int × Cursor)
  | 0, _, _, c => .ok ([], c)
  | n + 1, i, sL, c => do
    if i < t1 then
      let (b, d) ← getBit rd c
      let (ls, e) ← readLevels rd maxPrefix t1 n (i + 1) sL d
      return ((if b then -1 else 1) :: ls, e)
    else
      let ((v, sL2), d) ← readLevel rd maxPrefix sL (decide (i = t1 ∧ t1 < 3)) c
      let (ls, e) ← readLevels rd maxPrefix t1 n (i + 1) sL2 d
      return (v :: ls, e)

/-- One run of a residual block: none is coded when no zeros are left (43_cavlc.md R244). -/
def readRun (rd : Nat → Byte) (zl : Nat) (c : Cursor) : Except Code (Nat × Cursor) :=
  if 0 < zl then readRunBefore rd zl c else .ok (0, c)

/-- total_zeros of a residual block of n positions: none is coded when every position is used (43_cavlc.md R244). -/
def readBlockZeros (rd : Nat → Byte) (tc n m : Nat) (c : Cursor) : Except Code (Nat × Cursor) :=
  if tc < n then readTotalZeros rd tc m c else .ok (0, c)

/-- The runs of a residual block: `n` read ones, then the zeros left as the last (43_cavlc.md R244). -/
def readRuns (rd : Nat → Byte) : Nat → Nat → Cursor → Except Code (List Nat × Cursor)
  | 0, zl, c => .ok ([zl], c)
  | n + 1, zl, c => do
    let (r, d) ← readRun rd zl c
    let (rs, e) ← readRuns rd n (zl - r) d
    return (r :: rs, e)

/-- Placing (level, run) pairs, the lowest position first, from position `pos` on (43_cavlc.md R244). -/
def placeLevels : List (Int × Nat) → Nat → Vector Word 16 → Vector Word 16
  | [], _, coef => coef
  | (v, run) :: rest, pos, coef => placeLevels rest (pos + run + 1) (coef.setIfInBounds (pos + run) (intWord v))

/-- What a residual command leaves in COEF and reports: TrailingOnes and TotalCoeff (43_cavlc.md R244). -/
structure Residual where
  t1 : Nat
  tc : Nat
  coef : Vector Word 16
deriving DecidableEq, Repr

/-- `ReadResidual(nC, s, e, m)` with first = s and n = e - s + 1 (43_cavlc.md R244). -/
def readResidual (rd : Nat → Byte) (maxPrefix : Nat) (nC : Int) (first n m : Nat) (c : Cursor) :
    Except Code (Residual × Cursor) := do
  let zeros : Vector Word 16 := Vector.replicate 16 0
  let ((t1, tc), c1) ← readCoeffToken rd nC c
  require (tc ≤ n) .eproto
  if tc = 0 then return (⟨t1, tc, zeros⟩, c1)
  else
    let (levels, c2) ← readLevels rd maxPrefix t1 tc 0 (firstSuffixLength t1 tc) c1
    let (tz, c3) ← readBlockZeros rd tc n m c2
    require (tz + tc ≤ n) .eproto
    let (runs, c4) ← readRuns rd (tc - 1) tz c3
    return (⟨t1, tc, placeLevels (levels.zip runs).reverse first zeros⟩, c4)

/-- The indices j in first..first+n-1 with COEF[j] non-zero, in decreasing order (43_cavlc.md R244). -/
def nonzeroPositions (coef : Nat → Word) (first n : Nat) : List Nat :=
  (((List.range n).map (first + ·)).filter fun j => decide (coef j ≠ 0)).reverse

/-- The number of leading levels of magnitude 1, at most `room` (43_cavlc.md R244). -/
def leadingOnes : Nat → List Int → Nat
  | 0, _ => 0
  | _ + 1, [] => 0
  | room + 1, v :: vs => if v.natAbs = 1 then leadingOnes room vs + 1 else 0

/-- Writing the levels of a residual block from index `i` on (43_cavlc.md R244). -/
def writeLevels (p : Params) (t1 : Nat) : List Int → Nat → Nat → Stream → Except Code Stream
  | [], _, _, t => .ok t
  | v :: vs, i, sL, t =>
    if i < t1 then do
      let u ← putBit1 p (decide (v < 0)) t
      writeLevels p t1 vs (i + 1) sL u
    else do
      let (sL2, u) ← writeLevel p sL (decide (i = t1 ∧ t1 < 3)) v t
      writeLevels p t1 vs (i + 1) sL2 u

/-- Writing one run: none is coded when no zeros are left (43_cavlc.md R244). -/
def writeRun (p : Params) (zl r : Nat) (t : Stream) : Except Code Stream :=
  if 0 < zl then writeCodeword p (runBefore (min zl 7)) r t else .ok t

/-- Writing total_zeros of a block of n positions: none is coded when every position is used (43_cavlc.md R244). -/
def writeBlockZeros (p : Params) (tc n m tz : Nat) (t : Stream) : Except Code Stream :=
  if tc < n then writeCodeword p (totalZerosTable m tc) tz t else .ok t

/-- Writing the runs between decreasing positions, `zl` zeros left (43_cavlc.md R244). -/
def writeRuns (p : Params) : List Nat → Nat → Stream → Except Code Stream
  | a :: b :: rest, zl, t => do
    let u ← writeRun p zl (a - b - 1) t
    writeRuns p (b :: rest) (zl - (a - b - 1)) u
  | _, _, t => .ok t

/-- `WriteResidual(nC, s, e, m)` with first = s and n = e - s + 1: (T1, TC) beside the stream (43_cavlc.md R244). -/
def writeResidual (p : Params) (nC : Int) (first n m : Nat) (coef : Nat → Word) (t : Stream) :
    Except Code ((Nat × Nat) × Stream) := do
  let pos := nonzeroPositions coef first n
  let tc := pos.length
  require (tc ≤ maxTotalCoeff nC) .einval
  let levels := pos.map fun j => sext32 (coef j)
  let t1 := leadingOnes 3 levels
  let u1 ← writeCoeffToken p nC t1 tc t
  if tc = 0 then return ((t1, tc), u1)
  else
    let u2 ← writeLevels p t1 levels 0 (firstSuffixLength t1 tc) u1
    let tz := pos.headD 0 - first + 1 - tc
    let u3 ← writeBlockZeros p tc n m tz u2
    let u4 ← writeRuns p pos tz u3
    return ((t1, tc), u4)

/-- `CheckResidualSetup()`: the nC to use (43_cavlc.md R245). -/
def checkResidualSetup (kind : Nat) (store ncx : Bool) (blkIdx : Nat) (s : State) : Except Code Int := do
  let first := s.a0.toNat
  let last := s.a1.toNat
  let m := s.a2.toNat
  require (ncx = true ∨ (kindNeeds s.geom.cat kind ∧ s.geom.valid ∧ s.currValid)) .estate
  require (store = false ∨ s.currValid) .estate
  require (kind ≤ 5 ∧ blkIdx < kindRange s.geom.cat kind) .einval
  require ((m = 4 ∨ m = 8 ∨ m = 15 ∨ m = 16) ∧ first ≤ last ∧ last ≤ m - 1) .einval
  require (if kind = 5 then (m = 4 ∨ m = 8) ∧ store = false else m = 15 ∨ m = 16) .einval
  if ncx then
    let nC := sext32 s.a3
    require (-2 ≤ nC ∧ nC ≤ 16) .einval
    require (nC < 0 ↔ kind = 5) .einval
    require ((nC ≠ -1 ∨ m = 4) ∧ (nC ≠ -2 ∨ m = 8)) .einval
    return nC
  else
    let nC ← s.deriveNC kind blkIdx
    require (kind ≠ 5 ∨ m = if s.geom.cat = 1 then 4 else 8) .einval
    return nC

/-- The STORE side of the residual commands (43_cavlc.md R245). -/
def State.storeTotalCoeff (s : State) (store : Bool) (kind blkIdx tc : Nat) : State :=
  if store then s.storeNz s.currMbAddr.toNat (kindComponent kind) blkIdx tc else s

/-- The rule of CV_NC (43_cavlc.md R231). -/
def ruleCvNc (kind blkIdx : Nat) (s : State) : Except Code State := do
  require (kindNeeds s.geom.cat kind) .estate
  require (s.geom.valid ∧ s.currValid) .estate
  require (kind ≤ 5 ∧ blkIdx < kindRange s.geom.cat kind) .einval
  let nC ← s.deriveNC kind blkIdx
  return { s with y0 := intWord nC }

/-- The rule of CV_RDTOKEN (43_cavlc.md R233). -/
def ruleCvRdtoken (s : State) : Except Code State := do
  require (s.cur.mode = .dec) .estate
  let nC := sext32 s.a0
  require (-2 ≤ nC ∧ nC ≤ 16) .einval
  let ((t1, tc), c) ← readCoeffToken s.bufByte nC s.cur
  return { s with cur := c, y0 := natWord t1, y1 := natWord tc }

/-- The rule of CV_WRTOKEN (43_cavlc.md R234). -/
def ruleCvWrtoken (s : State) : Except Code State := do
  require (s.cur.mode = .enc) .estate
  let nC := sext32 s.a0
  let t1 := s.a1.toNat
  let tc := s.a2.toNat
  require (-2 ≤ nC ∧ nC ≤ 16) .einval
  require (tc ≤ maxTotalCoeff nC ∧ t1 ≤ min 3 tc) .einval
  let t ← writeCoeffToken s.params nC t1 tc s.stream
  return s.setStream t

/-- The rule of CV_RDLEVEL (43_cavlc.md R236). -/
def ruleCvRdlevel (s : State) : Except Code State := do
  require (s.cur.mode = .dec) .estate
  require (s.a0.toNat ≤ 6 ∧ s.a1.toNat ≤ 1) .einval
  let ((v, sL), c) ← readLevel s.bufByte s.params.maxLevelPrefix s.a0.toNat (decide (s.a1 = 1)) s.cur
  return { s with cur := c, y0 := intWord v, y1 := natWord sL }

/-- The rule of CV_WRLEVEL (43_cavlc.md R237). -/
def ruleCvWrlevel (s : State) : Except Code State := do
  require (s.cur.mode = .enc) .estate
  let v := sext32 s.a2
  require (s.a0.toNat ≤ 6 ∧ s.a1.toNat ≤ 1 ∧ v ≠ 0) .einval
  require (¬(s.a1 = 1 ∧ v.natAbs = 1)) .einval
  let (sL, t) ← writeLevel s.params s.a0.toNat (decide (s.a1 = 1)) v s.stream
  return { s.setStream t with y1 := natWord sL }

/-- The rule of CV_RDTZ (43_cavlc.md R239). -/
def ruleCvRdtz (s : State) : Except Code State := do
  require (s.cur.mode = .dec) .estate
  let t := s.a0.toNat
  let m := s.a1.toNat
  require (m = 4 ∨ m = 8 ∨ m = 15 ∨ m = 16) .einval
  require (1 ≤ t ∧ t ≤ tzMax m) .einval
  let (tz, c) ← readTotalZeros s.bufByte t m s.cur
  return { s with cur := c, y0 := natWord tz }

/-- The rule of CV_WRTZ (43_cavlc.md R240). -/
def ruleCvWrtz (s : State) : Except Code State := do
  require (s.cur.mode = .enc) .estate
  let t := s.a0.toNat
  let m := s.a1.toNat
  let tz := s.a2.toNat
  require ((m = 4 ∨ m = 8 ∨ m = 15 ∨ m = 16) ∧ 1 ≤ t ∧ t ≤ tzMax m ∧ tz + t ≤ m) .einval
  let u ← writeCodeword s.params (totalZerosTable m t) tz s.stream
  return s.setStream u

/-- The rule of CV_RDRUN (43_cavlc.md R242). -/
def ruleCvRdrun (s : State) : Except Code State := do
  require (s.cur.mode = .dec) .estate
  require (1 ≤ s.a0.toNat ∧ s.a0.toNat ≤ 15) .einval
  let (r, c) ← readRunBefore s.bufByte s.a0.toNat s.cur
  return { s with cur := c, y0 := natWord r }

/-- The rule of CV_WRRUN (43_cavlc.md R243). -/
def ruleCvWrrun (s : State) : Except Code State := do
  require (s.cur.mode = .enc) .estate
  let zl := s.a0.toNat
  let r := s.a1.toNat
  require (1 ≤ zl ∧ zl ≤ 15 ∧ r ≤ min zl 14) .einval
  let u ← writeCodeword s.params (runBefore (min zl 7)) r s.stream
  return s.setStream u

/-- The rule of CV_RDRES (43_cavlc.md R245). -/
def ruleCvRdres (kind : Nat) (store ncx : Bool) (blkIdx : Nat) (s : State) : Except Code State := do
  require (s.cur.mode = .dec) .estate
  let nC ← checkResidualSetup kind store ncx blkIdx s
  let (r, c) ← readResidual s.bufByte s.params.maxLevelPrefix nC s.a0.toNat (s.a1.toNat - s.a0.toNat + 1)
    s.a2.toNat s.cur
  return { s.storeTotalCoeff store kind blkIdx r.tc with
    cur := c
    coef := r.coef
    y0 := natWord r.tc
    y1 := natWord r.t1
    y2 := intWord nC }

/-- The rule of CV_WRRES (43_cavlc.md R246). -/
def ruleCvWrres (kind : Nat) (store ncx : Bool) (blkIdx : Nat) (s : State) : Except Code State := do
  require (s.cur.mode = .enc) .estate
  let nC ← checkResidualSetup kind store ncx blkIdx s
  let ((t1, tc), t) ← writeResidual s.params nC s.a0.toNat (s.a1.toNat - s.a0.toNat + 1) s.a2.toNat s.coefAt s.stream
  return { (s.storeTotalCoeff store kind blkIdx tc).setStream t with
    y0 := natWord tc
    y1 := natWord t1
    y2 := intWord nC }

/-- The coded_block_pattern column for ChromaArrayType `cat` (43_cavlc.md R247). -/
def cbpColumn (cat : Nat) (intra : Bool) : List Nat :=
  if cat = 1 ∨ cat = 2 then (if intra then cbp48Intra else cbp48Inter)
  else (if intra then cbp16Intra else cbp16Inter)

/-- The rule of CV_RDCBP (43_cavlc.md R248). -/
def ruleCvRdcbp (intra : Bool) (s : State) : Except Code State := do
  require (s.cur.mode = .dec) .estate
  let (k, c) ← readUE s.bufByte s.cur
  match (cbpColumn s.geom.cat intra)[k]? with
  | some v => return { s with cur := c, y0 := natWord v }
  | none => .error .eproto

/-- The rule of CV_WRCBP (43_cavlc.md R249). -/
def ruleCvWrcbp (intra : Bool) (s : State) : Except Code State := do
  require (s.cur.mode = .enc) .estate
  let column := cbpColumn s.geom.cat intra
  require (s.a0.toNat < column.length) .einval
  let t ← writeUE s.params (column.idxOf s.a0.toNat) s.stream
  return s.setStream t

/-- CV_NC (43_cavlc.md R231). -/
def execCvNc (kind blkIdx : Nat) (s : State) : Host.Outcome State Fault Refusal :=
  runCommand (Instr.cvNc kind blkIdx).opcode (ruleCvNc kind blkIdx) s

/-- CV_RDTOKEN (43_cavlc.md R233). -/
def execCvRdtoken (s : State) : Host.Outcome State Fault Refusal := runCommand Instr.cvRdtoken.opcode ruleCvRdtoken s

/-- CV_WRTOKEN (43_cavlc.md R234). -/
def execCvWrtoken (s : State) : Host.Outcome State Fault Refusal := runCommand Instr.cvWrtoken.opcode ruleCvWrtoken s

/-- CV_RDLEVEL (43_cavlc.md R236). -/
def execCvRdlevel (s : State) : Host.Outcome State Fault Refusal := runCommand Instr.cvRdlevel.opcode ruleCvRdlevel s

/-- CV_WRLEVEL (43_cavlc.md R237). -/
def execCvWrlevel (s : State) : Host.Outcome State Fault Refusal := runCommand Instr.cvWrlevel.opcode ruleCvWrlevel s

/-- CV_RDTZ (43_cavlc.md R239). -/
def execCvRdtz (s : State) : Host.Outcome State Fault Refusal := runCommand Instr.cvRdtz.opcode ruleCvRdtz s

/-- CV_WRTZ (43_cavlc.md R240). -/
def execCvWrtz (s : State) : Host.Outcome State Fault Refusal := runCommand Instr.cvWrtz.opcode ruleCvWrtz s

/-- CV_RDRUN (43_cavlc.md R242). -/
def execCvRdrun (s : State) : Host.Outcome State Fault Refusal := runCommand Instr.cvRdrun.opcode ruleCvRdrun s

/-- CV_WRRUN (43_cavlc.md R243). -/
def execCvWrrun (s : State) : Host.Outcome State Fault Refusal := runCommand Instr.cvWrrun.opcode ruleCvWrrun s

/-- CV_RDRES (43_cavlc.md R245). -/
def execCvRdres (kind : Nat) (store ncx : Bool) (blkIdx : Nat) (s : State) : Host.Outcome State Fault Refusal :=
  runCommand (Instr.cvRdres kind store ncx blkIdx).opcode (ruleCvRdres kind store ncx blkIdx) s

/-- CV_WRRES (43_cavlc.md R246). -/
def execCvWrres (kind : Nat) (store ncx : Bool) (blkIdx : Nat) (s : State) : Host.Outcome State Fault Refusal :=
  runCommand (Instr.cvWrres kind store ncx blkIdx).opcode (ruleCvWrres kind store ncx blkIdx) s

/-- CV_RDCBP (43_cavlc.md R248). -/
def execCvRdcbp (intra : Bool) (s : State) : Host.Outcome State Fault Refusal :=
  runCommand (Instr.cvRdcbp intra).opcode (ruleCvRdcbp intra) s

/-- CV_WRCBP (43_cavlc.md R249). -/
def execCvWrcbp (intra : Bool) (s : State) : Host.Outcome State Fault Refusal :=
  runCommand (Instr.cvWrcbp intra).opcode (ruleCvWrcbp intra) s

end Sys2Proof.Machine
end

