-- ==== Sys2Proof/Machine/Control.lean ====
section
/-!
DEFINITION. The control commands NOP, RESET, CSR_RD and CSR_WR (40_control.md R140 to R143) and the CSR map
(10_state.md R40).
-/

namespace Sys2Proof.Machine

/-- CSR PIC_SIZE_MBS: PicSizeInMbs where it fits 32 bits; otherwise a free value, since the spec states none. -/
def Geometry.picSizeCsr (g : Geometry) : Word :=
  if g.picSizeInMbs < 2 ^ 32 then natWord g.picSizeInMbs else Config.picSizeOverflow g.picSizeInMbs

/-- The slice-group CSRs with an index, 0x050 to 0x067 (10_state.md R40). -/
def SliceGroups.indexedCsr (sg : SliceGroups) (csr : Nat) : Option Word :=
  if 0x050 ≤ csr ∧ csr ≤ 0x057 then sg.runLengthMinus1[csr - 0x050]?
  else if 0x058 ≤ csr ∧ csr ≤ 0x05F then sg.topLeft[csr - 0x058]?
  else if 0x060 ≤ csr ∧ csr ≤ 0x067 then sg.bottomRight[csr - 0x060]?
  else none

/-- The value of a CSR, every bit outside its fields 0; none for an unassigned number (10_state.md R40, R43). -/
def State.csrValue (s : State) (csr : Nat) : Option Word :=
  match csr with
  | 0x000 => some (natWord s.status.toNat)
  | 0x001 => some (natWord (s.cur.mode.toNat + 4 * s.cur.ep.toNat + 8 * s.cur.grow.toNat))
  | 0x002 => some s.cur.len
  | 0x003 => some s.cur.cap
  | 0x004 => some s.cur.off
  | 0x005 => some (natWord (s.cur.cache.toNat + 256 * s.cur.cnt))
  | 0x006 => some (natWord s.cur.zeros)
  | 0x007 => some s.cur.bits
  | 0x010 => some (natWord s.enc.low.toNat)
  | 0x011 => some (natWord s.enc.range.toNat)
  | 0x012 => some s.enc.outstanding
  | 0x013 => some (boolWord s.enc.first)
  | 0x014 => some (natWord s.dec.range.toNat)
  | 0x015 => some (natWord s.dec.offset.toNat)
  | 0x016 => some (natWord (s.enc.active.toNat + 2 * s.dec.active.toNat))
  | 0x017 => some (natWord s.binLen)
  | 0x020 => some (natWord s.geom.width)
  | 0x021 => some (natWord s.geom.heightMapUnits)
  | 0x022 => some (boolWord s.geom.frameMbsOnly)
  | 0x023 => some (boolWord s.geom.mbaffEnable)
  | 0x024 => some (boolWord s.geom.fieldPic)
  | 0x025 => some (natWord s.geom.cat)
  | 0x026 => some (boolWord s.geom.cipDp)
  | 0x027 => some s.currMbAddr
  | 0x028 => some (boolWord s.geom.valid)
  | 0x029 => some (boolWord s.currValid)
  | 0x030 => some (boolWord s.geom.mbaffFrame)
  | 0x031 => some (natWord s.geom.frameHeightInMbs)
  | 0x032 => some (natWord s.geom.picHeightInMbs)
  | 0x033 => some s.geom.picSizeCsr
  | 0x034 => some (natWord s.geom.picSizeInMapUnits)
  | 0x035 => some (natWord (s.geom.width * 16))
  | 0x036 => some (natWord (s.geom.frameHeightInMbs * 16))
  | 0x037 => some (natWord s.geom.mbWidthC)
  | 0x038 => some (natWord s.geom.mbHeightC)
  | 0x040 => some (natWord s.sg.numMinus1.toNat)
  | 0x041 => some (natWord s.sg.mapType.val)
  | 0x042 => some (boolWord s.sg.changeDir)
  | 0x043 => some s.sg.changeRateMinus1
  | 0x044 => some s.sg.changeCycle
  | 0x045 => some (boolWord s.sg.mapValid)
  | 0x046 => some (natWord (s.sg.mapUnitsInGroup0 s.geom.picSizeInMapUnits))
  | 0x047 => some (natWord s.sg.changeRate)
  | n => s.sg.indexedCsr n

/-- Writing a geometry CSR, none where the number or the value is not legal (10_state.md R40). -/
def Geometry.writeCsr (g : Geometry) (csr : Nat) (v : Word) : Option Geometry :=
  let n := v.toNat
  match csr with
  | 0x020 => if 1 ≤ n ∧ n ≤ 65535 then some { g with picWidthMbs := BitVec.ofNat 16 n } else none
  | 0x021 => if 1 ≤ n ∧ n ≤ 65535 then some { g with picHeightMapUnits := BitVec.ofNat 16 n } else none
  | 0x022 => if n ≤ 1 then some { g with frameMbsOnly := decide (n = 1) } else none
  | 0x023 => if n ≤ 1 then some { g with mbaffEnable := decide (n = 1) } else none
  | 0x024 => if n ≤ 1 then some { g with fieldPic := decide (n = 1) } else none
  | 0x025 => if n ≤ 3 then some { g with chromaArrayType := BitVec.ofNat 2 n } else none
  | 0x026 => if n ≤ 1 then some { g with cipDp := decide (n = 1) } else none
  | _ => none

/-- Writing a slice-group CSR, none where the number or the value is not legal (10_state.md R40). -/
def SliceGroups.writeCsr (sg : SliceGroups) (csr : Nat) (v : Word) : Option SliceGroups :=
  let n := v.toNat
  match csr with
  | 0x040 => if n ≤ 7 then some { sg with numMinus1 := BitVec.ofNat 3 n } else none
  | 0x041 => if h : n < 7 then some { sg with mapType := ⟨n, h⟩ } else none
  | 0x042 => if n ≤ 1 then some { sg with changeDir := decide (n = 1) } else none
  | 0x043 => some { sg with changeRateMinus1 := v }
  | 0x044 => some { sg with changeCycle := v }
  | _ =>
    if 0x050 ≤ csr ∧ csr ≤ 0x057 then some { sg with runLengthMinus1 := sg.runLengthMinus1.setIfInBounds (csr - 0x050) v }
    else if 0x058 ≤ csr ∧ csr ≤ 0x05F then some { sg with topLeft := sg.topLeft.setIfInBounds (csr - 0x058) v }
    else if 0x060 ≤ csr ∧ csr ≤ 0x067 then some { sg with bottomRight := sg.bottomRight.setIfInBounds (csr - 0x060) v }
    else none

/-- CSR_WR's effect with its side effects on the MB info table and SG_MAP_VALID; EINVAL, with nothing written, for
an unassigned or read-only number or a value that is not legal (40_control.md R143, 10_state.md R40). -/
def State.csrWrite (s : State) (csr : Nat) (v : Word) : Except Code State :=
  match s.geom.writeCsr csr v with
  | some g => .ok ({ s with geom := g }.clearMbTable.clearMapValid)
  | none =>
    match s.sg.writeCsr csr v with
    | some sg => .ok ({ s with sg := sg }.clearMapValid)
    | none => .error .einval

/-- The rule of CSR_RD (40_control.md R142). -/
def ruleCsrRd (csr : Nat) (s : State) : Except Code State :=
  match s.csrValue csr with
  | some v => .ok { s with y0 := v }
  | none => .error .einval

/-- NOP, accepted while FAULT = 1 (40_control.md R140). -/
def execNop (s : State) : Host.Outcome State Fault Refusal := runRule Instr.nop.opcode (fun s => .ok s) s

/-- RESET, accepted while FAULT = 1 (40_control.md R141). -/
def execReset (s : State) : Host.Outcome State Fault Refusal := .next s.recover

/-- CSR_RD, accepted while FAULT = 1 (40_control.md R142). -/
def execCsrRd (csr : Nat) (s : State) : Host.Outcome State Fault Refusal :=
  runRule (Instr.csrRd csr).opcode (ruleCsrRd csr) s

/-- CSR_WR (40_control.md R143). -/
def execCsrWr (csr : Nat) (s : State) : Host.Outcome State Fault Refusal :=
  runCommand (Instr.csrWr csr).opcode (fun s => s.csrWrite csr s.a0) s

end Sys2Proof.Machine
end

