-- ==== Sys2Proof/Machine/SliceGroup.lean ====
section
/-!
DEFINITION. The slice-group map commands (47_slice_group_map.md R370 to R383). A map is computed as the list of its
values for i = 0, 1, ...
-/

namespace Sys2Proof.Machine

/-- num = SG_NUM_MINUS1 (47_slice_group_map.md). -/
def SliceGroups.num (sg : SliceGroups) : Nat := sg.numMinus1.toNat

/-- run_length_minus1[g] (47_slice_group_map.md R372). -/
def SliceGroups.runLengthAt (sg : SliceGroups) (g : Nat) : Nat := ((sg.runLengthMinus1[g]?).getD 0).toNat

/-- top_left[g] (47_slice_group_map.md R374). -/
def SliceGroups.topLeftAt (sg : SliceGroups) (g : Nat) : Nat := ((sg.topLeft[g]?).getD 0).toNat

/-- bottom_right[g] (47_slice_group_map.md R374). -/
def SliceGroups.bottomRightAt (sg : SliceGroups) (g : Nat) : Nat := ((sg.bottomRight[g]?).getD 0).toNat

/-- Map type 0 from one map unit on: `n` units to write, the present one in group `g` with `left` more of its run to
follow; the runs of groups 0..num repeat (47_slice_group_map.md R372). -/
def interleavedMap (sg : SliceGroups) : Nat → Nat → Nat → List Nat
  | 0, _, _ => []
  | n + 1, g, 0 =>
    let next := if g = sg.num then 0 else g + 1
    g :: interleavedMap sg n next (sg.runLengthAt next)
  | n + 1, g, left + 1 => g :: interleavedMap sg n g left

/-- Map type 1 at map unit i (47_slice_group_map.md R373). -/
def dispersedGroup (num w i : Nat) : Nat := (i % w + ((i / w) * (num + 1)) / 2) % (num + 1)

/-- Map unit i lies in the rectangle of group g (47_slice_group_map.md R374). -/
def SliceGroups.inRectangle (sg : SliceGroups) (w g i : Nat) : Bool :=
  decide (sg.topLeftAt g / w ≤ i / w) && decide (i / w ≤ sg.bottomRightAt g / w) &&
    decide (sg.topLeftAt g % w ≤ i % w) && decide (i % w ≤ sg.bottomRightAt g % w)

/-- Map type 2 at map unit i: the lowest group whose rectangle holds it, which is the one written last, else num
(47_slice_group_map.md R374). -/
def foregroundGroup (sg : SliceGroups) (w i : Nat) : Nat :=
  ((List.range sg.num).find? fun g => sg.inRectangle w g i).getD sg.num

/-- The variables of the box-out loop (47_slice_group_map.md R375). -/
structure BoxOut where
  map : List Nat
  x : Int
  y : Int
  left : Int
  top : Int
  right : Int
  bottom : Int
  xDir : Int
  yDir : Int
  k : Nat
deriving DecidableEq, Repr

/-- The box-out loop's start for `n` = W * H map units (47_slice_group_map.md R375). -/
def BoxOut.start (w h d : Nat) : BoxOut where
  map := List.replicate (w * h) 1
  x := (w - d) / 2
  y := (h - d) / 2
  left := (w - d) / 2
  top := (h - d) / 2
  right := (w - d) / 2
  bottom := (h - d) / 2
  xDir := (d : Int) - 1
  yDir := d
  k := 0

/-- Moving on after a map unit (47_slice_group_map.md R375). -/
def BoxOut.move (w h d : Nat) (b : BoxOut) : BoxOut :=
  if b.xDir = -1 ∧ b.x = b.left then
    let l := max (b.left - 1) 0
    { b with left := l, x := l, xDir := 0, yDir := 2 * (d : Int) - 1 }
  else if b.xDir = 1 ∧ b.x = b.right then
    let r := min (b.right + 1) ((w : Int) - 1)
    { b with right := r, x := r, xDir := 0, yDir := 1 - 2 * (d : Int) }
  else if b.yDir = -1 ∧ b.y = b.top then
    let t := max (b.top - 1) 0
    { b with top := t, y := t, xDir := 1 - 2 * (d : Int), yDir := 0 }
  else if b.yDir = 1 ∧ b.y = b.bottom then
    let t := min (b.bottom + 1) ((h : Int) - 1)
    { b with bottom := t, y := t, xDir := 2 * (d : Int) - 1, yDir := 0 }
  else { b with x := b.x + b.xDir, y := b.y + b.yDir }

/-- One turn of the box-out loop (47_slice_group_map.md R375). -/
def BoxOut.turn (w h d : Nat) (b : BoxOut) : BoxOut :=
  let i := (b.y * w + b.x).toNat
  let vacant := b.map[i]? == some 1
  let moved := BoxOut.move w h d { b with map := if vacant then b.map.set i 0 else b.map }
  { moved with k := b.k + vacant.toNat }

/-- The box-out loop until M0 map units are 0 (47_slice_group_map.md R375). The turns it needs stay below the fuel
`boxOutMap` gives it (Laws/BoxOut.lean). -/
def BoxOut.run (w h d m0 : Nat) : Nat → BoxOut → BoxOut
  | 0, b => b
  | fuel + 1, b => if b.k < m0 then BoxOut.run w h d m0 fuel (b.turn w h d) else b

/-- Map type 3 (47_slice_group_map.md R375). -/
def boxOutMap (w h d m0 : Nat) : List Nat :=
  (BoxOut.run w h d m0 (4 * (w + h + 2) ^ 2) (BoxOut.start w h d)).map

/-- sizeOfUpperLeftGroup (47_slice_group_map.md R376). -/
def upperLeftSize (dir : Bool) (n m0 : Nat) : Nat := if dir then n - m0 else m0

/-- Map types 4 and 5 at the k-th map unit of their scan (47_slice_group_map.md R376, R377). -/
def scanGroup (dir : Bool) (size k : Nat) : Nat := if k < size then dir.toNat else 1 - dir.toNat

/-- mapUnitToSliceGroupMap[0..N-1] (47_slice_group_map.md R372 to R378). -/
def SliceGroups.unitMap (sg : SliceGroups) (w h : Nat) : List Nat :=
  let n := w * h
  let m0 := sg.mapUnitsInGroup0 n
  if sg.num = 0 then List.replicate n 0
  else
    match sg.mapType with
    | 0 => interleavedMap sg n 0 (sg.runLengthAt 0)
    | 1 => (List.range n).map (dispersedGroup sg.num w)
    | 2 => (List.range n).map (foregroundGroup sg w)
    | 3 => boxOutMap w h sg.changeDir.toNat m0
    | 4 => (List.range n).map (scanGroup sg.changeDir (upperLeftSize sg.changeDir n m0))
    | 5 => (List.range n).map fun i => scanGroup sg.changeDir (upperLeftSize sg.changeDir n m0) (i % w * h + i / w)
    | 6 => (List.range n).map fun i => (sg.groupId i).toNat

/-- The map unit whose group macroblock i takes (47_slice_group_map.md R379). -/
def Geometry.mapUnitOfMb (g : Geometry) (i : Nat) : Nat :=
  if g.frameMbsOnly ∨ g.fieldPic then i
  else if g.mbaffFrame then i / 2
  else (i / (2 * g.width)) * g.width + i % g.width

/-- MbToSliceGroupMap[0..PicSizeInMbs-1] of a map (47_slice_group_map.md R379). -/
def Geometry.mbMap (g : Geometry) (units : List Nat) : List Nat :=
  (List.range g.picSizeInMbs).map fun i => (units[g.mapUnitOfMb i]?).getD 0

/-- SG_GEN's check of the CSRs of its map type, when num > 0 (47_slice_group_map.md R381). -/
def SliceGroups.paramsOk (sg : SliceGroups) (w n : Nat) : Bool :=
  match sg.mapType with
  | 0 => (List.range (sg.num + 1)).all fun g => decide (sg.runLengthAt g + 1 ≤ n)
  | 1 => true
  | 2 => (List.range sg.num).all fun g =>
      decide (sg.topLeftAt g ≤ sg.bottomRightAt g) && decide (sg.bottomRightAt g < n) &&
        decide (sg.topLeftAt g % w ≤ sg.bottomRightAt g % w)
  | 3 => decide (sg.changeRateMinus1.toNat + 1 ≤ n)
  | 4 => decide (sg.changeRateMinus1.toNat + 1 ≤ n)
  | 5 => decide (sg.changeRateMinus1.toNat + 1 ≤ n)
  | 6 => (List.range n).all fun i => decide ((sg.groupId i).toNat ≤ sg.num)

/-- The rule of SG_IDWR (47_slice_group_map.md R380). -/
def ruleSgIdwr (s : State) : Except Code State := do
  require (s.a0.toNat < s.params.maxMapUnits ∧ s.a1.toNat ≤ 7) .einval
  return State.clearMapValid { s with sg := s.sg.setGroupId s.a0.toNat (BitVec.ofNat 3 s.a1.toNat) }

/-- The rule of SG_GEN (47_slice_group_map.md R381). -/
def ruleSgGen (s : State) : Except Code State := do
  let g := s.geom
  let n := g.picSizeInMapUnits
  require g.valid .estate
  require (n ≤ s.params.maxMapUnits ∧ g.picSizeInMbs ≤ 2 * s.params.maxMapUnits) .enomem
  require (s.sg.num = 0 ∨ s.sg.paramsOk g.width n) .eproto
  let units := s.sg.unitMap g.width g.heightMapUnits
  return { s with sg := { s.sg with
    mapUnits := overlay (units.map (BitVec.ofNat 3)) s.sg.mapUnits
    mbGroups := overlay ((g.mbMap units).map (BitVec.ofNat 3)) s.sg.mbGroups
    mapValid := true } }

/-- The rule of SG_MBGRP (47_slice_group_map.md R382). -/
def ruleSgMbgrp (s : State) : Except Code State := do
  require s.sg.mapValid .estate
  require (s.a0.toNat < s.geom.picSizeInMbs) .einval
  return { s with y0 := natWord (s.mbGroup s.a0.toNat).toNat }

/-- The search of SG_NEXT: the first of the `n` macroblocks from i on in group `g`, else the one after them
(47_slice_group_map.md R383). -/
def State.nextInGroup (s : State) (g : BitVec 3) : Nat → Nat → Nat
  | 0, i => i
  | n + 1, i => if s.mbGroup i = g then i else s.nextInGroup g n (i + 1)

/-- Y0 of SG_NEXT for the address `i` (47_slice_group_map.md R383). DESIGN CHOICE (notes/assumptions/7.md): the spec
states no value where i is 2^32 or more, which a picture of that many macroblocks reaches; a free value. -/
def nextAddrWord (i : Nat) : Word := if i < 2 ^ 32 then natWord i else Config.sgNextOverflow i

/-- The rule of SG_NEXT (47_slice_group_map.md R383; an address past Y0's 32 bits is `nextAddrWord`'s free value). -/
def ruleSgNext (s : State) : Except Code State := do
  require s.sg.mapValid .estate
  let n := s.a0.toNat
  let size := s.geom.picSizeInMbs
  require (n < size) .einval
  return { s with y0 := nextAddrWord (s.nextInGroup (s.mbGroup n) (size - (n + 1)) (n + 1)) }

/-- SG_IDWR (47_slice_group_map.md R380). -/
def execSgIdwr (s : State) : Host.Outcome State Fault Refusal := runCommand Instr.sgIdwr.opcode ruleSgIdwr s

/-- SG_GEN (47_slice_group_map.md R381). -/
def execSgGen (s : State) : Host.Outcome State Fault Refusal := runCommand Instr.sgGen.opcode ruleSgGen s

/-- SG_MBGRP (47_slice_group_map.md R382). -/
def execSgMbgrp (s : State) : Host.Outcome State Fault Refusal := runCommand Instr.sgMbgrp.opcode ruleSgMbgrp s

/-- SG_NEXT (47_slice_group_map.md R383). -/
def execSgNext (s : State) : Host.Outcome State Fault Refusal := runCommand Instr.sgNext.opcode ruleSgNext s

end Sys2Proof.Machine
end

