-- ==== Sys2Proof/Machine/Dispatch.lean ====
section
/-!
DEFINITION. One arm per command of spec/opcode_table.json, each one call of the command's meaning.
-/

namespace Sys2Proof.Machine

def exec (i : Instr) (s : State) : Host.Outcome State Fault Refusal :=
  match i with
  | .nop => Sys2Proof.Machine.execNop s
  | .reset => Sys2Proof.Machine.execReset s
  | .csrRd csr => Sys2Proof.Machine.execCsrRd csr s
  | .csrWr csr => Sys2Proof.Machine.execCsrWr csr s
  | .bcInit mode ep grow => Sys2Proof.Machine.execBcInit mode ep grow s
  | .bcRdu n => Sys2Proof.Machine.execBcRdu n s
  | .bcRds n => Sys2Proof.Machine.execBcRds n s
  | .bcWru n => Sys2Proof.Machine.execBcWru n s
  | .bcWrs n => Sys2Proof.Machine.execBcWrs n s
  | .bcAligned => Sys2Proof.Machine.execBcAligned s
  | .bcMore => Sys2Proof.Machine.execBcMore s
  | .bcRdbytes => Sys2Proof.Machine.execBcRdbytes s
  | .bcWrbytes => Sys2Proof.Machine.execBcWrbytes s
  | .egRdue => Sys2Proof.Machine.execEgRdue s
  | .egWrue => Sys2Proof.Machine.execEgWrue s
  | .egRdse => Sys2Proof.Machine.execEgRdse s
  | .egWrse => Sys2Proof.Machine.execEgWrse s
  | .egRdte => Sys2Proof.Machine.execEgRdte s
  | .egWrte => Sys2Proof.Machine.execEgWrte s
  | .cvNc blkKind blkIdx => Sys2Proof.Machine.execCvNc blkKind blkIdx s
  | .cvRdtoken => Sys2Proof.Machine.execCvRdtoken s
  | .cvWrtoken => Sys2Proof.Machine.execCvWrtoken s
  | .cvRdlevel => Sys2Proof.Machine.execCvRdlevel s
  | .cvWrlevel => Sys2Proof.Machine.execCvWrlevel s
  | .cvRdtz => Sys2Proof.Machine.execCvRdtz s
  | .cvWrtz => Sys2Proof.Machine.execCvWrtz s
  | .cvRdrun => Sys2Proof.Machine.execCvRdrun s
  | .cvWrrun => Sys2Proof.Machine.execCvWrrun s
  | .cvRdres blkKind store ncx blkIdx => Sys2Proof.Machine.execCvRdres blkKind store ncx blkIdx s
  | .cvWrres blkKind store ncx blkIdx => Sys2Proof.Machine.execCvWrres blkKind store ncx blkIdx s
  | .cvRdcbp intra => Sys2Proof.Machine.execCvRdcbp intra s
  | .cvWrcbp intra => Sys2Proof.Machine.execCvWrcbp intra s
  | .cbCtxinit tableSel => Sys2Proof.Machine.execCbCtxinit tableSel s
  | .cbCtxset ctxIdx => Sys2Proof.Machine.execCbCtxset ctxIdx s
  | .cbCtxget ctxIdx => Sys2Proof.Machine.execCbCtxget ctxIdx s
  | .cbEinit => Sys2Proof.Machine.execCbEinit s
  | .cbEdec ctxIdx => Sys2Proof.Machine.execCbEdec ctxIdx s
  | .cbEbyp => Sys2Proof.Machine.execCbEbyp s
  | .cbEterm => Sys2Proof.Machine.execCbEterm s
  | .cbDinit => Sys2Proof.Machine.execCbDinit s
  | .cbDdec ctxIdx => Sys2Proof.Machine.execCbDdec ctxIdx s
  | .cbDbyp => Sys2Proof.Machine.execCbDbyp s
  | .cbDterm => Sys2Proof.Machine.execCbDterm s
  | .cbDbin f8 f16 => Sys2Proof.Machine.execCbDbin f8 f16 s
  | .bnU => Sys2Proof.Machine.execBnU s
  | .bnTu => Sys2Proof.Machine.execBnTu s
  | .bnFl => Sys2Proof.Machine.execBnFl s
  | .bnUegk k signed => Sys2Proof.Machine.execBnUegk k signed s
  | .bnEnc ctxIdx => Sys2Proof.Machine.execBnEnc ctxIdx s
  | .mbSlice => Sys2Proof.Machine.execMbSlice s
  | .mbBegin => Sys2Proof.Machine.execMbBegin s
  | .mbSetnz comp size8 blkIdx => Sys2Proof.Machine.execMbSetnz comp size8 blkIdx s
  | .mbGet => Sys2Proof.Machine.execMbGet s
  | .mbNbmb dir => Sys2Proof.Machine.execMbNbmb dir s
  | .mbNbloc chroma => Sys2Proof.Machine.execMbNbloc chroma s
  | .mbNbblk dir kind blkIdx => Sys2Proof.Machine.execMbNbblk dir kind blkIdx s
  | .sgIdwr => Sys2Proof.Machine.execSgIdwr s
  | .sgGen => Sys2Proof.Machine.execSgGen s
  | .sgMbgrp => Sys2Proof.Machine.execSgMbgrp s
  | .sgNext => Sys2Proof.Machine.execSgNext s

end Sys2Proof.Machine
end

