-- ==== Sys2Proof/Machine/HostPort.lean ====
section
/-!
DEFINITION. The host port (10_state.md R30, 30_encoding.md R130, 70_reset_and_hazards.md R441): what the block does with
the host's next action. The block fetches no instruction (20_memory.md R90); a command word is decoded and run as it
is issued.
-/

namespace Sys2Proof.Machine

/-- The command cycle of an issued word (40_control.md R144). -/
def issueWord (w : Word) (s : State) : Host.Outcome State Fault Refusal :=
  match decode w with
  | .ok i => exec i s
  | .error _ => rejectWord (wordOpc w) s

/-- A write of an operand register, A0 to A3 (10_state.md R31). -/
def State.setA (s : State) (i : Fin 4) (v : Word) : State :=
  match i with
  | 0 => { s with a0 := v }
  | 1 => { s with a1 := v }
  | 2 => { s with a2 := v }
  | 3 => { s with a3 := v }

/-- The host writes BUF: no move while a stream is open (20_memory.md R92), and no such byte at or above MaxBufBytes. -/
def hostWriteBuf (a : Nat) (b : Byte) (s : State) : Host.Outcome State Fault Refusal :=
  if s.cur.mode ≠ .idle then .refused .hostWriteInStream
  else if a < s.params.maxBufBytes.toNat then .next { s with buf := Memory.write s.buf a b }
  else .fault .noSuchAddress

/-- The host writes RAWBUF (10_state.md R37). -/
def hostWriteRaw (a : Nat) (b : Byte) (s : State) : Host.Outcome State Fault Refusal :=
  if a < Config.rawBufBytes then .next { s with raw := Memory.write s.raw a b } else .fault .noSuchAddress

/-- Taking one host action (10_state.md R31, R33, R37). DESIGN CHOICE (notes/assumptions/18.md): while FAULT = 1
COEF, RAWBUF and BUF hold drawn values until RESET (60_exceptions.md R401), and the spec does not say what a host write
of one of them then does; the model stores the value written, and takes or refuses a BUF write by the drawn MODE. -/
def takeAction (x : HostAction) (s : State) : Host.Outcome State Fault Refusal :=
  match x with
  | .command w => issueWord w s
  | .setA i v => .next (s.setA i v)
  | .writeBuf a b => hostWriteBuf a b s
  | .writeRaw a b => hostWriteRaw a b s
  | .writeCoef i v => .next { s with coef := s.coef.set i v }

/-- The next step: the oldest pending host action, or none, when the block waits (70_reset_and_hazards.md R430). -/
def nextAction (s : State) : Host.Outcome State Fault Refusal :=
  match s.port with
  | [] => .next s
  | x :: rest => takeAction x { s with port := rest }

/-- The state in which the word of a table row is the next thing the host issues. -/
def placeWord (s : State) (nbits w : Nat) : State :=
  { s with port := .command (BitVec.ofNat 32 (w % 2 ^ nbits)) :: s.port }

end Sys2Proof.Machine
end

