-- ==== Sys2Proof/Machine/Step.lean ====
section
/-!
DEFINITION. The step of the block: it takes the oldest pending host action. `withFetchWord` puts a command word in
front of the pending actions, so that the next step runs it (notes/assumptions/10.md).
-/

namespace Sys2Proof.Machine

/-- One step. -/
def step (s : State) : Host.Outcome State Fault Refusal := nextAction s

/-- `s` with the command word `w` issued next. -/
def State.withFetchWord (s : State) (nbits w : Nat) : State := placeWord s nbits w

end Sys2Proof.Machine
end

