-- ==== Sys2Proof/Safety.lean ====
section
/-!
DEFINITION. What claims may use: the good end and the output of a run (70_reset_and_hazards.md R432), the bits a
stream has still to deliver and those it has been given, room in the output buffer, and the invariants of the state
that every step keeps.
-/

namespace Sys2Proof.Machine

/-- A run ended well iff STATUS.FAULT = 0 at its end (70_reset_and_hazards.md R432). -/
def State.EndedWell (s : State) : Prop := s.status.fault = false

/-- The output of an encoding run is a whole stream (70_reset_and_hazards.md R432). -/
def State.WholeStream (s : State) : Prop := s.EndedWell ∧ s.cur.cnt = 0 ∧ s.enc.active = false

/-- The output BUF[0..LEN-1] of an encoding run (70_reset_and_hazards.md R432). -/
def State.output (s : State) : List Byte := (List.range s.cur.len.toNat).map s.bufByte

/-- The commands that run while FAULT = 1 (40_control.md R144). -/
def runsFaulted : Instr → Bool
  | .nop => true
  | .reset => true
  | .csrRd _ => true
  | _ => false

/-- The value of a bit string, its first bit the most significant (20_memory.md R80). -/
def bitsNat (bs : List Bool) : Nat := bs.foldl (fun v b => 2 * v + b.toNat) 0

/-- The value of a bit string as a two's complement field (41_bitcursor.md R166). -/
def bitsInt (bs : List Bool) : Int :=
  match bs with
  | [] => 0
  | b :: _ => (bitsNat bs : Int) - (if b then 2 ^ bs.length else 0)

/-- The commands that need MODE = DEC (41_bitcursor.md R160, R170). -/
def needsDec : Instr → Bool
  | .bcRdu _ => true
  | .bcRds _ => true
  | .bcMore => true
  | .bcRdbytes => true
  | .egRdue => true
  | .egRdse => true
  | .egRdte => true
  | .cvRdtoken => true
  | .cvRdlevel => true
  | .cvRdtz => true
  | .cvRdrun => true
  | .cvRdres _ _ _ _ => true
  | .cvRdcbp _ => true
  | .cbDinit => true
  | .cbDdec _ => true
  | .cbDbyp => true
  | .cbDterm => true
  | _ => false

/-- The commands that need MODE = ENC (41_bitcursor.md R160). -/
def needsEnc : Instr → Bool
  | .bcWru _ => true
  | .bcWrs _ => true
  | .bcWrbytes => true
  | .egWrue => true
  | .egWrse => true
  | .egWrte => true
  | .cvWrtoken => true
  | .cvWrlevel => true
  | .cvWrtz => true
  | .cvWrrun => true
  | .cvWrres _ _ _ _ => true
  | .cvWrcbp _ => true
  | .cbEinit => true
  | .cbEdec _ => true
  | .cbEbyp => true
  | .cbEterm => true
  | .bnEnc _ => true
  | _ => false

/-- The commands that need EACT = 1 (44_cabac_engine.md R279 to R281, 45_cabac_binarization.md R315). -/
def needsEact : Instr → Bool
  | .cbEdec _ => true
  | .cbEbyp => true
  | .cbEterm => true
  | .bnEnc _ => true
  | _ => false

/-- The commands that need DACT = 1 (44_cabac_engine.md R284 to R286). -/
def needsDact : Instr → Bool
  | .cbDdec _ => true
  | .cbDbyp => true
  | .cbDterm => true
  | _ => false

/-- The pieces of state a command may write (10_state.md); A0..A3 are not among them. -/
inductive Piece where
  | y0
  | y1
  | y2
  | y3
  | coef
  | bins
  | cur
  | buf
  | raw
  | ctx
  | enc
  | dec
  | geom
  | mb
  | currMbAddr
  | currValid
  | sg
deriving DecidableEq, Repr

/-- The piece holds the same in both states. -/
def Piece.Same (p : Piece) (s t : State) : Prop :=
  match p with
  | .y0 => t.y0 = s.y0
  | .y1 => t.y1 = s.y1
  | .y2 => t.y2 = s.y2
  | .y3 => t.y3 = s.y3
  | .coef => t.coef = s.coef
  | .bins => t.bins = s.bins ∧ t.binLen = s.binLen
  | .cur => t.cur = s.cur
  | .buf => t.buf = s.buf
  | .raw => t.raw = s.raw
  | .ctx => t.ctx = s.ctx
  | .enc => t.enc = s.enc
  | .dec => t.dec = s.dec
  | .geom => t.geom = s.geom
  | .mb => t.mb = s.mb
  | .currMbAddr => t.currMbAddr = s.currMbAddr
  | .currValid => t.currValid = s.currValid
  | .sg => t.sg = s.sg

/-- The pieces each command other than RESET may write when it completes with OK (30_encoding.md R101's Y-out column,
10_state.md's "written by" of each element, and the commands' rules). -/
def mayWrite : Instr → List Piece
  | .nop => []
  | .reset => []
  | .csrRd _ => [.y0]
  | .csrWr _ => [.geom, .mb, .currValid, .sg]
  | .bcInit _ _ _ => [.cur, .enc, .dec]
  | .bcRdu _ => [.cur, .y0]
  | .bcRds _ => [.cur, .y0]
  | .bcWru _ => [.cur, .buf]
  | .bcWrs _ => [.cur, .buf]
  | .bcAligned => [.y0]
  | .bcMore => [.y0]
  | .bcRdbytes => [.cur, .raw]
  | .bcWrbytes => [.cur, .buf]
  | .egRdue => [.cur, .y0]
  | .egWrue => [.cur, .buf]
  | .egRdse => [.cur, .y0]
  | .egWrse => [.cur, .buf]
  | .egRdte => [.cur, .y0]
  | .egWrte => [.cur, .buf]
  | .cvNc _ _ => [.y0]
  | .cvRdtoken => [.cur, .y0, .y1]
  | .cvWrtoken => [.cur, .buf]
  | .cvRdlevel => [.cur, .y0, .y1]
  | .cvWrlevel => [.cur, .buf, .y1]
  | .cvRdtz => [.cur, .y0]
  | .cvWrtz => [.cur, .buf]
  | .cvRdrun => [.cur, .y0]
  | .cvWrrun => [.cur, .buf]
  | .cvRdres _ store _ _ => [.cur, .coef, .y0, .y1, .y2] ++ (if store then [.mb] else [])
  | .cvWrres _ store _ _ => [.cur, .buf, .y0, .y1, .y2] ++ (if store then [.mb] else [])
  | .cvRdcbp _ => [.cur, .y0]
  | .cvWrcbp _ => [.cur, .buf]
  | .cbCtxinit _ => [.ctx]
  | .cbCtxset _ => [.ctx]
  | .cbCtxget _ => [.y0]
  | .cbEinit => [.enc]
  | .cbEdec _ => [.cur, .buf, .enc, .ctx]
  | .cbEbyp => [.cur, .buf, .enc]
  | .cbEterm => [.cur, .buf, .enc]
  | .cbDinit => [.cur, .dec]
  | .cbDdec _ => [.cur, .dec, .ctx, .y0]
  | .cbDbyp => [.cur, .dec, .y0]
  | .cbDterm => [.cur, .dec, .y0]
  | .cbDbin _ _ => []
  | .bnU => [.bins]
  | .bnTu => [.bins]
  | .bnFl => [.bins]
  | .bnUegk _ _ => [.bins]
  | .bnEnc _ => [.cur, .buf, .enc, .ctx]
  | .mbSlice => [.mb, .currValid]
  | .mbBegin => [.mb, .currMbAddr, .currValid]
  | .mbSetnz _ _ _ => [.mb]
  | .mbGet => [.y0, .y1]
  | .mbNbmb _ => [.y0, .y1]
  | .mbNbloc _ => [.y0, .y1, .y2, .y3]
  | .mbNbblk _ _ _ => [.y0, .y1, .y2]
  | .sgIdwr => [.sg]
  | .sgGen => [.sg]
  | .sgMbgrp => [.y0]
  | .sgNext => [.y0]

/-- CSR_RD of number n completes, whatever FAULT is, with the value v in Y0, and changes nothing else but CODE
(40_control.md R142). -/
def State.CsrReads (s : State) (n v : Nat) : Prop :=
  ∃ y : Word, exec (.csrRd n) s = .next (State.complete .ok { s with y0 := y }) ∧ y.toNat = v

/-- The numbers of the CSR table (10_state.md R40). -/
def csrListed (n : Nat) : Bool :=
  decide (n ≤ 0x007) || (decide (0x010 ≤ n) && decide (n ≤ 0x017)) || (decide (0x020 ≤ n) && decide (n ≤ 0x029)) ||
    (decide (0x030 ≤ n) && decide (n ≤ 0x038)) || (decide (0x040 ≤ n) && decide (n ≤ 0x047)) ||
    (decide (0x050 ≤ n) && decide (n ≤ 0x067))

/-- v is a legal value of the RW CSR n (10_state.md R40); 1 is legal for each of them, and no value for any other
number. -/
def csrLegal (n v : Nat) : Bool :=
  ((n == 0x020 || n == 0x021) && decide (1 ≤ v) && decide (v ≤ 65535)) ||
    ((n == 0x022 || n == 0x023 || n == 0x024 || n == 0x026 || n == 0x042) && decide (v ≤ 1)) ||
    (n == 0x025 && decide (v ≤ 3)) || (n == 0x040 && decide (v ≤ 7)) || (n == 0x041 && decide (v ≤ 6)) ||
    n == 0x043 || n == 0x044 || (decide (0x050 ≤ n) && decide (n ≤ 0x067))

/-- Every value 70_reset_and_hazards.md R430 gives; what it calls unspecified is not constrained. -/
structure State.AtReset (t : State) : Prop where
  operands : t.a0 = 0 ∧ t.a1 = 0 ∧ t.a2 = 0 ∧ t.a3 = 0
  results : t.y0 = 0 ∧ t.y1 = 0 ∧ t.y2 = 0 ∧ t.y3 = 0
  coef : ∀ i, t.coefAt i = 0
  bins : t.binLen = 0 ∧ ∀ i, t.binAt i = false
  cursor : t.cur = ⟨.idle, false, false, 0, 0, 0, 0, 0, 0, 0⟩
  contexts : ∀ c, Table.find t.ctx c = none
  encoder : t.enc = ⟨0, 0, 0, false, false⟩
  decoder : t.dec = ⟨0, 0, false⟩
  status : t.status = ⟨.ok, false, 0⟩
  geometry : t.geom = ⟨0, 0, true, false, false, 1, false⟩
  derived : t.geom.mbaffFrame = false ∧ t.geom.frameHeightInMbs = 0 ∧ t.geom.picHeightInMbs = 0 ∧
    t.geom.picSizeInMbs = 0 ∧ t.geom.picSizeInMapUnits = 0 ∧ t.geom.mbWidthC = 8 ∧ t.geom.mbHeightC = 8 ∧
    t.geom.valid = false
  macroblocks : (∀ a, t.mbValid a = false) ∧ t.currMbAddr = 0 ∧ t.currValid = false
  sliceGroups : t.sg.numMinus1 = 0 ∧ t.sg.mapType = 0 ∧ t.sg.changeDir = false ∧ t.sg.changeRateMinus1 = 0 ∧
    t.sg.changeCycle = 0 ∧ ∀ g : Fin 8, t.sg.runLengthMinus1[g] = 0 ∧ t.sg.topLeft[g] = 0 ∧ t.sg.bottomRight[g] = 0
  groupIds : ∀ i, t.sg.groupId i = 0
  map : t.sg.mapValid = false ∧ t.sg.mapUnitsInGroup0 t.geom.picSizeInMapUnits = 0 ∧ t.sg.changeRate = 1

/-- `t` is `s` with the bin buffer replaced by the bins `bs` (45_cabac_binarization.md R310). -/
structure BinsReplaced (s t : State) (bs : List Bool) : Prop where
  rest : t = { s with bins := t.bins, binLen := bs.length, status := s.status.complete .ok }
  bins : ∀ i, i < 128 → t.binAt i = (bs[i]?).getD (s.binAt i)

/-- CheckResidualSetup() passes and gives nC (43_cavlc.md R220, R245). -/
structure ResidualLegal (s : State) (kind : Nat) (store ncx : Bool) (blkIdx : Nat) (nC : Int) : Prop where
  setup : ncx = false → kindNeeds s.geom.cat kind = true ∧ s.geom.valid = true ∧ s.currValid = true
  store : store = true → s.currValid = true ∧ kind ≠ 5
  block : kind ≤ 5 ∧ blkIdx < kindRange s.geom.cat kind
  range : s.a0.toNat ≤ s.a1.toNat ∧ s.a1.toNat < s.a2.toNat
  size : if kind = 5 then s.a2 = 4 ∨ s.a2 = 8 else s.a2 = 15 ∨ s.a2 = 16
  given : ncx = true → nC = s.a3.toInt ∧ -2 ≤ nC ∧ nC ≤ 16 ∧ (nC < 0 ↔ kind = 5) ∧ (nC = -1 → s.a2 = 4) ∧
    (nC = -2 → s.a2 = 8)
  derived : ncx = false → s.deriveNC kind blkIdx = .ok nC ∧ (kind = 5 → s.a2 = if s.geom.cat = 1 then 4 else 8)

/-- No codeword of a table is a prefix of another, and each is a code of its length (43_cavlc.md R232, R238, R241). -/
def PrefixCode {α : Type} (t : List (Vlc α)) : Prop :=
  (t.Pairwise fun r q => (r.len ≤ q.len → q.code / 2 ^ (q.len - r.len) ≠ r.code) ∧
    (q.len ≤ r.len → r.code / 2 ^ (r.len - q.len) ≠ q.code)) ∧ ∀ r ∈ t, 0 < r.len ∧ r.code < 2 ^ r.len

/-- The bits of a codeword, first bit first. -/
def Vlc.bits {α : Type} (r : Vlc α) : List Bool := fieldBits r.code r.len

/-- `b` is the block MB_NBBLK names in direction `dir` (0 left, 1 above) of the block `idx` of its kind: Y0 and Y2 where
Y1 says it is available, none where it is not (46_mb_addressing.md R342, R343, R345). -/
def State.NbblkNames (s : State) (dir : Bool) (kind idx : Nat) (b : NbBlock) : Prop :=
  ∃ t, exec (.mbNbblk dir kind idx) s = .next t ∧ t.status.fault = false ∧
    (t.y1 = 0 ∧ b.addr = none ∨ t.y1 = 1 ∧ b.addr = some t.y0.toNat ∧ b.blk = t.y2.toNat)

/-- The number of non-zero coefficients COEF[first..last] (43_cavlc.md R244). -/
def coefCount (coef : Nat → Word) (first last : Nat) : Nat :=
  ((List.range (last + 1)).filter fun j => decide (first ≤ j ∧ coef j ≠ 0)).length

/-- MB_NBLOC's Y registers for a location in the macroblock `addr`, or none (46_mb_addressing.md R337, R341). -/
def nbLocAnswer (s : State) (addr : Option Nat) (xW yW : Nat) : State :=
  match addr with
  | some a => State.complete .ok { s with y0 := natWord a, y1 := 1, y2 := natWord xW, y3 := natWord yW }
  | none => State.complete .ok { s with y0 := 0xFFFFFFFF, y1 := 0, y2 := 0, y3 := 0 }

/-- The bits the stream has still to deliver in DEC mode (41_bitcursor.md R161). -/
def State.remaining (s : State) : List Bool := remBits s.bufByte s.cur

/-- The RBSP bits written to a stream in ENC mode: those of BUF[0..LEN-1] with the escapes removed, then those in
CACHE (41_bitcursor.md R163, 20_memory.md R91). -/
def writtenBits (rd : Nat → Byte) (c : Cursor) : List Bool :=
  remBytes rd c.ep c.len.toNat 0 0 ++ cacheBits c.cache c.cnt

/-- The RBSP bits written to the stream of a state in ENC mode. -/
def State.written (s : State) : List Bool := writtenBits s.bufByte s.cur

/-- `d` is the cursor `c` after `n` more bits: BITS has moved on by n, the stream is the same. -/
structure Cursor.Moved (c d : Cursor) (n : Nat) : Prop where
  mode : d.mode = c.mode
  ep : d.ep = c.ep
  grow : d.grow = c.grow
  bits : d.bits = c.bits + natWord n

/-- `d` is the DEC cursor `c` after `n` bits, with the bits `r` still to come. -/
structure Consumed (rd : Nat → Byte) (c d : Cursor) (n : Nat) (r : List Bool) : Prop where
  moved : c.Moved d n
  len : d.len = c.len
  cap : d.cap = c.cap
  rest : remBits rd d = r

/-- Between `s` and `t` the ENC stream has been given the bits `bs`: BUF changes only from the old LEN to the new. That
the bytes at and beyond the new LEN stay is the model's choice (notes/assumptions/19.md): 93_implementation_defined.md
I6 and I23 leave them open. -/
structure Appended (s t : State) (bs : List Bool) : Prop where
  moved : s.cur.Moved t.cur bs.length
  written : t.written = s.written ++ bs
  len : s.cur.len.toNat ≤ t.cur.len.toNat
  outside : ∀ a, a < s.cur.len.toNat ∨ t.cur.len.toNat ≤ a → t.bufByte a = s.bufByte a

/-- `n` more bits fit the stream whatever their values: each byte they complete may need an escape byte
(41_bitcursor.md R163). -/
def hasRoom (p : Params) (c : Cursor) (n : Nat) : Prop :=
  c.len.toNat + 2 * ((c.cnt + n) / 8) ≤ c.cap.toNat ∨
    (c.grow = true ∧ c.len.toNat + 2 * ((c.cnt + n) / 8) + p.growBlock ≤ p.maxBufBytes.toNat + 1)

/-- `n` more bits fit the stream of a state. -/
def State.HasRoom (s : State) (n : Nat) : Prop := hasRoom s.params s.cur n

/-- The Exp-Golomb codeword of k: m zeros, a one and the m low bits of k + 1, m = Floor(Log2(k + 1))
(42_expgolomb.md R200). -/
def ueBits (k : Nat) : List Bool :=
  List.replicate (floorLog2 (k + 1)) false ++ true :: fieldBits (k + 1 - 2 ^ floorLog2 (k + 1)) (floorLog2 (k + 1))

/-- The bits of the level code of a level: level_prefix zeros, a one and level_suffix (43_cavlc.md R235). -/
def levelBits (sL : Nat) (off : Bool) (v : Int) : List Bool :=
  let f := levelFields sL (levelCodeFor off v)
  List.replicate f.1 false ++ true :: fieldBits f.2.2 f.2.1

/-- The bits of `PutBit(b)` of the encoding engine: b unless it is withheld, then the outstanding bits
(44_cabac_engine.md R276). -/
def engineBits (first : Bool) (outstanding : Nat) (b : Bool) : List Bool :=
  (if first then [] else [b]) ++ List.replicate outstanding (!b)

/-- The encoding engine's output while it renormalises: codILow, the outstanding count, firstBitFlag and the bits
written so far (44_cabac_engine.md R276). -/
structure Renorm where
  low : Nat
  outstanding : Nat
  first : Bool
  bits : List Bool
deriving DecidableEq, Repr

/-- One turn of `RenormE()`, its codIRange apart, which doubles (44_cabac_engine.md R276). -/
def Renorm.turn (r : Renorm) : Renorm :=
  if r.low < 256 then ⟨2 * r.low, 0, false, r.bits ++ engineBits r.first r.outstanding false⟩
  else if 512 ≤ r.low then ⟨2 * (r.low - 512), 0, false, r.bits ++ engineBits r.first r.outstanding true⟩
  else ⟨2 * (r.low - 256), r.outstanding + 1, r.first, r.bits⟩

/-- `n` turns of `RenormE()`. -/
def Renorm.turns : Nat → Renorm → Renorm
  | 0, r => r
  | n + 1, r => Renorm.turns n r.turn

/-- SG_GEN's check of the CSRs of its map type (47_slice_group_map.md R381), for W and N. -/
def SliceGroups.Legal (sg : SliceGroups) (w n : Nat) : Prop :=
  sg.num = 0 ∨
    (sg.mapType = 0 ∧ ∀ g, g ≤ sg.num → sg.runLengthAt g + 1 ≤ n) ∨ sg.mapType = 1 ∨
    (sg.mapType = 2 ∧ ∀ g, g < sg.num → sg.topLeftAt g ≤ sg.bottomRightAt g ∧ sg.bottomRightAt g < n ∧
      sg.topLeftAt g % w ≤ sg.bottomRightAt g % w) ∨
    ((sg.mapType = 3 ∨ sg.mapType = 4 ∨ sg.mapType = 5) ∧ sg.changeRateMinus1.toNat + 1 ≤ n) ∨
    (sg.mapType = 6 ∧ ∀ i, i < n → (sg.groupId i).toNat ≤ sg.num)

/-- The map units of groups 0 to g - 1 in one turn of map type 0 (47_slice_group_map.md R372). -/
def SliceGroups.runsBefore (sg : SliceGroups) : Nat → Nat
  | 0 => 0
  | g + 1 => SliceGroups.runsBefore sg g + (sg.runLengthAt g + 1)

/-- Map unit i lies in the rectangle of group g of map type 2 (47_slice_group_map.md R374). -/
def SliceGroups.InRectangle (sg : SliceGroups) (w g i : Nat) : Prop :=
  sg.topLeftAt g / w ≤ i / w ∧ i / w ≤ sg.bottomRightAt g / w ∧ sg.topLeftAt g % w ≤ i % w ∧
    i % w ≤ sg.bottomRightAt g % w

/-- MB_BEGIN's operand checks, GEOM_VALID and MaxMbs apart (46_mb_addressing.md R332): A0 is the address, A1 the
flags. -/
structure MbBeginLegal (s : State) : Prop where
  zeros : s.a1.toNat / 16 % 16 = 0 ∧ s.a1.toNat / 2 ^ 16 = 0
  inPicture : s.a0.toNat < s.geom.picSizeInMbs
  order : s.currValid = true → s.currMbAddr.toNat < s.a0.toNat
  skipOrIpcm : ¬(s.a1.getLsbD 0 = true ∧ s.a1.getLsbD 1 = true)
  ipcmIntra : s.a1.getLsbD 1 = true → s.a1.getLsbD 2 = true
  skipInter : s.a1.getLsbD 0 = true → s.a1.getLsbD 2 = false
  fieldPicture : s.geom.mbaffFrame = false → s.a1.getLsbD 3 = s.geom.fieldPic
  fieldPair : s.geom.mbaffFrame = true → s.a0.toNat % 2 = 1 →
    ∀ e, Table.find s.mb (s.a0.toNat - 1) = some e → s.a1.getLsbD 3 = e.field

/-- Z after the `n` bytes of BUF from index `o`, when Z is `z` before them (41_bitcursor.md R161). -/
def scanZeros (rd : Nat → Byte) (ep : Bool) : Nat → Nat → Nat → Nat
  | 0, _, z => z
  | n + 1, o, z =>
    if ep && decide (z = 2) && decide (rd o = 3) then scanZeros rd ep n (o + 1) 0
    else scanZeros rd ep n (o + 1) (nextZeros ep z (rd o))

/-- No 00 00 is followed by 00, 01 or 02 in the first `n` bytes (41_bitcursor.md R173). -/
def NoStartCode (rd : Nat → Byte) (n : Nat) : Prop :=
  ∀ i, i + 2 < n → rd i = 0 → rd (i + 1) = 0 → 3 ≤ (rd (i + 2)).toNat

/-- What holds of an ENC cursor over BUF (10_state.md R35, 41_bitcursor.md R163, R173). -/
structure EncOk (p : Params) (rd : Nat → Byte) (c : Cursor) : Prop where
  cnt : c.cnt < 8
  off : c.off = c.len
  len : c.len.toNat ≤ c.cap.toNat
  cap : c.cap.toNat ≤ p.maxBufBytes.toNat
  zeros : c.zeros = scanZeros rd c.ep c.len.toNat 0 0
  noStart : c.ep = true → NoStartCode rd c.len.toNat

/-- What holds of a DEC cursor (10_state.md R35, 41_bitcursor.md R162). -/
structure DecOk (p : Params) (c : Cursor) : Prop where
  cnt : c.cnt < 8
  off : c.off.toNat ≤ c.len.toNat
  len : c.len.toNat ≤ p.maxBufBytes.toNat
  zeros : c.zeros ≤ 2
  plain : c.ep = false → c.zeros = 0

/-- What holds of the encoding engine while EACT = 1 (44_cabac_engine.md R276); low + range <= 1024 is why codILow
fits its 10 bits. -/
structure Encoder.Ok (e : Encoder) : Prop where
  low : e.low.toNat + e.range.toNat ≤ 1024
  least : 256 ≤ e.range.toNat
  most : e.range.toNat ≤ 510

/-- What holds of the decoding engine while DACT = 1 (44_cabac_engine.md R284). -/
structure Decoder.Ok (d : Decoder) : Prop where
  offset : d.offset.toNat < d.range.toNat
  least : 256 ≤ d.range.toNat
  most : d.range.toNat ≤ 510

/-- NZ entries are at most 16 and NZ8 entries at most 64 (10_state.md R44). -/
def MbEntry.countsOk (e : MbEntry) : Bool :=
  e.nz.all (fun n => decide (n.toNat ≤ 16)) && e.nz8.all (fun n => decide (n.toNat ≤ 64))

/-- Every index of a table is below n. -/
def tableBelow {β : Type} (n : Nat) : Table β → Bool
  | [] => true
  | (k, _) :: t => decide (k < n) && tableBelow n t

/-- The memories and tables are in canonical form and inside their spaces (10_state.md R47), whatever FAULT is. -/
structure State.MemoriesOk (s : State) : Prop where
  buf : Memory.wf s.buf = true
  raw : Memory.wf s.raw = true
  ctx : Table.wf s.ctx = true
  mb : Table.wf s.mb = true
  sgid : Table.wf s.sg.sgid = true
  bufBelow : tableBelow s.params.maxBufBytes.toNat s.buf = true
  rawBelow : tableBelow Config.rawBufBytes s.raw = true
  ctxBelow : tableBelow Config.numCtx s.ctx = true
  mbBelow : tableBelow s.params.maxMbs s.mb = true
  sgidBelow : tableBelow s.params.maxMapUnits s.sg.sgid = true
  sgidListed : (s.sg.sgid.all fun e => decide (e.2 ≠ 0)) = true
  counts : (s.mb.all fun e => e.2.countsOk) = true

/-- Both slice-group maps of the picture hold values in 0..num (47_slice_group_map.md R384). -/
structure State.MapBounded (s : State) : Prop where
  units : ∀ i, i < s.geom.picSizeInMapUnits → (s.mapUnit i).toNat ≤ s.sg.num
  groups : ∀ i, i < s.geom.picSizeInMbs → (s.mbGroup i).toNat ≤ s.sg.num

/-- What holds while FAULT = 0. -/
structure State.Running (s : State) : Prop where
  status : s.status = ⟨.ok, false, 0⟩
  enc : s.cur.mode = .enc → EncOk s.params s.bufByte s.cur
  dec : s.cur.mode = .dec → DecOk s.params s.cur
  eact : s.enc.active = true → s.cur.mode = .enc ∧ s.enc.Ok
  dact : s.dec.active = true → s.cur.mode = .dec ∧ s.dec.Ok
  curr : s.currValid = true → s.mbValid s.currMbAddr.toNat = true
  map : s.sg.mapValid = true → s.geom.valid = true ∧ s.geom.picSizeInMapUnits ≤ s.sg.mapUnits.length ∧
    s.geom.picSizeInMbs ≤ s.sg.mbGroups.length ∧ s.MapBounded

/-- The invariant of the block: every step keeps it. -/
structure State.Inv (s : State) : Prop where
  params : s.params.wf = true
  memories : s.MemoriesOk
  binLen : s.binLen ≤ 128
  running : s.status.fault = false → s.Running

end Sys2Proof.Machine
end

