-- ==== Sys2Proof/Certificates/Slice0/Obligations.lean ====
section
/-!
DEFINITION. The statements about the block, from the spec's numbered rules. A statement whose conclusion is
`exec i s = .next (State.complete .ok { s with ... })` says the command completes with OK, gives every piece it
changes, and says that every other piece of state keeps its value. Of BUF beyond BC_LEN in an ENC stream that is the
model's choice (notes/assumptions/19.md).
-/

open Sys2Proof Sys2Proof.Machine

/-! Encoding. -/

/-- No bit of a command is lost: every well-formed command is decoded from its own word (30_encoding.md R100, R101). -/
def Obligations.DecodeOfEncode : Prop := ∀ i : Instr, i.wellFormed = true → decode (encode i) = .ok i

/-- A word has at most one meaning: what decodes to a command is that command's word (30_encoding.md R100, R101,
R103). -/
def Obligations.EncodeOfDecode : Prop :=
  ∀ (w : Word) (i : Instr), decode w = .ok i → i.wellFormed = true ∧ encode i = w

/-- Words of every family, as 30_encoding.md R101 and 95_test_vectors.md give them. -/
def Obligations.CommandWordsDecode : Prop :=
  decode 0x00000000 = .ok .nop ∧ decode 0x03000020 = .ok (.csrWr 0x020) ∧
    decode 0x10050000 = .ok (.bcInit 1 true false) ∧ decode 0x100A0000 = .ok (.bcInit 2 false true) ∧
    decode 0x11180000 = .ok (.bcRdu 24) ∧ decode 0x24000000 = .ok .egRdte ∧
    decode 0x3A800000 = .ok (.cvWrres 0 false true 0) ∧ decode 0x3C010000 = .ok (.cvWrcbp true) ∧
    decode 0x41000005 = .ok (.cbCtxset 5) ∧ decode 0x4C000000 = .ok (.cbDbin 0 0) ∧
    decode 0x5400FFFF = .ok (.bnEnc 0xFFFF) ∧ decode 0x62010005 = .ok (.mbSetnz 1 false 5) ∧
    decode 0x71000000 = .ok .sgGen

/-- A word that is no command's word fails: EFAULTED while FAULT = 1 unless its OPC is that of NOP, RESET or CSR_RD,
else EILLEGAL (30_encoding.md R103, R105; 40_control.md R144). That an EILLEGAL word draws all state but STATUS and
A0..A3, as every failing command does by 60_exceptions.md R401, is the model's choice against R103's "no other effect"
(notes/assumptions/3.md). -/
def Obligations.WordsOutsideTheMapFail : Prop :=
  ∀ (w : Word) (s : State), (∀ i : Instr, i.wellFormed = true → encode i ≠ w) →
    issueWord w s = .next (if s.status.fault = true ∧ 3 ≤ w.toNat / 2 ^ 24 then s.complete .efaulted
      else s.failWith .eillegal (w.toNat / 2 ^ 24))

/-! The host port and the command cycle. -/

/-- A step with a command word at the port runs the command it encodes; the word leaves the port
(20_memory.md R88, R90; 40_control.md R144). -/
def Obligations.StepRunsDecodedCommand : Prop :=
  ∀ (s : State) (w : Word) (rest : List HostAction) (i : Instr), s.port = .command w :: rest → decode w = .ok i →
    step s = exec i { s with port := rest }

/-- What the host's other actions do, each leaving the rest of the state alone (10_state.md R31, R33, R37;
20_memory.md R84, R92). That an out-of-range address faults and that a refused write stops the model are the
model's choices (notes/assumptions/11.md), and so is that the writes of COEF, RAWBUF and BUF are stored, or refused by
MODE, while FAULT = 1 too (notes/assumptions/18.md). -/
def Obligations.HostActionsWriteWhatTheyName : Prop :=
  ∀ (s : State) (rest : List HostAction),
    (s.port = [] → step s = .next s) ∧
    (∀ v, s.port = .setA 0 v :: rest → step s = .next { s with port := rest, a0 := v }) ∧
    (∀ v, s.port = .setA 1 v :: rest → step s = .next { s with port := rest, a1 := v }) ∧
    (∀ v, s.port = .setA 2 v :: rest → step s = .next { s with port := rest, a2 := v }) ∧
    (∀ v, s.port = .setA 3 v :: rest → step s = .next { s with port := rest, a3 := v }) ∧
    (∀ (i : Fin 16) v, s.port = .writeCoef i v :: rest → ∃ t, step s = .next t ∧
      t = { s with port := rest, coef := t.coef } ∧ t.coefAt i.val = v ∧
      ∀ j, j ≠ i.val → t.coefAt j = s.coefAt j) ∧
    (∀ a b, s.port = .writeRaw a b :: rest → a < 4096 → ∃ t, step s = .next t ∧
      t = { s with port := rest, raw := t.raw } ∧ t.rawByte a = b ∧ ∀ c, c ≠ a → t.rawByte c = s.rawByte c) ∧
    (∀ a b, s.port = .writeRaw a b :: rest → 4096 ≤ a → step s = .fault .noSuchAddress) ∧
    (∀ a b, s.port = .writeBuf a b :: rest → s.cur.mode = .idle → a < s.params.maxBufBytes.toNat →
      ∃ t, step s = .next t ∧ t = { s with port := rest, buf := t.buf } ∧ t.bufByte a = b ∧
        ∀ c, c ≠ a → t.bufByte c = s.bufByte c) ∧
    (∀ a b, s.port = .writeBuf a b :: rest → s.cur.mode = .idle → s.params.maxBufBytes.toNat ≤ a →
      step s = .fault .noSuchAddress) ∧
    (∀ a b, s.port = .writeBuf a b :: rest → s.cur.mode ≠ .idle → step s = .refused .hostWriteInStream)

/-- Every command completes (60_exceptions.md R404). -/
def Obligations.EveryCommandCompletes : Prop := ∀ (i : Instr) (s : State), ∃ t, exec i s = .next t

/-- While FAULT = 1, every command other than NOP, RESET and CSR_RD completes with EFAULTED and changes nothing but
STATUS.CODE; no step but a RESET command clears FAULT, and until then FAILOP keeps the first failing command's opcode
(40_control.md R141, R144; 60_exceptions.md R400, R401, R405). -/
def Obligations.FaultDiscipline : Prop :=
  (∀ (i : Instr) (s : State), i ≠ .nop → i ≠ .reset → (∀ n, i ≠ .csrRd n) → s.status.fault = true →
      exec i s = .next { s with status := { s.status with code := .efaulted } }) ∧
  (∀ s t : State, s.status.fault = true → step s = .next t →
      (t.status.fault = false → ∃ rest, s.port = .command 0x01000000 :: rest) ∧
      (t.status.fault = true → t.status.failop = s.status.failop))

/-- How a completing command writes STATUS (60_exceptions.md R400): for the result OK or EFAULTED only CODE, for any
other FAULT too, and FAILOP if FAULT was 0; RESET writes 0. -/
def Obligations.StatusAfterCommand : Prop :=
  ∀ (w : Word) (s t : State), issueWord w s = .next t →
    (decode w = .ok .reset → t.status = ⟨.ok, false, 0⟩) ∧
    (decode w ≠ .ok .reset →
      ((t.status.code = .ok ∨ t.status.code = .efaulted) → t.status.fault = s.status.fault ∧
        t.status.failop = s.status.failop) ∧
      ((t.status.code ≠ .ok ∧ t.status.code ≠ .efaulted) → t.status.fault = true ∧
        t.status.failop = if s.status.fault then s.status.failop else BitVec.ofNat 8 (w.toNat / 2 ^ 24)))

/-- NOP: done, CODE OK, FAULT unchanged; the other words of its opcode are EILLEGAL, FAULT or not (40_control.md
R140). That such a word draws all state but STATUS and A0..A3 (60_exceptions.md R401) is the model's choice against
30_encoding.md R103's "no other effect" (notes/assumptions/3.md). -/
def Obligations.NopRule : Prop :=
  encode .nop = 0x00000000 ∧
    (∀ s : State, exec .nop s = .next { s with status := { s.status with code := .ok } }) ∧
    (∀ (w : Word) (s : State), w.toNat / 2 ^ 24 = 0x00 → w ≠ 0x00000000 →
      issueWord w s = .next (s.failWith .eillegal 0x00))

/-- Power-on reset and RESET give every piece of state its value of 70_reset_and_hazards.md R430, FAULT or not. -/
def Obligations.ResetGivesResetValues : Prop :=
  (∀ (p : Params) (k : Nat) (port : List HostAction), (State.resetWith p k port).AtReset) ∧
    ∀ s : State, ∃ t, exec .reset s = .next t ∧ t.AtReset ∧ t.params = s.params ∧ t.port = s.port

/-- No command but RESET writes A0..A3 (10_state.md R31), even when it fails; none changes the host's pending actions
or the parameters. -/
def Obligations.CommandsKeepOperandRegisters : Prop :=
  ∀ (i : Instr) (s t : State), i ≠ .reset → exec i s = .next t →
    t.a0 = s.a0 ∧ t.a1 = s.a1 ∧ t.a2 = s.a2 ∧ t.a3 = s.a3 ∧ t.port = s.port ∧ t.params = s.params

/-- A command that completes with OK changes only the pieces of state its rule writes (10_state.md R31 to R45's
"written by", 30_encoding.md R101's Y-out; the list is `mayWrite`). -/
def Obligations.CommandsWriteOnlyTheirPieces : Prop :=
  ∀ (i : Instr) (s t : State), i ≠ .reset → exec i s = .next t → t.status.fault = false →
    ∀ p : Piece, p ∉ mayWrite i → p.Same s t

/-! Control and status registers. -/

/-- CSR_RD gives every listed register that is not derived, with every bit outside its fields 0, also while FAULT = 1;
an unlisted number is EINVAL (10_state.md R40, 40_control.md R142). -/
def Obligations.CsrReadValues : Prop :=
  ∀ s : State,
    s.CsrReads 0x000 (s.status.code.toNat + 16 * s.status.fault.toNat + 256 * s.status.failop.toNat) ∧
    s.CsrReads 0x001 (s.cur.mode.toNat + 4 * s.cur.ep.toNat + 8 * s.cur.grow.toNat) ∧
    s.CsrReads 0x002 s.cur.len.toNat ∧ s.CsrReads 0x003 s.cur.cap.toNat ∧ s.CsrReads 0x004 s.cur.off.toNat ∧
    (s.cur.cnt ≤ 8 → s.CsrReads 0x005 (s.cur.cache.toNat + 256 * s.cur.cnt)) ∧
    (s.cur.zeros ≤ 2 → s.CsrReads 0x006 s.cur.zeros) ∧ s.CsrReads 0x007 s.cur.bits.toNat ∧
    s.CsrReads 0x010 s.enc.low.toNat ∧ s.CsrReads 0x011 s.enc.range.toNat ∧
    s.CsrReads 0x012 s.enc.outstanding.toNat ∧ s.CsrReads 0x013 s.enc.first.toNat ∧
    s.CsrReads 0x014 s.dec.range.toNat ∧ s.CsrReads 0x015 s.dec.offset.toNat ∧
    s.CsrReads 0x016 (s.enc.active.toNat + 2 * s.dec.active.toNat) ∧
    (s.binLen ≤ 128 → s.CsrReads 0x017 s.binLen) ∧
    s.CsrReads 0x020 s.geom.picWidthMbs.toNat ∧ s.CsrReads 0x021 s.geom.picHeightMapUnits.toNat ∧
    s.CsrReads 0x022 s.geom.frameMbsOnly.toNat ∧ s.CsrReads 0x023 s.geom.mbaffEnable.toNat ∧
    s.CsrReads 0x024 s.geom.fieldPic.toNat ∧ s.CsrReads 0x025 s.geom.chromaArrayType.toNat ∧
    s.CsrReads 0x026 s.geom.cipDp.toNat ∧ s.CsrReads 0x027 s.currMbAddr.toNat ∧
    s.CsrReads 0x029 s.currValid.toNat ∧
    s.CsrReads 0x040 s.sg.numMinus1.toNat ∧ s.CsrReads 0x041 s.sg.mapType.val ∧
    s.CsrReads 0x042 s.sg.changeDir.toNat ∧ s.CsrReads 0x043 s.sg.changeRateMinus1.toNat ∧
    s.CsrReads 0x044 s.sg.changeCycle.toNat ∧ s.CsrReads 0x045 s.sg.mapValid.toNat ∧
    (∀ g : Fin 8, s.CsrReads (0x050 + g.val) s.sg.runLengthMinus1[g].toNat ∧
      s.CsrReads (0x058 + g.val) s.sg.topLeft[g].toNat ∧ s.CsrReads (0x060 + g.val) s.sg.bottomRight[g].toNat) ∧
    (∀ n, csrListed n = true → ∃ v, s.CsrReads n v) ∧
    (∀ n, csrListed n = false → exec (.csrRd n) s = .next (s.failWith .einval 0x02))

/-- The derived CSRs show R43's formulas of the present inputs, GEOM_VALID or not (10_state.md R40, R43; 47 R371).
PIC_SIZE_MBS is stated where PicSizeInMbs fits its 32 bits; beyond that the model has a free value
(notes/assumptions/7.md). That the formulas hold of the drawn inputs while FAULT = 1 is the model's choice
(notes/assumptions/6.md): 60_exceptions.md R401 leaves every CSR but STATUS open there. -/
def Obligations.DerivedCsrValues : Prop :=
  ∀ (s : State) (w h fmo mbaff fp cat frameH n : Nat),
    w = s.geom.picWidthMbs.toNat → h = s.geom.picHeightMapUnits.toNat → fmo = s.geom.frameMbsOnly.toNat →
    mbaff = s.geom.mbaffEnable.toNat → fp = s.geom.fieldPic.toNat → cat = s.geom.chromaArrayType.toNat →
    frameH = (2 - fmo) * h → n = w * h →
    s.CsrReads 0x028 (if 1 ≤ w ∧ 1 ≤ h ∧ ¬(fmo = 1 ∧ (fp = 1 ∨ mbaff = 1)) then 1 else 0) ∧
    s.CsrReads 0x030 (if mbaff = 1 ∧ fp = 0 then 1 else 0) ∧
    s.CsrReads 0x031 frameH ∧ s.CsrReads 0x032 (frameH / (1 + fp)) ∧
    (w * (frameH / (1 + fp)) < 2 ^ 32 → s.CsrReads 0x033 (w * (frameH / (1 + fp)))) ∧
    s.CsrReads 0x034 n ∧ s.CsrReads 0x035 (w * 16) ∧ s.CsrReads 0x036 (frameH * 16) ∧
    s.CsrReads 0x037 (if cat = 0 then 0 else if cat = 3 then 16 else 8) ∧
    s.CsrReads 0x038 (if cat = 0 then 0 else if cat = 1 then 8 else 16) ∧
    s.CsrReads 0x047 ((s.sg.changeRateMinus1.toNat + 1) % 2 ^ 32) ∧
    s.CsrReads 0x046 (min (s.sg.changeCycle.toNat * ((s.sg.changeRateMinus1.toNat + 1) % 2 ^ 32)) n)

/-- CSR_WR of a legal value writes that register and no other RW register, with R40's side effects; everything else is
EINVAL (10_state.md R40, R44, R45; 40_control.md R143). -/
def Obligations.CsrWriteEffect : Prop :=
  ∀ (n : Nat) (s : State), s.status.fault = false →
    (csrLegal n s.a0.toNat = true → ∃ t, exec (.csrWr n) s = .next t ∧
      t = { s with
        geom := t.geom, mb := t.mb, currValid := t.currValid, sg := t.sg, status := s.status.complete .ok } ∧
      t.CsrReads n s.a0.toNat ∧
      (∀ m v, csrLegal m 1 = true → m ≠ n → s.CsrReads m v → t.CsrReads m v) ∧
      t.sg.mapValid = false ∧ t.sg.sgid = s.sg.sgid ∧ t.sg.mapUnits = s.sg.mapUnits ∧
      t.sg.mbGroups = s.sg.mbGroups ∧
      (if 0x020 ≤ n ∧ n ≤ 0x026 then t.mb = [] ∧ t.currValid = false
        else t.mb = s.mb ∧ t.currValid = s.currValid)) ∧
    (csrLegal n s.a0.toNat = false → exec (.csrWr n) s = .next (s.failWith .einval 0x03))

/-! The bit cursor. -/

/-- BC_INIT, legal in every mode: the cursor it starts, both engines stopped, or EINVAL (41_bitcursor.md R164). -/
def Obligations.BcInitStartsStream : Prop :=
  ∀ (mode : Nat) (ep grow : Bool) (s : State), s.status.fault = false → mode < 4 →
    ((mode = 0 ∧ ep = false ∧ grow = false ∧ s.a0 = 0) ∨
      (mode = 1 ∧ grow = false ∧ 1 ≤ s.a0.toNat ∧ s.a0.toNat ≤ s.params.maxBufBytes.toNat) ∨
      (mode = 2 ∧ grow = false ∧ s.a0.toNat ≤ s.params.maxBufBytes.toNat) ∨ (mode = 2 ∧ grow = true ∧ s.a0 = 0) →
      exec (.bcInit mode ep grow) s = .next (State.complete .ok { s with
        cur := ⟨if mode = 0 then .idle else if mode = 1 then .dec else .enc, ep, grow,
          if mode = 1 then s.a0 else 0, s.a0, 0, 0, 0, 0, 0⟩
        enc := { s.enc with active := false }
        dec := { s.dec with active := false } })) ∧
    (¬((mode = 0 ∧ ep = false ∧ grow = false ∧ s.a0 = 0) ∨
      (mode = 1 ∧ grow = false ∧ 1 ≤ s.a0.toNat ∧ s.a0.toNat ≤ s.params.maxBufBytes.toNat) ∨
      (mode = 2 ∧ grow = false ∧ s.a0.toNat ≤ s.params.maxBufBytes.toNat) ∨ (mode = 2 ∧ grow = true ∧ s.a0 = 0)) →
      exec (.bcInit mode ep grow) s = .next (s.failWith .einval 0x10))

/-- Every command that reads the stream needs MODE = DEC and every command that writes it MODE = ENC; the engine
commands need their engine active too. Otherwise ESTATE, before any other check (41_bitcursor.md R160, 44 R279 to
R281, R284 to R286, 45 R315, 60_exceptions.md R402). -/
def Obligations.MissingModeOrEngineIsEstate : Prop :=
  ∀ (i : Instr) (s : State), s.status.fault = false →
    ((needsDec i = true ∧ s.cur.mode ≠ .dec) ∨ (needsEnc i = true ∧ s.cur.mode ≠ .enc) ∨
      (needsEact i = true ∧ s.enc.active = false) ∨ (needsDact i = true ∧ s.dec.active = false) ∨
      (i = .bcAligned ∧ s.cur.mode = .idle)) →
    exec i s = .next (s.failWith .estate i.opcode)

/-- BC_RDU and BC_RDS deliver the next n remaining bits, zero- or sign-extended, n up to 32; too few bits are EIO and
n > 32 is EINVAL (41_bitcursor.md R165, R166; 20_memory.md R80, R82). -/
def Obligations.BcReadsFields : Prop :=
  ∀ (n : Nat) (s : State), s.status.fault = false → s.cur.mode = .dec →
    (∀ bs r, n ≤ 32 → bs.length = n → s.remaining = bs ++ r →
      (∃ c, exec (.bcRdu n) s = .next (State.complete .ok { s with cur := c, y0 := natWord (bitsNat bs) }) ∧
        Consumed s.bufByte s.cur c n r) ∧
      (∃ c, exec (.bcRds n) s = .next (State.complete .ok { s with cur := c, y0 := intWord (bitsInt bs) }) ∧
        Consumed s.bufByte s.cur c n r)) ∧
    (n ≤ 32 → s.remaining.length < n →
      exec (.bcRdu n) s = .next (s.failWith .eio 0x11) ∧ exec (.bcRds n) s = .next (s.failWith .eio 0x12)) ∧
    (32 < n → exec (.bcRdu n) s = .next (s.failWith .einval 0x11) ∧
      exec (.bcRds n) s = .next (s.failWith .einval 0x12))

/-- BC_WRU and BC_WRS append the n bits of A0, n up to 32, when they fit the buffer; a value that does not fit n bits,
or n > 32, is EINVAL (41_bitcursor.md R163, R167, R168).
That BUF keeps its bytes at and beyond the new LEN (`Appended`) is the model's choice (notes/assumptions/19.md). -/
def Obligations.BcWritesFields : Prop :=
  ∀ (n : Nat) (s : State), s.Inv → s.status.fault = false → s.cur.mode = .enc →
    (∀ bs, n ≤ 32 → bs.length = n → s.HasRoom n →
      (s.a0.toNat = bitsNat bs → ∃ u, exec (.bcWru n) s = .next (State.complete .ok (s.setStream u)) ∧
        Appended s (s.setStream u) bs) ∧
      (s.a0.toInt = bitsInt bs → ∃ u, exec (.bcWrs n) s = .next (State.complete .ok (s.setStream u)) ∧
        Appended s (s.setStream u) bs)) ∧
    ((32 < n ∨ 2 ^ n ≤ s.a0.toNat) → exec (.bcWru n) s = .next (s.failWith .einval 0x13)) ∧
    ((32 < n ∨ (n = 0 ∧ s.a0 ≠ 0) ∨ (1 ≤ n ∧ (s.a0.toInt < -(2 ^ (n - 1)) ∨ 2 ^ (n - 1) ≤ s.a0.toInt))) →
      exec (.bcWrs n) s = .next (s.failWith .einval 0x14))

/-- A completed byte reaches BUF[LEN], after an escape byte 03 when EP = 1, Z = 2 and it is at most 03. With no space
for its one or two bytes a fixed buffer is EIO; a growable one grows by the fewest blocks of GrowBlock that hold them,
or is ENOMEM past MaxBufBytes (41_bitcursor.md R163). Stated for a byte written by BC_WRU n=8 at a byte boundary. -/
def Obligations.OutputBytesAndCapacity : Prop :=
  ∀ (s : State) (len cap need grown : Nat), s.Inv → s.status.fault = false → s.cur.mode = .enc → s.cur.cnt = 0 →
    s.a0.toNat < 256 → len = s.cur.len.toNat → cap = s.cur.cap.toNat →
    need = (if s.cur.ep = true ∧ s.cur.zeros = 2 ∧ s.a0.toNat ≤ 3 then 2 else 1) →
    grown = cap + s.params.growBlock * ((len + need - cap + s.params.growBlock - 1) / s.params.growBlock) →
    (len + need ≤ cap ∨ (s.cur.grow = true ∧ grown ≤ s.params.maxBufBytes.toNat) →
      ∃ u, exec (.bcWru 8) s = .next (State.complete .ok (s.setStream u)) ∧
        u.cur.cap.toNat = (if len + need ≤ cap then cap else grown) ∧ u.cur.cnt = 0 ∧ u.cur.len.toNat = len + need ∧
        (need = 2 → (s.setStream u).bufByte len = 3) ∧
        (s.setStream u).bufByte (len + need - 1) = s.a0.setWidth 8 ∧
        ∀ a, a < len → (s.setStream u).bufByte a = s.bufByte a) ∧
    (cap < len + need → s.cur.grow = false → exec (.bcWru 8) s = .next (s.failWith .eio 0x13)) ∧
    (cap < len + need → s.cur.grow = true → s.params.maxBufBytes.toNat < grown →
      exec (.bcWru 8) s = .next (s.failWith .enomem 0x13))

/-- BC_ALIGNED says whether CNT = 0; BC_MORE answers more_rbsp_data of the remaining bits under either policy and
consumes nothing (41_bitcursor.md R169, R170). -/
def Obligations.BcAlignedAndMore : Prop :=
  ∀ s : State, s.status.fault = false →
    (s.cur.mode ≠ .idle →
      exec .bcAligned s = .next (State.complete .ok { s with y0 := if s.cur.cnt = 0 then 1 else 0 })) ∧
    (s.cur.mode = .dec → ∃ more : Bool,
      exec .bcMore s = .next (State.complete .ok { s with y0 := if more then 1 else 0 }) ∧
      (s.params.moreData = .strict →
        (more = false ↔ s.remaining = [] ∨ ∃ k, k ≤ 7 ∧ s.remaining = true :: List.replicate k false)) ∧
      (s.params.moreData = .lastOne →
        (more = false ↔ true ∉ s.remaining ∨ ∃ k, s.remaining = true :: List.replicate k false)))

/-- BC_RDBYTES and BC_WRBYTES move A0 bytes between the stream and RAWBUF from index A1 on, at a byte boundary
(else ESTATE) and inside RAWBUF's 4096 bytes (else EINVAL) (41_bitcursor.md R171, R172; 20_memory.md R83).
That BUF keeps its bytes at and beyond the new LEN (`Appended`) is the model's choice (notes/assumptions/19.md). -/
def Obligations.RawBytesMove : Prop :=
  ∀ s : State, s.status.fault = false →
    (∀ (bytes : List Byte) r, s.cur.mode = .dec → s.cur.cnt = 0 → bytes.length = s.a0.toNat → s.a1.toNat + s.a0.toNat ≤ 4096 →
      s.remaining = bytes.flatMap byteBits ++ r →
      ∃ c m, exec .bcRdbytes s = .next (State.complete .ok { s with raw := m, cur := c }) ∧
        Consumed s.bufByte s.cur c (8 * s.a0.toNat) r ∧
        (∀ (i : Nat) (b : Byte), bytes[i]? = some b → State.rawByte { s with raw := m } (s.a1.toNat + i) = b) ∧
        ∀ a, a < s.a1.toNat ∨ s.a1.toNat + s.a0.toNat ≤ a → State.rawByte { s with raw := m } a = s.rawByte a) ∧
    (s.Inv → s.cur.mode = .enc → s.cur.cnt = 0 → s.a1.toNat + s.a0.toNat ≤ 4096 → s.HasRoom (8 * s.a0.toNat) →
      ∃ u, exec .bcWrbytes s = .next (State.complete .ok (s.setStream u)) ∧
        Appended s (s.setStream u) ((List.range s.a0.toNat).flatMap fun i => byteBits (s.rawByte (s.a1.toNat + i)))) ∧
    (s.cur.mode = .dec → s.cur.cnt ≠ 0 → exec .bcRdbytes s = .next (s.failWith .estate 0x17)) ∧
    (s.cur.mode = .enc → s.cur.cnt ≠ 0 → exec .bcWrbytes s = .next (s.failWith .estate 0x18)) ∧
    (s.cur.mode = .dec → s.cur.cnt = 0 → 4096 < s.a1.toNat + s.a0.toNat →
      exec .bcRdbytes s = .next (s.failWith .einval 0x17)) ∧
    (s.cur.mode = .enc → s.cur.cnt = 0 → 4096 < s.a1.toNat + s.a0.toNat →
      exec .bcWrbytes s = .next (s.failWith .einval 0x18))

/-- Emulation prevention round trip (41_bitcursor.md R173): bytes written by BC_WRBYTES into a fresh ENC stream with
EP = 1 leave no 00 00 followed by 00, 01 or 02 in BUF[0..LEN-1], and BC_RDBYTES on a DEC cursor with EP = 1 over those
bytes returns them, after which the next read is EIO. -/
def Obligations.EmulationPreventionRoundTrip : Prop :=
  ∀ s : State, s.Inv → s.status.fault = false → s.cur.mode = .enc → s.cur.ep = true → s.cur.len = 0 →
    s.cur.cnt = 0 → s.a1.toNat + s.a0.toNat ≤ 4096 → s.HasRoom (8 * s.a0.toNat) →
    ∃ t, exec .bcWrbytes s = .next t ∧ NoStartCode t.bufByte t.cur.len.toNat ∧
      ∀ d : State, d.status.fault = false → d.cur = ⟨.dec, true, false, t.cur.len, t.cur.len, 0, 0, 0, 0, 0⟩ →
        (∀ a, a < t.cur.len.toNat → d.bufByte a = t.bufByte a) → d.a0 = s.a0 → d.a1.toNat + d.a0.toNat ≤ 4096 →
        ∃ e, exec .bcRdbytes d = .next e ∧ e.status.fault = false ∧
          (∀ i, i < s.a0.toNat → e.rawByte (d.a1.toNat + i) = s.rawByte (s.a1.toNat + i)) ∧
          exec (.bcRdu 1) e = .next (e.failWith .eio 0x11)

/-! Exp-Golomb codes. -/

/-- A codeword of M zeros, a one and M info bits x is read as codeNum 2^M - 1 + x by EG_RDUE and EG_RDTE, and as its
signed value by EG_RDSE; EG_RDTE with A0 = 2 reads one inverted bit. 32 leading zeros are EPROTO and an input that
ends inside the code is EIO (42_expgolomb.md R200, R201, R203, R205; 30_encoding.md R110 to R112). -/
def Obligations.ExpGolombReads : Prop :=
  ∀ s : State, s.status.fault = false → s.cur.mode = .dec →
    (∀ m x r k, m ≤ 31 → x.length = m → s.remaining = List.replicate m false ++ true :: (x ++ r) →
      k = 2 ^ m - 1 + bitsNat x →
      (∃ c, exec .egRdue s = .next (State.complete .ok { s with cur := c, y0 := natWord k }) ∧
        Consumed s.bufByte s.cur c (2 * m + 1) r) ∧
      (∃ c, exec .egRdse s = .next (State.complete .ok { s with
          cur := c, y0 := intWord (if k % 2 = 1 then ((k : Int) + 1) / 2 else -((k : Int) / 2)) }) ∧
        Consumed s.bufByte s.cur c (2 * m + 1) r) ∧
      (s.a0 ≠ 2 → ∃ c, exec .egRdte s = .next (State.complete .ok { s with cur := c, y0 := natWord k }) ∧
        Consumed s.bufByte s.cur c (2 * m + 1) r)) ∧
    (∀ b r, s.a0 = 2 → s.remaining = b :: r →
      ∃ c, exec .egRdte s = .next (State.complete .ok { s with cur := c, y0 := if b then 0 else 1 }) ∧
        Consumed s.bufByte s.cur c 1 r) ∧
    (∀ r, s.remaining = List.replicate 32 false ++ r →
      exec .egRdue s = .next (s.failWith .eproto 0x20) ∧ exec .egRdse s = .next (s.failWith .eproto 0x22) ∧
      (s.a0 ≠ 2 → exec .egRdte s = .next (s.failWith .eproto 0x24))) ∧
    (∀ m x, m ≤ 31 → (s.remaining = List.replicate m false ∨
        (x.length < m ∧ s.remaining = List.replicate m false ++ true :: x)) →
      exec .egRdue s = .next (s.failWith .eio 0x20) ∧ exec .egRdse s = .next (s.failWith .eio 0x22) ∧
      (s.a0 ≠ 2 → exec .egRdte s = .next (s.failWith .eio 0x24)))

/-- EG_WRUE, EG_WRSE and EG_WRTE append the codeword of M zeros, a one and M info bits of their value, EG_WRTE with
A0 = 2 one inverted bit, when it fits the buffer; the values without a code are EINVAL (42_expgolomb.md R200, R202,
R204, R206).
That BUF keeps its bytes at and beyond the new LEN (`Appended`) is the model's choice (notes/assumptions/19.md). -/
def Obligations.ExpGolombWrites : Prop :=
  ∀ s : State, s.Inv → s.status.fault = false → s.cur.mode = .enc →
    (∀ m x k bs, m ≤ 31 → x.length = m → k = 2 ^ m - 1 + bitsNat x → bs = List.replicate m false ++ true :: x →
      s.HasRoom (2 * m + 1) →
      (s.a0.toNat = k → ∃ u, exec .egWrue s = .next (State.complete .ok (s.setStream u)) ∧
        Appended s (s.setStream u) bs) ∧
      ((if 0 < s.a0.toInt then 2 * s.a0.toInt - 1 else -2 * s.a0.toInt) = (k : Int) →
        ∃ u, exec .egWrse s = .next (State.complete .ok (s.setStream u)) ∧ Appended s (s.setStream u) bs) ∧
      (s.a0 ≠ 2 → s.a1.toNat = k → ∃ u, exec .egWrte s = .next (State.complete .ok (s.setStream u)) ∧
        Appended s (s.setStream u) bs)) ∧
    (s.a0 = 2 → s.a1.toNat ≤ 1 → s.HasRoom 1 →
      ∃ u, exec .egWrte s = .next (State.complete .ok (s.setStream u)) ∧
        Appended s (s.setStream u) [decide (s.a1 = 0)]) ∧
    (s.a0 = 0xFFFFFFFF → exec .egWrue s = .next (s.failWith .einval 0x21)) ∧
    (s.a0 = 0x80000000 → exec .egWrse s = .next (s.failWith .einval 0x23)) ∧
    (s.a0 = 2 ∧ 2 ≤ s.a1.toNat ∨ s.a0 ≠ 2 ∧ s.a1 = 0xFFFFFFFF → exec .egWrte s = .next (s.failWith .einval 0x25))

/-- Exp-Golomb bijection (42_expgolomb.md R207): what EG_WRUE, EG_WRSE or EG_WRTE (A0 = 2) writes, the matching read
returns on a DEC cursor whose remaining bits start with it, consuming exactly those bits; a ue code has
2 * floor(log2(v + 1)) + 1 of them. `Appended` also says that BUF keeps its bytes at and beyond the new LEN, which is
the model's choice (notes/assumptions/19.md). -/
def Obligations.ExpGolombRoundTrip : Prop :=
  ∀ s : State, s.Inv → s.status.fault = false → s.cur.mode = .enc → s.HasRoom 63 →
    (s.a0.toNat ≤ 2 ^ 32 - 2 → ∃ u bs, exec .egWrue s = .next (State.complete .ok (s.setStream u)) ∧
      Appended s (s.setStream u) bs ∧ bs.length = 2 * Nat.log2 (s.a0.toNat + 1) + 1 ∧
      ∀ (d : State) r, d.status.fault = false → d.cur.mode = .dec → d.remaining = bs ++ r →
        ∃ c, exec .egRdue d = .next (State.complete .ok { d with cur := c, y0 := s.a0 }) ∧
          Consumed d.bufByte d.cur c bs.length r) ∧
    (-(2 ^ 31 - 1) ≤ s.a0.toInt → ∃ u bs, exec .egWrse s = .next (State.complete .ok (s.setStream u)) ∧
      Appended s (s.setStream u) bs ∧
      ∀ (d : State) r, d.status.fault = false → d.cur.mode = .dec → d.remaining = bs ++ r →
        ∃ c, exec .egRdse d = .next (State.complete .ok { d with cur := c, y0 := s.a0 }) ∧
          Consumed d.bufByte d.cur c bs.length r) ∧
    (s.a0 = 2 → s.a1.toNat ≤ 1 → ∃ u bs, exec .egWrte s = .next (State.complete .ok (s.setStream u)) ∧
      Appended s (s.setStream u) bs ∧
      ∀ (d : State) r, d.status.fault = false → d.cur.mode = .dec → d.a0 = 2 → d.remaining = bs ++ r →
        ∃ c, exec .egRdte d = .next (State.complete .ok { d with cur := c, y0 := s.a1 }) ∧
          Consumed d.bufByte d.cur c bs.length r)

/-! CAVLC. -/

/-- The code tables are prefix codes with a codeword for every symbol the commands may write, and for coeff_token for
no other; each coded_block_pattern column is a permutation (43_cavlc.md R232, R234, R238, R240, R241, R243, R247,
R249). -/
def Obligations.CavlcTablesArePrefixCodes : Prop :=
  (∀ nC : Int, -2 ≤ nC → nC < 8 → PrefixCode (coeffTokenTable nC) ∧
    ∀ t1 tc, (∃ r ∈ coeffTokenTable nC, r.sym = (t1, tc)) ↔
      tc ≤ (if nC = -1 then 4 else if nC = -2 then 8 else 16) ∧ t1 ≤ min 3 tc) ∧
  (∀ m t, m = 4 ∨ m = 8 ∨ m = 15 ∨ m = 16 → 1 ≤ t → t ≤ (if m = 4 then 3 else if m = 8 then 7 else 15) →
    PrefixCode (totalZerosTable m t) ∧ ∀ tz, tz + t ≤ m → ∃ r ∈ totalZerosTable m t, r.sym = tz) ∧
  (∀ zl, 1 ≤ zl → zl ≤ 15 → PrefixCode (runBefore (min zl 7)) ∧
    ∀ run, run ≤ min zl 14 → ∃ r ∈ runBefore (min zl 7), r.sym = run) ∧
  (∀ (cat : Nat) (intra : Bool), (cbpColumn cat intra).Nodup ∧
    (cbpColumn cat intra).length = (if cat = 1 ∨ cat = 2 then 48 else 16) ∧
    ∀ v, v ∈ cbpColumn cat intra ↔ v < (cbpColumn cat intra).length)

/-- CV_NC: -1 or -2 for a chroma DC block; otherwise the blocks MB_NBBLK names left and above, of the luma kind for
blkKind 0 to 2 and of the chroma kind for 3 and 4, have the counts nA and nB, each none when its block does not count
as available, and these give their rounded mean, the only one, or 0. A neighbouring block counts 0 in a skipped
macroblock, 16 in an I_PCM one and its NZ count of the kind's component elsewhere; with CIP_DP an inter neighbour of an
intra macroblock does not count as available. Without its setup CV_NC is ESTATE, and a bad block is EINVAL
(43_cavlc.md R220, R221, R231; 46_mb_addressing.md R342, R343). -/
def Obligations.CvNcFromNeighbourCounts : Prop :=
  (∀ (kind idx cat range comp : Nat) (needs : Bool) (s : State), s.status.fault = false →
      cat = s.geom.chromaArrayType.toNat →
      needs = decide ((kind = 1 ∨ kind = 2 → cat = 3) ∧ (kind = 3 ∨ kind = 4 ∨ kind = 5 → cat = 1 ∨ cat = 2)) →
      range = (if kind ≤ 2 then 16 else if kind = 5 then 1 else if cat = 1 then 4 else 8) →
      comp = (if kind = 0 then 0 else if kind = 1 ∨ kind = 3 then 1 else 2) →
      (needs = true → s.geom.valid = true → s.currValid = true → kind ≤ 5 → idx < range →
        (kind = 5 → exec (.cvNc kind idx) s = .next (State.complete .ok { s with
          y0 := if cat = 1 then 0xFFFFFFFF else 0xFFFFFFFE })) ∧
        (kind < 5 → ∃ a b n, s.NbblkNames false (if kind ≤ 2 then 0 else 1) idx a ∧
          s.NbblkNames true (if kind ≤ 2 then 0 else 1) idx b ∧
          exec (.cvNc kind idx) s = .next (State.complete .ok { s with y0 := natWord n }) ∧
          (∀ nA nB, s.nbCount comp a = some nA → s.nbCount comp b = some nB → n = (nA + nB + 1) / 2) ∧
          (∀ nA, s.nbCount comp a = some nA → s.nbCount comp b = none → n = nA) ∧
          (∀ nB, s.nbCount comp a = none → s.nbCount comp b = some nB → n = nB) ∧
          (s.nbCount comp a = none → s.nbCount comp b = none → n = 0))) ∧
      ((needs = false ∨ s.geom.valid = false ∨ s.currValid = false) →
        exec (.cvNc kind idx) s = .next (s.failWith .estate 0x30)) ∧
      (needs = true → s.geom.valid = true → s.currValid = true → (5 < kind ∨ range ≤ idx) →
        exec (.cvNc kind idx) s = .next (s.failWith .einval 0x30))) ∧
  (∀ (s : State) (c : Nat) (b : NbBlock),
      (b.addr = none → s.nbCount c b = none) ∧
      (∀ (a : Nat) (e m : MbEntry), b.addr = some a → Table.find s.mb a = some e →
        Table.find s.mb s.currMbAddr.toNat = some m →
        (s.geom.cipDp = true ∧ m.intra = true ∧ e.intra = false → s.nbCount c b = none) ∧
        (¬(s.geom.cipDp = true ∧ m.intra = true ∧ e.intra = false) →
          (e.skip = true → s.nbCount c b = some 0) ∧
          (e.skip = false → e.ipcm = true → s.nbCount c b = some 16) ∧
          (e.skip = false → e.ipcm = false → c ≤ 2 → b.blk < 16 →
            ∃ n : BitVec 5, e.nz[16 * c + b.blk]? = some n ∧ s.nbCount c b = some n.toNat))))

/-- CV_RDTOKEN reads each codeword of nC's table as its pair, and for nC >= 8 the 6-bit code; a 6-bit pattern with too
many trailing ones is EPROTO and an nC outside -2..16 EINVAL (43_cavlc.md R232, R233). -/
def Obligations.CoeffTokenReads : Prop :=
  ∀ (s : State) (nC : Int), s.status.fault = false → s.cur.mode = .dec → nC = s.a0.toInt →
    (-2 ≤ nC → nC < 8 → ∀ row ∈ coeffTokenTable nC, ∀ r, s.remaining = row.bits ++ r →
      ∃ c, exec .cvRdtoken s = .next (State.complete .ok { s with
          cur := c, y0 := natWord row.sym.1, y1 := natWord row.sym.2 }) ∧ Consumed s.bufByte s.cur c row.len r) ∧
    (8 ≤ nC → nC ≤ 16 → ∀ bs r v, bs.length = 6 → s.remaining = bs ++ r → v = bitsNat bs →
      (v = 3 → ∃ c, exec .cvRdtoken s = .next (State.complete .ok { s with cur := c, y0 := 0, y1 := 0 }) ∧
        Consumed s.bufByte s.cur c 6 r) ∧
      (v ≠ 3 → v % 4 ≤ v / 4 + 1 → ∃ c, exec .cvRdtoken s = .next (State.complete .ok { s with
          cur := c, y0 := natWord (v % 4), y1 := natWord (v / 4 + 1) }) ∧ Consumed s.bufByte s.cur c 6 r) ∧
      (v ≠ 3 → v / 4 + 1 < v % 4 → exec .cvRdtoken s = .next (s.failWith .eproto 0x31))) ∧
    (nC < -2 ∨ 16 < nC → exec .cvRdtoken s = .next (s.failWith .einval 0x31))

/-- CV_WRTOKEN appends the codeword of the pair in nC's table, or for nC >= 8 the 6-bit code, when 16 bits fit; a pair
or an nC out of range is EINVAL (43_cavlc.md R232, R234).
That BUF keeps its bytes at and beyond the new LEN (`Appended`) is the model's choice (notes/assumptions/19.md). -/
def Obligations.CoeffTokenWrites : Prop :=
  ∀ (s : State) (nC : Int) (maxTc : Nat), s.Inv → s.status.fault = false → s.cur.mode = .enc → nC = s.a0.toInt →
    maxTc = (if nC = -1 then 4 else if nC = -2 then 8 else 16) →
    (-2 ≤ nC → nC ≤ 16 → s.a2.toNat ≤ maxTc → s.a1.toNat ≤ min 3 s.a2.toNat → s.HasRoom 16 →
      ∃ u bs, exec .cvWrtoken s = .next (State.complete .ok (s.setStream u)) ∧ Appended s (s.setStream u) bs ∧
        (nC < 8 → ∃ row ∈ coeffTokenTable nC, row.sym = (s.a1.toNat, s.a2.toNat) ∧ bs = row.bits) ∧
        (8 ≤ nC → bs.length = 6 ∧
          bitsNat bs = if s.a2 = 0 then 3 else 4 * (s.a2.toNat - 1) + s.a1.toNat)) ∧
    (nC < -2 ∨ 16 < nC ∨ maxTc < s.a2.toNat ∨ min 3 s.a2.toNat < s.a1.toNat →
      exec .cvWrtoken s = .next (s.failWith .einval 0x32))

/-- CV_RDLEVEL: a level_prefix of p zeros and a one, then level_suffix, give R235's level code and level, and the next
suffixLength; a prefix above MaxLevelPrefix is EPROTO and operands out of range EINVAL (43_cavlc.md R235, R236). -/
def Obligations.LevelReads : Prop :=
  ∀ s : State, s.status.fault = false → s.cur.mode = .dec →
    (∀ (sL p size code : Nat) (v : Int) (suffix r : List Bool), sL = s.a0.toNat → sL ≤ 6 → s.a1.toNat ≤ 1 →
      p ≤ s.params.maxLevelPrefix → size = (if p = 14 ∧ sL = 0 then 4 else if 15 ≤ p then p - 3 else sL) →
      suffix.length = size → s.remaining = List.replicate p false ++ true :: (suffix ++ r) →
      code + (if 16 ≤ p then 4096 else 0) = min 15 p * 2 ^ sL + bitsNat suffix +
        (if 15 ≤ p ∧ sL = 0 then 15 else 0) + (if 16 ≤ p then 2 ^ (p - 3) else 0) + (if s.a1 = 1 then 2 else 0) →
      v = (if code % 2 = 0 then ((code : Int) + 2) / 2 else -(((code : Int) + 1) / 2)) →
      ∃ c, exec .cvRdlevel s = .next (State.complete .ok { s with
          cur := c
          y0 := intWord v
          y1 := natWord (if 3 * 2 ^ (max 1 sL - 1) < v.natAbs ∧ max 1 sL < 6 then max 1 sL + 1 else max 1 sL) }) ∧
        Consumed s.bufByte s.cur c (p + 1 + size) r) ∧
    (∀ r, s.a0.toNat ≤ 6 → s.a1.toNat ≤ 1 → s.remaining = List.replicate (s.params.maxLevelPrefix + 1) false ++ r →
      exec .cvRdlevel s = .next (s.failWith .eproto 0x33)) ∧
    (6 < s.a0.toNat ∨ 1 < s.a1.toNat → exec .cvRdlevel s = .next (s.failWith .einval 0x33))

/-- CV_WRLEVEL appends bits that CV_RDLEVEL with the same operands reads back as the same level, both giving the same
next suffixLength, when they fit the buffer and the level's code has a level_prefix of at most MaxLevelPrefix, which
is so for every magnitude of 2063 or less; a larger prefix is EPROTO, and operands out of range are EINVAL
(43_cavlc.md R235, R237, R250).
That BUF keeps its bytes at and beyond the new LEN (`Appended`) is the model's choice (notes/assumptions/19.md). -/
def Obligations.LevelRoundTrip : Prop :=
  ∀ (s : State) (pre : Nat), s.Inv → s.status.fault = false → s.cur.mode = .enc →
    pre = (levelFields s.a0.toNat (levelCodeFor (decide (s.a1 = 1)) s.a2.toInt)).1 →
    (s.a0.toNat ≤ 6 → s.a1.toNat ≤ 1 → s.a2 ≠ 0 → ¬(s.a1 = 1 ∧ s.a2.toInt.natAbs = 1) →
      (pre ≤ s.params.maxLevelPrefix → s.HasRoom 60 → ∃ (u : Stream) (bs : List Bool) (next : Nat),
        exec .cvWrlevel s = .next (State.complete .ok { s.setStream u with y1 := natWord next }) ∧
        Appended s (s.setStream u) bs ∧
        ∀ (d : State) r, d.status.fault = false → d.cur.mode = .dec → d.a0 = s.a0 → d.a1 = s.a1 →
          d.params.maxLevelPrefix = s.params.maxLevelPrefix → d.remaining = bs ++ r →
          ∃ c, exec .cvRdlevel d = .next (State.complete .ok { d with cur := c, y0 := s.a2, y1 := natWord next }) ∧
            Consumed d.bufByte d.cur c bs.length r) ∧
      (s.params.maxLevelPrefix < pre → exec .cvWrlevel s = .next (s.failWith .eproto 0x34)) ∧
      (s.a2.toInt.natAbs ≤ 2063 → pre ≤ s.params.maxLevelPrefix)) ∧
    (6 < s.a0.toNat ∨ 1 < s.a1.toNat ∨ s.a2 = 0 ∨ (s.a1 = 1 ∧ s.a2.toInt.natAbs = 1) →
      exec .cvWrlevel s = .next (s.failWith .einval 0x34))

/-- CV_RDTZ and CV_WRTZ read and append the total_zeros codewords of the row and family of their operands, CV_RDRUN and
CV_WRRUN the run_before codewords of column Min(zerosLeft, 7). A read total_zeros above maxNumCoeff - tzVlcIndex or a
read run above zerosLeft is EPROTO, operands out of range EINVAL (43_cavlc.md R238 to R243).
That BUF keeps its bytes at and beyond the new LEN (`Appended`) is the model's choice (notes/assumptions/19.md). -/
def Obligations.ZerosAndRunsReadAndWrite : Prop :=
  (∀ (s : State) (t m tzMax : Nat), s.status.fault = false → t = s.a0.toNat → m = s.a1.toNat →
      tzMax = (if m = 4 then 3 else if m = 8 then 7 else 15) →
      (m = 4 ∨ m = 8 ∨ m = 15 ∨ m = 16 → 1 ≤ t → t ≤ tzMax →
        (s.cur.mode = .dec → ∀ row ∈ totalZerosTable m t, ∀ r, s.remaining = row.bits ++ r →
          (row.sym + t ≤ m → ∃ c, exec .cvRdtz s = .next (State.complete .ok { s with
              cur := c, y0 := natWord row.sym }) ∧ Consumed s.bufByte s.cur c row.len r) ∧
          (m < row.sym + t → exec .cvRdtz s = .next (s.failWith .eproto 0x35))) ∧
        (s.Inv → s.cur.mode = .enc → s.a2.toNat + t ≤ m → s.HasRoom 9 →
          ∃ u, ∃ row ∈ totalZerosTable m t, row.sym = s.a2.toNat ∧
            exec .cvWrtz s = .next (State.complete .ok (s.setStream u)) ∧ Appended s (s.setStream u) row.bits) ∧
        (s.cur.mode = .enc → m < s.a2.toNat + t → exec .cvWrtz s = .next (s.failWith .einval 0x36))) ∧
      (¬(m = 4 ∨ m = 8 ∨ m = 15 ∨ m = 16) ∨ t = 0 ∨ tzMax < t →
        (s.cur.mode = .dec → exec .cvRdtz s = .next (s.failWith .einval 0x35)) ∧
        (s.cur.mode = .enc → exec .cvWrtz s = .next (s.failWith .einval 0x36)))) ∧
  (∀ (s : State) (zl : Nat), s.status.fault = false → zl = s.a0.toNat →
      (1 ≤ zl → zl ≤ 15 →
        (s.cur.mode = .dec → ∀ row ∈ runBefore (min zl 7), ∀ r, s.remaining = row.bits ++ r →
          (row.sym ≤ zl → ∃ c, exec .cvRdrun s = .next (State.complete .ok { s with
              cur := c, y0 := natWord row.sym }) ∧ Consumed s.bufByte s.cur c row.len r) ∧
          (zl < row.sym → exec .cvRdrun s = .next (s.failWith .eproto 0x37))) ∧
        (s.Inv → s.cur.mode = .enc → s.a1.toNat ≤ min zl 14 → s.HasRoom 11 →
          ∃ u, ∃ row ∈ runBefore (min zl 7), row.sym = s.a1.toNat ∧
            exec .cvWrrun s = .next (State.complete .ok (s.setStream u)) ∧ Appended s (s.setStream u) row.bits) ∧
        (s.cur.mode = .enc → min zl 14 < s.a1.toNat → exec .cvWrrun s = .next (s.failWith .einval 0x38))) ∧
      (zl = 0 ∨ 15 < zl →
        (s.cur.mode = .dec → exec .cvRdrun s = .next (s.failWith .einval 0x37)) ∧
        (s.cur.mode = .enc → exec .cvWrrun s = .next (s.failWith .einval 0x38))))

/-- CV_RDCBP maps the ue codeNum k through the column of CHROMA_ARRAY_TYPE and INTRA, EPROTO past its end; CV_WRCBP
appends the ue code of the codeNum whose entry is A0, EINVAL past its end (43_cavlc.md R247 to R249).
That BUF keeps its bytes at and beyond the new LEN (`Appended`) is the model's choice (notes/assumptions/19.md). -/
def Obligations.CodedBlockPattern : Prop :=
  ∀ (s : State) (intra : Bool) (n : Nat), s.status.fault = false →
    n = (if s.geom.cat = 1 ∨ s.geom.cat = 2 then 48 else 16) →
    (s.cur.mode = .dec → ∀ k r, k ≤ 2 ^ 32 - 2 → s.remaining = ueBits k ++ r →
      (∀ v, (cbpColumn s.geom.cat intra)[k]? = some v →
        ∃ c, exec (.cvRdcbp intra) s = .next (State.complete .ok { s with cur := c, y0 := natWord v }) ∧
          Consumed s.bufByte s.cur c (ueBits k).length r) ∧
      (n ≤ k → exec (.cvRdcbp intra) s = .next (s.failWith .eproto 0x3B))) ∧
    (s.Inv → s.cur.mode = .enc → s.a0.toNat < n → s.HasRoom 11 →
      ∃ u k, (cbpColumn s.geom.cat intra)[k]? = some s.a0.toNat ∧
        exec (.cvWrcbp intra) s = .next (State.complete .ok (s.setStream u)) ∧
        Appended s (s.setStream u) (ueBits k)) ∧
    (s.cur.mode = .enc → n ≤ s.a0.toNat → exec (.cvWrcbp intra) s = .next (s.failWith .einval 0x3C))

/-- The residual commands check their operands the same way, ESTATE or EINVAL where CheckResidualSetup() fails; STORE
writes TotalCoeff to NZ[component][blkIdx] of the current macroblock's entry and to nothing else, and without STORE
nothing is stored (43_cavlc.md R220, R245, R246). -/
def Obligations.ResidualSetupAndStore : Prop :=
  (∀ (kind : Nat) (store ncx : Bool) (blkIdx : Nat) (s : State), s.status.fault = false →
      (¬∃ nC, ResidualLegal s kind store ncx blkIdx nC) →
      ((ncx = false ∧ (kindNeeds s.geom.cat kind = false ∨ s.geom.valid = false ∨ s.currValid = false)) ∨
          (store = true ∧ s.currValid = false) →
        (s.cur.mode = .dec → exec (.cvRdres kind store ncx blkIdx) s = .next (s.failWith .estate 0x39)) ∧
        (s.cur.mode = .enc → exec (.cvWrres kind store ncx blkIdx) s = .next (s.failWith .estate 0x3A))) ∧
      (¬((ncx = false ∧ (kindNeeds s.geom.cat kind = false ∨ s.geom.valid = false ∨ s.currValid = false)) ∨
          (store = true ∧ s.currValid = false)) →
        (s.cur.mode = .dec → exec (.cvRdres kind store ncx blkIdx) s = .next (s.failWith .einval 0x39)) ∧
        (s.cur.mode = .enc → exec (.cvWrres kind store ncx blkIdx) s = .next (s.failWith .einval 0x3A)))) ∧
  (∀ (s : State) (kind blkIdx tc : Nat) (e : MbEntry), kind ≤ 4 → blkIdx < 16 → tc ≤ 16 →
      Table.find s.mb s.currMbAddr.toNat = some e →
      s.storeTotalCoeff false kind blkIdx tc = s ∧
      ∃ t f, s.storeTotalCoeff true kind blkIdx tc = t ∧ t = { s with mb := t.mb } ∧
        Table.find t.mb s.currMbAddr.toNat = some f ∧ f = { e with nz := f.nz } ∧
        (∀ c k, c ≤ 2 → k < 16 → f.nzAt c k =
          if c = (if kind = 1 ∨ kind = 3 then 1 else if kind = 2 ∨ kind = 4 then 2 else 0) ∧ k = blkIdx then tc
          else e.nzAt c k) ∧
        ∀ a, a ≠ s.currMbAddr.toNat → Table.find t.mb a = Table.find s.mb a)

/-- CAVLC residual round trip (43_cavlc.md R244 to R246, R250): whatever the coefficients, the block has bits, at most
1310, and a greatest level_prefix. Where MaxLevelPrefix allows that prefix CV_WRRES appends the bits when they fit the
buffer, reports TotalCoeff, TrailingOnes and nC and stores TotalCoeff if asked; where it does not, CV_WRRES is EPROTO.
CV_RDRES over those bits with the same range, maxNumCoeff and nC, its MaxLevelPrefix allowing the prefix, gives the
same COEF[first..last], 0 in the other COEF registers, the same reports, and consumes exactly those bits. Magnitudes of
2063 or less need a prefix of at most 15, which every MaxLevelPrefix allows, and at most 638 bits.
That BUF keeps its bytes at and beyond the new LEN (`Appended`) is the model's choice (notes/assumptions/19.md). -/
def Obligations.ResidualRoundTrip : Prop :=
  ∀ (kind : Nat) (store ncx : Bool) (blkIdx : Nat) (nC : Int) (s : State), s.Inv → s.status.fault = false →
    s.cur.mode = .enc → ResidualLegal s kind store ncx blkIdx nC →
    ∃ (bs : List Bool) (t1 tc pre : Nat), bs.length ≤ 1310 ∧ t1 ≤ min 3 tc ∧
      tc = coefCount s.coefAt s.a0.toNat s.a1.toNat ∧
      ((∀ j, s.a0.toNat ≤ j → j ≤ s.a1.toNat → (s.coefAt j).toInt.natAbs ≤ 2063) → pre ≤ 15 ∧ bs.length ≤ 638) ∧
      (pre ≤ s.params.maxLevelPrefix → s.HasRoom bs.length → ∃ u,
        exec (.cvWrres kind store ncx blkIdx) s = .next (State.complete .ok
          { (s.storeTotalCoeff store kind blkIdx tc).setStream u with
            y0 := natWord tc, y1 := natWord t1, y2 := intWord nC }) ∧
        Appended s (s.setStream u) bs) ∧
      (s.params.maxLevelPrefix < pre → s.HasRoom bs.length →
        exec (.cvWrres kind store ncx blkIdx) s = .next (s.failWith .eproto 0x3A)) ∧
      ∀ (kind' : Nat) (store' ncx' : Bool) (blkIdx' : Nat) (d : State) r, d.status.fault = false →
        d.cur.mode = .dec → ResidualLegal d kind' store' ncx' blkIdx' nC → d.a0 = s.a0 → d.a1 = s.a1 →
        d.a2 = s.a2 → pre ≤ d.params.maxLevelPrefix → d.remaining = bs ++ r →
        ∃ (c : Cursor) (coef : Vector Word 16),
          exec (.cvRdres kind' store' ncx' blkIdx') d = .next (State.complete .ok
            { d.storeTotalCoeff store' kind' blkIdx' tc with
              cur := c, coef := coef, y0 := natWord tc, y1 := natWord t1, y2 := intWord nC }) ∧
          Consumed d.bufByte d.cur c bs.length r ∧
          ∀ j : Fin 16, coef[j] = if s.a0.toNat ≤ j.val ∧ j.val ≤ s.a1.toNat then s.coefAt j.val else 0

/-! CABAC. -/

/-- CB_CTXINIT sets every context from CabacInitMN and SliceQPY, ctx[276] to (63, 0), and the contexts without a row
to VALID 0; operands out of range are EINVAL (44_cabac_engine.md R272, R273). -/
def Obligations.ContextInitialisation : Prop :=
  ∀ (t : Nat) (s : State) (q : Int), s.status.fault = false → q = s.a0.toInt →
    (t ≤ 3 → -48 ≤ q → q ≤ 51 →
      ∃ ctx, exec (.cbCtxinit t) s = .next (State.complete .ok { s with ctx := ctx }) ∧
        (∀ c, 1024 ≤ c → Table.find ctx c = none) ∧ Table.find ctx 276 = some ⟨63, false⟩ ∧
        ∀ c, c < 1024 → c ≠ 276 →
          (cabacInitMN s.params t c = none → Table.find ctx c = none) ∧
          (∀ (m n pre : Int), cabacInitMN s.params t c = some (m, n) →
            pre = max 1 (min 126 ((m * max 0 (min 51 q)) / 16 + n)) →
            (pre ≤ 63 → Table.find ctx c = some ⟨BitVec.ofInt 6 (63 - pre), false⟩) ∧
            (64 ≤ pre → Table.find ctx c = some ⟨BitVec.ofInt 6 (pre - 64), true⟩))) ∧
    (3 < t ∨ q < -48 ∨ 51 < q → exec (.cbCtxinit t) s = .next (s.failWith .einval 0x40))

/-- CB_CTXSET sets one context and CB_CTXGET reads one; an index above 1023 or a set bit above bit 6 is EINVAL, and
reading a context whose VALID is 0 is ESTATE (44_cabac_engine.md R270, R274, R275). -/
def Obligations.ContextSetAndGet : Prop :=
  ∀ (c : Nat) (s : State), s.status.fault = false →
    (c ≤ 1023 → s.a0.toNat < 128 →
      ∃ t, exec (.cbCtxset c) s = .next t ∧ t = { s with ctx := t.ctx, status := s.status.complete .ok } ∧
        Table.find t.ctx c = some ⟨s.a0.setWidth 6, s.a0.getLsbD 6⟩ ∧
        (∀ k, k ≠ c → Table.find t.ctx k = Table.find s.ctx k) ∧
        exec (.cbCtxget c) t = .next (State.complete .ok { t with y0 := s.a0 })) ∧
    (c ≤ 1023 → ∀ x, Table.find s.ctx c = some x →
      exec (.cbCtxget c) s = .next (State.complete .ok { s with
        y0 := natWord (64 * x.valMPS.toNat + x.pStateIdx.toNat) })) ∧
    (c ≤ 1023 → Table.find s.ctx c = none → exec (.cbCtxget c) s = .next (s.failWith .estate 0x42)) ∧
    (1023 < c ∨ 128 ≤ s.a0.toNat → exec (.cbCtxset c) s = .next (s.failWith .einval 0x41)) ∧
    (1023 < c → exec (.cbCtxget c) s = .next (s.failWith .einval 0x42))

/-- CB_EINIT starts the encoding engine; CB_DINIT starts the decoding engine from the next 9 bits, EPROTO for 510 and
511 and EIO when fewer remain (44_cabac_engine.md R277, R283). -/
def Obligations.EnginesStart : Prop :=
  ∀ s : State, s.status.fault = false →
    (s.cur.mode = .enc → exec .cbEinit s = .next (State.complete .ok { s with enc := ⟨0, 510, 0, true, true⟩ })) ∧
    (s.cur.mode = .dec → ∀ bs r, bs.length = 9 → s.remaining = bs ++ r →
      (bitsNat bs < 510 → ∃ c, exec .cbDinit s = .next (State.complete .ok { s with
          cur := c, dec := ⟨510, BitVec.ofNat 9 (bitsNat bs), true⟩ }) ∧ Consumed s.bufByte s.cur c 9 r) ∧
      (510 ≤ bitsNat bs → exec .cbDinit s = .next (s.failWith .eproto 0x48))) ∧
    (s.cur.mode = .dec → s.remaining.length < 9 → exec .cbDinit s = .next (s.failWith .eio 0x48))

/-- CB_EDEC: the interval of the bin is chosen with rangeTabLPS, the context takes its transition, and RenormE turns n
times until codIRange is at least 256, appending its bits, when the outstanding bits and 8 more fit. A context whose
VALID is 0 is ESTATE; an index or bin out of range is EINVAL (44_cabac_engine.md R271, R276, R278, R279).
That BUF keeps its bytes at and beyond the new LEN (`Appended`) is the model's choice (notes/assumptions/19.md). -/
def Obligations.EncodeDecisionBin : Prop :=
  ∀ (c : Nat) (s : State), s.Inv → s.status.fault = false → s.enc.active = true →
    (∀ (x y : Ctx) (lps base low : Nat), c ≤ 1023 → s.a0.toNat ≤ 1 → Table.find s.ctx c = some x →
      lps = rangeTabLPS x.pStateIdx.toNat (s.enc.range.toNat / 64 % 4) →
      (decide (s.a0 = 1) = x.valMPS → base = s.enc.range.toNat - lps ∧ low = s.enc.low.toNat ∧
        y = ⟨if x.pStateIdx = 63 then 63 else if x.pStateIdx = 62 then 62 else x.pStateIdx + 1, x.valMPS⟩) →
      (decide (s.a0 = 1) ≠ x.valMPS → base = lps ∧ low = s.enc.low.toNat + (s.enc.range.toNat - lps) ∧
        y = ⟨BitVec.ofNat 6 (transIdxLPS x.pStateIdx.toNat), if x.pStateIdx = 0 then !x.valMPS else x.valMPS⟩) →
      s.enc.outstanding.toNat + 8 < 2 ^ 32 → s.HasRoom (s.enc.outstanding.toNat + 8) →
      ∃ (n : Nat) (r : Renorm) (u : Stream), 256 ≤ base * 2 ^ n ∧ base * 2 ^ n ≤ 510 ∧
        r = Renorm.turns n ⟨low, s.enc.outstanding.toNat, s.enc.first, []⟩ ∧
        exec (.cbEdec c) s = .next (State.complete .ok { s.setStream u with
          enc := ⟨BitVec.ofNat 10 r.low, BitVec.ofNat 9 (base * 2 ^ n), natWord r.outstanding, r.first, true⟩
          ctx := Table.put s.ctx c y }) ∧
        Appended s (s.setStream u) r.bits) ∧
    (c ≤ 1023 → s.a0.toNat ≤ 1 → Table.find s.ctx c = none → exec (.cbEdec c) s = .next (s.failWith .estate 0x44)) ∧
    (1023 < c ∨ 1 < s.a0.toNat → exec (.cbEdec c) s = .next (s.failWith .einval 0x44))

/-- CB_EBYP doubles codILow, adds codIRange for a 1, and puts a bit or counts it outstanding; a bin above 1 is EINVAL
and a full outstanding counter EPROTO (44_cabac_engine.md R276, R280).
That BUF keeps its bytes at and beyond the new LEN (`Appended`) is the model's choice (notes/assumptions/19.md). -/
def Obligations.EncodeBypassBin : Prop :=
  ∀ (s : State) (low : Nat), s.Inv → s.status.fault = false → s.enc.active = true →
    low = 2 * s.enc.low.toNat + (if s.a0 = 1 then s.enc.range.toNat else 0) →
    (s.a0.toNat ≤ 1 → 1024 ≤ low → s.HasRoom (s.enc.outstanding.toNat + 1) →
      ∃ u, exec .cbEbyp s = .next (State.complete .ok { s.setStream u with
          enc := { s.enc with low := BitVec.ofNat 10 (low - 1024), outstanding := 0, first := false } }) ∧
        Appended s (s.setStream u) (engineBits s.enc.first s.enc.outstanding.toNat true)) ∧
    (s.a0.toNat ≤ 1 → low < 512 → s.HasRoom (s.enc.outstanding.toNat + 1) →
      ∃ u, exec .cbEbyp s = .next (State.complete .ok { s.setStream u with
          enc := { s.enc with low := BitVec.ofNat 10 low, outstanding := 0, first := false } }) ∧
        Appended s (s.setStream u) (engineBits s.enc.first s.enc.outstanding.toNat false)) ∧
    (s.a0.toNat ≤ 1 → 512 ≤ low → low < 1024 →
      (s.enc.outstanding.toNat + 1 < 2 ^ 32 → exec .cbEbyp s = .next (State.complete .ok { s with
        enc := { s.enc with low := BitVec.ofNat 10 (low - 512), outstanding := s.enc.outstanding + 1 } })) ∧
      (s.enc.outstanding = 0xFFFFFFFF → exec .cbEbyp s = .next (s.failWith .eproto 0x45))) ∧
    (1 < s.a0.toNat → exec .cbEbyp s = .next (s.failWith .einval 0x45))

/-- CB_ETERM: a 0 takes 2 from codIRange and renormalises; a 1 flushes, ending the run: 7 turns, a put bit and two
more bits, the last one 1; a bin above 1 is EINVAL (44_cabac_engine.md R276, R281, R282).
That BUF keeps its bytes at and beyond the new LEN (`Appended`) is the model's choice (notes/assumptions/19.md). -/
def Obligations.EncodeTerminateBin : Prop :=
  ∀ s : State, s.Inv → s.status.fault = false → s.enc.active = true →
    (s.a0 = 0 → s.enc.outstanding.toNat + 8 < 2 ^ 32 → s.HasRoom (s.enc.outstanding.toNat + 8) →
      ∃ (n : Nat) (r : Renorm) (u : Stream), 256 ≤ (s.enc.range.toNat - 2) * 2 ^ n ∧
        (s.enc.range.toNat - 2) * 2 ^ n ≤ 510 ∧
        r = Renorm.turns n ⟨s.enc.low.toNat, s.enc.outstanding.toNat, s.enc.first, []⟩ ∧
        exec .cbEterm s = .next (State.complete .ok { s.setStream u with
          enc := ⟨BitVec.ofNat 10 r.low, BitVec.ofNat 9 ((s.enc.range.toNat - 2) * 2 ^ n), natWord r.outstanding,
            r.first, true⟩ }) ∧
        Appended s (s.setStream u) r.bits) ∧
    (s.a0 = 1 → s.enc.outstanding.toNat + 8 < 2 ^ 32 → s.HasRoom (s.enc.outstanding.toNat + 11) →
      ∃ (r : Renorm) (u : Stream),
        r = Renorm.turns 7 ⟨s.enc.low.toNat + (s.enc.range.toNat - 2), s.enc.outstanding.toNat, s.enc.first, []⟩ ∧
        exec .cbEterm s = .next (State.complete .ok { s.setStream u with
          enc := ⟨BitVec.ofNat 10 r.low, 256, 0, false, false⟩ }) ∧
        Appended s (s.setStream u) (r.bits ++ engineBits r.first r.outstanding (decide (r.low / 512 % 2 = 1)) ++
          [decide (r.low / 256 % 2 = 1), true])) ∧
    (1 < s.a0.toNat → exec .cbEterm s = .next (s.failWith .einval 0x46))

/-- CB_DDEC: the interval that holds dOffset gives the bin and the context's transition, and n renormalisation bits are
read until dRange is at least 256; too few bits are EIO, a context whose VALID is 0 ESTATE, an index above 1023 EINVAL
(44_cabac_engine.md R271, R284). -/
def Obligations.DecodeDecisionBin : Prop :=
  ∀ (c : Nat) (s : State), s.Inv → s.status.fault = false → s.dec.active = true →
    (∀ (x y : Ctx) (lps base off n : Nat) (bin : Bool), c ≤ 1023 → Table.find s.ctx c = some x →
      lps = rangeTabLPS x.pStateIdx.toNat (s.dec.range.toNat / 64 % 4) →
      (s.dec.offset.toNat < s.dec.range.toNat - lps →
        bin = x.valMPS ∧ base = s.dec.range.toNat - lps ∧ off = s.dec.offset.toNat ∧
        y = ⟨if x.pStateIdx = 63 then 63 else if x.pStateIdx = 62 then 62 else x.pStateIdx + 1, x.valMPS⟩) →
      (s.dec.range.toNat - lps ≤ s.dec.offset.toNat →
        bin = !x.valMPS ∧ base = lps ∧ off = s.dec.offset.toNat - (s.dec.range.toNat - lps) ∧
        y = ⟨BitVec.ofNat 6 (transIdxLPS x.pStateIdx.toNat), if x.pStateIdx = 0 then !x.valMPS else x.valMPS⟩) →
      256 ≤ base * 2 ^ n → base * 2 ^ n ≤ 510 →
      (∀ bs r, bs.length = n → s.remaining = bs ++ r →
        ∃ d, exec (.cbDdec c) s = .next (State.complete .ok { s with
            cur := d
            ctx := Table.put s.ctx c y
            dec := ⟨BitVec.ofNat 9 (base * 2 ^ n), BitVec.ofNat 9 (off * 2 ^ n + bitsNat bs), true⟩
            y0 := if bin then 1 else 0 }) ∧ Consumed s.bufByte s.cur d n r) ∧
      (s.remaining.length < n → exec (.cbDdec c) s = .next (s.failWith .eio 0x49))) ∧
    (c ≤ 1023 → Table.find s.ctx c = none → exec (.cbDdec c) s = .next (s.failWith .estate 0x49)) ∧
    (1023 < c → exec (.cbDdec c) s = .next (s.failWith .einval 0x49))

/-- CB_DBYP shifts one bit into dOffset and compares with dRange; CB_DTERM takes 2 from dRange and either ends the run
or renormalises; too few bits are EIO (44_cabac_engine.md R285, R286). -/
def Obligations.DecodeBypassAndTerminate : Prop :=
  ∀ s : State, s.Inv → s.status.fault = false → s.dec.active = true →
    (∀ b r off, s.remaining = b :: r → off = 2 * s.dec.offset.toNat + b.toNat →
      (s.dec.range.toNat ≤ off → ∃ d, exec .cbDbyp s = .next (State.complete .ok { s with
          cur := d, dec := { s.dec with offset := BitVec.ofNat 9 (off - s.dec.range.toNat) }, y0 := 1 }) ∧
        Consumed s.bufByte s.cur d 1 r) ∧
      (off < s.dec.range.toNat → ∃ d, exec .cbDbyp s = .next (State.complete .ok { s with
          cur := d, dec := { s.dec with offset := BitVec.ofNat 9 off }, y0 := 0 }) ∧
        Consumed s.bufByte s.cur d 1 r)) ∧
    (s.remaining = [] → exec .cbDbyp s = .next (s.failWith .eio 0x4A)) ∧
    (s.dec.range.toNat - 2 ≤ s.dec.offset.toNat → exec .cbDterm s = .next (State.complete .ok { s with
      dec := ⟨s.dec.range - 2, s.dec.offset, false⟩, y0 := 1 })) ∧
    (s.dec.offset.toNat < s.dec.range.toNat - 2 → 258 ≤ s.dec.range.toNat →
      exec .cbDterm s = .next (State.complete .ok { s with dec := { s.dec with range := s.dec.range - 2 }, y0 := 0 })) ∧
    (s.dec.offset.toNat < s.dec.range.toNat - 2 → s.dec.range.toNat < 258 →
      (∀ b r, s.remaining = b :: r → ∃ d, exec .cbDterm s = .next (State.complete .ok { s with
          cur := d
          dec := ⟨BitVec.ofNat 9 (2 * (s.dec.range.toNat - 2)),
            BitVec.ofNat 9 (2 * s.dec.offset.toNat + b.toNat), true⟩
          y0 := 0 }) ∧ Consumed s.bufByte s.cur d 1 r) ∧
      (s.remaining = [] → exec .cbDterm s = .next (s.failWith .eio 0x4B)))

/-- CB_DBIN, whatever its fields: EFAULTED while FAULT = 1, else EUNSUPP, which sets FAULT (44_cabac_engine.md
R287). -/
def Obligations.DecodeBinIsRefused : Prop :=
  ∀ (f8 f16 : Nat) (s : State),
    (f8 < 256 → f16 < 65536 → decode (wordOf 0x4C f8 f16) = .ok (.cbDbin f8 f16)) ∧
    (s.status.fault = true → exec (.cbDbin f8 f16) s = .next (s.complete .efaulted)) ∧
    (s.status.fault = false → ∃ t, exec (.cbDbin f8 f16) s = .next t ∧ t = s.failWith .eunsupp 0x4C ∧
      t.status = ⟨.eunsupp, true, 0x4C⟩)

/-! CABAC binarization. -/

/-- BN_U, BN_TU, BN_FL and BN_UEGK replace the bin buffer by R311 to R314's strings; operands out of range are EINVAL.
The UEGk suffix codes A - uCoff = 2^k (2^j - 1) + x as j ones, a zero and the k + j bits of x
(45_cabac_binarization.md R310 to R314). -/
def Obligations.BinStrings : Prop :=
  ∀ s : State, s.status.fault = false →
    (s.a0.toNat ≤ 127 → ∃ t, exec .bnU s = .next t ∧
      BinsReplaced s t (List.replicate s.a0.toNat true ++ [false])) ∧
    (127 < s.a0.toNat → exec .bnU s = .next (s.failWith .einval 0x50)) ∧
    (s.a1.toNat ≤ 127 → s.a0.toNat ≤ s.a1.toNat → ∃ t, exec .bnTu s = .next t ∧
      BinsReplaced s t (List.replicate s.a0.toNat true ++ if s.a0.toNat < s.a1.toNat then [false] else [])) ∧
    (127 < s.a1.toNat ∨ s.a1.toNat < s.a0.toNat → exec .bnTu s = .next (s.failWith .einval 0x51)) ∧
    (s.a0.toNat ≤ s.a1.toNat → ∃ t bs, exec .bnFl s = .next t ∧ BinsReplaced s t bs ∧
      s.a1.toNat + 1 ≤ 2 ^ bs.length ∧ (∀ l, l < bs.length → 2 ^ l < s.a1.toNat + 1) ∧
      bitsNat bs.reverse = s.a0.toNat) ∧
    (s.a1.toNat < s.a0.toNat → exec .bnFl s = .next (s.failWith .einval 0x52)) ∧
    (∀ (k : Nat) (signed : Bool) (v : Int) (sign : List Bool), k < 16 → s.a1.toNat ≤ 32 →
      v = (if signed then s.a0.toInt else (s.a0.toNat : Int)) →
      sign = (if signed = true ∧ v ≠ 0 then [decide (v < 0)] else []) →
      (v.natAbs < s.a1.toNat → ∃ t, exec (.bnUegk k signed) s = .next t ∧
        BinsReplaced s t (List.replicate v.natAbs true ++ false :: sign)) ∧
      (∀ j x, v.natAbs = s.a1.toNat + 2 ^ k * (2 ^ j - 1) + bitsNat x → x.length = k + j →
        ∃ t, exec (.bnUegk k signed) s = .next t ∧
          BinsReplaced s t (List.replicate s.a1.toNat true ++ List.replicate j true ++ false :: (x ++ sign)))) ∧
    (∀ k signed, 32 < s.a1.toNat → exec (.bnUegk k signed) s = .next (s.failWith .einval 0x53))

/-- Bin-string bound (45_cabac_binarization.md R316): at most 128 bins from BN_U, 127 from BN_TU, 32 from BN_FL, 95 from
BN_UEGK. -/
def Obligations.BinStringBound : Prop :=
  ∀ (s t : State),
    (exec .bnU s = .next t → t.status.fault = false → t.binLen ≤ 128) ∧
    (exec .bnTu s = .next t → t.status.fault = false → t.binLen ≤ 127) ∧
    (exec .bnFl s = .next t → t.status.fault = false → t.binLen ≤ 32) ∧
    (∀ (k : Nat) (signed : Bool), k < 16 → exec (.bnUegk k signed) s = .next t → t.status.fault = false →
      t.binLen ≤ 95)

/-- BN_ENC codes BINBUF[A0..A0+A1-1] in order: no bin changes nothing, one bin is what CB_EBYP (for 0xFFFF) or CB_EDEC
does with it, and more are the first and then the rest. It completes when its bins' bits fit; an index or a slice out
of range is EINVAL, an invalid context ESTATE (45_cabac_binarization.md R315).
That BUF keeps its bytes at and beyond the new LEN (`Appended`) is the model's choice (notes/assumptions/19.md). -/
def Obligations.BinEncode : Prop :=
  ∀ (c : Nat) (s : State), s.Inv → s.status.fault = false → s.enc.active = true → (c ≤ 1023 ∨ c = 0xFFFF) →
    (s.a0.toNat + s.a1.toNat ≤ s.binLen →
      (s.a1 = 0 → exec (.bnEnc c) s = .next (s.complete .ok)) ∧
      (s.a1 = 1 → ∀ t, exec (if c = 0xFFFF then .cbEbyp else .cbEdec c)
          { s with a0 := if s.binAt s.a0.toNat then 1 else 0 } = .next t → t.status.fault = false →
        exec (.bnEnc c) s = .next { t with a0 := s.a0 }) ∧
      (∀ n t e, s.a1.toNat = n + 1 → exec (.bnEnc c) { s with a1 := 1 } = .next t → t.status.fault = false →
        exec (.bnEnc c) { t with a0 := s.a0 + 1, a1 := natWord n } = .next e → e.status.fault = false →
        exec (.bnEnc c) s = .next { e with a0 := s.a0, a1 := s.a1 }) ∧
      (c = 0xFFFF ∨ s.a1 = 0 ∨ (∃ x, Table.find s.ctx c = some x) →
        s.enc.outstanding.toNat + 8 * s.a1.toNat < 2 ^ 32 →
        s.HasRoom (s.enc.outstanding.toNat + 8 * s.a1.toNat) →
        ∃ t bs, exec (.bnEnc c) s = .next t ∧ t = { s with
          cur := t.cur, buf := t.buf, enc := t.enc, ctx := t.ctx, status := s.status.complete .ok } ∧
          t.enc.active = true ∧ Appended s t bs) ∧
      (c ≤ 1023 → s.a1 ≠ 0 → Table.find s.ctx c = none →
        exec (.bnEnc c) s = .next (s.failWith .estate 0x54))) ∧
    (s.binLen < s.a0.toNat + s.a1.toNat → exec (.bnEnc c) s = .next (s.failWith .einval 0x54)) ∧
    (∀ k, 1023 < k → k ≠ 0xFFFF → exec (.bnEnc k) s = .next (s.failWith .einval 0x54))

/-! The MB info table and neighbour addressing. -/

/-- MB_SLICE: every VALID and CURR_VALID 0, CurrMbAddr and the slice-group map kept, so that MB_NBMB then gives ESTATE;
its other words are EILLEGAL (46_mb_addressing.md R331). That such a word draws all state but STATUS and A0..A3
(60_exceptions.md R401) is the model's choice against 30_encoding.md R103's "no other effect" (notes/assumptions/3.md).
-/
def Obligations.MbSliceRule : Prop :=
  encode .mbSlice = 0x60000000 ∧
  ∀ s : State, s.status.fault = false →
    (∃ t, exec .mbSlice s = .next t ∧
      t = { s with mb := t.mb, currValid := false, status := s.status.complete .ok } ∧
      (∀ a, t.mbValid a = false) ∧ ∀ dir, exec (.mbNbmb dir) t = .next (t.failWith .estate 0x64)) ∧
    (∀ w : Word, w.toNat / 2 ^ 24 = 0x60 → w ≠ 0x60000000 → issueWord w s = .next (s.failWith .eillegal 0x60))

/-- MB_BEGIN enters macroblock A0 with the flags A1 and zero counts and makes it the current one; ESTATE, EINVAL and
ENOMEM as R332 says (46_mb_addressing.md R332). -/
def Obligations.MbBeginEntersMacroblock : Prop :=
  ∀ s : State, s.status.fault = false →
    (s.geom.valid = true → MbBeginLegal s → s.a0.toNat < s.params.maxMbs →
      ∃ t, exec .mbBegin s = .next t ∧
        t = { s with mb := t.mb, currMbAddr := s.a0, currValid := true, status := s.status.complete .ok } ∧
        Table.find t.mb s.a0.toNat = some ⟨s.a1.getLsbD 0, s.a1.getLsbD 1, s.a1.getLsbD 2, s.a1.getLsbD 3,
          BitVec.ofNat 8 (s.a1.toNat / 256), Vector.replicate 48 0, Vector.replicate 12 0⟩ ∧
        ∀ a, a ≠ s.a0.toNat → Table.find t.mb a = Table.find s.mb a) ∧
    (s.geom.valid = true → MbBeginLegal s → s.params.maxMbs ≤ s.a0.toNat →
      exec .mbBegin s = .next (s.failWith .enomem 0x61)) ∧
    (s.geom.valid = true → ¬MbBeginLegal s → exec .mbBegin s = .next (s.failWith .einval 0x61)) ∧
    (s.geom.valid = false → exec .mbBegin s = .next (s.failWith .estate 0x61))

/-- MB_SETNZ writes one NZ or NZ8 count of the current macroblock; without one it is ESTATE, out of range EINVAL. MB_GET
reads an entry's flags, VALID at bit 0, and one count, or 0 and 0 where VALID is 0; a selector or an address out of
range is EINVAL (46_mb_addressing.md R330, R333, R334). -/
def Obligations.MbCountsWriteAndRead : Prop :=
  (∀ (comp blk : Nat) (s : State), s.status.fault = false →
      (s.currValid = true → comp ≤ 2 → ∀ e, Table.find s.mb s.currMbAddr.toNat = some e →
        (blk ≤ 15 → s.a0.toNat ≤ 16 → ∃ t f, exec (.mbSetnz comp false blk) s = .next t ∧
          t = { s with mb := t.mb, status := s.status.complete .ok } ∧
          Table.find t.mb s.currMbAddr.toNat = some f ∧ f = { e with nz := f.nz } ∧
          (∀ c k, c ≤ 2 → k ≤ 15 → f.nzAt c k = if c = comp ∧ k = blk then s.a0.toNat else e.nzAt c k) ∧
          ∀ a, a ≠ s.currMbAddr.toNat → Table.find t.mb a = Table.find s.mb a) ∧
        (blk ≤ 3 → s.a0.toNat ≤ 64 → ∃ t f, exec (.mbSetnz comp true blk) s = .next t ∧
          t = { s with mb := t.mb, status := s.status.complete .ok } ∧
          Table.find t.mb s.currMbAddr.toNat = some f ∧ f = { e with nz8 := f.nz8 } ∧
          (∀ c k, c ≤ 2 → k ≤ 3 → f.nz8At c k = if c = comp ∧ k = blk then s.a0.toNat else e.nz8At c k) ∧
          ∀ a, a ≠ s.currMbAddr.toNat → Table.find t.mb a = Table.find s.mb a)) ∧
      (s.currValid = true → (2 < comp ∨ 15 < blk ∨ 16 < s.a0.toNat) →
        exec (.mbSetnz comp false blk) s = .next (s.failWith .einval 0x62)) ∧
      (s.currValid = true → (2 < comp ∨ 3 < blk ∨ 64 < s.a0.toNat) →
        exec (.mbSetnz comp true blk) s = .next (s.failWith .einval 0x62)) ∧
      (∀ size8, s.currValid = false → exec (.mbSetnz comp size8 blk) s = .next (s.failWith .estate 0x62))) ∧
  (∀ s : State, s.status.fault = false →
      (∀ (c k : Nat) (size8 : Bool), c ≤ 2 → k ≤ 15 → (size8 = true → k ≤ 3) →
        s.a1.toNat = k + 256 * c + 4096 * size8.toNat → s.a0.toNat < s.params.maxMbs →
        (Table.find s.mb s.a0.toNat = none →
          exec .mbGet s = .next (State.complete .ok { s with y0 := 0, y1 := 0 })) ∧
        (∀ e, Table.find s.mb s.a0.toNat = some e → exec .mbGet s = .next (State.complete .ok { s with
          y0 := natWord (1 + 2 * e.skip.toNat + 4 * e.ipcm.toNat + 8 * e.intra.toNat + 16 * e.field.toNat +
            256 * e.mbType.toNat)
          y1 := natWord (if size8 then e.nz8At c k else e.nzAt c k) }))) ∧
      (s.params.maxMbs ≤ s.a0.toNat ∨ (¬∃ (c k : Nat) (size8 : Bool), c ≤ 2 ∧ k ≤ 15 ∧ (size8 = true → k ≤ 3) ∧
          s.a1.toNat = k + 256 * c + 4096 * size8.toNat) →
        exec .mbGet s = .next (s.failWith .einval 0x63)))

/-- MB_NBLOC outside MBAFF frames: the left, above and current macroblocks with the location inside them, nothing right
of or below, EINVAL above-left, above-right and beyond one macroblock, ESTATE without setup or for chroma at CAT 0 and
3 (46_mb_addressing.md R335, R336, R338, R341). -/
def Obligations.NeighbourLocations : Prop :=
  ∀ (chroma : Bool) (s : State) (curr w maxW maxH : Nat) (x y : Int), s.status.fault = false →
    curr = s.currMbAddr.toNat → w = s.geom.picWidthMbs.toNat → x = s.a0.toInt → y = s.a1.toInt →
    maxW = (if chroma then 8 else 16) → maxH = (if chroma = true ∧ s.geom.cat = 1 then 8 else 16) →
    (s.geom.valid = true → s.currValid = true → s.geom.mbaffFrame = false →
      (chroma = true → s.geom.cat = 1 ∨ s.geom.cat = 2) →
      (-(maxW : Int) ≤ x → x < 0 → 0 ≤ y → y < maxH → exec (.mbNbloc chroma) s = .next (nbLocAnswer s
        (if curr % w ≠ 0 ∧ s.mbValid (curr - 1) = true then some (curr - 1) else none) (x + maxW).toNat y.toNat)) ∧
      (0 ≤ x → x < maxW → -(maxH : Int) ≤ y → y < 0 → exec (.mbNbloc chroma) s = .next (nbLocAnswer s
        (if w ≤ curr ∧ s.mbValid (curr - w) = true then some (curr - w) else none) x.toNat (y + maxH).toNat)) ∧
      (0 ≤ x → x < maxW → 0 ≤ y → y < maxH →
        exec (.mbNbloc chroma) s = .next (nbLocAnswer s (some curr) x.toNat y.toNat)) ∧
      (-(maxW : Int) ≤ x → 0 ≤ y → ((maxW : Int) ≤ x ∨ (maxH : Int) ≤ y) →
        exec (.mbNbloc chroma) s = .next (nbLocAnswer s none 0 0)) ∧
      (x < -(maxW : Int) ∨ y < -(maxH : Int) ∨ (x < 0 ∧ y < 0) ∨ ((maxW : Int) ≤ x ∧ y < 0) →
        exec (.mbNbloc chroma) s = .next (s.failWith .einval 0x65))) ∧
    (s.geom.valid = false ∨ s.currValid = false ∨ (chroma = true ∧ s.geom.cat ≠ 1 ∧ s.geom.cat ≠ 2) →
      exec (.mbNbloc chroma) s = .next (s.failWith .estate 0x65))

/-- MB_NBLOC in MBAFF frames: Table 6-4 for the left and above pairs, frame and field (46_mb_addressing.md R335, R336,
R339, R341). A field top macroblock's row 2 * yN of a frame pair above is stated for yN >= -maxH / 2; below that R339
takes a remainder of a negative number (notes/assumptions/9.md). -/
def Obligations.NeighbourLocationsMbaff : Prop :=
  ∀ (chroma : Bool) (s : State) (curr w maxW maxH pair : Nat) (x y : Int) (m : MbEntry), s.status.fault = false →
    s.geom.valid = true → s.currValid = true → s.geom.mbaffFrame = true →
    (chroma = true → s.geom.cat = 1 ∨ s.geom.cat = 2) →
    curr = s.currMbAddr.toNat → Table.find s.mb curr = some m → pair = curr / 2 →
    w = s.geom.picWidthMbs.toNat → x = s.a0.toInt → y = s.a1.toInt →
    maxW = (if chroma then 8 else 16) → maxH = (if chroma = true ∧ s.geom.cat = 1 then 8 else 16) →
    (-(maxW : Int) ≤ x → x < 0 → 0 ≤ y → y < maxH →
      (pair % w = 0 ∨ s.mbValid (2 * (pair - 1)) = false →
        exec (.mbNbloc chroma) s = .next (nbLocAnswer s none 0 0)) ∧
      (∀ (e : MbEntry) (add yM : Nat), pair % w ≠ 0 → Table.find s.mb (2 * (pair - 1)) = some e →
        (m.field = false → e.field = false → add = curr % 2 ∧ yM = y.toNat) →
        (m.field = false → e.field = true →
          add = y.toNat % 2 ∧ yM = (y.toNat + (if curr % 2 = 0 then 0 else maxH)) / 2) →
        (m.field = true → e.field = false →
          add = (if y.toNat < maxH / 2 then 0 else 1) ∧ yM = (2 * y.toNat + curr % 2) - add * maxH) →
        (m.field = true → e.field = true → add = curr % 2 ∧ yM = y.toNat) →
        exec (.mbNbloc chroma) s = .next (nbLocAnswer s
          (if s.mbValid (2 * (pair - 1) + add) = true then some (2 * (pair - 1) + add) else none)
          (x + maxW).toNat yM))) ∧
    (0 ≤ x → x < maxW → -(maxH : Int) ≤ y → y < 0 →
      (m.field = false → curr % 2 = 1 → exec (.mbNbloc chroma) s = .next (nbLocAnswer s
        (if s.mbValid (curr - 1) = true then some (curr - 1) else none) x.toNat (y + maxH).toNat)) ∧
      (m.field = true ∨ curr % 2 = 0 →
        (pair < w ∨ s.mbValid (2 * (pair - w)) = false →
          exec (.mbNbloc chroma) s = .next (nbLocAnswer s none 0 0)) ∧
        (∀ (e : MbEntry) (add : Nat) (yM : Int), w ≤ pair → Table.find s.mb (2 * (pair - w)) = some e →
          (m.field = true → curr % 2 = 0 → e.field = true → add = 0 ∧ yM = y) →
          (m.field = true → curr % 2 = 0 → e.field = false → add = 1 ∧ yM = 2 * y ∧ -(maxH : Int) / 2 ≤ y) →
          (m.field = false ∨ curr % 2 = 1 → add = 1 ∧ yM = y) →
          exec (.mbNbloc chroma) s = .next (nbLocAnswer s
            (if s.mbValid (2 * (pair - w) + add) = true then some (2 * (pair - w) + add) else none)
            x.toNat (yM + maxH).toNat)))) ∧
    (0 ≤ x → x < maxW → 0 ≤ y → y < maxH →
      exec (.mbNbloc chroma) s = .next (nbLocAnswer s (some curr) x.toNat y.toNat)) ∧
    (-(maxW : Int) ≤ x → 0 ≤ y → ((maxW : Int) ≤ x ∨ (maxH : Int) ≤ y) →
      exec (.mbNbloc chroma) s = .next (nbLocAnswer s none 0 0)) ∧
    (x < -(maxW : Int) ∨ y < -(maxH : Int) ∨ (x < 0 ∧ y < 0) ∨ ((maxW : Int) ≤ x ∧ y < 0) →
      exec (.mbNbloc chroma) s = .next (s.failWith .einval 0x65))

/-- MB_NBMB and MB_NBBLK answer what MB_NBLOC answers at (-1, 0) or (0, -1) of the macroblock or of the block, MB_NBBLK
with the index of the block at that location, in every addressing mode; a block out of range is EINVAL, a missing
setup ESTATE (46_mb_addressing.md R337, R340, R342 to R345). -/
def Obligations.NeighbourBlocks : Prop :=
  ∀ (dir : Bool) (s : State), s.status.fault = false →
    (s.geom.valid = true → s.currValid = true →
      (∃ t, exec (.mbNbloc false) { s with a0 := if dir then 0 else -1, a1 := if dir then -1 else 0 } = .next t ∧
        t.status.fault = false ∧
        exec (.mbNbmb dir) s = .next (State.complete .ok { s with y0 := t.y0, y1 := t.y1 })) ∧
      (∀ kind idx x y blocks : Nat, kind ≤ 2 → (kind = 1 → s.geom.cat = 1 ∨ s.geom.cat = 2) →
        blocks = (if kind = 0 then 16 else if kind = 2 then 4 else if s.geom.cat = 1 then 4 else 8) →
        (kind = 0 → x = idx / 4 % 2 * 8 + idx % 4 % 2 * 4 ∧ y = idx / 4 / 2 * 8 + idx % 4 / 2 * 4) →
        (kind = 1 → x = idx % 2 * 4 ∧ y = idx / 2 * 4) →
        (kind = 2 → x = idx % 2 * 8 ∧ y = idx / 2 * 8) →
        (idx < blocks → ∃ (t : State) (b : Nat),
          exec (.mbNbloc (decide (kind = 1))) { s with
            a0 := natWord x - (if dir then 0 else 1), a1 := natWord y - (if dir then 1 else 0) } = .next t ∧
          t.status.fault = false ∧
          (t.y1 = 0 → b = 0) ∧
          (t.y1 = 1 → kind = 0 → b = 8 * (t.y3.toNat / 8) + 4 * (t.y2.toNat / 8) + 2 * (t.y3.toNat % 8 / 4) +
            t.y2.toNat % 8 / 4) ∧
          (t.y1 = 1 → kind = 1 → b = 2 * (t.y3.toNat / 4) + t.y2.toNat / 4) ∧
          (t.y1 = 1 → kind = 2 → b = 2 * (t.y3.toNat / 8) + t.y2.toNat / 8) ∧
          exec (.mbNbblk dir kind idx) s = .next (State.complete .ok { s with
            y0 := t.y0, y1 := t.y1, y2 := natWord b })) ∧
        (blocks ≤ idx → exec (.mbNbblk dir kind idx) s = .next (s.failWith .einval 0x66))) ∧
      (∀ idx, s.geom.cat ≠ 1 → s.geom.cat ≠ 2 →
        exec (.mbNbblk dir 1 idx) s = .next (s.failWith .estate 0x66)) ∧
      (∀ kind idx, 2 < kind → exec (.mbNbblk dir kind idx) s = .next (s.failWith .einval 0x66))) ∧
    (s.geom.valid = false ∨ s.currValid = false → exec (.mbNbmb dir) s = .next (s.failWith .estate 0x64) ∧
      ∀ kind idx, exec (.mbNbblk dir kind idx) s = .next (s.failWith .estate 0x66))

/-! Slice groups. -/

/-- SG_GEN computes both maps by R371 to R379 and sets SG_MAP_VALID, changing nothing else; ESTATE, ENOMEM and EPROTO
as R381 says. Of map type 3 it states that exactly MapUnitsInSliceGroup0 map units are 0 and the others 1, not the path
of R375's walk (47_slice_group_map.md R371 to R379, R381). -/
def Obligations.SgGenComputesMaps : Prop :=
  ∀ (s : State) (w h n size num m0 upper dir : Nat), s.status.fault = false →
    w = s.geom.picWidthMbs.toNat → h = s.geom.picHeightMapUnits.toNat → n = w * h → size = s.geom.picSizeInMbs →
    num = s.sg.numMinus1.toNat → dir = s.sg.changeDir.toNat →
    m0 = min (s.sg.changeCycle.toNat * ((s.sg.changeRateMinus1.toNat + 1) % 2 ^ 32)) n →
    upper = (if dir = 1 then n - m0 else m0) →
    (s.geom.valid = true → n ≤ s.params.maxMapUnits → size ≤ 2 * s.params.maxMapUnits → s.sg.Legal w n →
      ∃ t, exec .sgGen s = .next t ∧ t = { s with sg := t.sg, status := s.status.complete .ok } ∧
        t.sg = { s.sg with mapUnits := t.sg.mapUnits, mbGroups := t.sg.mbGroups, mapValid := true } ∧
        (∀ i, i < n →
          (num = 0 → t.mapUnit i = 0) ∧
          (0 < num → s.sg.mapType = 0 → ∀ g j q, g ≤ num → j ≤ s.sg.runLengthAt g →
            i = q * s.sg.runsBefore (num + 1) + s.sg.runsBefore g + j → (t.mapUnit i).toNat = g) ∧
          (0 < num → s.sg.mapType = 1 → (t.mapUnit i).toNat = (i % w + i / w * (num + 1) / 2) % (num + 1)) ∧
          (0 < num → s.sg.mapType = 2 →
            (∀ g, g < num → s.sg.InRectangle w g i → (∀ k, k < g → ¬s.sg.InRectangle w k i) →
              (t.mapUnit i).toNat = g) ∧
            ((∀ g, g < num → ¬s.sg.InRectangle w g i) → (t.mapUnit i).toNat = num)) ∧
          (0 < num → s.sg.mapType = 3 → (t.mapUnit i).toNat ≤ 1) ∧
          (0 < num → s.sg.mapType = 4 → (t.mapUnit i).toNat = if i < upper then dir else 1 - dir) ∧
          (0 < num → s.sg.mapType = 5 →
            (t.mapUnit i).toNat = if i % w * h + i / w < upper then dir else 1 - dir) ∧
          (0 < num → s.sg.mapType = 6 → t.mapUnit i = s.sg.groupId i)) ∧
        (0 < num → s.sg.mapType = 3 → ((List.range n).filter fun i => decide (t.mapUnit i = 0)).length = m0) ∧
        (∀ i, i < size → t.mbGroup i = t.mapUnit
          (if s.geom.frameMbsOnly = true ∨ s.geom.fieldPic = true then i
            else if s.geom.mbaffFrame = true then i / 2 else i / (2 * w) * w + i % w))) ∧
    (s.geom.valid = false → exec .sgGen s = .next (s.failWith .estate 0x71)) ∧
    (s.geom.valid = true → s.params.maxMapUnits < n ∨ 2 * s.params.maxMapUnits < size →
      exec .sgGen s = .next (s.failWith .enomem 0x71)) ∧
    (s.geom.valid = true → n ≤ s.params.maxMapUnits → size ≤ 2 * s.params.maxMapUnits → ¬s.sg.Legal w n →
      exec .sgGen s = .next (s.failWith .eproto 0x71))

/-- Slice-group map bounds (47_slice_group_map.md R384): after a successful SG_GEN, for every map type, each map unit
and each macroblock of the picture has exactly one value, in 0..num. -/
def Obligations.SliceGroupMapBounds : Prop :=
  ∀ s t : State, exec .sgGen s = .next t → t.status.fault = false →
    (∀ i, i < t.geom.picSizeInMapUnits → ∃ v : BitVec 3, t.sg.mapUnits[i]? = some v ∧
      v.toNat ≤ t.sg.numMinus1.toNat) ∧
    (∀ i, i < t.geom.picSizeInMbs → ∃ v : BitVec 3, t.sg.mbGroups[i]? = some v ∧
      v.toNat ≤ t.sg.numMinus1.toNat)

/-- SG_IDWR writes one slice_group_id and makes the map stale; SG_MBGRP reads the map, and SG_NEXT finds the next
macroblock of the same group, PicSizeInMbs when there is none; without a valid map they are ESTATE, out of range EINVAL
(47_slice_group_map.md R370, R380, R382, R383). An address that does not fit Y0's 32 bits leaves Y0 unconstrained: the
spec states no value there (notes/assumptions/7.md). -/
def Obligations.SgIdsAndQueries : Prop :=
  ∀ (s : State) (a size : Nat), s.status.fault = false → a = s.a0.toNat → size = s.geom.picSizeInMbs →
    (a < s.params.maxMapUnits → s.a1.toNat ≤ 7 → ∃ t, exec .sgIdwr s = .next t ∧
      t = { s with sg := t.sg, status := s.status.complete .ok } ∧
      t.sg = { s.sg with sgid := t.sg.sgid, mapValid := false } ∧
      (s.Inv → (t.sg.groupId a).toNat = s.a1.toNat) ∧ ∀ i, i ≠ a → t.sg.groupId i = s.sg.groupId i) ∧
    (s.params.maxMapUnits ≤ a ∨ 7 < s.a1.toNat → exec .sgIdwr s = .next (s.failWith .einval 0x70)) ∧
    (s.sg.mapValid = true → a < size →
      exec .sgMbgrp s = .next (State.complete .ok { s with y0 := (s.mbGroup a).setWidth 32 }) ∧
      ∃ i y, exec .sgNext s = .next (State.complete .ok { s with y0 := y }) ∧ (i < 2 ^ 32 → y.toNat = i) ∧ a < i ∧
        i ≤ size ∧ (i < size → s.mbGroup i = s.mbGroup a) ∧ ∀ k, a < k → k < i → s.mbGroup k ≠ s.mbGroup a) ∧
    (s.sg.mapValid = true → size ≤ a → exec .sgMbgrp s = .next (s.failWith .einval 0x72) ∧
      exec .sgNext s = .next (s.failWith .einval 0x73)) ∧
    (s.sg.mapValid = false → exec .sgMbgrp s = .next (s.failWith .estate 0x72) ∧
      exec .sgNext s = .next (s.failWith .estate 0x73))

/-! Invariants. -/

/-- Every step, a command's or a host action's, keeps the block's invariant: the parameters legal, the memories and
tables in canonical form and inside their spaces, BINLEN at most 128, NZ at most 16 and NZ8 at most 64, and while
FAULT = 0 the cursor, the engines, the MB info table and the slice-group map as `State.Running` says: where
SG_MAP_VALID = 1, every entry of both maps of the picture is at most num (47_slice_group_map.md R384). That BINLEN, NZ
and NZ8 keep their ranges while FAULT = 1 is the model's choice (notes/assumptions/13.md): 10_state.md R34 and R44 give
the ranges, and 60_exceptions.md R401 leaves those registers open there. -/
def Obligations.StepKeepsInvariant : Prop := ∀ s t : State, s.Inv → step s = .next t → t.Inv

/-- The invariant holds at reset, for every legal choice of the parameters. -/
def Obligations.InvariantAtReset : Prop :=
  ∀ (p : Params) (k : Nat) (port : List HostAction), p.wf = true → (State.resetWith p k port).Inv
end

