-- ==== Sys2Proof/Laws/State.lean ====
section
/-!
SUPPORT. What each update of the state does to each field: one lemma per field per update, all true by unfolding.
-/

namespace Sys2Proof.Machine

/-! The fields after `State.complete`. -/

@[simp] theorem State.complete_params (s : State) (c : Code) : (s.complete c).params = s.params := rfl
@[simp] theorem State.complete_port (s : State) (c : Code) : (s.complete c).port = s.port := rfl
@[simp] theorem State.complete_epoch (s : State) (c : Code) : (s.complete c).epoch = s.epoch := rfl
@[simp] theorem State.complete_a0 (s : State) (c : Code) : (s.complete c).a0 = s.a0 := rfl
@[simp] theorem State.complete_a1 (s : State) (c : Code) : (s.complete c).a1 = s.a1 := rfl
@[simp] theorem State.complete_a2 (s : State) (c : Code) : (s.complete c).a2 = s.a2 := rfl
@[simp] theorem State.complete_a3 (s : State) (c : Code) : (s.complete c).a3 = s.a3 := rfl
@[simp] theorem State.complete_y0 (s : State) (c : Code) : (s.complete c).y0 = s.y0 := rfl
@[simp] theorem State.complete_y1 (s : State) (c : Code) : (s.complete c).y1 = s.y1 := rfl
@[simp] theorem State.complete_y2 (s : State) (c : Code) : (s.complete c).y2 = s.y2 := rfl
@[simp] theorem State.complete_y3 (s : State) (c : Code) : (s.complete c).y3 = s.y3 := rfl
@[simp] theorem State.complete_coef (s : State) (c : Code) : (s.complete c).coef = s.coef := rfl
@[simp] theorem State.complete_bins (s : State) (c : Code) : (s.complete c).bins = s.bins := rfl
@[simp] theorem State.complete_binLen (s : State) (c : Code) : (s.complete c).binLen = s.binLen := rfl
@[simp] theorem State.complete_cur (s : State) (c : Code) : (s.complete c).cur = s.cur := rfl
@[simp] theorem State.complete_buf (s : State) (c : Code) : (s.complete c).buf = s.buf := rfl
@[simp] theorem State.complete_raw (s : State) (c : Code) : (s.complete c).raw = s.raw := rfl
@[simp] theorem State.complete_ctx (s : State) (c : Code) : (s.complete c).ctx = s.ctx := rfl
@[simp] theorem State.complete_enc (s : State) (c : Code) : (s.complete c).enc = s.enc := rfl
@[simp] theorem State.complete_dec (s : State) (c : Code) : (s.complete c).dec = s.dec := rfl
@[simp] theorem State.complete_status (s : State) (c : Code) : (s.complete c).status = s.status.complete c := rfl
@[simp] theorem State.complete_geom (s : State) (c : Code) : (s.complete c).geom = s.geom := rfl
@[simp] theorem State.complete_mb (s : State) (c : Code) : (s.complete c).mb = s.mb := rfl
@[simp] theorem State.complete_currMbAddr (s : State) (c : Code) : (s.complete c).currMbAddr = s.currMbAddr := rfl
@[simp] theorem State.complete_currValid (s : State) (c : Code) : (s.complete c).currValid = s.currValid := rfl
@[simp] theorem State.complete_sg (s : State) (c : Code) : (s.complete c).sg = s.sg := rfl

/-! The fields after `State.setStream`. -/

@[simp] theorem State.setStream_params (s : State) (t : Stream) : (s.setStream t).params = s.params := rfl
@[simp] theorem State.setStream_port (s : State) (t : Stream) : (s.setStream t).port = s.port := rfl
@[simp] theorem State.setStream_epoch (s : State) (t : Stream) : (s.setStream t).epoch = s.epoch := rfl
@[simp] theorem State.setStream_a0 (s : State) (t : Stream) : (s.setStream t).a0 = s.a0 := rfl
@[simp] theorem State.setStream_a1 (s : State) (t : Stream) : (s.setStream t).a1 = s.a1 := rfl
@[simp] theorem State.setStream_a2 (s : State) (t : Stream) : (s.setStream t).a2 = s.a2 := rfl
@[simp] theorem State.setStream_a3 (s : State) (t : Stream) : (s.setStream t).a3 = s.a3 := rfl
@[simp] theorem State.setStream_y0 (s : State) (t : Stream) : (s.setStream t).y0 = s.y0 := rfl
@[simp] theorem State.setStream_y1 (s : State) (t : Stream) : (s.setStream t).y1 = s.y1 := rfl
@[simp] theorem State.setStream_y2 (s : State) (t : Stream) : (s.setStream t).y2 = s.y2 := rfl
@[simp] theorem State.setStream_y3 (s : State) (t : Stream) : (s.setStream t).y3 = s.y3 := rfl
@[simp] theorem State.setStream_coef (s : State) (t : Stream) : (s.setStream t).coef = s.coef := rfl
@[simp] theorem State.setStream_bins (s : State) (t : Stream) : (s.setStream t).bins = s.bins := rfl
@[simp] theorem State.setStream_binLen (s : State) (t : Stream) : (s.setStream t).binLen = s.binLen := rfl
@[simp] theorem State.setStream_cur (s : State) (t : Stream) : (s.setStream t).cur = t.cur := rfl
@[simp] theorem State.setStream_buf (s : State) (t : Stream) : (s.setStream t).buf = t.buf := rfl
@[simp] theorem State.setStream_raw (s : State) (t : Stream) : (s.setStream t).raw = s.raw := rfl
@[simp] theorem State.setStream_ctx (s : State) (t : Stream) : (s.setStream t).ctx = s.ctx := rfl
@[simp] theorem State.setStream_enc (s : State) (t : Stream) : (s.setStream t).enc = s.enc := rfl
@[simp] theorem State.setStream_dec (s : State) (t : Stream) : (s.setStream t).dec = s.dec := rfl
@[simp] theorem State.setStream_status (s : State) (t : Stream) : (s.setStream t).status = s.status := rfl
@[simp] theorem State.setStream_geom (s : State) (t : Stream) : (s.setStream t).geom = s.geom := rfl
@[simp] theorem State.setStream_mb (s : State) (t : Stream) : (s.setStream t).mb = s.mb := rfl
@[simp] theorem State.setStream_currMbAddr (s : State) (t : Stream) : (s.setStream t).currMbAddr = s.currMbAddr := rfl
@[simp] theorem State.setStream_currValid (s : State) (t : Stream) : (s.setStream t).currValid = s.currValid := rfl
@[simp] theorem State.setStream_sg (s : State) (t : Stream) : (s.setStream t).sg = s.sg := rfl

/-! The fields after `State.clearMbTable`. -/

@[simp] theorem State.clearMbTable_params (s : State) : (s.clearMbTable).params = s.params := rfl
@[simp] theorem State.clearMbTable_port (s : State) : (s.clearMbTable).port = s.port := rfl
@[simp] theorem State.clearMbTable_epoch (s : State) : (s.clearMbTable).epoch = s.epoch := rfl
@[simp] theorem State.clearMbTable_a0 (s : State) : (s.clearMbTable).a0 = s.a0 := rfl
@[simp] theorem State.clearMbTable_a1 (s : State) : (s.clearMbTable).a1 = s.a1 := rfl
@[simp] theorem State.clearMbTable_a2 (s : State) : (s.clearMbTable).a2 = s.a2 := rfl
@[simp] theorem State.clearMbTable_a3 (s : State) : (s.clearMbTable).a3 = s.a3 := rfl
@[simp] theorem State.clearMbTable_y0 (s : State) : (s.clearMbTable).y0 = s.y0 := rfl
@[simp] theorem State.clearMbTable_y1 (s : State) : (s.clearMbTable).y1 = s.y1 := rfl
@[simp] theorem State.clearMbTable_y2 (s : State) : (s.clearMbTable).y2 = s.y2 := rfl
@[simp] theorem State.clearMbTable_y3 (s : State) : (s.clearMbTable).y3 = s.y3 := rfl
@[simp] theorem State.clearMbTable_coef (s : State) : (s.clearMbTable).coef = s.coef := rfl
@[simp] theorem State.clearMbTable_bins (s : State) : (s.clearMbTable).bins = s.bins := rfl
@[simp] theorem State.clearMbTable_binLen (s : State) : (s.clearMbTable).binLen = s.binLen := rfl
@[simp] theorem State.clearMbTable_cur (s : State) : (s.clearMbTable).cur = s.cur := rfl
@[simp] theorem State.clearMbTable_buf (s : State) : (s.clearMbTable).buf = s.buf := rfl
@[simp] theorem State.clearMbTable_raw (s : State) : (s.clearMbTable).raw = s.raw := rfl
@[simp] theorem State.clearMbTable_ctx (s : State) : (s.clearMbTable).ctx = s.ctx := rfl
@[simp] theorem State.clearMbTable_enc (s : State) : (s.clearMbTable).enc = s.enc := rfl
@[simp] theorem State.clearMbTable_dec (s : State) : (s.clearMbTable).dec = s.dec := rfl
@[simp] theorem State.clearMbTable_status (s : State) : (s.clearMbTable).status = s.status := rfl
@[simp] theorem State.clearMbTable_geom (s : State) : (s.clearMbTable).geom = s.geom := rfl
@[simp] theorem State.clearMbTable_mb (s : State) : (s.clearMbTable).mb = [] := rfl
@[simp] theorem State.clearMbTable_currMbAddr (s : State) : (s.clearMbTable).currMbAddr = s.currMbAddr := rfl
@[simp] theorem State.clearMbTable_currValid (s : State) : (s.clearMbTable).currValid = false := rfl
@[simp] theorem State.clearMbTable_sg (s : State) : (s.clearMbTable).sg = s.sg := rfl

/-! The fields after `State.clearMapValid`. -/

@[simp] theorem State.clearMapValid_params (s : State) : (s.clearMapValid).params = s.params := rfl
@[simp] theorem State.clearMapValid_port (s : State) : (s.clearMapValid).port = s.port := rfl
@[simp] theorem State.clearMapValid_epoch (s : State) : (s.clearMapValid).epoch = s.epoch := rfl
@[simp] theorem State.clearMapValid_a0 (s : State) : (s.clearMapValid).a0 = s.a0 := rfl
@[simp] theorem State.clearMapValid_a1 (s : State) : (s.clearMapValid).a1 = s.a1 := rfl
@[simp] theorem State.clearMapValid_a2 (s : State) : (s.clearMapValid).a2 = s.a2 := rfl
@[simp] theorem State.clearMapValid_a3 (s : State) : (s.clearMapValid).a3 = s.a3 := rfl
@[simp] theorem State.clearMapValid_y0 (s : State) : (s.clearMapValid).y0 = s.y0 := rfl
@[simp] theorem State.clearMapValid_y1 (s : State) : (s.clearMapValid).y1 = s.y1 := rfl
@[simp] theorem State.clearMapValid_y2 (s : State) : (s.clearMapValid).y2 = s.y2 := rfl
@[simp] theorem State.clearMapValid_y3 (s : State) : (s.clearMapValid).y3 = s.y3 := rfl
@[simp] theorem State.clearMapValid_coef (s : State) : (s.clearMapValid).coef = s.coef := rfl
@[simp] theorem State.clearMapValid_bins (s : State) : (s.clearMapValid).bins = s.bins := rfl
@[simp] theorem State.clearMapValid_binLen (s : State) : (s.clearMapValid).binLen = s.binLen := rfl
@[simp] theorem State.clearMapValid_cur (s : State) : (s.clearMapValid).cur = s.cur := rfl
@[simp] theorem State.clearMapValid_buf (s : State) : (s.clearMapValid).buf = s.buf := rfl
@[simp] theorem State.clearMapValid_raw (s : State) : (s.clearMapValid).raw = s.raw := rfl
@[simp] theorem State.clearMapValid_ctx (s : State) : (s.clearMapValid).ctx = s.ctx := rfl
@[simp] theorem State.clearMapValid_enc (s : State) : (s.clearMapValid).enc = s.enc := rfl
@[simp] theorem State.clearMapValid_dec (s : State) : (s.clearMapValid).dec = s.dec := rfl
@[simp] theorem State.clearMapValid_status (s : State) : (s.clearMapValid).status = s.status := rfl
@[simp] theorem State.clearMapValid_geom (s : State) : (s.clearMapValid).geom = s.geom := rfl
@[simp] theorem State.clearMapValid_mb (s : State) : (s.clearMapValid).mb = s.mb := rfl
@[simp] theorem State.clearMapValid_currMbAddr (s : State) : (s.clearMapValid).currMbAddr = s.currMbAddr := rfl
@[simp] theorem State.clearMapValid_currValid (s : State) : (s.clearMapValid).currValid = s.currValid := rfl
@[simp] theorem State.clearMapValid_sg (s : State) : (s.clearMapValid).sg = { s.sg with mapValid := false } := rfl

/-! The fields after `State.setBins`. -/

@[simp] theorem State.setBins_params (s : State) (b : List Bool) : (s.setBins b).params = s.params := rfl
@[simp] theorem State.setBins_port (s : State) (b : List Bool) : (s.setBins b).port = s.port := rfl
@[simp] theorem State.setBins_epoch (s : State) (b : List Bool) : (s.setBins b).epoch = s.epoch := rfl
@[simp] theorem State.setBins_a0 (s : State) (b : List Bool) : (s.setBins b).a0 = s.a0 := rfl
@[simp] theorem State.setBins_a1 (s : State) (b : List Bool) : (s.setBins b).a1 = s.a1 := rfl
@[simp] theorem State.setBins_a2 (s : State) (b : List Bool) : (s.setBins b).a2 = s.a2 := rfl
@[simp] theorem State.setBins_a3 (s : State) (b : List Bool) : (s.setBins b).a3 = s.a3 := rfl
@[simp] theorem State.setBins_y0 (s : State) (b : List Bool) : (s.setBins b).y0 = s.y0 := rfl
@[simp] theorem State.setBins_y1 (s : State) (b : List Bool) : (s.setBins b).y1 = s.y1 := rfl
@[simp] theorem State.setBins_y2 (s : State) (b : List Bool) : (s.setBins b).y2 = s.y2 := rfl
@[simp] theorem State.setBins_y3 (s : State) (b : List Bool) : (s.setBins b).y3 = s.y3 := rfl
@[simp] theorem State.setBins_coef (s : State) (b : List Bool) : (s.setBins b).coef = s.coef := rfl
@[simp] theorem State.setBins_bins (s : State) (b : List Bool) : (s.setBins b).bins = writeBins s.bins 0 b := rfl
@[simp] theorem State.setBins_binLen (s : State) (b : List Bool) : (s.setBins b).binLen = b.length := rfl
@[simp] theorem State.setBins_cur (s : State) (b : List Bool) : (s.setBins b).cur = s.cur := rfl
@[simp] theorem State.setBins_buf (s : State) (b : List Bool) : (s.setBins b).buf = s.buf := rfl
@[simp] theorem State.setBins_raw (s : State) (b : List Bool) : (s.setBins b).raw = s.raw := rfl
@[simp] theorem State.setBins_ctx (s : State) (b : List Bool) : (s.setBins b).ctx = s.ctx := rfl
@[simp] theorem State.setBins_enc (s : State) (b : List Bool) : (s.setBins b).enc = s.enc := rfl
@[simp] theorem State.setBins_dec (s : State) (b : List Bool) : (s.setBins b).dec = s.dec := rfl
@[simp] theorem State.setBins_status (s : State) (b : List Bool) : (s.setBins b).status = s.status := rfl
@[simp] theorem State.setBins_geom (s : State) (b : List Bool) : (s.setBins b).geom = s.geom := rfl
@[simp] theorem State.setBins_mb (s : State) (b : List Bool) : (s.setBins b).mb = s.mb := rfl
@[simp] theorem State.setBins_currMbAddr (s : State) (b : List Bool) : (s.setBins b).currMbAddr = s.currMbAddr := rfl
@[simp] theorem State.setBins_currValid (s : State) (b : List Bool) : (s.setBins b).currValid = s.currValid := rfl
@[simp] theorem State.setBins_sg (s : State) (b : List Bool) : (s.setBins b).sg = s.sg := rfl

/-! The fields after `State.setEncRun`. -/

@[simp] theorem State.setEncRun_params (s : State) (active : Bool) (r : EncRun) : (s.setEncRun active r).params = s.params := rfl
@[simp] theorem State.setEncRun_port (s : State) (active : Bool) (r : EncRun) : (s.setEncRun active r).port = s.port := rfl
@[simp] theorem State.setEncRun_epoch (s : State) (active : Bool) (r : EncRun) : (s.setEncRun active r).epoch = s.epoch := rfl
@[simp] theorem State.setEncRun_a0 (s : State) (active : Bool) (r : EncRun) : (s.setEncRun active r).a0 = s.a0 := rfl
@[simp] theorem State.setEncRun_a1 (s : State) (active : Bool) (r : EncRun) : (s.setEncRun active r).a1 = s.a1 := rfl
@[simp] theorem State.setEncRun_a2 (s : State) (active : Bool) (r : EncRun) : (s.setEncRun active r).a2 = s.a2 := rfl
@[simp] theorem State.setEncRun_a3 (s : State) (active : Bool) (r : EncRun) : (s.setEncRun active r).a3 = s.a3 := rfl
@[simp] theorem State.setEncRun_y0 (s : State) (active : Bool) (r : EncRun) : (s.setEncRun active r).y0 = s.y0 := rfl
@[simp] theorem State.setEncRun_y1 (s : State) (active : Bool) (r : EncRun) : (s.setEncRun active r).y1 = s.y1 := rfl
@[simp] theorem State.setEncRun_y2 (s : State) (active : Bool) (r : EncRun) : (s.setEncRun active r).y2 = s.y2 := rfl
@[simp] theorem State.setEncRun_y3 (s : State) (active : Bool) (r : EncRun) : (s.setEncRun active r).y3 = s.y3 := rfl
@[simp] theorem State.setEncRun_coef (s : State) (active : Bool) (r : EncRun) : (s.setEncRun active r).coef = s.coef := rfl
@[simp] theorem State.setEncRun_bins (s : State) (active : Bool) (r : EncRun) : (s.setEncRun active r).bins = s.bins := rfl
@[simp] theorem State.setEncRun_binLen (s : State) (active : Bool) (r : EncRun) : (s.setEncRun active r).binLen = s.binLen := rfl
@[simp] theorem State.setEncRun_cur (s : State) (active : Bool) (r : EncRun) : (s.setEncRun active r).cur = r.stream.cur := rfl
@[simp] theorem State.setEncRun_buf (s : State) (active : Bool) (r : EncRun) : (s.setEncRun active r).buf = r.stream.buf := rfl
@[simp] theorem State.setEncRun_raw (s : State) (active : Bool) (r : EncRun) : (s.setEncRun active r).raw = s.raw := rfl
@[simp] theorem State.setEncRun_ctx (s : State) (active : Bool) (r : EncRun) : (s.setEncRun active r).ctx = r.ctx := rfl
@[simp] theorem State.setEncRun_enc (s : State) (active : Bool) (r : EncRun) : (s.setEncRun active r).enc = r.encoder active := rfl
@[simp] theorem State.setEncRun_dec (s : State) (active : Bool) (r : EncRun) : (s.setEncRun active r).dec = s.dec := rfl
@[simp] theorem State.setEncRun_status (s : State) (active : Bool) (r : EncRun) : (s.setEncRun active r).status = s.status := rfl
@[simp] theorem State.setEncRun_geom (s : State) (active : Bool) (r : EncRun) : (s.setEncRun active r).geom = s.geom := rfl
@[simp] theorem State.setEncRun_mb (s : State) (active : Bool) (r : EncRun) : (s.setEncRun active r).mb = s.mb := rfl
@[simp] theorem State.setEncRun_currMbAddr (s : State) (active : Bool) (r : EncRun) : (s.setEncRun active r).currMbAddr = s.currMbAddr := rfl
@[simp] theorem State.setEncRun_currValid (s : State) (active : Bool) (r : EncRun) : (s.setEncRun active r).currValid = s.currValid := rfl
@[simp] theorem State.setEncRun_sg (s : State) (active : Bool) (r : EncRun) : (s.setEncRun active r).sg = s.sg := rfl

/-! The fields after `State.setDecRun`. -/

@[simp] theorem State.setDecRun_params (s : State) (active bin : Bool) (r : DecRun) : (s.setDecRun active bin r).params = s.params := rfl
@[simp] theorem State.setDecRun_port (s : State) (active bin : Bool) (r : DecRun) : (s.setDecRun active bin r).port = s.port := rfl
@[simp] theorem State.setDecRun_epoch (s : State) (active bin : Bool) (r : DecRun) : (s.setDecRun active bin r).epoch = s.epoch := rfl
@[simp] theorem State.setDecRun_a0 (s : State) (active bin : Bool) (r : DecRun) : (s.setDecRun active bin r).a0 = s.a0 := rfl
@[simp] theorem State.setDecRun_a1 (s : State) (active bin : Bool) (r : DecRun) : (s.setDecRun active bin r).a1 = s.a1 := rfl
@[simp] theorem State.setDecRun_a2 (s : State) (active bin : Bool) (r : DecRun) : (s.setDecRun active bin r).a2 = s.a2 := rfl
@[simp] theorem State.setDecRun_a3 (s : State) (active bin : Bool) (r : DecRun) : (s.setDecRun active bin r).a3 = s.a3 := rfl
@[simp] theorem State.setDecRun_y0 (s : State) (active bin : Bool) (r : DecRun) : (s.setDecRun active bin r).y0 = boolWord bin := rfl
@[simp] theorem State.setDecRun_y1 (s : State) (active bin : Bool) (r : DecRun) : (s.setDecRun active bin r).y1 = s.y1 := rfl
@[simp] theorem State.setDecRun_y2 (s : State) (active bin : Bool) (r : DecRun) : (s.setDecRun active bin r).y2 = s.y2 := rfl
@[simp] theorem State.setDecRun_y3 (s : State) (active bin : Bool) (r : DecRun) : (s.setDecRun active bin r).y3 = s.y3 := rfl
@[simp] theorem State.setDecRun_coef (s : State) (active bin : Bool) (r : DecRun) : (s.setDecRun active bin r).coef = s.coef := rfl
@[simp] theorem State.setDecRun_bins (s : State) (active bin : Bool) (r : DecRun) : (s.setDecRun active bin r).bins = s.bins := rfl
@[simp] theorem State.setDecRun_binLen (s : State) (active bin : Bool) (r : DecRun) : (s.setDecRun active bin r).binLen = s.binLen := rfl
@[simp] theorem State.setDecRun_cur (s : State) (active bin : Bool) (r : DecRun) : (s.setDecRun active bin r).cur = r.cur := rfl
@[simp] theorem State.setDecRun_buf (s : State) (active bin : Bool) (r : DecRun) : (s.setDecRun active bin r).buf = s.buf := rfl
@[simp] theorem State.setDecRun_raw (s : State) (active bin : Bool) (r : DecRun) : (s.setDecRun active bin r).raw = s.raw := rfl
@[simp] theorem State.setDecRun_ctx (s : State) (active bin : Bool) (r : DecRun) : (s.setDecRun active bin r).ctx = s.ctx := rfl
@[simp] theorem State.setDecRun_enc (s : State) (active bin : Bool) (r : DecRun) : (s.setDecRun active bin r).enc = s.enc := rfl
@[simp] theorem State.setDecRun_dec (s : State) (active bin : Bool) (r : DecRun) : (s.setDecRun active bin r).dec = ⟨BitVec.ofNat 9 r.range, BitVec.ofNat 9 r.offset, active⟩ := rfl
@[simp] theorem State.setDecRun_status (s : State) (active bin : Bool) (r : DecRun) : (s.setDecRun active bin r).status = s.status := rfl
@[simp] theorem State.setDecRun_geom (s : State) (active bin : Bool) (r : DecRun) : (s.setDecRun active bin r).geom = s.geom := rfl
@[simp] theorem State.setDecRun_mb (s : State) (active bin : Bool) (r : DecRun) : (s.setDecRun active bin r).mb = s.mb := rfl
@[simp] theorem State.setDecRun_currMbAddr (s : State) (active bin : Bool) (r : DecRun) : (s.setDecRun active bin r).currMbAddr = s.currMbAddr := rfl
@[simp] theorem State.setDecRun_currValid (s : State) (active bin : Bool) (r : DecRun) : (s.setDecRun active bin r).currValid = s.currValid := rfl
@[simp] theorem State.setDecRun_sg (s : State) (active bin : Bool) (r : DecRun) : (s.setDecRun active bin r).sg = s.sg := rfl

/-! What a failing command keeps, and the STATUS it leaves (60_exceptions.md R400, R401). -/

@[simp] theorem State.failWith_params (e : Code) (opc : Nat) (s : State) : (s.failWith e opc).params = s.params := rfl
@[simp] theorem State.failWith_port (e : Code) (opc : Nat) (s : State) : (s.failWith e opc).port = s.port := rfl
@[simp] theorem State.failWith_a0 (e : Code) (opc : Nat) (s : State) : (s.failWith e opc).a0 = s.a0 := rfl
@[simp] theorem State.failWith_a1 (e : Code) (opc : Nat) (s : State) : (s.failWith e opc).a1 = s.a1 := rfl
@[simp] theorem State.failWith_a2 (e : Code) (opc : Nat) (s : State) : (s.failWith e opc).a2 = s.a2 := rfl
@[simp] theorem State.failWith_a3 (e : Code) (opc : Nat) (s : State) : (s.failWith e opc).a3 = s.a3 := rfl
@[simp] theorem State.failWith_epoch (e : Code) (opc : Nat) (s : State) : (s.failWith e opc).epoch = s.epoch + 1 := rfl
@[simp] theorem State.failWith_status (e : Code) (opc : Nat) (s : State) :
    (s.failWith e opc).status = s.status.failWith e opc := rfl

/-! STATUS after a command (60_exceptions.md R400). -/

@[simp] theorem Status.complete_code (c : Code) (st : Status) : (st.complete c).code = c := rfl
@[simp] theorem Status.complete_fault (c : Code) (st : Status) : (st.complete c).fault = st.fault := rfl
@[simp] theorem Status.complete_failop (c : Code) (st : Status) : (st.complete c).failop = st.failop := rfl
@[simp] theorem Status.failWith_code (e : Code) (opc : Nat) (st : Status) : (st.failWith e opc).code = e := rfl
@[simp] theorem Status.failWith_fault (e : Code) (opc : Nat) (st : Status) : (st.failWith e opc).fault = true := rfl

/-! The stream part of a state. -/

@[simp] theorem State.stream_cur (s : State) : s.stream.cur = s.cur := rfl
@[simp] theorem State.stream_buf (s : State) : s.stream.buf = s.buf := rfl

/-- Reading BUF of a state with a new stream: unlisted bytes keep their free values. -/
theorem State.bufByte_setStream (s : State) (t : Stream) (a : Nat) :
    (s.setStream t).bufByte a = Memory.read t.buf (s.bufFree a) a := rfl

end Sys2Proof.Machine
end

