-- ==== Sys2Proof/Laws/Commands.lean ====
section
/-!
SUPPORT. Laws of the command cycle: what `require`, `runRule` and `runCommand` can do, and the rule each command runs.
-/

namespace Sys2Proof.Machine

theorem require_pos {c : Prop} [Decidable c] (e : Code) (h : c) : require c e = .ok () := if_pos h

theorem require_neg {c : Prop} [Decidable c] (e : Code) (h : ¬c) : require c e = .error e := if_neg h

theorem require_eq_ok {c : Prop} [Decidable c] {e : Code} {u : Unit} : require c e = .ok u ↔ c := by
  unfold require
  split <;> simp_all

@[simp] theorem ok_bind {α β : Type} (a : α) (f : α → Except Code β) : (Except.ok a >>= f) = f a := rfl

@[simp] theorem error_bind {α β : Type} (e : Code) (f : α → Except Code β) : (Except.error e >>= f) = .error e := rfl

/-- A computation that answers answers after its first part does. -/
theorem bind_eq_ok {α β : Type} {x : Except Code α} {f : α → Except Code β} {b : β} :
    (x >>= f) = .ok b ↔ ∃ a, x = .ok a ∧ f a = .ok b := by
  cases x <;> simp

/-- A rule that has passed its first check. -/
theorem require_bind_eq_ok {α : Type} {c : Prop} [Decidable c] {e : Code} {f : Unit → Except Code α} {b : α} :
    (require c e >>= f) = .ok b ↔ c ∧ f () = .ok b := by
  unfold require
  split <;> simp_all

/-- A command whose rule answers completes with OK (60_exceptions.md R400). -/
theorem runCommand_ok {opc : Nat} {rule : State → Except Code State} {s t : State} (hf : s.status.fault = false)
    (h : rule s = .ok t) : runCommand opc rule s = .next (t.complete .ok) := by
  simp [runCommand, runRule, hf, h]

/-- A command whose rule fails takes the failure (60_exceptions.md R400, R401). -/
theorem runCommand_error {opc : Nat} {rule : State → Except Code State} {s : State} {e : Code}
    (hf : s.status.fault = false) (h : rule s = .error e) : runCommand opc rule s = .next (s.failWith e opc) := by
  simp [runCommand, runRule, hf, h]

/-- While FAULT = 1 only CODE changes (60_exceptions.md R401). -/
theorem runCommand_faulted {opc : Nat} {rule : State → Except Code State} {s : State} (hf : s.status.fault = true) :
    runCommand opc rule s = .next (s.complete .efaulted) := by
  simp [runCommand, hf]

/-- Everything `runRule` can do. -/
theorem runRule_cases {opc : Nat} {rule : State → Except Code State} {s t : State} (h : runRule opc rule s = .next t) :
    (∃ u, rule s = .ok u ∧ t = u.complete .ok) ∨ (∃ e, rule s = .error e ∧ t = s.failWith e opc) := by
  unfold runRule at h
  split at h
  · next u hu => exact .inl ⟨u, hu, (Host.Outcome.next.inj h).symm⟩
  · next e he => exact .inr ⟨e, he, (Host.Outcome.next.inj h).symm⟩

/-- Everything `runCommand` can do. -/
theorem runCommand_cases {opc : Nat} {rule : State → Except Code State} {s t : State}
    (h : runCommand opc rule s = .next t) :
    (s.status.fault = true ∧ t = s.complete .efaulted) ∨
      (s.status.fault = false ∧ ((∃ u, rule s = .ok u ∧ t = u.complete .ok) ∨
        (∃ e, rule s = .error e ∧ t = s.failWith e opc))) := by
  cases hf : s.status.fault
  · exact .inr ⟨rfl, runRule_cases (by simpa [runCommand, hf] using h)⟩
  · exact .inl ⟨rfl, by simpa [runCommand, hf] using h.symm⟩

/-- The rule each command but RESET runs; RESET has none (40_control.md R144). -/
def ruleOf : Instr → State → Except Code State
  | .nop => .ok
  | .reset => .ok
  | .csrRd csr => ruleCsrRd csr
  | .csrWr csr => fun s => s.csrWrite csr s.a0
  | .bcInit mode ep grow => ruleBcInit mode ep grow
  | .bcRdu n => ruleBcRdu n
  | .bcRds n => ruleBcRds n
  | .bcWru n => ruleBcWru n
  | .bcWrs n => ruleBcWrs n
  | .bcAligned => ruleBcAligned
  | .bcMore => ruleBcMore
  | .bcRdbytes => ruleBcRdbytes
  | .bcWrbytes => ruleBcWrbytes
  | .egRdue => ruleEgRdue
  | .egWrue => ruleEgWrue
  | .egRdse => ruleEgRdse
  | .egWrse => ruleEgWrse
  | .egRdte => ruleEgRdte
  | .egWrte => ruleEgWrte
  | .cvNc kind blkIdx => ruleCvNc kind blkIdx
  | .cvRdtoken => ruleCvRdtoken
  | .cvWrtoken => ruleCvWrtoken
  | .cvRdlevel => ruleCvRdlevel
  | .cvWrlevel => ruleCvWrlevel
  | .cvRdtz => ruleCvRdtz
  | .cvWrtz => ruleCvWrtz
  | .cvRdrun => ruleCvRdrun
  | .cvWrrun => ruleCvWrrun
  | .cvRdres kind store ncx blkIdx => ruleCvRdres kind store ncx blkIdx
  | .cvWrres kind store ncx blkIdx => ruleCvWrres kind store ncx blkIdx
  | .cvRdcbp intra => ruleCvRdcbp intra
  | .cvWrcbp intra => ruleCvWrcbp intra
  | .cbCtxinit t => ruleCbCtxinit t
  | .cbCtxset c => ruleCbCtxset c
  | .cbCtxget c => ruleCbCtxget c
  | .cbEinit => ruleCbEinit
  | .cbEdec c => ruleCbEdec c
  | .cbEbyp => ruleCbEbyp
  | .cbEterm => ruleCbEterm
  | .cbDinit => ruleCbDinit
  | .cbDdec c => ruleCbDdec c
  | .cbDbyp => ruleCbDbyp
  | .cbDterm => ruleCbDterm
  | .cbDbin _ _ => fun _ => .error .eunsupp
  | .bnU => ruleBnU
  | .bnTu => ruleBnTu
  | .bnFl => ruleBnFl
  | .bnUegk k signed => ruleBnUegk k signed
  | .bnEnc c => ruleBnEnc c
  | .mbSlice => ruleMbSlice
  | .mbBegin => ruleMbBegin
  | .mbSetnz comp size8 blkIdx => ruleMbSetnz comp size8 blkIdx
  | .mbGet => ruleMbGet
  | .mbNbmb dir => ruleMbNbmb dir
  | .mbNbloc chroma => ruleMbNbloc chroma
  | .mbNbblk dir kind blkIdx => ruleMbNbblk dir kind blkIdx
  | .sgIdwr => ruleSgIdwr
  | .sgGen => ruleSgGen
  | .sgMbgrp => ruleSgMbgrp
  | .sgNext => ruleSgNext

/-- Every command but NOP, RESET and CSR_RD is `runCommand` of its rule. -/
theorem exec_eq_runCommand (i : Instr) (s : State) (h : runsFaulted i = false) :
    exec i s = runCommand i.opcode (ruleOf i) s := by
  cases i <;> first | rfl | simp [runsFaulted] at h

/-- NOP and CSR_RD are `runRule` of their rules. -/
theorem exec_nop (s : State) : exec .nop s = .next (s.complete .ok) := rfl

theorem exec_csrRd (csr : Nat) (s : State) : exec (.csrRd csr) s = runRule 0x02 (ruleCsrRd csr) s := rfl

theorem exec_reset (s : State) : exec .reset s = .next s.recover := rfl

/-- A command that is not faulted and whose rule answers completes. -/
theorem exec_ok {i : Instr} {s t : State} (hi : i ≠ .reset) (hf : s.status.fault = false) (h : ruleOf i s = .ok t) :
    exec i s = .next (t.complete .ok) := by
  cases hr : runsFaulted i
  · rw [exec_eq_runCommand i s hr]
    exact runCommand_ok hf h
  · cases i <;> simp_all [runsFaulted, ruleOf, exec_nop, exec_csrRd, runRule]

/-- A command that is not faulted and whose rule fails takes the failure. -/
theorem exec_error {i : Instr} {s : State} {e : Code} (hi : i ≠ .reset) (hf : s.status.fault = false)
    (h : ruleOf i s = .error e) : exec i s = .next (s.failWith e i.opcode) := by
  cases hr : runsFaulted i
  · rw [exec_eq_runCommand i s hr]
    exact runCommand_error hf h
  · cases i <;> simp_all [runsFaulted, ruleOf, exec_csrRd, runRule, Instr.opcode]

/-- Everything a command can do. -/
theorem exec_cases {i : Instr} {s t : State} (hi : i ≠ .reset) (h : exec i s = .next t) :
    (s.status.fault = true ∧ runsFaulted i = false ∧ t = s.complete .efaulted) ∨
      (∃ u, ruleOf i s = .ok u ∧ t = u.complete .ok) ∨ (∃ e, ruleOf i s = .error e ∧ t = s.failWith e i.opcode) := by
  cases hr : runsFaulted i
  · rw [exec_eq_runCommand i s hr] at h
    rcases runCommand_cases h with ⟨hf, ht⟩ | ⟨_, ht⟩
    · exact .inl ⟨hf, rfl, ht⟩
    · exact .inr ht
  · cases i <;> simp [runsFaulted] at hr
    · exact .inr (.inl ⟨s, rfl, (Host.Outcome.next.inj h).symm⟩)
    · exact absurd rfl hi
    · exact .inr (runRule_cases h)

end Sys2Proof.Machine
end

