-- ==== Sys2Proof/Laws/Read.lean ====
section
/-!
SUPPORT. Laws of reading bits (41_bitcursor.md R161, R162): every read is described by the bits still to come,
`remBits`, and every reader is a number of calls of `getBit`.
-/

namespace Sys2Proof.Machine

theorem Cursor.Moved.refl (c : Cursor) : c.Moved c 0 := ⟨rfl, rfl, rfl, by simp [natWord]⟩

theorem Cursor.Moved.trans {c d e : Cursor} {m n : Nat} (h1 : c.Moved d m) (h2 : d.Moved e n) : c.Moved e (m + n) :=
  ⟨h2.mode.trans h1.mode, h2.ep.trans h1.ep, h2.grow.trans h1.grow, by
    rw [h2.bits, h1.bits, BitVec.add_assoc]
    simp [natWord, BitVec.ofNat_add]⟩

theorem Consumed.refl (rd : Nat → Byte) (c : Cursor) : Consumed rd c c 0 (remBits rd c) :=
  ⟨Cursor.Moved.refl c, rfl, rfl, rfl⟩

theorem Consumed.trans {rd : Nat → Byte} {c d e : Cursor} {m n : Nat} {q r : List Bool} (h1 : Consumed rd c d m q)
    (h2 : Consumed rd d e n r) : Consumed rd c e (m + n) r :=
  ⟨h1.moved.trans h2.moved, h2.len.trans h1.len, h2.cap.trans h1.cap, h2.rest⟩

theorem byteBits_eq_cacheBits (b : Byte) : byteBits b = cacheBits b 8 := rfl

theorem fetchByte_spec (rd : Nat → Byte) (c : Cursor) (h : c.cnt = 0) :
    (∃ d, fetchByte rd c = .ok d ∧ d.cnt = 8 ∧ remBits rd d = remBits rd c ∧ d.mode = c.mode ∧ d.ep = c.ep ∧
      d.grow = c.grow ∧ d.len = c.len ∧ d.cap = c.cap ∧ d.bits = c.bits) ∨
    (fetchByte rd c = .error .eio ∧ remBits rd c = []) := by
  have key : ∀ d : Cursor, d.cnt = 0 → isEscape rd d = false →
      (d.off < d.len →
        let b := rd d.off.toNat
        remBits rd { d with off := d.off + 1, zeros := nextZeros d.ep d.zeros b, cache := b, cnt := 8 } =
          remBits rd d) ∧ (¬ d.off < d.len → remBits rd d = []) := by
    intro d hd hesc
    constructor
    · intro hlt
      have hlt' : d.off.toNat < d.len.toNat := hlt
      have hoff : (d.off + 1).toNat = d.off.toNat + 1 := by
        rw [BitVec.toNat_add]
        have := d.len.isLt
        rw [show (1 : Word).toNat = 1 from rfl]
        omega
      obtain ⟨k, hk⟩ : ∃ k, d.len.toNat - d.off.toNat = k + 1 := ⟨d.len.toNat - d.off.toNat - 1, by omega⟩
      have hk' : d.len.toNat - (d.off.toNat + 1) = k := by omega
      unfold isEscape at hesc
      simp only [remBits, hd, hoff, hk, hk', remBytes, hesc, cacheBits, List.nil_append, byteBits_eq_cacheBits]
      rfl
    · intro hge
      have hge' : ¬ d.off.toNat < d.len.toNat := hge
      have : d.len.toNat - d.off.toNat = 0 := by omega
      simp [remBits, hd, this, remBytes, cacheBits]
  have hskip : remBits rd (skipEscape rd c) = remBits rd c ∧
      ((skipEscape rd c).off < (skipEscape rd c).len → isEscape rd (skipEscape rd c) = false) := by
    unfold skipEscape
    split
    · next hc =>
      obtain ⟨hlt, hesc⟩ := hc
      have hlt' : c.off.toNat < c.len.toNat := hlt
      have hoff : (c.off + 1).toNat = c.off.toNat + 1 := by
        rw [BitVec.toNat_add]
        have := c.len.isLt
        rw [show (1 : Word).toNat = 1 from rfl]
        omega
      obtain ⟨k, hk⟩ : ∃ k, c.len.toNat - c.off.toNat = k + 1 := ⟨c.len.toNat - c.off.toNat - 1, by omega⟩
      have hk' : c.len.toNat - (c.off.toNat + 1) = k := by omega
      constructor
      · unfold isEscape at hesc
        simp only [remBits, h, hoff, hk, hk', remBytes, hesc, cacheBits, if_true]
      · intro _; simp [isEscape]
    · next hc =>
      refine ⟨rfl, fun hlt => ?_⟩
      cases he : isEscape rd c
      · rfl
      · exact absurd ⟨hlt, he⟩ hc
  have hsame : (skipEscape rd c).cnt = 0 ∧ (skipEscape rd c).mode = c.mode ∧ (skipEscape rd c).ep = c.ep ∧
      (skipEscape rd c).grow = c.grow ∧ (skipEscape rd c).len = c.len ∧ (skipEscape rd c).cap = c.cap ∧
      (skipEscape rd c).bits = c.bits := by
    unfold skipEscape
    split <;> simp [h]
  obtain ⟨hs1, hs2, hs3, hs4, hs5, hs6, hs7⟩ := hsame
  unfold fetchByte
  by_cases hlt : (skipEscape rd c).off < (skipEscape rd c).len
  · left
    rw [if_pos hlt]
    refine ⟨_, rfl, rfl, ?_, hs2, hs3, hs4, hs5, hs6, hs7⟩
    exact ((key _ hs1 (hskip.2 hlt)).1 hlt).trans hskip.1
  · right
    rw [if_neg hlt]
    refine ⟨rfl, ?_⟩
    rw [← hskip.1]
    have : (skipEscape rd c).len.toNat - (skipEscape rd c).off.toNat = 0 := by
      have hge' : ¬ (skipEscape rd c).off.toNat < (skipEscape rd c).len.toNat := hlt
      omega
    simp [remBits, hs1, this, remBytes, cacheBits]

/-- Delivering a bit of CACHE. -/
theorem takeCacheBit_spec (rd : Nat → Byte) (c : Cursor) (n : Nat) (h : c.cnt = n + 1) :
    remBits rd c = (takeCacheBit c).1 :: remBits rd (takeCacheBit c).2 := by
  simp [takeCacheBit, remBits, h, cacheBits]

/-- Everything `GetBit()` can do: it delivers the first of the remaining bits, or fails with EIO when there is none
(41_bitcursor.md R161, R162). -/
theorem getBit_spec (rd : Nat → Byte) (c : Cursor) :
    (∃ b d, getBit rd c = .ok (b, d) ∧ remBits rd c = b :: remBits rd d ∧ Consumed rd c d 1 (remBits rd d)) ∨
    (getBit rd c = .error .eio ∧ remBits rd c = []) := by
  unfold getBit
  by_cases hc : c.cnt = 0
  · rw [if_pos hc]
    rcases fetchByte_spec rd c hc with ⟨d, hd, hcnt, hrem, h1, h2, h3, h4, h5, h6⟩ | ⟨he, hrem⟩
    · left
      rw [hd]
      refine ⟨(takeCacheBit d).1, (takeCacheBit d).2, rfl, ?_, ⟨⟨h1, h2, h3, ?_⟩, h4, h5, rfl⟩⟩
      · rw [← hrem]; exact takeCacheBit_spec rd d 7 hcnt
      · simp [takeCacheBit, h6, natWord]
    · right
      rw [he]
      exact ⟨rfl, hrem⟩
  · left
    rw [if_neg hc]
    refine ⟨(takeCacheBit c).1, (takeCacheBit c).2, rfl, ?_, ⟨⟨rfl, rfl, rfl, ?_⟩, rfl, rfl, rfl⟩⟩
    · exact takeCacheBit_spec rd c (c.cnt - 1) (by omega)
    · simp [takeCacheBit, natWord]

/-- Reading the next bit when there is one. -/
theorem getBit_cons {rd : Nat → Byte} {c : Cursor} {b : Bool} {r : List Bool} (h : remBits rd c = b :: r) :
    ∃ d, getBit rd c = .ok (b, d) ∧ Consumed rd c d 1 r := by
  rcases getBit_spec rd c with ⟨b', d, hd, hrem, hcon⟩ | ⟨_, hrem⟩
  · rw [h] at hrem
    obtain ⟨rfl, rfl⟩ := List.cons.inj hrem
    exact ⟨d, hd, hcon⟩
  · rw [h] at hrem
    exact absurd hrem (by simp)

/-- Reading past the end (41_bitcursor.md R162). -/
theorem getBit_nil {rd : Nat → Byte} {c : Cursor} (h : remBits rd c = []) : getBit rd c = .error .eio := by
  rcases getBit_spec rd c with ⟨b, d, _, hrem, _⟩ | ⟨he, _⟩
  · rw [h] at hrem
    exact absurd hrem (by simp)
  · exact he

/-- The value of a list of bits, the first the most significant, appended to `acc`. -/
def bitsValue (acc : Nat) : List Bool → Nat
  | [] => acc
  | b :: bs => bitsValue (2 * acc + b.toNat) bs

/-- Reading n bits that are there. -/
theorem readBitsFrom_append {rd : Nat → Byte} (bs : List Bool) {r : List Bool} (acc : Nat) (c : Cursor)
    (h : remBits rd c = bs ++ r) :
    ∃ d, readBitsFrom rd bs.length acc c = .ok (bitsValue acc bs, d) ∧ Consumed rd c d bs.length r := by
  induction bs generalizing acc c with
  | nil => exact ⟨c, rfl, Cursor.Moved.refl c, rfl, rfl, h⟩
  | cons b bs ih =>
    obtain ⟨d, hd, hcd⟩ := getBit_cons (rd := rd) (c := c) (b := b) (r := bs ++ r) (by simpa using h)
    obtain ⟨e, he, hde⟩ := ih (2 * acc + b.toNat) d hcd.rest
    refine ⟨e, ?_, ?_⟩
    · simp only [List.length_cons, readBitsFrom, hd, ok_bind, bitsValue]
      exact he
    · have := hcd.trans hde
      rwa [Nat.add_comm] at this

theorem fieldBits_length (v n : Nat) : (fieldBits v n).length = n := by
  induction n with
  | zero => rfl
  | succ n ih => simp [fieldBits, ih]

theorem bitsValue_fieldBits (v n acc : Nat) (h : v < 2 ^ n) : bitsValue acc (fieldBits v n) = acc * 2 ^ n + v := by
  have key : ∀ n acc, bitsValue acc (fieldBits v n) = acc * 2 ^ n + v % 2 ^ n := by
    intro n
    induction n with
    | zero => intro acc; simp [fieldBits, bitsValue, Nat.mod_one]
    | succ n ih =>
      intro acc
      simp only [fieldBits, bitsValue]
      rw [ih, Nat.testBit_eq_decide_div_mod_eq]
      have h2 : v % 2 ^ (n + 1) = (v / 2 ^ n % 2) * 2 ^ n + v % 2 ^ n := by
        have := Nat.mod_pow_succ (b := 2) (x := v) (k := n)
        rw [this]; ring
      rw [h2]
      rcases Nat.mod_two_eq_zero_or_one (v / 2 ^ n) with h0 | h0 <;> simp [h0] <;> ring
  rw [key, Nat.mod_eq_of_lt h]

/-- Reading an n-bit field that is there (00_scope.md R11). -/
theorem readBits_field {rd : Nat → Byte} {c : Cursor} {v n : Nat} {r : List Bool} (hv : v < 2 ^ n)
    (h : remBits rd c = fieldBits v n ++ r) : ∃ d, readBits rd n c = .ok (v, d) ∧ Consumed rd c d n r := by
  obtain ⟨d, hd, hcd⟩ := readBitsFrom_append (fieldBits v n) 0 c h
  rw [fieldBits_length] at hd hcd
  exact ⟨d, by simpa [readBits, bitsValue_fieldBits v n 0 hv] using hd, hcd⟩

/-- Reading more bits than there are fails with EIO. -/
theorem readBitsFrom_short (rd : Nat → Byte) (n acc : Nat) (c : Cursor) (h : (remBits rd c).length < n) :
    readBitsFrom rd n acc c = .error .eio := by
  induction n generalizing acc c with
  | zero => simp at h
  | succ n ih =>
    simp only [readBitsFrom]
    rcases getBit_spec rd c with ⟨b, d, hd, hrem, _⟩ | ⟨he, _⟩
    · rw [hd, ok_bind]
      refine ih (2 * acc + b.toNat) d ?_
      rw [hrem, List.length_cons] at h
      omega
    · rw [he]; rfl

/-- Reading p zeros and a one, p within the limit (42_expgolomb.md R200, 43_cavlc.md R235). -/
theorem readZeroRun_append {rd : Nat → Byte} {r : List Bool} (p room q : Nat) (c : Cursor) (hp : p ≤ room)
    (h : remBits rd c = List.replicate p false ++ true :: r) :
    ∃ d, readZeroRun rd room q c = .ok (q + p, d) ∧ Consumed rd c d (p + 1) r := by
  induction p generalizing room q c with
  | zero =>
    obtain ⟨d, hd, hcd⟩ := getBit_cons (rd := rd) (c := c) (b := true) (r := r) (by simpa using h)
    refine ⟨d, ?_, by simpa using hcd⟩
    cases room <;> simp [readZeroRun, hd]
  | succ p ih =>
    obtain ⟨d, hd, hcd⟩ := getBit_cons (rd := rd) (c := c) (b := false) (r := List.replicate p false ++ true :: r)
      (by simpa [List.replicate_succ] using h)
    obtain ⟨room', rfl⟩ : ∃ k, room = k + 1 := ⟨room - 1, by omega⟩
    obtain ⟨e, he, hde⟩ := ih room' (q + 1) d (by omega) hcd.rest
    refine ⟨e, ?_, ?_⟩
    · simp only [readZeroRun, hd, ok_bind]
      rw [show q + (p + 1) = q + 1 + p by omega]
      simpa using he
    · have := hcd.trans hde
      rwa [show 1 + (p + 1) = p + 1 + 1 by omega] at this

/-- The bits read are a prefix of the remaining bits: `n` calls of `getBit`. -/
def getBits (rd : Nat → Byte) : Nat → Cursor → Except Code (List Bool × Cursor)
  | 0, c => .ok ([], c)
  | n + 1, c => do
    let (b, d) ← getBit rd c
    let (bs, e) ← getBits rd n d
    return (b :: bs, e)

/-- `d` is reached from `c` by calls of `getBit`. -/
inductive Reads (rd : Nat → Byte) : Cursor → Cursor → Prop where
  | refl (c : Cursor) : Reads rd c c
  | step {c d e : Cursor} {b : Bool} (h : getBit rd c = .ok (b, d)) (t : Reads rd d e) : Reads rd c e

theorem Reads.one {rd : Nat → Byte} {c d : Cursor} {b : Bool} (h : getBit rd c = .ok (b, d)) : Reads rd c d :=
  .step h (.refl d)

theorem Reads.trans {rd : Nat → Byte} {c d e : Cursor} (h1 : Reads rd c d) (h2 : Reads rd d e) : Reads rd c e := by
  induction h1 with
  | refl => exact h2
  | step h _ ih => exact .step h (ih h2)

/-- What every call of `getBit` keeps, every reader keeps. -/
theorem Reads.keeps {rd : Nat → Byte} {P : Cursor → Prop} (hP : ∀ c b d, P c → getBit rd c = .ok (b, d) → P d)
    {c d : Cursor} (h : Reads rd c d) (hc : P c) : P d := by
  induction h with
  | refl => exact hc
  | step h _ ih => exact ih (hP _ _ _ hc h)

theorem readBitsFrom_reads {rd : Nat → Byte} {n acc v : Nat} {c d : Cursor}
    (h : readBitsFrom rd n acc c = .ok (v, d)) : Reads rd c d := by
  induction n generalizing acc c with
  | zero =>
    simp only [readBitsFrom, Except.ok.injEq, Prod.mk.injEq] at h
    exact h.2 ▸ .refl c
  | succ n ih =>
    obtain ⟨⟨b, e⟩, he, hr⟩ := bind_eq_ok.mp h
    exact .step he (ih hr)

theorem readBits_reads {rd : Nat → Byte} {n v : Nat} {c d : Cursor} (h : readBits rd n c = .ok (v, d)) :
    Reads rd c d := readBitsFrom_reads h

theorem readZeroRun_reads {rd : Nat → Byte} {room p v : Nat} {c d : Cursor}
    (h : readZeroRun rd room p c = .ok (v, d)) : Reads rd c d := by
  induction room generalizing p c with
  | zero =>
    obtain ⟨⟨b, e⟩, he, hr⟩ := bind_eq_ok.mp h
    cases b <;> simp at hr
    exact hr.2 ▸ Reads.one he
  | succ room ih =>
    obtain ⟨⟨b, e⟩, he, hr⟩ := bind_eq_ok.mp h
    cases b
    · exact .step he (ih (by simpa using hr))
    · simp at hr
      exact hr.2 ▸ Reads.one he

theorem readCodeword_reads {α : Type} {rd : Nat → Byte} {t : List (Vlc α)} {room len code : Nat} {c d : Cursor} {x : α}
    (h : readCodeword rd t room len code c = .ok (x, d)) : Reads rd c d := by
  induction room generalizing len code c with
  | zero => simp [readCodeword] at h
  | succ room ih =>
    obtain ⟨⟨b, e⟩, he, hr⟩ := bind_eq_ok.mp h
    simp only at hr
    split at hr
    · simp only [Except.ok.injEq, Prod.mk.injEq] at hr
      exact hr.2 ▸ Reads.one he
    · exact .step he (ih hr)

theorem readUE_reads {rd : Nat → Byte} {v : Nat} {c d : Cursor} (h : readUE rd c = .ok (v, d)) : Reads rd c d := by
  obtain ⟨⟨m, e⟩, he, hr⟩ := bind_eq_ok.mp h
  obtain ⟨⟨x, f⟩, hf, hr⟩ := bind_eq_ok.mp hr
  simp only [pure, Except.pure, Except.ok.injEq, Prod.mk.injEq] at hr
  exact hr.2 ▸ (readZeroRun_reads he).trans (readBits_reads hf)

end Sys2Proof.Machine
end

