-- ==== Sys2Proof/Laws/Table.lean ====
section
/-!
SUPPORT. Laws of the sparse tables and byte memories: reading after writing, the canonical form, the index bound.
-/

namespace Sys2Proof.Machine

theorem Table.find_put_same {β : Type} (t : Table β) (a : Nat) (v : β) : Table.find (Table.put t a v) a = some v := by
  induction t with
  | nil => simp [Table.put, Table.find]
  | cons e t ih =>
    obtain ⟨k, w⟩ := e
    simp only [Table.put]
    split
    · simp [Table.find]
    · split
      · simp [Table.find]
      · next h => simp [Table.find, h, ih]

theorem Table.find_put_other {β : Type} (t : Table β) (a b : Nat) (v : β) (h : b ≠ a) :
    Table.find (Table.put t a v) b = Table.find t b := by
  induction t with
  | nil => simp [Table.put, Table.find, h]
  | cons e t ih =>
    obtain ⟨k, w⟩ := e
    simp only [Table.put]
    split
    · simp [Table.find, h]
    · split
      · next hk => subst hk; simp [Table.find, h]
      · simp [Table.find, ih]

/-- Nothing below the first possible index is listed. -/
theorem Table.find_below {β : Type} (t : Table β) (b a : Nat) (h : Table.risingFrom b t = true) (hab : a < b) :
    Table.find t a = none := by
  induction t generalizing b with
  | nil => rfl
  | cons e t ih =>
    obtain ⟨k, w⟩ := e
    simp only [Table.risingFrom, Bool.and_eq_true, decide_eq_true_eq] at h
    have : a ≠ k := by omega
    simp only [Table.find, this, if_false]
    exact ih (k + 1) h.2 (by omega)

theorem Table.risingFrom_mono {β : Type} (t : Table β) (b c : Nat) (h : Table.risingFrom c t = true) (hbc : b ≤ c) :
    Table.risingFrom b t = true := by
  cases t with
  | nil => rfl
  | cons e t =>
    obtain ⟨k, w⟩ := e
    simp only [Table.risingFrom, Bool.and_eq_true, decide_eq_true_eq] at h ⊢
    exact ⟨by omega, h.2⟩

theorem Table.risingFrom_put {β : Type} (t : Table β) (b a : Nat) (v : β) (h : Table.risingFrom b t = true)
    (hba : b ≤ a) : Table.risingFrom b (Table.put t a v) = true := by
  induction t generalizing b with
  | nil => simp [Table.put, Table.risingFrom, hba]
  | cons e t ih =>
    obtain ⟨k, w⟩ := e
    simp only [Table.risingFrom, Bool.and_eq_true, decide_eq_true_eq] at h
    simp only [Table.put]
    split
    · next hk =>
      simp only [Table.risingFrom, Bool.and_eq_true, decide_eq_true_eq]
      exact ⟨hba, by omega, h.2⟩
    · split
      · next hk => subst hk; simpa [Table.risingFrom, hba] using h.2
      · simp only [Table.risingFrom, Bool.and_eq_true, decide_eq_true_eq]
        exact ⟨h.1, ih (k + 1) h.2 (by omega)⟩

/-- Writing keeps the canonical form. -/
theorem Table.wf_put {β : Type} (t : Table β) (a : Nat) (v : β) (h : Table.wf t = true) :
    Table.wf (Table.put t a v) = true := Table.risingFrom_put t 0 a v h (Nat.zero_le a)

theorem Table.risingFrom_drop {β : Type} (t : Table β) (b a : Nat) (h : Table.risingFrom b t = true) :
    Table.risingFrom b (Table.drop t a) = true := by
  induction t generalizing b with
  | nil => rfl
  | cons e t ih =>
    obtain ⟨k, w⟩ := e
    simp only [Table.risingFrom, Bool.and_eq_true, decide_eq_true_eq] at h
    simp only [Table.drop]
    split
    · exact Table.risingFrom_mono t b (k + 1) h.2 (by omega)
    · simp only [Table.risingFrom, Bool.and_eq_true, decide_eq_true_eq]
      exact ⟨h.1, ih (k + 1) h.2⟩

/-- Removing an entry keeps the canonical form. -/
theorem Table.wf_drop {β : Type} (t : Table β) (a : Nat) (h : Table.wf t = true) : Table.wf (Table.drop t a) = true :=
  Table.risingFrom_drop t 0 a h

theorem Table.find_drop_same {β : Type} (t : Table β) (a : Nat) (h : Table.wf t = true) :
    Table.find (Table.drop t a) a = none := by
  suffices hs : ∀ b, Table.risingFrom b t = true → Table.find (Table.drop t a) a = none from hs 0 h
  induction t with
  | nil => intro _ _; rfl
  | cons e t ih =>
    obtain ⟨k, w⟩ := e
    intro b hb
    simp only [Table.risingFrom, Bool.and_eq_true, decide_eq_true_eq] at hb
    simp only [Table.drop]
    split
    · next hk => exact Table.find_below t (k + 1) a hb.2 (by omega)
    · next hk =>
      simp only [Table.find, hk, if_false]
      exact ih (Table.risingFrom_mono t 0 (k + 1) hb.2 (by omega)) (k + 1) hb.2

theorem Table.find_drop_other {β : Type} (t : Table β) (a b : Nat) (h : b ≠ a) :
    Table.find (Table.drop t a) b = Table.find t b := by
  induction t with
  | nil => rfl
  | cons e t ih =>
    obtain ⟨k, w⟩ := e
    simp only [Table.drop]
    split
    · next hk => subst hk; simp [Table.find, h]
    · simp [Table.find, ih]

theorem Table.risingFrom_build {β : Type} (f : Nat → Option β) (n a : Nat) :
    Table.risingFrom a (Table.build f n a) = true := by
  induction n generalizing a with
  | zero => rfl
  | succ n ih =>
    simp only [Table.build]
    split
    · simp [Table.risingFrom, ih]
    · exact Table.risingFrom_mono _ a (a + 1) (ih (a + 1)) (by omega)

/-- A built table is in canonical form. -/
theorem Table.wf_build {β : Type} (f : Nat → Option β) (n a : Nat) : Table.wf (Table.build f n a) = true :=
  Table.risingFrom_mono _ 0 a (Table.risingFrom_build f n a) (Nat.zero_le a)

/-- What a built table lists. -/
theorem Table.find_build {β : Type} (f : Nat → Option β) (n a i : Nat) :
    Table.find (Table.build f n a) i = if a ≤ i ∧ i < a + n then f i else none := by
  induction n generalizing a with
  | zero => simp [Table.build, Table.find]
  | succ n ih =>
    have hn : ¬ (a + 1 ≤ a ∧ a < a + 1 + n) := by omega
    by_cases hi : i = a
    · subst hi
      simp only [Table.build]
      split
      · next v hv => simp [Table.find, hv]
      · next hv => rw [ih, if_neg hn]; simp [hv]
    · have hiff : (a + 1 ≤ i ∧ i < a + 1 + n) ↔ (a ≤ i ∧ i < a + (n + 1)) := by omega
      simp only [Table.build]
      split
      · simp only [Table.find, hi, if_false, ih, hiff]
      · simp only [ih, hiff]

theorem tableBelow_put {β : Type} (n : Nat) (t : Table β) (a : Nat) (v : β) (h : tableBelow n t = true)
    (ha : a < n) : tableBelow n (Table.put t a v) = true := by
  induction t with
  | nil => simp [Table.put, tableBelow, ha]
  | cons e t ih =>
    obtain ⟨k, w⟩ := e
    simp only [tableBelow, Bool.and_eq_true, decide_eq_true_eq] at h
    simp only [Table.put]
    split
    · simp [tableBelow, ha, h.1, h.2]
    · split
      · simp [tableBelow, ha, h.2]
      · simp [tableBelow, h.1, ih h.2]

theorem tableBelow_drop {β : Type} (n : Nat) (t : Table β) (a : Nat) (h : tableBelow n t = true) :
    tableBelow n (Table.drop t a) = true := by
  induction t with
  | nil => rfl
  | cons e t ih =>
    obtain ⟨k, w⟩ := e
    simp only [tableBelow, Bool.and_eq_true, decide_eq_true_eq] at h
    simp only [Table.drop]
    split
    · exact h.2
    · simp [tableBelow, h.1, ih h.2]

theorem tableBelow_build {β : Type} (f : Nat → Option β) (n a m : Nat) (h : a + n ≤ m) :
    tableBelow m (Table.build f n a) = true := by
  induction n generalizing a with
  | zero => rfl
  | succ n ih =>
    simp only [Table.build]
    split
    · simp only [tableBelow, Bool.and_eq_true, decide_eq_true_eq]
      exact ⟨by omega, ih (a + 1) (by omega)⟩
    · exact ih (a + 1) (by omega)

/-- A property of every listed value survives a write of a value that has it. -/
theorem Table.all_put {β : Type} (p : β → Bool) (t : Table β) (a : Nat) (v : β) (h : t.all (fun e => p e.2) = true)
    (hv : p v = true) : (Table.put t a v).all (fun e => p e.2) = true := by
  induction t with
  | nil => simp [Table.put, hv]
  | cons e t ih =>
    obtain ⟨k, w⟩ := e
    simp only [List.all_cons, Bool.and_eq_true] at h
    simp only [Table.put]
    split
    · simp [hv, h.1, h.2]
    · split
      · simp [hv, h.2]
      · simp only [List.all_cons, Bool.and_eq_true]
        exact ⟨h.1, ih h.2⟩

theorem Table.all_drop {β : Type} (p : β → Bool) (t : Table β) (a : Nat) (h : t.all (fun e => p e.2) = true) :
    (Table.drop t a).all (fun e => p e.2) = true := by
  induction t with
  | nil => rfl
  | cons e t ih =>
    obtain ⟨k, w⟩ := e
    simp only [List.all_cons, Bool.and_eq_true] at h
    simp only [Table.drop]
    split
    · exact h.2
    · simp only [List.all_cons, Bool.and_eq_true]
      exact ⟨h.1, ih h.2⟩

theorem Table.all_build {β : Type} (p : β → Bool) (f : Nat → Option β) (n a : Nat)
    (h : ∀ i v, f i = some v → p v = true) : (Table.build f n a).all (fun e => p e.2) = true := by
  induction n generalizing a with
  | zero => rfl
  | succ n ih =>
    simp only [Table.build]
    split
    · next v hv =>
      simp only [List.all_cons, Bool.and_eq_true]
      exact ⟨h a v hv, ih (a + 1)⟩
    · exact ih (a + 1)

/-- A listed value has a property all of them have. -/
theorem Table.of_find {β : Type} (p : β → Bool) (t : Table β) (a : Nat) (v : β)
    (h : t.all (fun e => p e.2) = true) (hf : Table.find t a = some v) : p v = true := by
  induction t with
  | nil => simp [Table.find] at hf
  | cons e t ih =>
    obtain ⟨k, w⟩ := e
    simp only [List.all_cons, Bool.and_eq_true] at h
    simp only [Table.find] at hf
    split at hf
    · simp only [Option.some.injEq] at hf
      exact hf ▸ h.1
    · exact ih h.2 hf

/-- A listed index is inside the table's space. -/
theorem tableBelow_find {β : Type} (n : Nat) (t : Table β) (a : Nat) (v : β) (h : tableBelow n t = true)
    (hf : Table.find t a = some v) : a < n := by
  induction t with
  | nil => simp [Table.find] at hf
  | cons e t ih =>
    obtain ⟨k, w⟩ := e
    simp only [tableBelow, Bool.and_eq_true, decide_eq_true_eq] at h
    simp only [Table.find] at hf
    split at hf
    · next hk => exact hk ▸ h.1
    · exact ih h.2 hf

@[simp] theorem Memory.read_write_same (m : Memory) (free b : Byte) (a : Nat) :
    Memory.read (Memory.write m a b) free a = b := by
  simp [Memory.read, Memory.write, Table.find_put_same]

theorem Memory.read_write_other (m : Memory) (free b : Byte) (a c : Nat) (h : c ≠ a) :
    Memory.read (Memory.write m a b) free c = Memory.read m free c := by
  simp [Memory.read, Memory.write, Table.find_put_other _ _ _ _ h]

/-- Writing a byte keeps a memory's canonical form. -/
theorem Memory.wf_write (m : Memory) (a : Nat) (b : Byte) (h : Memory.wf m = true) :
    Memory.wf (Memory.write m a b) = true := Table.wf_put m a b h

/-- The memories of the state after reset are in canonical form. -/
theorem State.reset_memories_wf (p : Params) (k : Nat) (port : List HostAction) :
    Memory.wf (State.resetWith p k port).buf = true ∧ Memory.wf (State.resetWith p k port).raw = true := ⟨rfl, rfl⟩

end Sys2Proof.Machine
end

