-- ==== Sys2Proof/Laws/Write.lean ====
section
/-!
SUPPORT. Laws of writing bits (41_bitcursor.md R163, R173): what `putBit1` does to the bits written, to BUF and to the
invariant of an ENC cursor, when it has room, and that every writer is `putBits` of some bits.
-/

namespace Sys2Proof.Machine

/-- BUF of a stream as a function, unlisted bytes reading `free`. -/
def Stream.rd (free : Nat → Byte) (t : Stream) : Nat → Byte := fun a => Memory.read t.buf (free a) a

/-- BUF's part of the invariant of the memories. -/
def Stream.bufOk (p : Params) (t : Stream) : Prop :=
  Memory.wf t.buf = true ∧ tableBelow p.maxBufBytes.toNat t.buf = true

/-- Everything writing the bits `bs` does to a stream. -/
structure StreamStep (free : Nat → Byte) (p : Params) (t u : Stream) (bs : List Bool) : Prop where
  moved : t.cur.Moved u.cur bs.length
  written : writtenBits (u.rd free) u.cur = writtenBits (t.rd free) t.cur ++ bs
  len : t.cur.len.toNat ≤ u.cur.len.toNat
  outside : ∀ a, a < t.cur.len.toNat ∨ u.cur.len.toNat ≤ a → u.rd free a = t.rd free a
  ok : EncOk p (u.rd free) u.cur
  buf : t.bufOk p → u.bufOk p

/-! Bytes of BUF one after another. -/

theorem remBytes_congr {rd rd' : Nat → Byte} (ep : Bool) (n o z : Nat)
    (h : ∀ a, o ≤ a → a < o + n → rd a = rd' a) : remBytes rd ep n o z = remBytes rd' ep n o z := by
  induction n generalizing o z with
  | zero => rfl
  | succ n ih =>
    have h0 := h o (Nat.le_refl o) (by omega)
    have hs := fun z => ih (o + 1) z (fun a h1 h2 => h a (by omega) (by omega))
    simp only [remBytes, h0, hs]

theorem scanZeros_congr {rd rd' : Nat → Byte} (ep : Bool) (n o z : Nat)
    (h : ∀ a, o ≤ a → a < o + n → rd a = rd' a) : scanZeros rd ep n o z = scanZeros rd' ep n o z := by
  induction n generalizing o z with
  | zero => rfl
  | succ n ih =>
    have h0 := h o (Nat.le_refl o) (by omega)
    have hs := fun z => ih (o + 1) z (fun a h1 h2 => h a (by omega) (by omega))
    simp only [scanZeros, h0, hs]

theorem remBytes_succ (rd : Nat → Byte) (ep : Bool) (n o z : Nat) :
    remBytes rd ep (n + 1) o z =
      if ep && decide (z = 2) && decide (rd o = 3) then remBytes rd ep n (o + 1) 0
      else byteBits (rd o) ++ remBytes rd ep n (o + 1) (nextZeros ep z (rd o)) := rfl

theorem scanZeros_succ (rd : Nat → Byte) (ep : Bool) (n o z : Nat) :
    scanZeros rd ep (n + 1) o z =
      if ep && decide (z = 2) && decide (rd o = 3) then scanZeros rd ep n (o + 1) 0
      else scanZeros rd ep n (o + 1) (nextZeros ep z (rd o)) := rfl

/-- One byte. -/
theorem remBytes_one (rd : Nat → Byte) (ep : Bool) (o z : Nat) :
    remBytes rd ep 1 o z = if ep && decide (z = 2) && decide (rd o = 3) then [] else byteBits (rd o) := by
  rw [remBytes_succ]
  split
  · rfl
  · exact List.append_nil _

theorem scanZeros_one (rd : Nat → Byte) (ep : Bool) (o z : Nat) :
    scanZeros rd ep 1 o z =
      if ep && decide (z = 2) && decide (rd o = 3) then 0 else nextZeros ep z (rd o) := rfl

/-- One more byte at the end. -/
theorem remBytes_snoc (rd : Nat → Byte) (ep : Bool) (n o z : Nat) :
    remBytes rd ep (n + 1) o z = remBytes rd ep n o z ++ remBytes rd ep 1 (o + n) (scanZeros rd ep n o z) := by
  induction n generalizing o z with
  | zero => rfl
  | succ n ih =>
    rw [remBytes_succ rd ep (n + 1) o z, remBytes_succ rd ep n o z, scanZeros_succ]
    split
    · rw [ih, show o + 1 + n = o + (n + 1) by omega]
    · rw [ih, show o + 1 + n = o + (n + 1) by omega, List.append_assoc]

theorem scanZeros_snoc (rd : Nat → Byte) (ep : Bool) (n o z : Nat) :
    scanZeros rd ep (n + 1) o z = scanZeros rd ep 1 (o + n) (scanZeros rd ep n o z) := by
  induction n generalizing o z with
  | zero => rfl
  | succ n ih =>
    rw [scanZeros_succ rd ep (n + 1) o z, scanZeros_succ rd ep n o z]
    split
    · rw [ih, show o + 1 + n = o + (n + 1) by omega]
    · rw [ih, show o + 1 + n = o + (n + 1) by omega]

theorem scanZeros_plain (rd : Nat → Byte) (n o : Nat) : scanZeros rd false n o 0 = 0 := by
  induction n generalizing o with
  | zero => rfl
  | succ n ih => simp [scanZeros, nextZeros, ih]

theorem scanZeros_le (rd : Nat → Byte) (ep : Bool) (n o z : Nat) (h : z ≤ 2) : scanZeros rd ep n o z ≤ 2 := by
  induction n generalizing o z with
  | zero => exact h
  | succ n ih =>
    simp only [scanZeros]
    split
    · exact ih _ _ (by omega)
    · refine ih _ _ ?_
      unfold nextZeros
      split
      · split <;> omega
      · exact h

/-- After two zero bytes Z is 2 (41_bitcursor.md R163). -/
theorem scanZeros_two (rd : Nat → Byte) (n o z : Nat) (h0 : rd (o + n) = 0) (h1 : rd (o + n + 1) = 0) :
    scanZeros rd true (n + 2) o z = 2 := by
  rw [scanZeros_snoc rd true (n + 1), scanZeros_snoc rd true n]
  generalize scanZeros rd true n o z = w
  have h03 : ¬ (0 : Byte) = 3 := by decide
  rw [show o + (n + 1) = o + n + 1 by omega, scanZeros_one, scanZeros_one, h0, h1]
  simp only [h03, decide_false, Bool.and_false, Bool.false_eq_true, if_false, nextZeros, if_true]
  omega

/-! CACHE. -/

theorem cacheBits_shiftIn (b : Bool) (cache : Byte) (n : Nat) (h : n < 8) :
    cacheBits (BitVec.ofNat 8 (2 * cache.toNat + b.toNat)) (n + 1) = cacheBits cache n ++ [b] := by
  have hbit : ∀ i, i < 8 → (BitVec.ofNat 8 (2 * cache.toNat + b.toNat)).getLsbD i =
      if i = 0 then b else cache.getLsbD (i - 1) := by
    intro i hi
    rw [BitVec.getLsbD_ofNat]
    simp only [hi, decide_true, Bool.true_and]
    rcases i with _ | i
    · cases b <;> simp [Nat.testBit_zero, Nat.add_mod]
    · simp only [Nat.add_eq_zero_iff, one_ne_zero, and_false, if_false, Nat.add_sub_cancel]
      rw [Nat.testBit_succ, BitVec.getLsbD]
      congr 1
      cases b <;> simp <;> omega
  have hlow : ∀ m, m ≤ n → cacheBits (BitVec.ofNat 8 (2 * cache.toNat + b.toNat)) (m + 1) = cacheBits cache m ++ [b] := by
    intro m
    induction m with
    | zero =>
      intro _
      show [(BitVec.ofNat 8 (2 * cache.toNat + b.toNat)).getLsbD 0] = [b]
      rw [hbit 0 (by omega)]
      rfl
    | succ m ih =>
      intro hm
      rw [cacheBits, ih (by omega), hbit (m + 1) (by omega)]
      simp [cacheBits]
  exact hlow n (Nat.le_refl n)

/-! The space check. -/

theorem ensureSpace_spec {p : Params} {k : Nat} {c d : Cursor} (hg : 1 ≤ p.growBlock)
    (hcap : c.cap.toNat ≤ p.maxBufBytes.toNat) (h : ensureSpace p k c = .ok d) :
    d = { c with cap := d.cap } ∧ c.len.toNat + k ≤ d.cap.toNat ∧ c.cap.toNat ≤ d.cap.toNat ∧
      d.cap.toNat ≤ p.maxBufBytes.toNat := by
  unfold ensureSpace at h
  split at h
  · next hlt =>
    split at h
    · split at h
      · next hle =>
        simp only [Except.ok.injEq] at h
        subst h
        have hnat : (natWord (grownCap p c k)).toNat = grownCap p c k := by
          simp only [natWord, BitVec.toNat_ofNat]
          exact Nat.mod_eq_of_lt (by have := p.maxBufBytes.isLt; omega)
        refine ⟨rfl, ?_, ?_, ?_⟩ <;> simp only [hnat]
        · unfold grownCap
          have := Nat.div_add_mod (c.len.toNat + k - c.cap.toNat + p.growBlock - 1) p.growBlock
          have := Nat.mod_lt (c.len.toNat + k - c.cap.toNat + p.growBlock - 1) (by omega : 0 < p.growBlock)
          omega
        · unfold grownCap
          omega
        · exact hle
      · simp at h
    · simp at h
  · next hlt =>
    simp only [Except.ok.injEq] at h
    subst h
    exact ⟨rfl, by omega, Nat.le_refl _, hcap⟩

theorem ensureSpace_ok {p : Params} {k m : Nat} {c : Cursor} (hg : 1 ≤ p.growBlock) (hk : k ≤ m)
    (h : c.len.toNat + m ≤ c.cap.toNat ∨
      (c.grow = true ∧ c.len.toNat + m + p.growBlock ≤ p.maxBufBytes.toNat + 1)) :
    ∃ d, ensureSpace p k c = .ok d := by
  unfold ensureSpace
  split
  · next hlt =>
    rcases h with h | ⟨hgrow, h⟩
    · omega
    · rw [if_pos hgrow, if_pos]
      · exact ⟨_, rfl⟩
      · unfold grownCap
        have := Nat.div_mul_le_self (c.len.toNat + k - c.cap.toNat + p.growBlock - 1) p.growBlock
        rw [Nat.mul_comm] at this
        omega
  · exact ⟨_, rfl⟩

/-! One byte. -/

theorem Stream.rd_storeByte (free : Nat → Byte) (v : Byte) (t : Stream) (a : Nat) :
    (storeByte v t).rd free a = if a = t.cur.len.toNat then v else t.rd free a := by
  unfold Stream.rd storeByte
  split
  · next h => rw [← h]; simp
  · next h => exact Memory.read_write_other _ _ _ _ _ h

/-- What an ENC cursor satisfies between bytes, with an unfinished CACHE or none. -/
structure ByteOk (p : Params) (rd : Nat → Byte) (c : Cursor) : Prop where
  off : c.off = c.len
  len : c.len.toNat ≤ c.cap.toNat
  cap : c.cap.toNat ≤ p.maxBufBytes.toNat
  zeros : c.zeros = scanZeros rd c.ep c.len.toNat 0 0
  noStart : c.ep = true → NoStartCode rd c.len.toNat

/-- Storing a byte that needs no escape, there being room for it. -/
theorem storeByte_spec {free : Nat → Byte} {p : Params} {v : Byte} {t : Stream} {z : Nat}
    (hb : ByteOk p (t.rd free) t.cur) (hroom : t.cur.len.toNat + 1 ≤ t.cur.cap.toNat)
    (hz : z = if t.cur.ep && decide (t.cur.zeros = 2) && decide (v = 3) then 0
      else nextZeros t.cur.ep t.cur.zeros v)
    (hesc : t.cur.ep = true → t.cur.zeros = 2 → 3 ≤ v.toNat) :
    let u := storeByte v t
    ByteOk p (u.rd free) { u.cur with zeros := z } ∧
      remBytes (u.rd free) t.cur.ep u.cur.len.toNat 0 0 = remBytes (t.rd free) t.cur.ep t.cur.len.toNat 0 0 ++
        (if t.cur.ep && decide (t.cur.zeros = 2) && decide (v = 3) then [] else byteBits v) ∧
      u.cur.len.toNat = t.cur.len.toNat + 1 ∧
      (∀ a, a ≠ t.cur.len.toNat → u.rd free a = t.rd free a) ∧ (t.bufOk p → u.bufOk p) := by
  intro u
  have hlen : u.cur.len.toNat = t.cur.len.toNat + 1 := by
    show (t.cur.len + 1).toNat = _
    rw [BitVec.toNat_add, show (1 : Word).toNat = 1 from rfl]
    have := t.cur.cap.isLt
    omega
  have hcong : ∀ a, 0 ≤ a → a < 0 + t.cur.len.toNat → u.rd free a = t.rd free a := by
    intro a _ ha
    rw [Stream.rd_storeByte, if_neg (by omega)]
  have hlast : u.rd free t.cur.len.toNat = v := by rw [Stream.rd_storeByte, if_pos rfl]
  have hother : ∀ a, a ≠ t.cur.len.toNat → u.rd free a = t.rd free a := by
    intro a ha
    rw [Stream.rd_storeByte, if_neg ha]
  have hscan : scanZeros (u.rd free) t.cur.ep t.cur.len.toNat 0 0 = t.cur.zeros := by
    rw [scanZeros_congr _ _ _ _ hcong, hb.zeros]
  refine ⟨⟨rfl, ?_, hb.cap, ?_, ?_⟩, ?_, hlen, hother, ?_⟩
  · show u.cur.len.toNat ≤ t.cur.cap.toNat
    omega
  · show z = scanZeros (u.rd free) t.cur.ep u.cur.len.toNat 0 0
    rw [hlen, scanZeros_snoc, hscan, hz]
    rw [scanZeros_one, Nat.zero_add, hlast]
  · intro hep i hi h0 h1
    change t.cur.ep = true at hep
    change i + 2 < u.cur.len.toNat at hi
    rw [hlen] at hi
    by_cases hi2 : i + 2 < t.cur.len.toNat
    · show 3 ≤ (u.rd free (i + 2)).toNat
      change u.rd free i = 0 at h0
      change u.rd free (i + 1) = 0 at h1
      rw [hother (i + 2) (by omega)]
      rw [hother i (by omega)] at h0
      rw [hother (i + 1) (by omega)] at h1
      exact hb.noStart hep i hi2 h0 h1
    · have hlen2 : t.cur.len.toNat = i + 2 := by omega
      show 3 ≤ (u.rd free (i + 2)).toNat
      change u.rd free i = 0 at h0
      change u.rd free (i + 1) = 0 at h1
      rw [← hlen2, hlast]
      refine hesc hep ?_
      rw [hb.zeros, hlen2, hep]
      refine scanZeros_two _ i 0 0 ?_ ?_
      · rw [Nat.zero_add, ← hother i (by omega)]; exact h0
      · rw [Nat.zero_add, ← hother (i + 1) (by omega)]; exact h1
  · rw [hlen, remBytes_snoc, remBytes_congr _ _ _ _ hcong, hscan]
    rw [remBytes_one, Nat.zero_add, hlast]
  · rintro ⟨h1, h2⟩
    refine ⟨Memory.wf_write _ _ _ h1, tableBelow_put _ _ _ _ h2 ?_⟩
    have := hb.cap
    omega

/-- `EmitByte(v)` (41_bitcursor.md R163). -/
theorem emitByte_spec {free : Nat → Byte} {p : Params} {v : Byte} {t u : Stream} (hg : 1 ≤ p.growBlock)
    (hb : ByteOk p (t.rd free) t.cur) (h : emitByte p v t = .ok u) :
    ByteOk p (u.rd free) u.cur ∧
      remBytes (u.rd free) t.cur.ep u.cur.len.toNat 0 0 = remBytes (t.rd free) t.cur.ep t.cur.len.toNat 0 0 ++ byteBits v ∧
      t.cur.len.toNat ≤ u.cur.len.toNat ∧ u.cur.len.toNat ≤ t.cur.len.toNat + 2 ∧
      (∀ a, a < t.cur.len.toNat ∨ u.cur.len.toNat ≤ a → u.rd free a = t.rd free a) ∧ (t.bufOk p → u.bufOk p) ∧
      u.cur.mode = t.cur.mode ∧ u.cur.ep = t.cur.ep ∧ u.cur.grow = t.cur.grow ∧ u.cur.bits = t.cur.bits ∧
      t.cur.cap.toNat ≤ u.cur.cap.toNat := by
  unfold emitByte at h
  obtain ⟨d, hd, hu⟩ := bind_eq_ok.mp h
  obtain ⟨hdeq, hroom, hcap1, hcap2⟩ := ensureSpace_spec hg hb.cap hd
  have hdlen : d.len = t.cur.len := by rw [hdeq]
  have hdep : d.ep = t.cur.ep := by rw [hdeq]
  have hdz : d.zeros = t.cur.zeros := by rw [hdeq]
  have hb1 : ByteOk p (Stream.rd free ⟨d, t.buf⟩) d := by
    refine ⟨?_, ?_, hcap2, ?_, ?_⟩
    · rw [hdeq]; exact hb.off
    · rw [hdlen]; have := hb.len; omega
    · rw [hdz, hdep, hdlen]; exact hb.zeros
    · rw [hdep, hdlen]; exact hb.noStart
  simp only [Except.ok.injEq] at hu
  by_cases hesc : needsEscape t.cur v = true
  · simp only [hesc, if_true] at hu hroom
    simp only [needsEscape, Bool.and_eq_true, decide_eq_true_eq] at hesc
    obtain ⟨⟨hep, hz2⟩, hv⟩ := hesc
    have hv' : v.toNat ≤ 3 := hv
    -- the escape byte
    have s1 := storeByte_spec (free := free) (p := p) (v := 3) (t := ⟨d, t.buf⟩) (z := 0) hb1
      (by show d.len.toNat + 1 ≤ d.cap.toNat; rw [hdlen]; omega)
      (by simp [hdep, hep, hdz, hz2]) (by intro _ _; decide)
    obtain ⟨b1, r1, l1, o1, k1⟩ := s1
    -- the byte itself, with Z = 0
    let t1 : Stream := { storeByte 3 ⟨d, t.buf⟩ with cur := { (storeByte 3 ⟨d, t.buf⟩).cur with zeros := 0 } }
    have s2 := storeByte_spec (free := free) (p := p) (v := v) (t := t1) (z := nextZeros t.cur.ep 0 v) b1
      (by
        show (storeByte 3 ⟨d, t.buf⟩).cur.len.toNat + 1 ≤ d.cap.toNat
        rw [l1]; show d.len.toNat + 1 + 1 ≤ _; rw [hdlen]; omega)
      (by
        show _ = if (d.ep && decide ((0 : Nat) = 2) && decide (v = 3)) then 0 else nextZeros d.ep 0 v
        simp [hdep])
      (by intro _ h0; exact absurd h0 (by show ¬ (0 : Nat) = 2; decide))
    obtain ⟨b2, r2, l2, o2, k2⟩ := s2
    have hueq : u = { storeByte v t1 with cur := { (storeByte v t1).cur with zeros := nextZeros t.cur.ep 0 v } } := by
      rw [← hu]
      show _ = Stream.mk _ _
      simp only [storeByte, t1, hdep]
    have hul : u.cur.len.toNat = t.cur.len.toNat + 2 := by
      rw [hueq]
      show (storeByte v t1).cur.len.toNat = _
      rw [l2]
      show (storeByte 3 ⟨d, t.buf⟩).cur.len.toNat + 1 = _
      rw [l1]
      show d.len.toNat + 1 + 1 = _
      rw [hdlen]
    have hurd : ∀ a, u.rd free a = (storeByte v t1).rd free a := by intro a; rw [hueq]; rfl
    refine ⟨?_, ?_, by omega, by omega, ?_, ?_, ?_, ?_, ?_, ?_, ?_⟩
    · have : u.rd free = (storeByte v t1).rd free := funext hurd
      rw [this, hueq]
      exact b2
    · have : u.rd free = (storeByte v t1).rd free := funext hurd
      rw [this, hueq]
      have e2 : t1.cur.ep = t.cur.ep := hdep
      have z1 : t1.cur.zeros = 0 := rfl
      rw [e2, z1] at r2
      simp only [show decide ((0 : Nat) = 2) = false from rfl, Bool.and_false, Bool.false_and, Bool.false_eq_true,
        if_false] at r2
      refine r2.trans ?_
      have e1 : (Stream.mk d t.buf).cur.ep = t.cur.ep := hdep
      have z0 : (Stream.mk d t.buf).cur.zeros = 2 := hdz.trans hz2
      rw [e1, z0, hep] at r1
      simp only [decide_true, Bool.and_true, if_true, List.append_nil] at r1
      congr 1
      rw [hep]
      refine Eq.trans ?_ (r1.trans ?_)
      · rfl
      · show remBytes (t.rd free) true d.len.toNat 0 0 = _
        rw [hdlen]
    · intro a ha
      rw [hurd a, o2 a (by
        show a ≠ (storeByte 3 ⟨d, t.buf⟩).cur.len.toNat
        rw [l1]; show a ≠ d.len.toNat + 1; rw [hdlen]; omega)]
      show (storeByte 3 ⟨d, t.buf⟩).rd free a = _
      rw [o1 a (by show a ≠ d.len.toNat; rw [hdlen]; omega)]
      rfl
    · intro hk
      rw [hueq]
      exact k2 (k1 hk)
    · rw [hueq]; show d.mode = _; rw [hdeq]
    · rw [hueq]; exact hdep
    · rw [hueq]; show d.grow = _; rw [hdeq]
    · rw [hueq]; show d.bits = _; rw [hdeq]
    · rw [hueq]; exact hcap1
  · simp only [hesc] at hu hroom
    simp only [if_false, Bool.false_eq_true] at hu hroom
    have hno : (t.cur.ep && decide (t.cur.zeros = 2) && decide (v = 3)) = false := by
      cases hx : (t.cur.ep && decide (t.cur.zeros = 2) && decide (v = 3))
      · rfl
      · simp only [Bool.and_eq_true, decide_eq_true_eq] at hx
        exact absurd (by simp [needsEscape, hx]) hesc
    have s1 := storeByte_spec (free := free) (p := p) (v := v) (t := ⟨d, t.buf⟩)
      (z := nextZeros t.cur.ep t.cur.zeros v) hb1
      (by show d.len.toNat + 1 ≤ d.cap.toNat; rw [hdlen]; omega)
      (by
        show _ = if (d.ep && decide (d.zeros = 2) && decide (v = 3)) then 0 else nextZeros d.ep d.zeros v
        rw [hdep, hdz, hno]; rfl)
      (by
        intro h1 h2
        change d.ep = true at h1
        change d.zeros = 2 at h2
        by_contra hlt
        refine hesc ?_
        have hle : v ≤ 3 := by show v.toNat ≤ 3; omega
        unfold needsEscape
        rw [← hdep, ← hdz, h1, h2, decide_eq_true hle]
        rfl)
    obtain ⟨b1, r1, l1, o1, k1⟩ := s1
    have hueq : u = { storeByte v ⟨d, t.buf⟩ with
        cur := { (storeByte v ⟨d, t.buf⟩).cur with zeros := nextZeros t.cur.ep t.cur.zeros v } } := by
      rw [← hu]
      show _ = Stream.mk _ _
      simp only [storeByte, hdep, hdz]
    have hul : u.cur.len.toNat = t.cur.len.toNat + 1 := by
      rw [hueq]
      show (storeByte v ⟨d, t.buf⟩).cur.len.toNat = _
      rw [l1]
      show d.len.toNat + 1 = _
      rw [hdlen]
    have hurd : ∀ a, u.rd free a = (storeByte v ⟨d, t.buf⟩).rd free a := by intro a; rw [hueq]; rfl
    refine ⟨?_, ?_, by omega, by omega, ?_, ?_, ?_, ?_, ?_, ?_, ?_⟩
    · have : u.rd free = (storeByte v ⟨d, t.buf⟩).rd free := funext hurd
      rw [this, hueq]
      exact b1
    · have : u.rd free = (storeByte v ⟨d, t.buf⟩).rd free := funext hurd
      rw [this, hueq]
      have e1 : (Stream.mk d t.buf).cur.ep = t.cur.ep := hdep
      have z0 : (Stream.mk d t.buf).cur.zeros = t.cur.zeros := hdz
      rw [e1, z0, hno] at r1
      simp only [Bool.false_eq_true, if_false] at r1
      refine r1.trans ?_
      congr 1
      show remBytes (t.rd free) t.cur.ep d.len.toNat 0 0 = _
      rw [hdlen]
    · intro a ha
      rw [hurd a, o1 a (by show a ≠ d.len.toNat; rw [hdlen]; omega)]
      rfl
    · intro hk
      rw [hueq]
      exact k1 hk
    · rw [hueq]; show d.mode = _; rw [hdeq]
    · rw [hueq]; exact hdep
    · rw [hueq]; show d.grow = _; rw [hdeq]
    · rw [hueq]; show d.bits = _; rw [hdeq]
    · rw [hueq]; exact hcap1

/-! One bit and several. -/

theorem StreamStep.refl {free : Nat → Byte} {p : Params} {t : Stream} (h : EncOk p (t.rd free) t.cur) :
    StreamStep free p t t [] :=
  ⟨Cursor.Moved.refl _, by simp, Nat.le_refl _, fun _ _ => rfl, h, id⟩

theorem StreamStep.trans {free : Nat → Byte} {p : Params} {t u v : Stream} {as bs : List Bool}
    (h1 : StreamStep free p t u as) (h2 : StreamStep free p u v bs) : StreamStep free p t v (as ++ bs) :=
  ⟨by rw [List.length_append]; exact h1.moved.trans h2.moved,
    by rw [h2.written, h1.written, List.append_assoc], h1.len.trans h2.len,
    fun a ha => by
      have := h1.len
      have := h2.len
      rw [h2.outside a (by omega), h1.outside a (by omega)],
    h2.ok, fun h => h2.buf (h1.buf h)⟩

/-- Everything `PutBit1(b)` does when it answers (41_bitcursor.md R163). -/
theorem putBit1_spec {free : Nat → Byte} {p : Params} {b : Bool} {t u : Stream} (hg : 1 ≤ p.growBlock)
    (ho : EncOk p (t.rd free) t.cur) (h : putBit1 p b t = .ok u) : StreamStep free p t u [b] := by
  unfold putBit1 at h
  have hbits : ∀ w : Word, w + natWord 1 = w + 1 := fun _ => rfl
  by_cases h8 : (shiftIn b t.cur).cnt = 8
  · simp only [h8, if_true] at h
    have hcnt : t.cur.cnt = 7 := by
      have : t.cur.cnt + 1 = 8 := h8
      omega
    split at h
    · next v hv =>
      simp only [Except.ok.injEq] at h
      subst h
      have hb : ByteOk p (Stream.rd free { t with cur := shiftIn b t.cur }) (shiftIn b t.cur) :=
        ⟨ho.off, ho.len, ho.cap, ho.zeros, ho.noStart⟩
      obtain ⟨b1, r1, l1, l2, o1, k1, m1, m2, m3, m4, m5⟩ := emitByte_spec hg hb hv
      have hep : v.cur.ep = t.cur.ep := m2
      refine ⟨⟨m1, m2, m3, ?_⟩, ?_, l1, o1, ⟨Nat.zero_lt_succ 7, b1.off, b1.len, b1.cap, b1.zeros, b1.noStart⟩, k1⟩
      · exact m4
      · show remBytes (v.rd free) v.cur.ep v.cur.len.toNat 0 0 ++ cacheBits 0 0 = _
        rw [hep]
        refine (List.append_nil _).trans (r1.trans ?_)
        show remBytes (t.rd free) t.cur.ep t.cur.len.toNat 0 0 ++ byteBits (shiftIn b t.cur).cache = _
        have : byteBits (shiftIn b t.cur).cache = cacheBits t.cur.cache 7 ++ [b] :=
          cacheBits_shiftIn b t.cur.cache 7 (by decide)
        rw [this, ← List.append_assoc]
        simp [writtenBits, hcnt]
    · simp at h
  · simp only [h8, if_false, Except.ok.injEq] at h
    subst h
    have hcnt : t.cur.cnt + 1 < 8 := by
      have h1 := ho.cnt
      have : ¬ t.cur.cnt + 1 = 8 := h8
      omega
    refine ⟨⟨rfl, rfl, rfl, rfl⟩, ?_, Nat.le_refl _, fun _ _ => rfl,
      ⟨hcnt, ho.off, ho.len, ho.cap, ho.zeros, ho.noStart⟩, id⟩
    show remBytes (t.rd free) t.cur.ep t.cur.len.toNat 0 0 ++ cacheBits (shiftIn b t.cur).cache (t.cur.cnt + 1) = _
    rw [show cacheBits (shiftIn b t.cur).cache (t.cur.cnt + 1) = cacheBits t.cur.cache t.cur.cnt ++ [b] from
      cacheBits_shiftIn b t.cur.cache t.cur.cnt ho.cnt, ← List.append_assoc]
    rfl

/-- `PutBit1(b)` answers when a bit fits, and one bit fewer fits afterwards. -/
theorem putBit1_room {p : Params} {b : Bool} {n : Nat} {t : Stream} (hg : 1 ≤ p.growBlock) (_hcnt : t.cur.cnt < 8)
    (hcap : t.cur.cap.toNat ≤ p.maxBufBytes.toNat) (h : hasRoom p t.cur (n + 1)) :
    ∃ u, putBit1 p b t = .ok u ∧ hasRoom p u.cur n := by
  unfold putBit1
  by_cases h8 : (shiftIn b t.cur).cnt = 8
  · simp only [h8, if_true]
    have hc7 : t.cur.cnt = 7 := by
      have : t.cur.cnt + 1 = 8 := h8
      omega
    have hdiv : (t.cur.cnt + (n + 1)) / 8 = n / 8 + 1 := by omega
    unfold hasRoom at h
    rw [hdiv] at h
    have hk : (if needsEscape (shiftIn b t.cur) (shiftIn b t.cur).cache then 2 else 1) ≤ 2 := by split <;> omega
    obtain ⟨d, hd⟩ := ensureSpace_ok (p := p) (k := if needsEscape (shiftIn b t.cur) (shiftIn b t.cur).cache then 2 else 1)
      (m := 2) (c := shiftIn b t.cur) hg hk (by
        show t.cur.len.toNat + 2 ≤ t.cur.cap.toNat ∨
          (t.cur.grow = true ∧ t.cur.len.toNat + 2 + p.growBlock ≤ p.maxBufBytes.toNat + 1)
        rcases h with h | ⟨h1, h2⟩
        · exact .inl (by omega)
        · exact .inr ⟨h1, by omega⟩)
    obtain ⟨hdeq, hroom, hcap1, hcap2⟩ := ensureSpace_spec (c := shiftIn b t.cur) hg hcap hd
    have hdl : d.len = t.cur.len := by rw [hdeq]; rfl
    have hdg : d.grow = t.cur.grow := by rw [hdeq]; rfl
    have hlt := d.cap.isLt
    have hemit : ∃ v, emitByte p (shiftIn b t.cur).cache { t with cur := shiftIn b t.cur } = .ok v ∧
        v.cur.len.toNat ≤ t.cur.len.toNat + 2 ∧ v.cur.cap = d.cap ∧ v.cur.grow = t.cur.grow := by
      unfold emitByte
      simp only [hd, ok_bind]
      refine ⟨_, rfl, ?_, ?_, ?_⟩
      · split
        · next hesc =>
          show (d.len + 1 + 1).toNat ≤ _
          rw [hdl, BitVec.toNat_add, BitVec.toNat_add, show (1 : Word).toNat = 1 from rfl]
          have := Nat.mod_le ((t.cur.len.toNat + 1) % 2 ^ 32 + 1) (2 ^ 32)
          have := Nat.mod_le (t.cur.len.toNat + 1) (2 ^ 32)
          omega
        · show (d.len + 1).toNat ≤ _
          rw [hdl, BitVec.toNat_add, show (1 : Word).toNat = 1 from rfl]
          have := Nat.mod_le (t.cur.len.toNat + 1) (2 ^ 32)
          omega
      · split <;> rfl
      · split
        · exact hdg
        · exact hdg
    obtain ⟨v, hv, hvl, hvc, hvg⟩ := hemit
    rw [hv]
    refine ⟨_, rfl, ?_⟩
    show v.cur.len.toNat + 2 * ((0 + n) / 8) ≤ v.cur.cap.toNat ∨
      (v.cur.grow = true ∧ v.cur.len.toNat + 2 * ((0 + n) / 8) + p.growBlock ≤ p.maxBufBytes.toNat + 1)
    rw [hvc, hvg, Nat.zero_add]
    have hcap1' : t.cur.cap.toNat ≤ d.cap.toNat := hcap1
    rcases h with h | ⟨h1, h2⟩
    · exact .inl (by omega)
    · exact .inr ⟨h1, by omega⟩
  · simp only [h8, if_false]
    refine ⟨_, rfl, ?_⟩
    show t.cur.len.toNat + 2 * ((t.cur.cnt + 1 + n) / 8) ≤ t.cur.cap.toNat ∨
      (t.cur.grow = true ∧ t.cur.len.toNat + 2 * ((t.cur.cnt + 1 + n) / 8) + p.growBlock ≤ p.maxBufBytes.toNat + 1)
    rw [show t.cur.cnt + 1 + n = t.cur.cnt + (n + 1) by omega]
    exact h

theorem hasRoom_mono {p : Params} {c : Cursor} {m n : Nat} (hmn : m ≤ n) (h : hasRoom p c n) : hasRoom p c m := by
  unfold hasRoom at h ⊢
  have : (c.cnt + m) / 8 ≤ (c.cnt + n) / 8 := Nat.div_le_div_right (by omega)
  rcases h with h | ⟨h1, h2⟩
  · exact .inl (by omega)
  · exact .inr ⟨h1, by omega⟩

/-- Everything writing several bits does when it answers. -/
theorem putBits_spec {free : Nat → Byte} {p : Params} (hg : 1 ≤ p.growBlock) {bs : List Bool} {t u : Stream}
    (ho : EncOk p (t.rd free) t.cur) (h : putBits p bs t = .ok u) : StreamStep free p t u bs := by
  induction bs generalizing t with
  | nil =>
    simp only [putBits, Except.ok.injEq] at h
    exact h ▸ StreamStep.refl ho
  | cons b bs ih =>
    obtain ⟨v, hv, hr⟩ := bind_eq_ok.mp h
    have h1 := putBit1_spec hg ho hv
    exact h1.trans (ih h1.ok hr)

/-- Bits that fit are written: what the completion of every writing command rests on. -/
theorem putBits_ok {free : Nat → Byte} {p : Params} (hg : 1 ≤ p.growBlock) (bs : List Bool) {n : Nat} {t : Stream}
    (ho : EncOk p (t.rd free) t.cur) (h : hasRoom p t.cur (bs.length + n)) :
    ∃ u, putBits p bs t = .ok u ∧ StreamStep free p t u bs ∧ hasRoom p u.cur n := by
  induction bs generalizing t with
  | nil => exact ⟨t, rfl, StreamStep.refl ho, by simpa using h⟩
  | cons b bs ih =>
    obtain ⟨v, hv, hroom⟩ := putBit1_room (b := b) (n := bs.length + n) hg ho.cnt ho.cap
      (by rwa [show bs.length + n + 1 = (b :: bs).length + n by simp only [List.length_cons]; omega])
    have h1 := putBit1_spec hg ho hv
    obtain ⟨u, hu, h2, hr⟩ := ih h1.ok hroom
    exact ⟨u, by simp only [putBits, hv, ok_bind]; exact hu, h1.trans h2, hr⟩

theorem putBits_append (p : Params) (as bs : List Bool) (t : Stream) :
    putBits p (as ++ bs) t = putBits p as t >>= putBits p bs := by
  induction as generalizing t with
  | nil => rfl
  | cons a as ih =>
    simp only [List.cons_append, putBits]
    cases putBit1 p a t with
    | ok u => simp only [ok_bind]; exact ih u
    | error e => rfl

/-- From a stream step to what `Appended` says of the states. -/
theorem StreamStep.appended {s t : State} {u : Stream} {bs : List Bool}
    (h : StreamStep s.bufFree s.params s.stream u bs) (hc : t.cur = u.cur) (hb : t.buf = u.buf)
    (he : t.epoch = s.epoch) : Appended s t bs := by
  have hrd : t.bufByte = u.rd s.bufFree := by
    funext a
    simp only [State.bufByte, State.bufFree, Stream.rd, hb, he]
  exact ⟨hc ▸ h.moved, by rw [State.written, hrd, hc]; exact h.written, by rw [hc]; exact h.len,
    fun a ha => by rw [hrd]; exact h.outside a (hc ▸ ha)⟩

/-! Every writer is `putBits` of some bits. -/

theorem writeBits_eq (p : Params) (v n : Nat) (t : Stream) : writeBits p v n t = putBits p (fieldBits v n) t := rfl

theorem fieldBits_zero (n : Nat) : fieldBits 0 n = List.replicate n false := by
  induction n with
  | zero => rfl
  | succ n ih => simp [fieldBits, ih, List.replicate_succ]

theorem putBits_cons (p : Params) (b : Bool) (bs : List Bool) (t : Stream) :
    putBits p (b :: bs) t = putBit1 p b t >>= putBits p bs := rfl

theorem writeUE_eq (p : Params) (k : Nat) (t : Stream) : writeUE p k t = putBits p (ueBits k) t := by
  unfold ueBits
  rw [putBits_append, ← fieldBits_zero]
  rfl

theorem writeLevel_eq (p : Params) (sL : Nat) (off : Bool) (v : Int) (t : Stream) :
    writeLevel p sL off v t =
      if (levelFields sL (levelCodeFor off v)).1 ≤ p.maxLevelPrefix then
        putBits p (levelBits sL off v) t >>= fun u => .ok (nextSuffixLength sL v, u)
      else .error .eproto := by
  unfold writeLevel levelBits
  generalize levelFields sL (levelCodeFor off v) = f
  obtain ⟨pre, size, suffix⟩ := f
  by_cases h : pre ≤ p.maxLevelPrefix
  · simp only [if_pos h]
    rw [require_pos _ h, ok_bind, putBits_append, ← fieldBits_zero]
    simp only [writeBits, putBits_cons, bind_assoc]
    rfl
  · simp only [if_neg h]
    rw [require_neg _ h, error_bind]

theorem putRepeated_eq (p : Params) (b : Bool) (n : Nat) (t : Stream) :
    putRepeated p b n t = putBits p (List.replicate n b) t := by
  induction n generalizing t with
  | zero => rfl
  | succ n ih =>
    simp only [putRepeated, List.replicate_succ, putBits]
    cases putBit1 p b t with
    | ok u => simp only [ok_bind]; exact ih u
    | error e => rfl

theorem writeRawBytes_eq (p : Params) (raw : Nat → Byte) (n i : Nat) (t : Stream) :
    writeRawBytes p raw n i t = putBits p ((List.range n).flatMap fun k => fieldBits (raw (i + k)).toNat 8) t := by
  induction n generalizing i t with
  | zero => rfl
  | succ n ih =>
    rw [List.range_succ_eq_map, List.flatMap_cons, putBits_append, List.flatMap_map]
    simp only [writeRawBytes, writeBits, Nat.add_zero]
    congr 1
    funext u
    rw [ih]
    congr 1
    refine List.flatMap_congr ?_
    intro k _
    rw [show i + 1 + k = i + Nat.succ k by omega]

end Sys2Proof.Machine
end

