-- ==== Sys2Proof/Laws/Bits.lean ====
section
/-!
SUPPORT. Bit strings and the numbers they stand for: `bitsNat` and `bitsInt` of Safety.lean against the `bitsValue`
and `fieldBits` the reads and writes use, the fields a stream delivers, and a command that writes bits.
-/

namespace Sys2Proof.Machine

theorem bitsNat_eq (bs : List Bool) : bitsNat bs = bitsValue 0 bs := by
  have key : ∀ (bs : List Bool) (a : Nat), bs.foldl (fun v b => 2 * v + b.toNat) a = bitsValue a bs := by
    intro bs
    induction bs with
    | nil => intro a; rfl
    | cons b bs ih => intro a; simp [bitsValue, ih]
  exact key bs 0

theorem bitsValue_eq (bs : List Bool) (a : Nat) : bitsValue a bs = a * 2 ^ bs.length + bitsNat bs := by
  rw [bitsNat_eq]
  induction bs generalizing a with
  | nil => simp [bitsValue]
  | cons b bs ih =>
    simp only [bitsValue, List.length_cons]
    rw [ih, ih (2 * 0 + b.toNat), Nat.pow_succ]
    ring

theorem bitsNat_cons (b : Bool) (bs : List Bool) : bitsNat (b :: bs) = b.toNat * 2 ^ bs.length + bitsNat bs := by
  rw [bitsNat_eq (b :: bs), bitsValue, bitsValue_eq]
  simp

theorem bitsNat_append (as bs : List Bool) : bitsNat (as ++ bs) = bitsNat as * 2 ^ bs.length + bitsNat bs := by
  induction as with
  | nil => simp [bitsNat]
  | cons a as ih =>
    simp only [List.cons_append, bitsNat_cons, ih, List.length_append, Nat.pow_add]
    ring

theorem bitsNat_lt (bs : List Bool) : bitsNat bs < 2 ^ bs.length := by
  induction bs with
  | nil => simp [bitsNat]
  | cons b bs ih =>
    rw [bitsNat_cons, List.length_cons, Nat.pow_succ]
    cases b <;> simp <;> omega

theorem fieldBits_bitsNat (bs : List Bool) : fieldBits (bitsNat bs) bs.length = bs := by
  have key : ∀ (bs : List Bool) (h : Nat), fieldBits (h * 2 ^ bs.length + bitsNat bs) bs.length = bs := by
    intro bs
    induction bs with
    | nil => intro h; rfl
    | cons b bs ih =>
      intro h
      have e : h * 2 ^ (b :: bs).length + bitsNat (b :: bs) = (2 * h + b.toNat) * 2 ^ bs.length + bitsNat bs := by
        rw [bitsNat_cons, List.length_cons, Nat.pow_succ]
        ring
      rw [e]
      simp only [List.length_cons, fieldBits]
      rw [ih, Nat.testBit_eq_decide_div_mod_eq, Nat.mul_comm, Nat.mul_add_div (Nat.two_pow_pos _),
        Nat.div_eq_of_lt (bitsNat_lt bs)]
      cases b <;> simp [Nat.add_mod]
  simpa using key bs 0

theorem bitsNat_fieldBits (v n : Nat) (h : v < 2 ^ n) : bitsNat (fieldBits v n) = v := by
  rw [bitsNat_eq, bitsValue_fieldBits v n 0 h]
  simp

/-- The bits of the number a bit string stands for, by the string's length. -/
theorem fieldBits_of {v n : Nat} {bs : List Bool} (hn : bs.length = n) (hv : v = bitsNat bs) : fieldBits v n = bs := by
  subst hn hv
  exact fieldBits_bitsNat bs

/-- Reading a field of n bits that are there (20_memory.md R80). -/
theorem readBits_append {rd : Nat → Byte} {c : Cursor} {bs r : List Bool} {n : Nat} (hn : bs.length = n)
    (h : remBits rd c = bs ++ r) : ∃ d, readBits rd n c = .ok (bitsNat bs, d) ∧ Consumed rd c d n r := by
  subst hn
  rw [bitsNat_eq]
  exact readBitsFrom_append bs 0 c h

/-- Reading a field that is not all there is EIO. -/
theorem readBits_short {rd : Nat → Byte} {c : Cursor} {n : Nat} (h : (remBits rd c).length < n) :
    readBits rd n c = .error .eio := readBitsFrom_short rd n 0 c h

/-- The signed value of a field read is that of its bits (41_bitcursor.md R166). -/
theorem signedField_bitsNat {n : Nat} {bs : List Bool} (h : bs.length = n) :
    signedField n (bitsNat bs) = bitsInt bs := by
  subst h
  cases bs with
  | nil => rfl
  | cons b bs =>
    unfold signedField bitsInt
    simp only [List.length_cons, Nat.add_sub_cancel, Nat.succ_ne_zero, if_false]
    congr 1
    rw [bitsNat_cons, Nat.testBit_eq_decide_div_mod_eq, Nat.mul_comm, Nat.mul_add_div (Nat.two_pow_pos _),
      Nat.div_eq_of_lt (bitsNat_lt bs)]
    cases b <;> simp

/-- A run of zeros that is too long for its limit. -/
theorem readZeroRun_long {rd : Nat → Byte} {r : List Bool} (room q : Nat) (c : Cursor)
    (h : remBits rd c = List.replicate (room + 1) false ++ r) : readZeroRun rd room q c = .error .eproto := by
  induction room generalizing q c with
  | zero =>
    obtain ⟨d, hd, _⟩ := getBit_cons (show remBits rd c = false :: r from h)
    simp [readZeroRun, hd]
  | succ room ih =>
    obtain ⟨d, hd, hcd⟩ := getBit_cons (show remBits rd c = false :: (List.replicate (room + 1) false ++ r) from h)
    simp only [readZeroRun, hd, ok_bind]
    exact ih _ d hcd.rest

/-- A run of zeros that ends with the input. -/
theorem readZeroRun_eof {rd : Nat → Byte} (p room q : Nat) (c : Cursor) (hp : p ≤ room)
    (h : remBits rd c = List.replicate p false) : readZeroRun rd room q c = .error .eio := by
  induction p generalizing room q c with
  | zero =>
    cases room <;> simp [readZeroRun, getBit_nil h]
  | succ p ih =>
    obtain ⟨d, hd, hcd⟩ := getBit_cons (show remBits rd c = false :: List.replicate p false from h)
    obtain ⟨room, rfl⟩ : ∃ k, room = k + 1 := ⟨room - 1, by omega⟩
    simp only [readZeroRun, hd, ok_bind]
    exact ih room _ d (by omega) hcd.rest

/-- `ReadUE()` of a codeword that is there (42_expgolomb.md R200). -/
theorem readUE_append {rd : Nat → Byte} {c : Cursor} {m : Nat} {x r : List Bool} (hm : m ≤ 31) (hx : x.length = m)
    (h : remBits rd c = List.replicate m false ++ true :: (x ++ r)) :
    ∃ d, readUE rd c = .ok (2 ^ m - 1 + bitsNat x, d) ∧ Consumed rd c d (2 * m + 1) r := by
  obtain ⟨d, hd, hcd⟩ := readZeroRun_append m 31 0 c hm h
  obtain ⟨e, he, hce⟩ := readBits_append hx hcd.rest
  refine ⟨e, ?_, ?_⟩
  · simp only [readUE, hd, ok_bind, Nat.zero_add]
    rw [he]
    rfl
  · have := hcd.trans hce
    rwa [show m + 1 + m = 2 * m + 1 by omega] at this

/-- The Exp-Golomb codeword in terms of its info bits (42_expgolomb.md R200). -/
theorem ueBits_eq {m k : Nat} {x : List Bool} (hx : x.length = m) (hk : k = 2 ^ m - 1 + bitsNat x) :
    ueBits k = List.replicate m false ++ true :: x := by
  have hp := Nat.two_pow_pos m
  have hlt := bitsNat_lt x
  rw [hx] at hlt
  have hm : floorLog2 (k + 1) = m := by
    unfold floorLog2
    rw [Nat.log2_eq_iff (by omega), Nat.pow_succ]
    omega
  unfold ueBits
  rw [hm, fieldBits_of hx (by omega)]

/-- Every codeNum has such info bits. -/
theorem ueBits_info (k : Nat) : ∃ (m : Nat) (x : List Bool), m = Nat.log2 (k + 1) ∧ x.length = m ∧
    k = 2 ^ m - 1 + bitsNat x ∧ ueBits k = List.replicate m false ++ true :: x := by
  have h1 : 2 ^ Nat.log2 (k + 1) ≤ k + 1 := Nat.log2_self_le (by omega)
  have h2 : k + 1 < 2 ^ (Nat.log2 (k + 1) + 1) := Nat.lt_log2_self
  rw [Nat.pow_succ] at h2
  have hp := Nat.two_pow_pos (Nat.log2 (k + 1))
  refine ⟨_, fieldBits (k + 1 - 2 ^ Nat.log2 (k + 1)) (Nat.log2 (k + 1)), rfl, fieldBits_length _ _, ?_, rfl⟩
  rw [bitsNat_fieldBits _ _ (by omega)]
  omega

theorem bitsNat_byteBits (b : Byte) : BitVec.ofNat 8 (bitsNat (byteBits b)) = b := by
  revert b
  decide

theorem fieldBits_byte (b : Byte) : fieldBits b.toNat 8 = byteBits b := by
  revert b
  decide

/-- CNT after bits written (41_bitcursor.md R163). -/
theorem putBits_cnt {p : Params} {bs : List Bool} {t u : Stream} (hc : t.cur.cnt < 8) (h : putBits p bs t = .ok u) :
    u.cur.cnt = (t.cur.cnt + bs.length) % 8 := by
  induction bs generalizing t with
  | nil =>
    simp only [putBits, Except.ok.injEq] at h
    subst h
    simp [Nat.mod_eq_of_lt hc]
  | cons b bs ih =>
    obtain ⟨v, hv, hu⟩ := bind_eq_ok.mp h
    have hcnt : v.cur.cnt = (t.cur.cnt + 1) % 8 := by
      unfold putBit1 at hv
      have hs : (shiftIn b t.cur).cnt = t.cur.cnt + 1 := rfl
      by_cases h8 : (shiftIn b t.cur).cnt = 8
      · simp only [h8, if_true] at hv
        split at hv
        · simp only [Except.ok.injEq] at hv
          rw [← hv, ← hs, h8]
        · simp at hv
      · simp only [h8, if_false, Except.ok.injEq] at hv
        rw [← hv, Nat.mod_eq_of_lt (by omega)]
        exact hs
    rw [ih (by omega) hu, hcnt, List.length_cons]
    omega

/-- Reading bytes that are there to RAWBUF (41_bitcursor.md R171). -/
theorem readRawBytes_append {rd : Nat → Byte} (bytes : List Byte) {r : List Bool} (i : Nat) (m : Memory)
    (free : Nat → Byte) (c : Cursor) (h : remBits rd c = bytes.flatMap byteBits ++ r) :
    ∃ m' d, readRawBytes rd bytes.length i m c = .ok (m', d) ∧ Consumed rd c d (8 * bytes.length) r ∧
      (∀ (k : Nat) (b : Byte), bytes[k]? = some b → Memory.read m' (free (i + k)) (i + k) = b) ∧
      (∀ a, a < i ∨ i + bytes.length ≤ a → Memory.read m' (free a) a = Memory.read m (free a) a) := by
  induction bytes generalizing i m c with
  | nil => exact ⟨m, c, rfl, ⟨Cursor.Moved.refl c, rfl, rfl, h⟩, by simp, by simp⟩
  | cons b bytes ih =>
    rw [List.flatMap_cons, List.append_assoc] at h
    obtain ⟨d, hd, hcd⟩ := readBits_append (n := 8) rfl h
    obtain ⟨m', e, he, hce, h1, h2⟩ := ih (i + 1) (Memory.write m i b) d hcd.rest
    refine ⟨m', e, ?_, ?_, ?_, ?_⟩
    · simp only [List.length_cons, readRawBytes, hd, ok_bind]
      rw [bitsNat_byteBits]
      exact he
    · have := hcd.trans hce
      rwa [show 8 + 8 * bytes.length = 8 * (b :: bytes).length by simp; omega] at this
    · intro k x hk
      cases k with
      | zero =>
        simp at hk
        subst hk
        rw [Nat.add_zero, h2 i (by omega)]
        simp [Memory.read, Memory.write, Table.find_put_same]
      | succ k =>
        simp at hk
        have := h1 k x hk
        rwa [show i + 1 + k = i + (k + 1) by omega] at this
    · intro a ha
      simp at ha
      rw [h2 a (by omega), Memory.read_write_other _ _ _ _ _ (by omega)]

/-- What the invariant says of the stream in ENC mode, as the writing laws take it. -/
theorem State.Inv.encOk {s : State} (h : s.Inv) (hf : s.status.fault = false) (hm : s.cur.mode = .enc) :
    EncOk s.params (s.stream.rd s.bufFree) s.stream.cur := (h.running hf).enc hm

theorem State.Inv.growBlock_pos {s : State} (h : s.Inv) : 1 ≤ s.params.growBlock := by
  have := h.params
  simp [Params.wf] at this
  omega

/-- Writing bits that fit (41_bitcursor.md R163). -/
theorem putBits_state {s : State} {bs : List Bool} {n : Nat} (hi : s.Inv) (hf : s.status.fault = false)
    (hm : s.cur.mode = .enc) (hn : bs.length ≤ n) (hr : s.HasRoom n) :
    ∃ u, putBits s.params bs s.stream = .ok u ∧ StreamStep s.bufFree s.params s.stream u bs ∧
      Appended s (s.setStream u) bs := by
  obtain ⟨u, hu, hs, _⟩ := putBits_ok (p := s.params) (t := s.stream) (n := n - bs.length) hi.growBlock_pos bs
    (hi.encOk hf hm) (by rwa [show bs.length + (n - bs.length) = n by omega])
  exact ⟨u, hu, hs, hs.appended rfl rfl rfl⟩

/-- A command whose rule writes the bits `bs` and nothing else. -/
theorem exec_putBits {i : Instr} {s : State} {bs : List Bool} {n : Nat} (hir : i ≠ .reset) (hi : s.Inv)
    (hf : s.status.fault = false) (hm : s.cur.mode = .enc) (hn : bs.length ≤ n) (hr : s.HasRoom n)
    (h : ruleOf i s = putBits s.params bs s.stream >>= fun u => .ok (s.setStream u)) :
    ∃ u, exec i s = .next (State.complete .ok (s.setStream u)) ∧ Appended s (s.setStream u) bs := by
  obtain ⟨u, hu, _, ha⟩ := putBits_state hi hf hm hn hr
  exact ⟨u, exec_ok hir hf (by rw [h, hu]; rfl), ha⟩

/-- A field written signed has its two's complement bits (41_bitcursor.md R168). -/
theorem bitsInt_emod {n : Nat} {bs : List Bool} (h : bs.length = n) : (bitsInt bs % 2 ^ n).toNat = bitsNat bs := by
  subst h
  have hlt := bitsNat_lt bs
  cases bs with
  | nil => rfl
  | cons b bs =>
    unfold bitsInt
    have h1 : ((bitsNat (b :: bs) : Int) - (if b then 2 ^ (b :: bs).length else 0)) % 2 ^ (b :: bs).length =
        (bitsNat (b :: bs) : Int) % 2 ^ (b :: bs).length := by
      cases b <;> simp
    have h2 : ((bitsNat (b :: bs) : Int) % 2 ^ (b :: bs).length) =
        ((bitsNat (b :: bs) % 2 ^ (b :: bs).length : Nat) : Int) := by
      push_cast
      rfl
    rw [h1, h2, Nat.mod_eq_of_lt hlt]
    rfl

theorem fitsSigned_bitsInt {n : Nat} {bs : List Bool} (h : bs.length = n) : fitsSigned n (bitsInt bs) = true := by
  subst h
  cases bs with
  | nil => rfl
  | cons b bs =>
    have hlt := bitsNat_lt bs
    unfold bitsInt fitsSigned
    rw [bitsNat_cons]
    have hc : ((2 : Int) ^ bs.length) = ((2 ^ bs.length : Nat) : Int) := by
      push_cast
      rfl
    have hp := Nat.two_pow_pos bs.length
    cases b <;> simp [pow_succ] <;> rw [hc] <;> omega

end Sys2Proof.Machine
end

