-- ==== Sys2Proof/Laws/Bins.lean ====
section
/-!
SUPPORT. Laws of the binarizations (45_cabac_binarization.md R310 to R314): what the bin buffer holds afterwards, and
the bits of the fixed-length and Exp-Golomb parts.
-/

namespace Sys2Proof.Machine

/-- What the bin buffer holds after bins were written to it. -/
theorem writeBins_get (bs : List Bool) (v : Vector Bool 128) (i j : Nat) (hj : j < 128) :
    ((writeBins v i bs)[j]?).getD false =
      if i ≤ j then (bs[j - i]?).getD ((v[j]?).getD false) else (v[j]?).getD false := by
  induction bs generalizing v i with
  | nil => simp [writeBins]
  | cons b bs ih =>
    simp only [writeBins]
    rw [ih]
    by_cases h1 : i = j
    · subst h1
      rw [if_neg (by omega), if_pos (Nat.le_refl _)]
      simp [hj]
    · by_cases h2 : i ≤ j
      · rw [if_pos (by omega), if_pos h2, show j - i = (j - (i + 1)) + 1 by omega]
        simp [hj, h1]
      · rw [if_neg (by omega), if_neg h2]
        simp [hj, h1]

theorem binsReplaced_setBins {s : State} {bs : List Bool} : BinsReplaced s ((s.setBins bs).complete .ok) bs := by
  refine ⟨rfl, fun i hi => ?_⟩
  have := writeBins_get bs s.bins 0 i hi
  simpa [State.binAt, State.complete, State.setBins] using this

/-- The Exp-Golomb part of a UEGk string: j ones, a zero and k + j bits (45_cabac_binarization.md R314). -/
theorem expGolombSuffix_eq (fuel k j : Nat) (x : List Bool) (hx : x.length = k + j) (hf : j < fuel) :
    expGolombSuffix fuel k (2 ^ k * (2 ^ j - 1) + bitsNat x) = List.replicate j true ++ false :: x := by
  induction j generalizing fuel k with
  | zero =>
    obtain ⟨f, rfl⟩ : ∃ f, fuel = f + 1 := ⟨fuel - 1, by omega⟩
    have hx' : x.length = k := hx
    have hlt := bitsNat_lt x
    rw [hx'] at hlt
    have e : 2 ^ k * (2 ^ 0 - 1) + bitsNat x = bitsNat x := by simp
    rw [e]
    simp only [expGolombSuffix]
    rw [if_neg (by omega), fieldBits_of hx' rfl]
    rfl
  | succ j ih =>
    obtain ⟨f, rfl⟩ : ∃ f, fuel = f + 1 := ⟨fuel - 1, by omega⟩
    simp only [expGolombSuffix]
    have hp := Nat.two_pow_pos j
    have hk := Nat.two_pow_pos k
    have e : 2 ^ k * (2 ^ (j + 1) - 1) = 2 ^ k + 2 ^ (k + 1) * (2 ^ j - 1) := by
      obtain ⟨q, hq⟩ : ∃ q, 2 ^ j = q + 1 := ⟨2 ^ j - 1, by omega⟩
      rw [Nat.pow_succ, hq, Nat.pow_succ, Nat.add_sub_cancel, show (q + 1) * 2 - 1 = 2 * q + 1 by omega]
      ring
    rw [if_pos (by rw [e]; omega), e, show 2 ^ k + 2 ^ (k + 1) * (2 ^ j - 1) + bitsNat x - 2 ^ k =
        2 ^ (k + 1) * (2 ^ j - 1) + bitsNat x by omega, ih f (k + 1) (by omega) (by omega)]
    rfl

/-- `Ceil(Log2(x))` is the least exponent that reaches x (00_scope.md R9). -/
theorem ceilLog2From_spec (fuel e x : Nat) (h : x ≤ 2 ^ (e + fuel)) (hlo : ∀ l, l < e → 2 ^ l < x) :
    x ≤ 2 ^ ceilLog2From fuel e x ∧ ∀ l, l < ceilLog2From fuel e x → 2 ^ l < x := by
  induction fuel generalizing e with
  | zero => exact ⟨h, hlo⟩
  | succ fuel ih =>
    unfold ceilLog2From
    split
    · next h' => exact ⟨h', hlo⟩
    · next h' =>
      refine ih (e + 1) (by rw [show e + 1 + fuel = e + (fuel + 1) by omega]; exact h) fun l hl => ?_
      by_cases hh : l = e
      · subst hh
        omega
      · exact hlo l (by omega)

/-- The fixed-length string is the field of v, last bit first (45_cabac_binarization.md R313). -/
theorem fixedLengthBins_reverse (v cMax : Nat) :
    (fixedLengthBins v cMax).reverse = fieldBits v (ceilLog2 (cMax + 1)) := by
  unfold fixedLengthBins
  induction ceilLog2 (cMax + 1) with
  | zero => rfl
  | succ n ih =>
    rw [List.range_succ, List.map_append, List.reverse_append, ih]
    rfl

end Sys2Proof.Machine
end

