-- ==== Sys2Proof/Laws/BoxOut.lean ====
section
/-!
SUPPORT. The box-out loop of map type 3 (47_slice_group_map.md R375): its walk stays in its box, leaves no unit behind,
and reaches M0 vacant units within the turns `boxOutMap` gives it.
-/

namespace Sys2Proof.Machine

/-- How many of four corners in turn leave their bound where it is before one moves it. -/
def firstOf (p q r : Prop) [Decidable p] [Decidable q] [Decidable r] : Int :=
  if p then 0 else if q then 1 else if r then 2 else 3

/-- How far the box is from covering the picture. -/
def BoxOut.gap (w h : Nat) (b : BoxOut) : Int := b.left + (w - 1 - b.right) + b.top + (h - 1 - b.bottom)

/-- The distance to the next corner. -/
def BoxOut.side (b : BoxOut) : Int :=
  if b.xDir = -1 then b.x - b.left else if b.xDir = 1 then b.right - b.x
  else if b.yDir = -1 then b.y - b.top else b.bottom - b.y

/-- The corners still to pass before one of them moves a bound. -/
def BoxOut.waits (w h d : Nat) (b : BoxOut) : Int :=
  if b.gap w h = 0 then 0
  else if b.xDir = -1 then
    if d = 0 then firstOf (0 < b.left) (0 < b.top) (b.right < w - 1)
    else firstOf (0 < b.left) (b.bottom < h - 1) (b.right < w - 1)
  else if b.xDir = 1 then
    if d = 0 then firstOf (b.right < w - 1) (b.bottom < h - 1) (0 < b.left)
    else firstOf (b.right < w - 1) (0 < b.top) (0 < b.left)
  else if b.yDir = -1 then
    if d = 0 then firstOf (0 < b.top) (b.right < w - 1) (b.bottom < h - 1)
    else firstOf (0 < b.top) (0 < b.left) (b.bottom < h - 1)
  else
    if d = 0 then firstOf (b.bottom < h - 1) (0 < b.left) (0 < b.top)
    else firstOf (b.bottom < h - 1) (b.right < w - 1) (0 < b.top)

/-- Where the walk is: in its box, which is in the picture, on the side its direction follows. -/
structure BoxOut.Placed (w h d : Nat) (b : BoxOut) : Prop where
  xs : 0 ≤ b.left ∧ b.left ≤ b.x ∧ b.x ≤ b.right ∧ b.right < w
  ys : 0 ≤ b.top ∧ b.top ≤ b.y ∧ b.y ≤ b.bottom ∧ b.bottom < h
  way : (b.xDir = -1 ∧ b.yDir = 0 ∧ b.y = if d = 0 then b.bottom else b.top) ∨
    (b.xDir = 1 ∧ b.yDir = 0 ∧ b.y = if d = 0 then b.top else b.bottom) ∨
    (b.xDir = 0 ∧ b.yDir = -1 ∧ b.x = if d = 0 then b.left else b.right) ∨
    (b.xDir = 0 ∧ b.yDir = 1 ∧ b.x = if d = 0 then b.right else b.left)

/-- The units on the walk's way to its next corner, its own among them. -/
def BoxOut.Ahead (b : BoxOut) (i j : Int) : Prop :=
  (b.xDir = -1 ∧ j = b.y ∧ i ≤ b.x) ∨ (b.xDir = 1 ∧ j = b.y ∧ b.x ≤ i) ∨
  (b.yDir = -1 ∧ i = b.x ∧ j ≤ b.y) ∨ (b.yDir = 1 ∧ i = b.x ∧ b.y ≤ j)

/-- The units of the box. -/
def BoxOut.Inside (b : BoxOut) (i j : Int) : Prop := b.left ≤ i ∧ i ≤ b.right ∧ b.top ≤ j ∧ j ≤ b.bottom

/-- The walk stays placed. -/
theorem boxOut_placed_move {w h d : Nat} {b : BoxOut} (hd : d ≤ 1) (hb : b.Placed w h d) : (b.move w h d).Placed w h d := by
  obtain ⟨hx, hy, hw⟩ := hb
  have hd : d = 0 ∨ d = 1 := by omega
  obtain rfl | rfl := hd <;> simp only [if_true, if_false, Nat.one_ne_zero] at hw <;>
  obtain ⟨h1, h2, h3⟩ | ⟨h1, h2, h3⟩ | ⟨h1, h2, h3⟩ | ⟨h1, h2, h3⟩ := hw <;>
  simp only [BoxOut.move, h1, h2] <;> norm_num <;> split_ifs <;>
  refine ⟨⟨?_, ?_, ?_, ?_⟩, ⟨?_, ?_, ?_, ?_⟩, ?_⟩ <;> simp_all <;> omega

/-- Passing a corner that moves no bound. -/
theorem firstOf_next {p q r s : Prop} [Decidable p] [Decidable q] [Decidable r] [Decidable s] (hp : ¬p)
    (h : q ∨ r ∨ s) : firstOf q r s = firstOf p q r - 1 := by
  unfold firstOf
  split_ifs <;> simp_all

/-- A move goes one unit along its side; at a corner it comes nearer to a bound that moves, or moves one, unless the box
is the picture. -/
theorem boxOut_progress_move {w h d : Nat} {b : BoxOut} (hd : d ≤ 1) (hb : b.Placed w h d) :
    (0 < b.side ∧ (b.move w h d).side = b.side - 1 ∧ (b.move w h d).gap w h = b.gap w h ∧
      (b.move w h d).waits w h d = b.waits w h d) ∨
    (b.side = 0 ∧ (b.gap w h = 0 ∨
      ((b.move w h d).gap w h = b.gap w h ∧ (b.move w h d).waits w h d = b.waits w h d - 1) ∨
      ((b.move w h d).gap w h = b.gap w h - 1 ∧ b.waits w h d = 0))) := by
  obtain ⟨hx, hy, hw⟩ := hb
  have hd : d = 0 ∨ d = 1 := by omega
  have hany : b.gap w h ≠ 0 → 0 < b.left ∨ 0 < b.top ∨ b.right < w - 1 ∨ b.bottom < h - 1 := by
    unfold BoxOut.gap; omega
  obtain ⟨h1, h2, -⟩ | ⟨h1, h2, -⟩ | ⟨h1, h2, -⟩ | ⟨h1, h2, -⟩ := hw
  · by_cases hc : b.x = b.left
    · refine .inr ⟨by simp [BoxOut.side, h1, hc], ?_⟩
      by_cases hg : b.gap w h = 0
      · exact .inl hg
      by_cases hm : 0 < b.left
      · refine .inr (.inr ⟨?_, by simp [BoxOut.waits, h1, firstOf, hm]⟩)
        simp [BoxOut.move, BoxOut.gap, h1, hc]
        omega
      · have hz : max (b.left - 1) 0 = b.left := by omega
        have hgm : (b.move w h d).gap w h = b.gap w h := by simp [BoxOut.move, BoxOut.gap, h1, hc, hz]
        refine .inr (.inl ⟨hgm, ?_⟩)
        unfold BoxOut.waits
        rw [hgm, if_neg hg, if_neg hg]
        have := hany hg
        obtain rfl | rfl := hd <;> simp [BoxOut.move, h1, hc, hz] <;> apply firstOf_next hm <;> omega
    · have hm : b.move w h d = { b with x := b.x - 1 } := by simp [BoxOut.move, h1, h2, hc]; rfl
      rw [hm]
      refine .inl ⟨?_, ?_, rfl, rfl⟩ <;> simp [BoxOut.side, h1] <;> omega
  · by_cases hc : b.x = b.right
    · refine .inr ⟨by simp [BoxOut.side, h1, hc], ?_⟩
      by_cases hg : b.gap w h = 0
      · exact .inl hg
      by_cases hm : b.right < w - 1
      · refine .inr (.inr ⟨?_, by simp [BoxOut.waits, h1, firstOf, hm]⟩)
        simp [BoxOut.move, BoxOut.gap, h1, hc]
        omega
      · have hz : min (b.right + 1) (w - 1) = b.right := by omega
        have hgm : (b.move w h d).gap w h = b.gap w h := by simp [BoxOut.move, BoxOut.gap, h1, hc, hz]
        refine .inr (.inl ⟨hgm, ?_⟩)
        unfold BoxOut.waits
        rw [hgm, if_neg hg, if_neg hg]
        have := hany hg
        obtain rfl | rfl := hd <;> simp [BoxOut.move, h1, hc, hz] <;> apply firstOf_next hm <;> omega
    · have hm : b.move w h d = { b with x := b.x + 1 } := by simp [BoxOut.move, h1, h2, hc]
      rw [hm]
      refine .inl ⟨?_, ?_, rfl, rfl⟩ <;> simp [BoxOut.side, h1] <;> omega
  · by_cases hc : b.y = b.top
    · refine .inr ⟨by simp [BoxOut.side, h1, h2, hc], ?_⟩
      by_cases hg : b.gap w h = 0
      · exact .inl hg
      by_cases hm : 0 < b.top
      · refine .inr (.inr ⟨?_, by simp [BoxOut.waits, h1, h2, firstOf, hm]⟩)
        simp [BoxOut.move, BoxOut.gap, h1, h2, hc]
        omega
      · have hz : max (b.top - 1) 0 = b.top := by omega
        have hgm : (b.move w h d).gap w h = b.gap w h := by simp [BoxOut.move, BoxOut.gap, h1, h2, hc, hz]
        refine .inr (.inl ⟨hgm, ?_⟩)
        unfold BoxOut.waits
        rw [hgm, if_neg hg, if_neg hg]
        have := hany hg
        obtain rfl | rfl := hd <;> simp [BoxOut.move, h1, h2, hc, hz] <;> apply firstOf_next hm <;> omega
    · have hm : b.move w h d = { b with y := b.y - 1 } := by simp [BoxOut.move, h1, h2, hc]; rfl
      rw [hm]
      refine .inl ⟨?_, ?_, rfl, rfl⟩ <;> simp [BoxOut.side, h1, h2] <;> omega
  · by_cases hc : b.y = b.bottom
    · refine .inr ⟨by simp [BoxOut.side, h1, h2, hc], ?_⟩
      by_cases hg : b.gap w h = 0
      · exact .inl hg
      by_cases hm : b.bottom < h - 1
      · refine .inr (.inr ⟨?_, by simp [BoxOut.waits, h1, h2, firstOf, hm]⟩)
        simp [BoxOut.move, BoxOut.gap, h1, h2, hc]
        omega
      · have hz : min (b.bottom + 1) (h - 1) = b.bottom := by omega
        have hgm : (b.move w h d).gap w h = b.gap w h := by simp [BoxOut.move, BoxOut.gap, h1, h2, hc, hz]
        refine .inr (.inl ⟨hgm, ?_⟩)
        unfold BoxOut.waits
        rw [hgm, if_neg hg, if_neg hg]
        have := hany hg
        obtain rfl | rfl := hd <;> simp [BoxOut.move, h1, h2, hc, hz] <;> apply firstOf_next hm <;> omega
    · have hm : b.move w h d = { b with y := b.y + 1 } := by simp [BoxOut.move, h1, h2, hc]
      rw [hm]
      refine .inl ⟨?_, ?_, rfl, rfl⟩ <;> simp [BoxOut.side, h1, h2] <;> omega

/-- A move leaves behind no unit of its box but the one it was on. -/
theorem boxOut_filled_move {w h d : Nat} {b : BoxOut} (hd : d ≤ 1) (hb : b.Placed w h d) {i j : Int}
    (hin : (b.move w h d).Inside i j) (ha : ¬(b.move w h d).Ahead i j) :
    b.Inside i j ∧ (¬b.Ahead i j ∨ (i = b.x ∧ j = b.y)) := by
  obtain ⟨hx, hy, hw⟩ := hb
  have hd : d = 0 ∨ d = 1 := by omega
  revert hin ha
  obtain rfl | rfl := hd <;> simp only [if_true, if_false, Nat.one_ne_zero] at hw <;>
  obtain ⟨h1, h2, h3⟩ | ⟨h1, h2, h3⟩ | ⟨h1, h2, h3⟩ | ⟨h1, h2, h3⟩ := hw <;>
  simp only [BoxOut.move, BoxOut.Inside, BoxOut.Ahead, h1, h2] <;> norm_num <;> split_ifs <;> simp_all <;> omega

/-- The index of unit (i, j). -/
theorem boxOut_unit_index {w h : Nat} {i j : Int} (hi : 0 ≤ i ∧ i < w) (hj : 0 ≤ j ∧ j < h) : (j * w + i).toNat < w * h := by
  have : j * w + i < w * h := by nlinarith
  have : 0 ≤ j * (w : Int) := Int.mul_nonneg hj.1 (by omega)
  have : ((w * h : Nat) : Int) = w * h := by push_cast; rfl
  omega

/-- What the box-out loop keeps: k of the picture's map units are 0 and the others 1, and in the box only units ahead
of the walk can still be 1. -/
structure BoxOut.Ok (w h d : Nat) (b : BoxOut) : Prop where
  placed : b.Placed w h d
  len : b.map.length = w * h
  bits : ∀ v ∈ b.map, v = 0 ∨ v = 1
  count : b.map.count 0 = b.k
  filled : ∀ i j, b.Inside i j → ¬b.Ahead i j → b.map[(j * w + i).toNat]? = some 0

theorem boxOut_ok_start {w h d : Nat} (hd : d ≤ 1) (hw : 1 ≤ w) (hh : 1 ≤ h) : (BoxOut.start w h d).Ok w h d := by
  refine ⟨⟨?_, ?_, ?_⟩, by simp [BoxOut.start], fun v hv => .inr (List.eq_of_mem_replicate hv), ?_, ?_⟩
  · simp only [BoxOut.start]; omega
  · simp only [BoxOut.start]; omega
  · have hd : d = 0 ∨ d = 1 := by omega
    obtain rfl | rfl := hd <;> simp [BoxOut.start]
  · simp [BoxOut.start, List.count_replicate]
  · intro i j hin ha
    exfalso
    have hd : d = 0 ∨ d = 1 := by omega
    revert hin ha
    obtain rfl | rfl := hd <;> simp [BoxOut.start, BoxOut.Inside, BoxOut.Ahead] <;> omega

theorem boxOut_move_map (w h d : Nat) (b : BoxOut) : (b.move w h d).map = b.map ∧ (b.move w h d).k = b.k := by
  unfold BoxOut.move
  split_ifs <;> exact ⟨rfl, rfl⟩

/-- A turn walks as `move` does. -/
theorem boxOut_turn_walk (w h d : Nat) (b : BoxOut) : ∃ m k, b.turn w h d = { b.move w h d with map := m, k := k } := by
  have key : ∀ m, BoxOut.move w h d { b with map := m } = { b.move w h d with map := m } := by
    intro m
    unfold BoxOut.move
    split_ifs <;> rfl
  let i := (b.y * w + b.x).toNat
  exact ⟨_, _, congrArg (fun c : BoxOut => { c with k := b.k + (b.map[i]? == some 1).toNat })
    (key (if b.map[i]? == some 1 then b.map.set i 0 else b.map))⟩

/-- A unit is 0 once the walk has been on it. -/
theorem boxOut_marked (w h d : Nat) (b : BoxOut) {n : Nat} (hn : n < b.map.length) (hv : ∀ v ∈ b.map, v = 0 ∨ v = 1)
    (hz : b.map[n]? = some 0 ∨ n = (b.y * w + b.x).toNat) : (b.turn w h d).map[n]? = some 0 := by
  have hm := hv _ (List.getElem_mem hn)
  simp only [BoxOut.turn, boxOut_move_map, beq_iff_eq]
  by_cases h1 : b.map[(b.y * w + b.x).toNat]? = some 1
  · rw [if_pos h1, List.getElem?_set]
    split_ifs with he h2
    · rfl
    · omega
    · exact hz.resolve_right fun h => he h.symm
  · rw [if_neg h1]
    refine hz.elim id fun h => ?_
    subst h
    rw [List.getElem?_eq_getElem hn] at h1 ⊢
    rcases hm with hm | hm <;> simp_all

/-- A turn keeps it, and counts its unit if that was 1. -/
theorem boxOut_ok_turn {w h d : Nat} {b : BoxOut} (hd : d ≤ 1) (hb : b.Ok w h d) :
    (b.turn w h d).Ok w h d ∧ (b.turn w h d).k ≤ b.k + 1 := by
  obtain ⟨hp, hl, hv, hc, hf⟩ := hb
  have hidx := boxOut_unit_index (w := w) (h := h) (i := b.x) (j := b.y) ⟨by have := hp.xs; omega, by have := hp.xs; omega⟩
    ⟨by have := hp.ys; omega, by have := hp.ys; omega⟩
  have hk : (b.turn w h d).map.length = w * h ∧ (b.turn w h d).map.count 0 = (b.turn w h d).k ∧
      (b.turn w h d).k ≤ b.k + 1 ∧ ∀ v ∈ (b.turn w h d).map, v = 0 ∨ v = 1 := by
    simp only [BoxOut.turn, boxOut_move_map, beq_iff_eq]
    by_cases h1 : b.map[(b.y * w + b.x).toNat]? = some 1
    · rw [if_pos h1]
      obtain ⟨hlt, he⟩ := List.getElem?_eq_some_iff.1 h1
      refine ⟨by simpa using hl, ?_, by simp [h1], fun v hm => ?_⟩
      · rw [List.count_set hlt]
        simp [he, h1, hc]
      · rcases List.mem_or_eq_of_mem_set hm with hm | hm
        · exact hv v hm
        · exact .inl hm
    · rw [if_neg h1]
      have h2 : (b.map[(b.y * w + b.x).toNat]? == some 1) = false := by simpa using h1
      simp only [h2, Bool.toNat_false, Nat.add_zero, hl, hc, Nat.le_add_right, true_and]
      exact hv
  obtain ⟨m, k, hw⟩ := boxOut_turn_walk w h d b
  refine ⟨⟨?_, hk.1, hk.2.2.2, hk.2.1, fun i j hin ha => ?_⟩, hk.2.2.1⟩
  · obtain ⟨hx, hy, hz⟩ := boxOut_placed_move hd hp
    rw [hw]
    exact ⟨hx, hy, hz⟩
  · rw [hw] at hin ha
    obtain ⟨hi, hj⟩ := boxOut_filled_move hd hp hin ha
    refine boxOut_marked w h d b ?_ hv (hj.imp (fun h => hf i j hi h) fun h => by rw [h.1, h.2])
    rw [hl]
    obtain ⟨a1, a2, a3, a4⟩ := hi
    have := hp.xs; have := hp.ys
    exact boxOut_unit_index (by omega) (by omega)

/-- The walk at a corner of a box that is the picture has been everywhere. -/
theorem boxOut_full_corner {w h d : Nat} {b : BoxOut} (hd : d ≤ 1) (hb : b.Ok w h d) (hg : b.gap w h = 0) (hs : b.side = 0) :
    (b.turn w h d).k = w * h := by
  obtain ⟨hok, -⟩ := boxOut_ok_turn hd hb
  rw [← hok.count, ← hok.len, List.count_eq_length]
  intro v hv
  obtain ⟨n, hn, rfl⟩ := List.mem_iff_getElem.1 hv
  rw [hok.len] at hn
  obtain ⟨hx, hy, hw⟩ := hb.placed
  have hpos : 0 < w := Nat.pos_of_ne_zero fun h => by simp [h] at hn
  obtain ⟨i, j, hi, hj, hin⟩ : ∃ i j : Nat, i < w ∧ j < h ∧ ((j : Int) * w + i).toNat = n := by
    refine ⟨n % w, n / w, Nat.mod_lt n hpos, Nat.div_lt_of_lt_mul hn, ?_⟩
    have : (((n / w : Nat) : Int) * w + ((n % w : Nat) : Int)) = (n : Int) := by exact_mod_cast Nat.div_add_mod' n w
    omega
  have hbox : b.Inside i j := by
    unfold BoxOut.gap at hg
    unfold BoxOut.Inside
    omega
  have hz := boxOut_marked w h d b (by rw [hb.len]; exact hn) hb.bits (by
    by_cases ha : b.Ahead i j
    · refine .inr ?_
      have h1 : (i : Int) = b.x ∧ (j : Int) = b.y := by
        unfold BoxOut.Ahead at ha
        unfold BoxOut.Inside at hbox
        unfold BoxOut.side at hs
        rcases hw with ⟨e1, e2, -⟩ | ⟨e1, e2, -⟩ | ⟨e1, e2, -⟩ | ⟨e1, e2, -⟩ <;>
          simp [e1, e2] at ha hs <;> omega
      rw [← h1.1, ← h1.2, hin]
    · exact .inl (hin ▸ hb.filled _ _ hbox ha))
  exact (List.getElem?_eq_some_iff.1 hz).2.symm

/-- The turns still needed are fewer than this. -/
def BoxOut.rank (w h d : Nat) (b : BoxOut) : Int := b.gap w h * (4 * (w + h)) + b.waits w h d * (w + h) + b.side

theorem boxOut_side_bounds {w h d : Nat} {b : BoxOut} (hb : b.Placed w h d) : 0 ≤ b.side ∧ b.side + 2 ≤ w + h := by
  obtain ⟨hx, hy, -⟩ := hb
  unfold BoxOut.side
  split_ifs <;> omega

theorem boxOut_waits_bounds (w h d : Nat) (b : BoxOut) : 0 ≤ b.waits w h d ∧ b.waits w h d ≤ 3 := by
  unfold BoxOut.waits firstOf
  split_ifs <;> omega

theorem boxOut_gap_nonneg {w h d : Nat} {b : BoxOut} (hb : b.Placed w h d) : 0 ≤ b.gap w h ∧ b.gap w h + 2 ≤ w + h := by
  obtain ⟨hx, hy, -⟩ := hb
  unfold BoxOut.gap
  omega

/-- A turn brings the rank down, unless it fills the picture. -/
theorem boxOut_rank_turn {w h d : Nat} {b : BoxOut} (hd : d ≤ 1) (hb : b.Ok w h d) :
    (b.turn w h d).rank w h d < b.rank w h d ∨ (b.turn w h d).k = w * h := by
  obtain ⟨m, k, hw⟩ := boxOut_turn_walk w h d b
  have hr : (b.turn w h d).rank w h d = (b.move w h d).rank w h d := by rw [hw]; rfl
  rw [hr]
  have hp := boxOut_placed_move hd hb.placed
  have h1 := boxOut_side_bounds hp
  have h2 := boxOut_waits_bounds w h d (b.move w h d)
  have h3 := boxOut_gap_nonneg hp
  unfold BoxOut.rank
  rcases boxOut_progress_move hd hb.placed with ⟨hs, e1, e2, e3⟩ | ⟨hs, hg | ⟨e1, e2⟩ | ⟨e1, e2⟩⟩
  · left; rw [e1, e2, e3]; omega
  · exact .inr (boxOut_full_corner hd hb hg hs)
  · left; rw [e1, e2, hs]; linarith
  · left; rw [e1, e2, hs]; nlinarith

/-- The box-out loop ends with k = M0, given more turns than its rank. -/
theorem boxOut_run_count {w h d m0 : Nat} (hd : d ≤ 1) (hm : m0 ≤ w * h) : ∀ (fuel : Nat) (b : BoxOut), b.Ok w h d →
    b.k ≤ m0 → b.rank w h d < fuel →
    (BoxOut.run w h d m0 fuel b).Ok w h d ∧ (BoxOut.run w h d m0 fuel b).k = m0 := by
  have done : ∀ fuel b, b.k = m0 → BoxOut.run w h d m0 fuel b = b := by
    intro fuel b hk
    cases fuel <;> simp [BoxOut.run, hk]
  intro fuel
  induction fuel with
  | zero =>
    intro b hb _ hr
    have := boxOut_side_bounds hb.placed
    have := Int.mul_nonneg (boxOut_waits_bounds w h d b).1 (by omega : (0 : Int) ≤ w + h)
    have := Int.mul_nonneg (boxOut_gap_nonneg hb.placed).1 (by omega : (0 : Int) ≤ 4 * (w + h))
    unfold BoxOut.rank at hr
    omega
  | succ n ih =>
    intro b hb hk hr
    by_cases hlt : b.k < m0
    · obtain ⟨hok, hle⟩ := boxOut_ok_turn hd hb
      rw [BoxOut.run, if_pos hlt]
      rcases boxOut_rank_turn hd hb with h1 | h1
      · exact ih _ hok (by omega) (by omega)
      · rw [done _ _ (by omega)]
        exact ⟨hok, by omega⟩
    · rw [done _ _ (by omega)]
      exact ⟨hb, by omega⟩

/-- Map type 3 sets exactly M0 map units to 0 and leaves 1 in the others (47_slice_group_map.md R375). -/
theorem boxOutMap_spec {w h d m0 : Nat} (hd : d ≤ 1) (hw : 1 ≤ w) (hh : 1 ≤ h) (hm : m0 ≤ w * h) :
    (boxOutMap w h d m0).length = w * h ∧ (∀ v ∈ boxOutMap w h d m0, v = 0 ∨ v = 1) ∧
      (boxOutMap w h d m0).count 0 = m0 := by
  have hs := boxOut_ok_start hd hw hh
  obtain ⟨hok, hk⟩ := boxOut_run_count hd hm (4 * (w + h + 2) ^ 2) _ hs (by simp [BoxOut.start]) (by
    have h1 := boxOut_side_bounds hs.placed
    have h2 := boxOut_waits_bounds w h d (BoxOut.start w h d)
    have h3 := boxOut_gap_nonneg hs.placed
    unfold BoxOut.rank
    push_cast
    nlinarith)
  exact ⟨hok.len, hok.bits, hok.count.trans hk⟩

end Sys2Proof.Machine
end

