-- ==== Sys2Proof/Laws/Codewords.lean ====
section
/-!
SUPPORT. The CAVLC tables are prefix-free and complete (43_cavlc.md R232, R238, R241): reading the codeword of a row
gives the row's symbol, and looking a symbol up gives the row.
-/

namespace Sys2Proof.Machine

/-- No proper prefix of the row's codeword is a codeword of the table, and its codeword is the row's own. -/
def Vlc.readable {α : Type} [DecidableEq α] (t : List (Vlc α)) (r : Vlc α) : Bool :=
  decide (r.code < 2 ^ r.len) &&
    (List.range r.len).all (fun k => (findCodeword t k (r.code / 2 ^ (r.len - k))).isNone) &&
    decide (findCodeword t r.len r.code = some r.sym)

/-- Reading the codeword of a row, the bits being there (43_cavlc.md R233, R239, R242). -/
theorem readCodeword_row {α : Type} [DecidableEq α] {rd : Nat → Byte} {t : List (Vlc α)} {r : Vlc α} {room : Nat}
    {c : Cursor} {rest : List Bool} (hr : r.readable t = true) (hlen : r.len ≤ room) (hpos : 0 < r.len)
    (h : remBits rd c = fieldBits r.code r.len ++ rest) :
    ∃ d, readCodeword rd t room 0 0 c = .ok (r.sym, d) ∧ Consumed rd c d r.len rest := by
  simp only [Vlc.readable, Bool.and_eq_true, decide_eq_true_eq, List.all_eq_true, List.mem_range,
    Option.isNone_iff_eq_none] at hr
  obtain ⟨⟨hcode, hprefix⟩, hown⟩ := hr
  have key : ∀ n k, n + k = r.len → 0 < n → ∀ room' code c', n ≤ room' → code = r.code / 2 ^ n →
      remBits rd c' = fieldBits r.code n ++ rest →
      ∃ d, readCodeword rd t room' k code c' = .ok (r.sym, d) ∧ Consumed rd c' d n rest := by
    intro n
    induction n with
    | zero => intro k hk hn; omega
    | succ n ih =>
      intro k hk _ room' code c' hroom hc hrem
      obtain ⟨room'', rfl⟩ : ∃ m, room' = m + 1 := ⟨room' - 1, by omega⟩
      simp only [fieldBits, List.cons_append] at hrem
      obtain ⟨d, hd, hcd⟩ := getBit_cons hrem
      have hnext : 2 * code + (r.code.testBit n).toNat = r.code / 2 ^ n := by
        rw [hc, Nat.testBit_eq_decide_div_mod_eq]
        have : r.code / 2 ^ (n + 1) = r.code / 2 ^ n / 2 := by rw [Nat.pow_succ, Nat.div_div_eq_div_mul]
        rw [this]
        rcases Nat.mod_two_eq_zero_or_one (r.code / 2 ^ n) with h0 | h0 <;> simp [h0] <;> omega
      simp only [readCodeword, hd, ok_bind, hnext]
      by_cases hn : n = 0
      · subst hn
        have : findCodeword t (k + 1) (r.code / 2 ^ 0) = some r.sym := by
          rw [show k + 1 = r.len by omega, Nat.pow_zero, Nat.div_one]; exact hown
        rw [this]
        exact ⟨d, rfl, by simpa [fieldBits] using hcd⟩
      · have : findCodeword t (k + 1) (r.code / 2 ^ n) = none := by
          have := hprefix (k + 1) (by omega)
          rwa [show r.len - (k + 1) = n by omega] at this
        rw [this]
        obtain ⟨e, he, hde⟩ := ih (k + 1) (by omega) (by omega) room'' _ d (by omega) rfl hcd.rest
        refine ⟨e, he, ?_⟩
        have := hcd.trans hde
        rwa [Nat.add_comm] at this
  exact key r.len 0 (by omega) hpos room 0 c hlen (by simp [Nat.div_eq_of_lt hcode]) h

/-- A row's codeword is between 1 and `max` bits long. -/
def Vlc.lengthOk {α : Type} (max : Nat) (r : Vlc α) : Bool := decide (0 < r.len) && decide (r.len ≤ max)

/-- Every row of a table can be read, and no codeword is longer than `max`. -/
def tableOk {α : Type} [DecidableEq α] (max : Nat) (t : List (Vlc α)) : Bool :=
  t.all fun r => r.readable t && r.lengthOk max

theorem coeffTokenV0_ok : tableOk 16 coeffTokenV0 = true := by decide +kernel

theorem coeffTokenV1_ok : tableOk 16 coeffTokenV1 = true := by decide +kernel

theorem coeffTokenV2_ok : tableOk 16 coeffTokenV2 = true := by decide +kernel

theorem coeffTokenVM1_ok : tableOk 16 coeffTokenVM1 = true := by decide +kernel

theorem coeffTokenVM2_ok : tableOk 16 coeffTokenVM2 = true := by decide +kernel

theorem coeffTokenTable_ok (nC : Int) : tableOk 16 (coeffTokenTable nC) = true := by
  unfold coeffTokenTable
  split
  · exact coeffTokenVM2_ok
  · split
    · exact coeffTokenVM1_ok
    · split
      · exact coeffTokenV0_ok
      · split
        · exact coeffTokenV1_ok
        · exact coeffTokenV2_ok

theorem totalZeros4x4_ok (t : Nat) (h : t ≤ 15) : tableOk 9 (totalZeros4x4 t) = true := by
  interval_cases t <;> decide +kernel

theorem totalZeros2x2_ok (t : Nat) (h : t ≤ 3) : tableOk 9 (totalZeros2x2 t) = true := by
  interval_cases t <;> decide +kernel

theorem totalZeros2x4_ok (t : Nat) (h : t ≤ 7) : tableOk 9 (totalZeros2x4 t) = true := by
  interval_cases t <;> decide +kernel

theorem totalZerosTable_ok (m t : Nat) (h : t ≤ tzMax m) : tableOk 9 (totalZerosTable m t) = true := by
  unfold totalZerosTable
  unfold tzMax at h
  split
  · next hm => rw [if_pos hm] at h; exact totalZeros2x2_ok t h
  · next hm =>
    rw [if_neg hm] at h
    split
    · next hm => rw [if_pos hm] at h; exact totalZeros2x4_ok t h
    · next hm => rw [if_neg hm] at h; exact totalZeros4x4_ok t h

theorem runBefore_ok (zl : Nat) : tableOk 11 (runBefore (min zl 7)) = true := by
  have : min zl 7 ≤ 7 := Nat.min_le_right _ _
  generalize min zl 7 = z at this
  interval_cases z <;> decide +kernel

/-- The row of a table that codes a symbol. -/
def rowOf {α : Type} [DecidableEq α] (t : List (Vlc α)) (x : α) : Option (Vlc α) := t.find? fun r => decide (r.sym = x)

theorem rowOf_mem {α : Type} [DecidableEq α] {t : List (Vlc α)} {x : α} {r : Vlc α} (h : rowOf t x = some r) :
    r ∈ t ∧ r.sym = x := by
  have h1 := List.mem_of_find?_eq_some h
  have h2 := List.find?_some h
  exact ⟨h1, by simpa using h2⟩

theorem tableOk_row {α : Type} [DecidableEq α] {max : Nat} {t : List (Vlc α)} {r : Vlc α} (h : tableOk max t = true)
    (hr : r ∈ t) : r.readable t = true ∧ 0 < r.len ∧ r.len ≤ max := by
  have := List.all_eq_true.mp h r hr
  simp only [Vlc.lengthOk, Bool.and_eq_true, decide_eq_true_eq] at this
  exact ⟨this.1, this.2.1, this.2.2⟩

/-- Writing a symbol that has a codeword writes its bits (43_cavlc.md R234, R240, R243). -/
theorem writeCodeword_row {α : Type} [DecidableEq α] {p : Params} {t : List (Vlc α)} {x : α} {r : Vlc α} {u : Stream}
    (h : rowOf t x = some r) : writeCodeword p t x u = putBits p (fieldBits r.code r.len) u := by
  unfold rowOf at h
  simp [writeCodeword, h, writeBits]

end Sys2Proof.Machine
end

