-- ==== Sys2Proof/Laws/Engine.lean ====
section
/-!
SUPPORT. Laws of the CABAC engines (44_cabac_engine.md R276 to R286): what each procedure does when it answers, when
it answers, and that the registers stay in their ranges.
-/

namespace Sys2Proof.Machine

/-- The interval [codILow, codILow + codIRange) lies inside 10 bits. -/
def EncRun.Fits (r : EncRun) : Prop := r.low + r.range ≤ 1024

theorem EncRun.putBit_spec {free : Nat → Byte} {p : Params} {b : Bool} {r r' : EncRun} (hg : 1 ≤ p.growBlock)
    (ho : EncOk p (r.stream.rd free) r.stream.cur) (h : r.putBit p b = .ok r') :
    r' = { r with first := false, outstanding := 0, stream := r'.stream } ∧
      StreamStep free p r.stream r'.stream (engineBits r.first r.outstanding b) := by
  unfold EncRun.putBit at h
  unfold putUnlessFirst at h
  obtain ⟨t, ht, hr⟩ := bind_eq_ok.mp h
  obtain ⟨u, hu, hr⟩ := bind_eq_ok.mp hr
  simp only [pure, Except.pure, Except.ok.injEq] at hr
  subst hr
  refine ⟨rfl, ?_⟩
  rw [putRepeated_eq] at hu
  unfold engineBits
  by_cases hf : r.first = true
  · simp only [hf, if_true, Except.ok.injEq] at ht ⊢
    rw [List.nil_append]
    subst ht
    exact putBits_spec hg ho hu
  · simp only [hf] at ht ⊢
    simp only [Bool.false_eq_true, if_false] at ht ⊢
    have h1 := putBit1_spec hg ho ht
    exact h1.trans (putBits_spec hg h1.ok hu)

theorem EncRun.putBit_room {free : Nat → Byte} {p : Params} {b : Bool} {n : Nat} {r : EncRun} (hg : 1 ≤ p.growBlock)
    (ho : EncOk p (r.stream.rd free) r.stream.cur) (h : hasRoom p r.stream.cur (r.outstanding + 1 + n)) :
    ∃ r', r.putBit p b = .ok r' ∧ hasRoom p r'.stream.cur n := by
  unfold EncRun.putBit putUnlessFirst
  by_cases hf : r.first = true
  · simp only [hf, if_true, ok_bind, putRepeated_eq]
    obtain ⟨u, hu, _, hr⟩ := putBits_ok (n := n) hg (List.replicate r.outstanding (!b)) ho
      (hasRoom_mono (by rw [List.length_replicate]; omega) h)
    rw [hu]
    exact ⟨_, rfl, hr⟩
  · simp only [hf]
    simp only [Bool.false_eq_true, if_false]
    obtain ⟨t, ht, hr⟩ := putBit1_room (b := b) (n := r.outstanding + n) hg ho.cnt ho.cap
      (by rwa [show r.outstanding + n + 1 = r.outstanding + 1 + n by omega])
    have h1 := putBit1_spec hg ho ht
    obtain ⟨u, hu, _, hr⟩ := putBits_ok (n := n) hg (List.replicate r.outstanding (!b)) h1.ok
      (by rwa [List.length_replicate])
    simp only [ht, ok_bind, putRepeated_eq, hu]
    exact ⟨_, rfl, hr⟩

/-- What every procedure of the encoding engine keeps of the stream and the rest. -/
structure EncStep (free : Nat → Byte) (p : Params) (r r' : EncRun) : Prop where
  stream : ∃ bs, StreamStep free p r.stream r'.stream bs
  ctx : r'.ctx = r.ctx

theorem EncStep.trans {free : Nat → Byte} {p : Params} {a b c : EncRun} (h1 : EncStep free p a b)
    (h2 : EncStep free p b c) : EncStep free p a c := by
  obtain ⟨x, hx⟩ := h1.stream
  obtain ⟨y, hy⟩ := h2.stream
  exact ⟨⟨_, hx.trans hy⟩, h2.ctx.trans h1.ctx⟩

theorem EncStep.ok {free : Nat → Byte} {p : Params} {a b : EncRun} (h : EncStep free p a b) :
    EncOk p (b.stream.rd free) b.stream.cur := by
  obtain ⟨_, hx⟩ := h.stream
  exact hx.ok

theorem EncRun.incOutstanding_eq_ok {r r' : EncRun} (h : r.incOutstanding = .ok r') :
    r' = { r with outstanding := r.outstanding + 1 } ∧ r.outstanding < 2 ^ 32 - 1 := by
  obtain ⟨hlt, h⟩ := require_bind_eq_ok.mp h
  simp only [pure, Except.pure, Except.ok.injEq] at h
  exact ⟨h.symm, hlt⟩

theorem EncRun.settle_spec {free : Nat → Byte} {p : Params} {r r' : EncRun} (hg : 1 ≤ p.growBlock)
    (ho : EncOk p (r.stream.rd free) r.stream.cur) (hfit : r.Fits) (hrange : r.range ≤ 256)
    (h : r.settle p = .ok r') :
    EncStep free p r r' ∧ r'.range = r.range ∧ r'.low + r'.range ≤ 512 ∧ r'.outstanding < 2 ^ 32 := by
  unfold EncRun.Fits at hfit
  unfold EncRun.settle at h
  split at h
  · obtain ⟨heq, hs⟩ := EncRun.putBit_spec (free := free) hg ho h
    exact ⟨⟨⟨_, hs⟩, by rw [heq]⟩, by rw [heq], by rw [heq]; show r.low + r.range ≤ 512; omega,
      by rw [heq]; show 0 < 2 ^ 32; decide⟩
  · split at h
    · obtain ⟨heq, hs⟩ := EncRun.putBit_spec (free := free) (r := { r with low := r.low - 512 }) hg ho h
      exact ⟨⟨⟨_, hs⟩, by rw [heq]⟩, by rw [heq], by rw [heq]; show r.low - 512 + r.range ≤ 512; omega,
        by rw [heq]; show 0 < 2 ^ 32; decide⟩
    · obtain ⟨heq, hlt⟩ := EncRun.incOutstanding_eq_ok h
      subst heq
      exact ⟨⟨⟨[], StreamStep.refl ho⟩, rfl⟩, rfl, by show r.low - 256 + r.range ≤ 512; omega,
        by show r.outstanding + 1 < 2 ^ 32; change r.outstanding < 2 ^ 32 - 1 at hlt; omega⟩

theorem EncRun.settle_room {free : Nat → Byte} {p : Params} {n : Nat} {r : EncRun} (hg : 1 ≤ p.growBlock)
    (ho : EncOk p (r.stream.rd free) r.stream.cur) (hout : r.outstanding + 1 < 2 ^ 32)
    (h : hasRoom p r.stream.cur (r.outstanding + 1 + n)) :
    ∃ r', r.settle p = .ok r' ∧ hasRoom p r'.stream.cur (r'.outstanding + n) ∧ r'.outstanding ≤ r.outstanding + 1 := by
  unfold EncRun.settle
  split
  · obtain ⟨r', hr', hroom⟩ := EncRun.putBit_room (b := false) (n := n) hg ho h
    have heq := (EncRun.putBit_spec (free := free) hg ho hr').1
    have h0 : r'.outstanding = 0 := by rw [heq]
    exact ⟨r', hr', by rwa [h0, Nat.zero_add], by omega⟩
  · split
    · obtain ⟨r', hr', hroom⟩ := EncRun.putBit_room (b := true) (n := n) (r := { r with low := r.low - 512 }) hg ho h
      have heq := (EncRun.putBit_spec (free := free) (r := { r with low := r.low - 512 }) hg ho hr').1
      have h0 : r'.outstanding = 0 := by rw [heq]
      exact ⟨r', hr', by rwa [h0, Nat.zero_add], by omega⟩
    · refine ⟨{ r with low := r.low - 256, outstanding := r.outstanding + 1 }, ?_, h, Nat.le_refl _⟩
      unfold EncRun.incOutstanding
      rw [require_pos _ (by show r.outstanding < 2 ^ 32 - 1; omega)]
      rfl

theorem EncRun.renorm_spec {free : Nat → Byte} {p : Params} {fuel : Nat} {r r' : EncRun} (hg : 1 ≤ p.growBlock)
    (ho : EncOk p (r.stream.rd free) r.stream.cur) (hfit : r.Fits) (hout : r.outstanding < 2 ^ 32)
    (hmost : r.range ≤ 510) (hfuel : 256 ≤ r.range * 2 ^ fuel) (h : EncRun.renorm p fuel r = .ok r') :
    EncStep free p r r' ∧ r'.Fits ∧ 256 ≤ r'.range ∧ r'.range ≤ 510 ∧ r'.outstanding < 2 ^ 32 := by
  induction fuel generalizing r with
  | zero =>
    simp only [EncRun.renorm, Except.ok.injEq] at h
    subst h
    exact ⟨⟨⟨[], StreamStep.refl ho⟩, rfl⟩, hfit, by simpa using hfuel, hmost, hout⟩
  | succ fuel ih =>
    simp only [EncRun.renorm] at h
    split at h
    · next hlt =>
      obtain ⟨t, ht, hr⟩ := bind_eq_ok.mp h
      obtain ⟨hs, hrange, hlow, hout'⟩ := EncRun.settle_spec (free := free) hg ho hfit (by omega) ht
      obtain ⟨hs2, h2⟩ := ih (r := { t with range := 2 * t.range, low := 2 * t.low }) hs.ok
        (by show 2 * t.low + 2 * t.range ≤ 1024; omega) hout' (by show 2 * t.range ≤ 510; omega)
        (by
          show 256 ≤ 2 * t.range * 2 ^ fuel
          rw [hrange]
          rw [Nat.pow_succ] at hfuel
          calc 256 ≤ r.range * (2 ^ fuel * 2) := hfuel
            _ = 2 * r.range * 2 ^ fuel := by ring)
        hr
      exact ⟨hs.trans ⟨hs2.stream, hs2.ctx⟩, h2⟩
    · next hge =>
      simp only [Except.ok.injEq] at h
      subst h
      exact ⟨⟨⟨[], StreamStep.refl ho⟩, rfl⟩, hfit, by omega, hmost, hout⟩

theorem EncRun.renorm_room {free : Nat → Byte} {p : Params} {fuel n : Nat} {r : EncRun} (hg : 1 ≤ p.growBlock)
    (ho : EncOk p (r.stream.rd free) r.stream.cur) (hfit : r.Fits) (hout : r.outstanding + fuel < 2 ^ 32)
    (h : hasRoom p r.stream.cur (r.outstanding + fuel + n)) :
    ∃ r', EncRun.renorm p fuel r = .ok r' ∧ hasRoom p r'.stream.cur (r'.outstanding + n) ∧
      r'.outstanding ≤ r.outstanding + fuel := by
  induction fuel generalizing r with
  | zero => exact ⟨r, rfl, h, Nat.le_refl _⟩
  | succ fuel ih =>
    simp only [EncRun.renorm]
    split
    · next hlt =>
      obtain ⟨t, ht, hroom, hto⟩ := EncRun.settle_room (n := fuel + n) hg ho (by omega)
        (by rwa [show r.outstanding + 1 + (fuel + n) = r.outstanding + (fuel + 1) + n by omega])
      obtain ⟨hs, hrange, hlow, _⟩ := EncRun.settle_spec (free := free) hg ho hfit (by omega) ht
      obtain ⟨r', hr', hroom', hto'⟩ := ih (r := { t with range := 2 * t.range, low := 2 * t.low }) hs.ok
        (by show 2 * t.low + 2 * t.range ≤ 1024; omega) (by show t.outstanding + fuel < 2 ^ 32; omega)
        (by rw [← Nat.add_assoc] at hroom; exact hroom)
      refine ⟨r', by rw [ht, ok_bind]; exact hr', hroom', ?_⟩
      change r'.outstanding ≤ t.outstanding + fuel at hto'
      omega
    · exact ⟨r, rfl, hasRoom_mono (by omega) h, by omega⟩

/-! The probability tables (44_cabac_engine.md R271). -/

/-- Every LPS range is at least 2, leaves at least 128 of the range, and is at most 240. -/
theorem rangeTabLPS_bounds (p range : Nat) (hp : p < 64) (h1 : 256 ≤ range) (h2 : range ≤ 510) :
    2 ≤ rangeTabLPS p (range / 64 % 4) ∧ rangeTabLPS p (range / 64 % 4) ≤ 240 ∧
      rangeTabLPS p (range / 64 % 4) + 128 ≤ range := by
  have htab : ∀ q p : Fin 64, q.val < 4 → 2 ≤ rangeTabLPS p.val q.val ∧ rangeTabLPS p.val q.val ≤ 240 ∧
      rangeTabLPS p.val q.val ≤ 128 + 64 * q.val := by
    have : ∀ q : Fin 4, ∀ p : Fin 64, 2 ≤ rangeTabLPS p.val q.val ∧ rangeTabLPS p.val q.val ≤ 240 ∧
      rangeTabLPS p.val q.val ≤ 128 + 64 * q.val := by decide +kernel
    intro q p hq
    exact this ⟨q.val, hq⟩ p
  obtain ⟨a, b, c⟩ := htab ⟨range / 64 % 4, by omega⟩ ⟨p, hp⟩ (by show range / 64 % 4 < 4; omega)
  exact ⟨a, b, by change rangeTabLPS p (range / 64 % 4) ≤ 128 + 64 * (range / 64 % 4) at c; omega⟩

/-- Everything `EncodeDecision` does when it answers (44_cabac_engine.md R278). -/
theorem EncRun.decision_spec {free : Nat → Byte} {p : Params} {c : Nat} {bin : Bool} {r r' : EncRun}
    (hg : 1 ≤ p.growBlock) (ho : EncOk p (r.stream.rd free) r.stream.cur) (hfit : r.Fits)
    (hout : r.outstanding < 2 ^ 32) (hleast : 256 ≤ r.range) (hmost : r.range ≤ 510)
    (h : r.decision p c bin = .ok r') :
    ∃ x, Table.find r.ctx c = some x ∧ (∃ bs, StreamStep free p r.stream r'.stream bs) ∧
      r'.ctx = Table.put r.ctx c (if bin = x.valMPS then x.afterMps else x.afterLps) ∧ r'.Fits ∧ 256 ≤ r'.range ∧
      r'.range ≤ 510 ∧ r'.outstanding < 2 ^ 32 := by
  unfold EncRun.Fits at hfit
  unfold EncRun.decision at h
  split at h
  · simp at h
  · next x hx =>
    obtain ⟨b1, b2, b3⟩ := rangeTabLPS_bounds x.pStateIdx.toNat r.range x.pStateIdx.isLt hleast hmost
    refine ⟨x, hx, ?_⟩
    simp only at h
    generalize rangeTabLPS x.pStateIdx.toNat (r.range / 64 % 4) = lps at h b1 b2 b3
    by_cases hb : bin = x.valMPS
    · simp only [hb, ne_eq, not_true_eq_false, if_false] at h
      obtain ⟨hs, h1, h2, h3, h4⟩ := EncRun.renorm_spec (free := free)
        (r := { r with range := r.range - lps, ctx := Table.put r.ctx c x.afterMps }) hg ho
        (by show r.low + (r.range - lps) ≤ 1024; omega) hout (by show r.range - lps ≤ 510; omega)
        (by show 256 ≤ (r.range - lps) * 2 ^ 8; omega) h
      exact ⟨hs.stream, by rw [if_pos hb]; exact hs.ctx, h1, h2, h3, h4⟩
    · simp only [ne_eq, hb, not_false_eq_true, if_true] at h
      obtain ⟨hs, h1, h2, h3, h4⟩ := EncRun.renorm_spec (free := free)
        (r := { r with low := r.low + (r.range - lps), range := lps, ctx := Table.put r.ctx c x.afterLps }) hg ho
        (by show r.low + (r.range - lps) + lps ≤ 1024; omega) hout (by show lps ≤ 510; omega)
        (by show 256 ≤ lps * 2 ^ 8; omega) h
      exact ⟨hs.stream, by rw [if_neg hb]; exact hs.ctx, h1, h2, h3, h4⟩

/-- `EncodeDecision` answers when the context is valid and 8 bits beside the outstanding ones fit. -/
theorem EncRun.decision_room {free : Nat → Byte} {p : Params} {c n : Nat} {bin : Bool} {x : Ctx} {r : EncRun}
    (hg : 1 ≤ p.growBlock) (ho : EncOk p (r.stream.rd free) r.stream.cur) (hfit : r.Fits)
    (hleast : 256 ≤ r.range) (hmost : r.range ≤ 510) (hx : Table.find r.ctx c = some x)
    (hout : r.outstanding + 8 < 2 ^ 32) (h : hasRoom p r.stream.cur (r.outstanding + 8 + n)) :
    ∃ r', r.decision p c bin = .ok r' ∧ hasRoom p r'.stream.cur (r'.outstanding + n) ∧
      r'.outstanding ≤ r.outstanding + 8 := by
  unfold EncRun.Fits at hfit
  unfold EncRun.decision
  obtain ⟨b1, b2, b3⟩ := rangeTabLPS_bounds x.pStateIdx.toNat r.range x.pStateIdx.isLt hleast hmost
  simp only [hx]
  generalize rangeTabLPS x.pStateIdx.toNat (r.range / 64 % 4) = lps at b1 b2 b3
  split
  · exact EncRun.renorm_room
      (r := { r with low := r.low + (r.range - lps), range := lps, ctx := Table.put r.ctx c x.afterLps }) hg ho
      (by show r.low + (r.range - lps) + lps ≤ 1024; omega) hout h
  · exact EncRun.renorm_room (r := { r with range := r.range - lps, ctx := Table.put r.ctx c x.afterMps }) hg ho
      (by show r.low + (r.range - lps) ≤ 1024; omega) hout h

/-- Everything the body of CB_EBYP does when it answers (44_cabac_engine.md R280). -/
theorem EncRun.bypass_spec {free : Nat → Byte} {p : Params} {bin : Bool} {r r' : EncRun} (hg : 1 ≤ p.growBlock)
    (ho : EncOk p (r.stream.rd free) r.stream.cur) (hfit : r.Fits) (hmost : r.range ≤ 510)
    (h : r.bypass p bin = .ok r') :
    EncStep free p r r' ∧ r'.Fits ∧ r'.range = r.range ∧ r'.outstanding < 2 ^ 32 := by
  unfold EncRun.Fits at hfit ⊢
  unfold EncRun.bypass at h
  have hlow : 2 * r.low + (if bin then r.range else 0) + r.range ≤ 2048 := by split <;> omega
  simp only at h
  generalize 2 * r.low + (if bin then r.range else 0) = low at h hlow
  split at h
  · next hge =>
    obtain ⟨t, ht, hr⟩ := bind_eq_ok.mp h
    simp only [pure, Except.pure, Except.ok.injEq] at hr
    obtain ⟨heq, hs⟩ := EncRun.putBit_spec (free := free) (r := { r with low := low }) hg ho ht
    subst hr
    refine ⟨⟨⟨_, hs⟩, by rw [heq]⟩, ?_, by rw [heq], by rw [heq]; show 0 < 2 ^ 32; decide⟩
    rw [heq]
    show low - 1024 + r.range ≤ 1024
    omega
  · split at h
    · obtain ⟨heq, hs⟩ := EncRun.putBit_spec (free := free) (r := { r with low := low }) hg ho h
      refine ⟨⟨⟨_, hs⟩, by rw [heq]⟩, ?_, by rw [heq], by rw [heq]; show 0 < 2 ^ 32; decide⟩
      rw [heq]
      show low + r.range ≤ 1024
      omega
    · obtain ⟨heq, hlt⟩ := EncRun.incOutstanding_eq_ok h
      subst heq
      refine ⟨⟨⟨[], StreamStep.refl ho⟩, rfl⟩, ?_, rfl, ?_⟩
      · show low - 512 + r.range ≤ 1024
        omega
      · show r.outstanding + 1 < 2 ^ 32
        change r.outstanding < 2 ^ 32 - 1 at hlt
        omega

theorem EncRun.bypass_room {free : Nat → Byte} {p : Params} {n : Nat} {bin : Bool} {r : EncRun} (hg : 1 ≤ p.growBlock)
    (ho : EncOk p (r.stream.rd free) r.stream.cur) (hout : r.outstanding + 1 < 2 ^ 32)
    (h : hasRoom p r.stream.cur (r.outstanding + 1 + n)) :
    ∃ r', r.bypass p bin = .ok r' ∧ hasRoom p r'.stream.cur (r'.outstanding + n) ∧
      r'.outstanding ≤ r.outstanding + 1 := by
  unfold EncRun.bypass
  simp only
  generalize 2 * r.low + (if bin then r.range else 0) = low
  split
  · obtain ⟨t, ht, hroom⟩ := EncRun.putBit_room (b := true) (n := n) (r := { r with low := low }) hg ho h
    have heq := (EncRun.putBit_spec (free := free) (r := { r with low := low }) hg ho ht).1
    have h0 : t.outstanding = 0 := by rw [heq]
    refine ⟨{ t with low := t.low - 1024 }, by rw [ht]; rfl, ?_, ?_⟩
    · show hasRoom p t.stream.cur (t.outstanding + n)
      rwa [h0, Nat.zero_add]
    · show t.outstanding ≤ _
      omega
  · split
    · obtain ⟨t, ht, hroom⟩ := EncRun.putBit_room (b := false) (n := n) (r := { r with low := low }) hg ho h
      have heq := (EncRun.putBit_spec (free := free) (r := { r with low := low }) hg ho ht).1
      have h0 : t.outstanding = 0 := by rw [heq]
      exact ⟨t, ht, by rwa [h0, Nat.zero_add], by omega⟩
    · refine ⟨{ r with low := low - 512, outstanding := r.outstanding + 1 }, ?_, h, Nat.le_refl _⟩
      unfold EncRun.incOutstanding
      rw [require_pos _ (by show r.outstanding < 2 ^ 32 - 1; omega)]
      rfl

/-- Everything `EncodeFlush()` does when it answers: the last bit written is 1 (44_cabac_engine.md R282). -/
theorem EncRun.flush_spec {free : Nat → Byte} {p : Params} {r r' : EncRun} (hg : 1 ≤ p.growBlock)
    (ho : EncOk p (r.stream.rd free) r.stream.cur) (hfit : r.low + 2 ≤ 1024) (hout : r.outstanding < 2 ^ 32)
    (h : r.flush p = .ok r') :
    (∃ bs, StreamStep free p r.stream r'.stream (bs ++ [true])) ∧ r'.ctx = r.ctx ∧ 256 ≤ r'.range ∧ r'.range ≤ 510 ∧
      r'.low + r'.range ≤ 1024 ∧ r'.outstanding = 0 := by
  unfold EncRun.flush at h
  obtain ⟨r1, h1, h⟩ := bind_eq_ok.mp h
  obtain ⟨r2, h2, h⟩ := bind_eq_ok.mp h
  obtain ⟨u, hu, h⟩ := bind_eq_ok.mp h
  simp only [pure, Except.pure, Except.ok.injEq] at h
  subst h
  obtain ⟨hs, f1, f2, f3, f4⟩ := EncRun.renorm_spec (free := free) (r := { r with range := 2 }) hg ho hfit hout
    (by show 2 ≤ 510; decide) (by show 256 ≤ 2 * 2 ^ 8; decide) h1
  obtain ⟨heq, hs2⟩ := EncRun.putBit_spec (free := free) hg hs.ok h2
  obtain ⟨b1, hb1⟩ := hs.stream
  have hs3 := putBits_spec hg hs2.ok hu
  have hlast : fieldBits (2 * ((r2.low / 256) % 2) + 1) 2 =
      [(2 * ((r2.low / 256) % 2) + 1).testBit 1, true] := by
    simp [fieldBits, Nat.testBit_zero, Nat.add_mod]
  rw [hlast] at hs3
  refine ⟨⟨b1 ++ engineBits r1.first r1.outstanding (r1.low.testBit 9) ++ [(2 * ((r2.low / 256) % 2) + 1).testBit 1], ?_⟩,
    ?_, ?_, ?_, ?_, ?_⟩
  · have := (hb1.trans hs2).trans hs3
    simpa using this
  · show r2.ctx = r.ctx
    rw [heq]
    exact hs.ctx
  · show 256 ≤ r2.range
    rw [heq]; exact f2
  · show r2.range ≤ 510
    rw [heq]; exact f3
  · show r2.low + r2.range ≤ 1024
    rw [heq]; exact f1
  · show r2.outstanding = 0
    rw [heq]

theorem EncRun.flush_room {free : Nat → Byte} {p : Params} {r : EncRun} (hg : 1 ≤ p.growBlock)
    (ho : EncOk p (r.stream.rd free) r.stream.cur) (hfit : r.low + 2 ≤ 1024) (hout : r.outstanding + 8 < 2 ^ 32)
    (h : hasRoom p r.stream.cur (r.outstanding + 11)) : ∃ r', r.flush p = .ok r' := by
  unfold EncRun.flush
  obtain ⟨r1, h1, hroom, _⟩ := EncRun.renorm_room (free := free) (fuel := 8) (n := 3) (r := { r with range := 2 }) hg ho
    hfit hout h
  have hs := (EncRun.renorm_spec (free := free) (r := { r with range := 2 }) hg ho hfit (by show r.outstanding < 2 ^ 32; omega)
    (by show 2 ≤ 510; decide) (by show 256 ≤ 2 * 2 ^ 8; decide) h1).1
  obtain ⟨r2, h2, hroom2⟩ := EncRun.putBit_room (free := free) (b := r1.low.testBit 9) (n := 2) hg hs.ok
    (by rwa [show r1.outstanding + 1 + 2 = r1.outstanding + 3 by omega])
  have hs2 := (EncRun.putBit_spec (free := free) hg hs.ok h2).2
  obtain ⟨u, hu, _, _⟩ := putBits_ok (free := free) (n := 0) hg (fieldBits (2 * ((r2.low / 256) % 2) + 1) 2) hs2.ok
    (by rw [fieldBits_length]; exact hroom2)
  rw [h1, ok_bind, h2, ok_bind, writeBits_eq, hu]
  exact ⟨_, rfl⟩

/-- Everything coding several bins does when it answers (45_cabac_binarization.md R315). -/
theorem encodeBins_spec {free : Nat → Byte} {p : Params} {c : Nat} {bs : List Bool} {r r' : EncRun}
    (hg : 1 ≤ p.growBlock) (ho : EncOk p (r.stream.rd free) r.stream.cur) (hfit : r.Fits)
    (hout : r.outstanding < 2 ^ 32) (hleast : 256 ≤ r.range) (hmost : r.range ≤ 510)
    (hctx : Table.wf r.ctx = true ∧ tableBelow Config.numCtx r.ctx = true)
    (h : encodeBins p c bs r = .ok r') :
    (∃ w, StreamStep free p r.stream r'.stream w) ∧ r'.Fits ∧ 256 ≤ r'.range ∧ r'.range ≤ 510 ∧
      r'.outstanding < 2 ^ 32 ∧ Table.wf r'.ctx = true ∧ tableBelow Config.numCtx r'.ctx = true := by
  induction bs generalizing r with
  | nil =>
    simp only [encodeBins, Except.ok.injEq] at h
    subst h
    exact ⟨⟨[], StreamStep.refl ho⟩, hfit, hleast, hmost, hout, hctx.1, hctx.2⟩
  | cons b bs ih =>
    simp only [encodeBins] at h
    obtain ⟨t, ht, hr⟩ := bind_eq_ok.mp h
    unfold encodeBin at ht
    by_cases hc : c = 0xFFFF
    · rw [if_pos hc] at ht
      obtain ⟨hs, h1, h2, h3⟩ := EncRun.bypass_spec (free := free) hg ho hfit hmost ht
      obtain ⟨w1, hw1⟩ := hs.stream
      obtain ⟨⟨w, hw⟩, hrest⟩ := ih hw1.ok h1 h3 (by omega) (by omega) (by rw [hs.ctx]; exact hctx) hr
      exact ⟨⟨_, hw1.trans hw⟩, hrest⟩
    · rw [if_neg hc] at ht
      obtain ⟨x, hx, ⟨w1, hw1⟩, h0, h1, h2, h3, h4⟩ :=
        EncRun.decision_spec (free := free) hg ho hfit hout hleast hmost ht
      have hbelow := tableBelow_find _ _ _ _ hctx.2 hx
      obtain ⟨⟨w, hw⟩, hrest⟩ := ih hw1.ok h1 h4 h2 h3
        (by rw [h0]; exact ⟨Table.wf_put _ _ _ hctx.1, tableBelow_put _ _ _ _ hctx.2 hbelow⟩) hr
      exact ⟨⟨_, hw1.trans hw⟩, hrest⟩

/-- Everything `RenormD` does when it answers (44_cabac_engine.md R284). -/
theorem DecRun.renorm_spec {rd : Nat → Byte} {fuel : Nat} {r r' : DecRun} (hoff : r.offset < r.range)
    (hmost : r.range ≤ 510) (hfuel : 256 ≤ r.range * 2 ^ fuel) (h : DecRun.renorm rd fuel r = .ok r') :
    Reads rd r.cur r'.cur ∧ r'.offset < r'.range ∧ 256 ≤ r'.range ∧ r'.range ≤ 510 := by
  induction fuel generalizing r with
  | zero =>
    simp only [DecRun.renorm, Except.ok.injEq] at h
    subst h
    exact ⟨.refl _, hoff, by simpa using hfuel, hmost⟩
  | succ fuel ih =>
    simp only [DecRun.renorm] at h
    split at h
    · next hlt =>
      obtain ⟨⟨b, c⟩, hb, hr⟩ := bind_eq_ok.mp h
      have hbit : b.toNat ≤ 1 := by cases b <;> decide
      obtain ⟨h1, h2⟩ := ih (r := ⟨2 * r.range, 2 * r.offset + b.toNat, c⟩)
        (by show 2 * r.offset + b.toNat < 2 * r.range; omega) (by show 2 * r.range ≤ 510; omega)
        (by
          show 256 ≤ 2 * r.range * 2 ^ fuel
          rw [Nat.pow_succ] at hfuel
          calc 256 ≤ r.range * (2 ^ fuel * 2) := hfuel
            _ = 2 * r.range * 2 ^ fuel := by ring)
        hr
      exact ⟨.step hb h1, h2⟩
    · next hge =>
      simp only [Except.ok.injEq] at h
      subst h
      exact ⟨.refl _, hoff, by omega, hmost⟩

/-- `RenormD` answers when as many bits as its turns remain. -/
theorem DecRun.renorm_ok {rd : Nat → Byte} {fuel : Nat} {r : DecRun} (h : fuel ≤ (remBits rd r.cur).length) :
    ∃ r', DecRun.renorm rd fuel r = .ok r' := by
  induction fuel generalizing r with
  | zero => exact ⟨r, rfl⟩
  | succ fuel ih =>
    simp only [DecRun.renorm]
    split
    · rcases getBit_spec rd r.cur with ⟨b, d, hd, hrem, _⟩ | ⟨_, hrem⟩
      · rw [hrem, List.length_cons] at h
        obtain ⟨r', hr'⟩ := ih (r := ⟨2 * r.range, 2 * r.offset + b.toNat, d⟩) (by show fuel ≤ (remBits rd d).length; omega)
        exact ⟨r', by rw [hd, ok_bind]; exact hr'⟩
      · rw [hrem] at h
        simp at h
    · exact ⟨r, rfl⟩

/-! What the encoding engine writes, as `Renorm` says it. -/

theorem Renorm.turns_bits (n : Nat) (r : Renorm) (bs : List Bool) :
    Renorm.turns n ⟨r.low, r.outstanding, r.first, bs ++ r.bits⟩ =
      ⟨(Renorm.turns n r).low, (Renorm.turns n r).outstanding, (Renorm.turns n r).first,
        bs ++ (Renorm.turns n r).bits⟩ := by
  induction n generalizing r with
  | zero => rfl
  | succ n ih =>
    have hturn : Renorm.turn ⟨r.low, r.outstanding, r.first, bs ++ r.bits⟩ =
        ⟨r.turn.low, r.turn.outstanding, r.turn.first, bs ++ r.turn.bits⟩ := by
      unfold Renorm.turn
      simp only
      split
      · simp
      · split <;> simp
    show Renorm.turns n (Renorm.turn _) = _
    rw [hturn, ih]
    rfl

/-- One settling of `RenormE()` is one turn, the shifts apart (44_cabac_engine.md R276). -/
theorem EncRun.settle_turn {free : Nat → Byte} {p : Params} {r r' : EncRun} (hg : 1 ≤ p.growBlock)
    (ho : EncOk p (r.stream.rd free) r.stream.cur) (h : r.settle p = .ok r') :
    Renorm.turn ⟨r.low, r.outstanding, r.first, []⟩ =
        ⟨2 * r'.low, r'.outstanding, r'.first, (Renorm.turn ⟨r.low, r.outstanding, r.first, []⟩).bits⟩ ∧
      StreamStep free p r.stream r'.stream (Renorm.turn ⟨r.low, r.outstanding, r.first, []⟩).bits ∧
      r'.range = r.range ∧ r'.ctx = r.ctx := by
  unfold EncRun.settle at h
  unfold Renorm.turn
  by_cases h1 : r.low < 256
  · simp only [if_pos h1] at h ⊢
    obtain ⟨e, hs⟩ := EncRun.putBit_spec (free := free) hg ho h
    rw [e]
    exact ⟨by simp, by simpa using hs, rfl, rfl⟩
  · by_cases h2 : 512 ≤ r.low
    · simp only [if_neg h1, if_pos h2] at h ⊢
      obtain ⟨e, hs⟩ := EncRun.putBit_spec (free := free) (r := { r with low := r.low - 512 }) hg ho h
      rw [e]
      exact ⟨by simp, by simpa using hs, rfl, rfl⟩
    · simp only [if_neg h1, if_neg h2] at h ⊢
      obtain ⟨e, _⟩ := EncRun.incOutstanding_eq_ok h
      rw [e]
      exact ⟨by simp, StreamStep.refl ho, rfl, rfl⟩

/-- `RenormE()` is a number of turns that brings codIRange to 256 or more (44_cabac_engine.md R276). -/
theorem EncRun.renorm_turns {free : Nat → Byte} {p : Params} {fuel : Nat} {r r' : EncRun} (hg : 1 ≤ p.growBlock)
    (ho : EncOk p (r.stream.rd free) r.stream.cur) (hmost : r.range ≤ 510) (hfuel : 256 ≤ r.range * 2 ^ fuel)
    (h : EncRun.renorm p fuel r = .ok r') :
    ∃ n, 256 ≤ r.range * 2 ^ n ∧ r.range * 2 ^ n ≤ 510 ∧ r'.range = r.range * 2 ^ n ∧ r'.ctx = r.ctx ∧
      r'.low = (Renorm.turns n ⟨r.low, r.outstanding, r.first, []⟩).low ∧
      r'.outstanding = (Renorm.turns n ⟨r.low, r.outstanding, r.first, []⟩).outstanding ∧
      r'.first = (Renorm.turns n ⟨r.low, r.outstanding, r.first, []⟩).first ∧
      StreamStep free p r.stream r'.stream (Renorm.turns n ⟨r.low, r.outstanding, r.first, []⟩).bits := by
  induction fuel generalizing r with
  | zero =>
    simp only [EncRun.renorm, Except.ok.injEq] at h
    subst h
    exact ⟨0, hfuel, by simpa using hmost, by simp, rfl, rfl, rfl, rfl, StreamStep.refl ho⟩
  | succ fuel ih =>
    simp only [EncRun.renorm] at h
    split at h
    · next hlt =>
      obtain ⟨t, ht, hr⟩ := bind_eq_ok.mp h
      obtain ⟨hturn, hs, hrange, hctx⟩ := EncRun.settle_turn (free := free) hg ho ht
      have hpow : ∀ k, 2 * t.range * 2 ^ k = r.range * 2 ^ (k + 1) := by
        intro k
        rw [hrange, Nat.pow_succ]
        ring
      obtain ⟨n, h1, h2, h3, h4, h5, h6, h7, h8⟩ := ih (r := { t with range := 2 * t.range, low := 2 * t.low }) hs.ok
        (by show 2 * t.range ≤ 510; omega) (by show 256 ≤ 2 * t.range * 2 ^ fuel; rw [hpow]; exact hfuel) hr
      simp only [hpow] at h1 h2 h3 h4 h5 h6 h7 h8
      have hall : Renorm.turns (n + 1) ⟨r.low, r.outstanding, r.first, []⟩ =
          ⟨(Renorm.turns n ⟨2 * t.low, t.outstanding, t.first, []⟩).low,
            (Renorm.turns n ⟨2 * t.low, t.outstanding, t.first, []⟩).outstanding,
            (Renorm.turns n ⟨2 * t.low, t.outstanding, t.first, []⟩).first,
            (Renorm.turn ⟨r.low, r.outstanding, r.first, []⟩).bits ++
              (Renorm.turns n ⟨2 * t.low, t.outstanding, t.first, []⟩).bits⟩ := by
        show Renorm.turns n (Renorm.turn ⟨r.low, r.outstanding, r.first, []⟩) = _
        rw [hturn, ← Renorm.turns_bits n ⟨2 * t.low, t.outstanding, t.first, []⟩]
        simp
      exact ⟨n + 1, h1, h2, h3, h4.trans hctx, by rw [hall]; exact h5, by rw [hall]; exact h6, by rw [hall]; exact h7,
        by rw [hall]; exact hs.trans h8⟩
    · next hge =>
      simp only [Except.ok.injEq] at h
      subst h
      exact ⟨0, by omega, by simpa using hmost, by simp, rfl, rfl, rfl, rfl, StreamStep.refl ho⟩

/-- `RenormD` reads a number of bits that brings dRange to 256 or more (44_cabac_engine.md R284). -/
theorem DecRun.renorm_append {rd : Nat → Byte} (n fuel : Nat) (bs : List Bool) (r : DecRun) (rest : List Bool) (hn : n ≤ fuel)
    (hl : bs.length = n) (h1 : 256 ≤ r.range * 2 ^ n) (h2 : r.range * 2 ^ n ≤ 510)
    (h : remBits rd r.cur = bs ++ rest) :
    ∃ d, DecRun.renorm rd fuel r = .ok ⟨r.range * 2 ^ n, bitsValue r.offset bs, d⟩ ∧ Consumed rd r.cur d n rest := by
  induction n generalizing fuel bs r with
  | zero =>
    obtain rfl := List.length_eq_zero_iff.mp hl
    have hge : ¬ r.range < 256 := by omega
    refine ⟨r.cur, ?_, Cursor.Moved.refl _, rfl, rfl, h⟩
    cases fuel <;> simp [DecRun.renorm, hge, bitsValue]
  | succ n ih =>
    obtain ⟨fuel, rfl⟩ : ∃ k, fuel = k + 1 := ⟨fuel - 1, by omega⟩
    obtain ⟨b, bs, rfl⟩ := List.exists_cons_of_ne_nil (show bs ≠ [] by rintro rfl; simp at hl)
    have hlt : r.range < 256 := by
      have : 0 < 2 ^ n := Nat.two_pow_pos n
      rw [Nat.pow_succ] at h2
      by_contra hge
      have : 256 * 2 ≤ r.range * (2 ^ n * 2) := Nat.mul_le_mul (by omega) (by omega)
      omega
    obtain ⟨d, hd, hcd⟩ := getBit_cons (show remBits rd r.cur = b :: (bs ++ rest) from h)
    have hpow : 2 * r.range * 2 ^ n = r.range * 2 ^ (n + 1) := by
      rw [Nat.pow_succ]
      ring
    obtain ⟨e, he, hce⟩ := ih fuel bs ⟨2 * r.range, 2 * r.offset + b.toNat, d⟩ (by omega) (by simpa using hl)
      (by show 256 ≤ 2 * r.range * 2 ^ n; rw [hpow]; exact h1) (by show 2 * r.range * 2 ^ n ≤ 510; rw [hpow]; exact h2)
      hcd.rest
    refine ⟨e, ?_, by rw [Nat.add_comm]; exact hcd.trans hce⟩
    simp only [DecRun.renorm, if_pos hlt, hd, ok_bind, he, hpow, bitsValue]

/-- `RenormD` when the input ends too early. -/
theorem DecRun.renorm_short {rd : Nat → Byte} (n fuel : Nat) (r : DecRun) (hn : n ≤ fuel) (h2 : r.range * 2 ^ n ≤ 510)
    (h : (remBits rd r.cur).length < n) : DecRun.renorm rd fuel r = .error .eio := by
  induction n generalizing fuel r with
  | zero => simp at h
  | succ n ih =>
    obtain ⟨fuel, rfl⟩ : ∃ k, fuel = k + 1 := ⟨fuel - 1, by omega⟩
    have hlt : r.range < 256 := by
      have : 0 < 2 ^ n := Nat.two_pow_pos n
      rw [Nat.pow_succ] at h2
      by_contra hge
      have : 256 * 2 ≤ r.range * (2 ^ n * 2) := Nat.mul_le_mul (by omega) (by omega)
      omega
    have hpow : 2 * r.range * 2 ^ n = r.range * 2 ^ (n + 1) := by
      rw [Nat.pow_succ]
      ring
    rcases getBit_spec rd r.cur with ⟨b, d, hd, hrem, _⟩ | ⟨he, _⟩
    · simp only [DecRun.renorm, if_pos hlt, hd, ok_bind]
      exact ih fuel ⟨2 * r.range, 2 * r.offset + b.toNat, d⟩ (by omega)
        (by show 2 * r.range * 2 ^ n ≤ 510; rw [hpow]; exact h2) (by rw [hrem] at h; simpa using h)
    · simp only [DecRun.renorm, if_pos hlt, he]
      rfl

end Sys2Proof.Machine
end

