-- ==== Sys2Proof/Laws/Errors.lean ====
section
/-!
SUPPORT. The codes a rule fails with: never OK and never EFAULTED, which only the command cycle gives
(60_exceptions.md R400, R402).
-/

namespace Sys2Proof.Machine

/-- A computation fails with an execution error or an operand error only. -/
def Honest {α : Type} (x : Except Code α) : Prop := ∀ e, x = .error e → e ≠ .ok ∧ e ≠ .efaulted

theorem honest_ok {α : Type} (a : α) : Honest (Except.ok a : Except Code α) := fun _ h => by simp at h

theorem honest_pure {α : Type} (a : α) : Honest (pure a : Except Code α) := honest_ok a

theorem honest_error {α : Type} {e : Code} (h : e ≠ .ok ∧ e ≠ .efaulted) : Honest (Except.error e : Except Code α) :=
  fun _ he => by
    simp only [Except.error.injEq] at he
    exact he ▸ h

theorem honest_bind {α β : Type} {x : Except Code α} {f : α → Except Code β} (hx : Honest x) (hf : ∀ a, Honest (f a)) :
    Honest (x >>= f) := by
  intro e h
  cases x with
  | ok a => exact hf a e h
  | error c =>
    rw [error_bind] at h
    simp only [Except.error.injEq] at h
    exact h ▸ hx c rfl

theorem honest_require {c : Prop} [Decidable c] {e : Code} (h : e ≠ .ok ∧ e ≠ .efaulted) : Honest (require c e) := by
  unfold require
  split
  · exact honest_ok _
  · exact honest_error h

theorem honest_ite {α : Type} {c : Prop} [Decidable c] {x y : Except Code α} (hx : Honest x) (hy : Honest y) :
    Honest (if c then x else y) := by
  split
  · exact hx
  · exact hy

theorem honest_getBit (rd : Nat → Byte) (c : Cursor) : Honest (getBit rd c) := by
  unfold getBit fetchByte
  simp only
  split
  · split
    · exact honest_ok _
    · next e he =>
      split at he
      · simp at he
      · simp only [Except.error.injEq] at he
        subst he
        exact honest_error (by decide)
  · exact honest_ok _

theorem honest_readBitsFrom (rd : Nat → Byte) (n acc : Nat) (c : Cursor) : Honest (readBitsFrom rd n acc c) := by
  induction n generalizing acc c with
  | zero => exact honest_ok _
  | succ n ih => exact honest_bind (honest_getBit rd c) fun _ => ih _ _

theorem honest_readBits (rd : Nat → Byte) (n : Nat) (c : Cursor) : Honest (readBits rd n c) :=
  honest_readBitsFrom rd n 0 c

theorem honest_readZeroRun (rd : Nat → Byte) (room p : Nat) (c : Cursor) : Honest (readZeroRun rd room p c) := by
  induction room generalizing p c with
  | zero => exact honest_bind (honest_getBit rd c) fun _ => honest_ite (honest_ok _) (honest_error (by decide))
  | succ n ih => exact honest_bind (honest_getBit rd c) fun _ => honest_ite (honest_ok _) (ih _ _)

theorem honest_readCodeword {α : Type} (rd : Nat → Byte) (t : List (Vlc α)) (room len code : Nat) (c : Cursor) :
    Honest (readCodeword rd t room len code c) := by
  induction room generalizing len code c with
  | zero => exact honest_error (by decide)
  | succ room ih =>
    refine honest_bind (honest_getBit rd c) fun x => ?_
    show Honest (match findCodeword t (len + 1) (2 * code + x.1.toNat) with
      | some y => Except.ok (y, x.2)
      | none => readCodeword rd t room (len + 1) (2 * code + x.1.toNat) x.2)
    split
    · exact honest_ok _
    · exact ih _ _ _

theorem honest_readUE (rd : Nat → Byte) (c : Cursor) : Honest (readUE rd c) :=
  honest_bind (honest_readZeroRun rd _ _ c) fun _ => honest_bind (honest_readBits rd _ _) fun _ => honest_pure _

theorem honest_ensureSpace (p : Params) (k : Nat) (c : Cursor) : Honest (ensureSpace p k c) := by
  unfold ensureSpace
  exact honest_ite (honest_ite (honest_ite (honest_ok _) (honest_error (by decide))) (honest_error (by decide)))
    (honest_ok _)

theorem honest_emitByte (p : Params) (v : Byte) (t : Stream) : Honest (emitByte p v t) :=
  honest_bind (honest_ensureSpace p _ _) fun _ => honest_ok _

theorem honest_putBit1 (p : Params) (b : Bool) (t : Stream) : Honest (putBit1 p b t) := by
  unfold putBit1
  simp only
  split
  · have := honest_emitByte p (shiftIn b t.cur).cache { t with cur := shiftIn b t.cur }
    split
    · exact honest_ok _
    · next e he => exact honest_error (this e he)
  · exact honest_ok _

theorem honest_putBits (p : Params) (bs : List Bool) (t : Stream) : Honest (putBits p bs t) := by
  induction bs generalizing t with
  | nil => exact honest_ok _
  | cons b bs ih => exact honest_bind (honest_putBit1 p b t) fun _ => ih _

theorem honest_writeBits (p : Params) (v n : Nat) (t : Stream) : Honest (writeBits p v n t) := honest_putBits p _ t

theorem honest_writeCodeword {α : Type} [DecidableEq α] (p : Params) (t : List (Vlc α)) (x : α) (u : Stream) :
    Honest (writeCodeword p t x u) := by
  unfold writeCodeword
  split
  · exact honest_writeBits _ _ _ _
  · exact honest_error (by decide)

theorem honest_writeUE (p : Params) (k : Nat) (t : Stream) : Honest (writeUE p k t) :=
  honest_bind (honest_writeBits _ _ _ _) fun _ => honest_bind (honest_putBit1 _ _ _) fun _ => honest_writeBits _ _ _ _

theorem honest_readRawBytes (rd : Nat → Byte) (n i : Nat) (m : Memory) (c : Cursor) : Honest (readRawBytes rd n i m c) := by
  induction n generalizing i m c with
  | zero => exact honest_ok _
  | succ n ih => exact honest_bind (honest_readBits rd 8 c) fun _ => ih _ _ _

theorem honest_writeRawBytes (p : Params) (raw : Nat → Byte) (n i : Nat) (t : Stream) :
    Honest (writeRawBytes p raw n i t) := by
  induction n generalizing i t with
  | zero => exact honest_ok _
  | succ n ih => exact honest_bind (honest_writeBits p _ 8 t) fun _ => ih _ _

theorem honest_csrWrite (s : State) (csr : Nat) (v : Word) : Honest (s.csrWrite csr v) := by
  unfold State.csrWrite
  split
  · exact honest_ok _
  · split
    · exact honest_ok _
    · exact honest_error (by decide)

theorem honest_classify (maxW maxH : Nat) (xN yN : Int) : Honest (classify maxW maxH xN yN) := by
  unfold classify
  exact honest_ite (honest_error (by decide)) (honest_ite (honest_ok _) (honest_ite (honest_ok _) (honest_ite (honest_ok _)
    (honest_ite (honest_error (by decide)) (honest_ok _)))))

theorem honest_nbLoc (s : State) (plane : Plane) (xN yN : Int) : Honest (s.nbLoc plane xN yN) :=
  honest_bind (honest_classify _ _ _ _) fun _ => honest_ite (honest_pure _) (honest_pure _)

theorem honest_nbBlockAt (s : State) (plane : Plane) (idx : Nat → Nat → Nat) (above : Bool) (x y : Nat) :
    Honest (s.nbBlockAt plane idx above x y) :=
  honest_bind (honest_nbLoc _ _ _ _) fun _ => honest_pure _

theorem honest_nbBlk (s : State) (kind idx : Nat) (above : Bool) : Honest (s.nbBlk kind idx above) :=
  honest_ite (honest_nbBlockAt _ _ _ _ _ _) (honest_ite (honest_nbBlockAt _ _ _ _ _ _) (honest_nbBlockAt _ _ _ _ _ _))

theorem honest_ncBlock (s : State) (kind idx : Nat) (above : Bool) : Honest (s.ncBlock kind idx above) :=
  honest_ite (honest_nbBlockAt _ _ _ _ _ _) (honest_nbBlockAt _ _ _ _ _ _)

theorem honest_deriveNC (s : State) (kind blkIdx : Nat) : Honest (s.deriveNC kind blkIdx) :=
  honest_ite (honest_ok _) (honest_bind (honest_ncBlock _ _ _ _) fun _ => honest_bind (honest_ncBlock _ _ _ _) fun _ =>
    honest_pure _)

theorem honest_readCoeffToken (rd : Nat → Byte) (nC : Int) (c : Cursor) : Honest (readCoeffToken rd nC c) :=
  honest_ite (honest_bind (honest_readBits _ _ _) fun _ => honest_ite (honest_pure _)
    (honest_bind (honest_require (by decide)) fun _ => honest_pure _)) (honest_readCodeword _ _ _ _ _ _)

theorem honest_writeCoeffToken (p : Params) (nC : Int) (t1 tc : Nat) (t : Stream) :
    Honest (writeCoeffToken p nC t1 tc t) :=
  honest_ite (honest_writeBits _ _ _ _) (honest_writeCodeword _ _ _ _)

theorem honest_readLevel (rd : Nat → Byte) (maxPrefix sL : Nat) (off : Bool) (c : Cursor) :
    Honest (readLevel rd maxPrefix sL off c) :=
  honest_bind (honest_readZeroRun _ _ _ _) fun _ => honest_bind (honest_readBits _ _ _) fun _ => honest_pure _

theorem honest_writeLevel (p : Params) (sL : Nat) (off : Bool) (v : Int) (t : Stream) :
    Honest (writeLevel p sL off v t) :=
  honest_bind (honest_require (by decide)) fun _ => honest_bind (honest_writeBits _ _ _ _) fun _ =>
    honest_bind (honest_putBit1 _ _ _) fun _ => honest_bind (honest_writeBits _ _ _ _) fun _ => honest_pure _

theorem honest_readTotalZeros (rd : Nat → Byte) (t m : Nat) (c : Cursor) : Honest (readTotalZeros rd t m c) :=
  honest_bind (honest_readCodeword _ _ _ _ _ _) fun _ => honest_bind (honest_require (by decide)) fun _ => honest_pure _

theorem honest_readRunBefore (rd : Nat → Byte) (zl : Nat) (c : Cursor) : Honest (readRunBefore rd zl c) :=
  honest_bind (honest_readCodeword _ _ _ _ _ _) fun _ => honest_bind (honest_require (by decide)) fun _ => honest_pure _

theorem honest_readLevels (rd : Nat → Byte) (maxPrefix t1 n i sL : Nat) (c : Cursor) :
    Honest (readLevels rd maxPrefix t1 n i sL c) := by
  induction n generalizing i sL c with
  | zero => exact honest_ok _
  | succ n ih =>
    exact honest_ite (honest_bind (honest_getBit _ _) fun _ => honest_bind (ih _ _ _) fun _ => honest_pure _)
      (honest_bind (honest_readLevel _ _ _ _ _) fun _ => honest_bind (ih _ _ _) fun _ => honest_pure _)

theorem honest_readRuns (rd : Nat → Byte) (n zl : Nat) (c : Cursor) : Honest (readRuns rd n zl c) := by
  induction n generalizing zl c with
  | zero => exact honest_ok _
  | succ n ih =>
    exact honest_bind (honest_ite (honest_readRunBefore _ _ _) (honest_ok _)) fun _ =>
      honest_bind (ih _ _) fun _ => honest_pure _

theorem honest_readResidual (rd : Nat → Byte) (maxPrefix : Nat) (nC : Int) (first n m : Nat) (c : Cursor) :
    Honest (readResidual rd maxPrefix nC first n m c) :=
  honest_bind (honest_readCoeffToken _ _ _) fun _ => honest_bind (honest_require (by decide)) fun _ =>
    honest_ite (honest_pure _) (honest_bind (honest_readLevels _ _ _ _ _ _ _) fun _ =>
      honest_bind (honest_ite (honest_readTotalZeros _ _ _ _) (honest_ok _)) fun _ =>
        honest_bind (honest_require (by decide)) fun _ => honest_bind (honest_readRuns _ _ _ _) fun _ => honest_pure _)

theorem honest_writeLevels (p : Params) (t1 : Nat) (vs : List Int) (i sL : Nat) (t : Stream) :
    Honest (writeLevels p t1 vs i sL t) := by
  induction vs generalizing i sL t with
  | nil => exact honest_ok _
  | cons v vs ih =>
    exact honest_ite (honest_bind (honest_putBit1 _ _ _) fun _ => ih _ _ _)
      (honest_bind (honest_writeLevel _ _ _ _ _) fun _ => ih _ _ _)

theorem honest_writeRuns (p : Params) (pos : List Nat) (zl : Nat) (t : Stream) : Honest (writeRuns p pos zl t) := by
  induction pos generalizing zl t with
  | nil => exact honest_ok _
  | cons a rest ih =>
    cases rest with
    | nil => exact honest_ok _
    | cons b rest =>
      exact honest_bind (honest_ite (honest_writeCodeword _ _ _ _) (honest_ok _)) fun _ => ih _ _

theorem honest_writeResidual (p : Params) (nC : Int) (first n m : Nat) (coef : Nat → Word) (t : Stream) :
    Honest (writeResidual p nC first n m coef t) :=
  honest_bind (honest_require (by decide)) fun _ => honest_bind (honest_writeCoeffToken _ _ _ _ _) fun _ =>
    honest_ite (honest_pure _) (honest_bind (honest_writeLevels _ _ _ _ _ _) fun _ =>
      honest_bind (honest_ite (honest_writeCodeword _ _ _ _) (honest_ok _)) fun _ =>
        honest_bind (honest_writeRuns _ _ _ _) fun _ => honest_pure _)

theorem honest_checkResidualSetup (kind : Nat) (store ncx : Bool) (blkIdx : Nat) (s : State) :
    Honest (checkResidualSetup kind store ncx blkIdx s) :=
  honest_bind (honest_require (by decide)) fun _ => honest_bind (honest_require (by decide)) fun _ =>
    honest_bind (honest_require (by decide)) fun _ => honest_bind (honest_require (by decide)) fun _ =>
    honest_bind (honest_require (by decide)) fun _ => honest_ite
      (honest_bind (honest_require (by decide)) fun _ => honest_bind (honest_require (by decide)) fun _ =>
        honest_bind (honest_require (by decide)) fun _ => honest_pure _)
      (honest_bind (honest_deriveNC _ _ _) fun _ => honest_bind (honest_require (by decide)) fun _ => honest_pure _)

theorem honest_putRepeated (p : Params) (b : Bool) (n : Nat) (t : Stream) : Honest (putRepeated p b n t) := by
  induction n generalizing t with
  | zero => exact honest_ok _
  | succ n ih => exact honest_bind (honest_putBit1 _ _ _) fun _ => ih _

theorem honest_encPutBit (p : Params) (b : Bool) (r : EncRun) : Honest (r.putBit p b) :=
  honest_bind (honest_ite (honest_ok _) (honest_putBit1 _ _ _)) fun _ => honest_bind (honest_putRepeated _ _ _ _) fun _ =>
    honest_pure _

theorem honest_incOutstanding (r : EncRun) : Honest r.incOutstanding :=
  honest_bind (honest_require (by decide)) fun _ => honest_pure _

theorem honest_settle (p : Params) (r : EncRun) : Honest (r.settle p) :=
  honest_ite (honest_encPutBit _ _ _) (honest_ite (honest_encPutBit _ _ _) (honest_incOutstanding _))

theorem honest_encRenorm (p : Params) (fuel : Nat) (r : EncRun) : Honest (EncRun.renorm p fuel r) := by
  induction fuel generalizing r with
  | zero => exact honest_ok _
  | succ fuel ih => exact honest_ite (honest_bind (honest_settle _ _) fun _ => ih _) (honest_ok _)

theorem honest_decision (p : Params) (c : Nat) (bin : Bool) (r : EncRun) : Honest (r.decision p c bin) := by
  unfold EncRun.decision
  split
  · exact honest_error (by decide)
  · exact honest_ite (honest_encRenorm _ _ _) (honest_encRenorm _ _ _)

theorem honest_bypass (p : Params) (bin : Bool) (r : EncRun) : Honest (r.bypass p bin) :=
  honest_ite (honest_bind (honest_encPutBit _ _ _) fun _ => honest_pure _)
    (honest_ite (honest_encPutBit _ _ _) (honest_incOutstanding _))

theorem honest_flush (p : Params) (r : EncRun) : Honest (r.flush p) :=
  honest_bind (honest_encRenorm _ _ _) fun _ => honest_bind (honest_encPutBit _ _ _) fun _ =>
    honest_bind (honest_writeBits _ _ _ _) fun _ => honest_pure _

theorem honest_encodeBins (p : Params) (c : Nat) (bs : List Bool) (r : EncRun) : Honest (encodeBins p c bs r) := by
  induction bs generalizing r with
  | nil => exact honest_ok _
  | cons b bs ih => exact honest_bind (honest_ite (honest_bypass _ _ _) (honest_decision _ _ _ _)) fun _ => ih _

theorem honest_decRenorm (rd : Nat → Byte) (fuel : Nat) (r : DecRun) : Honest (DecRun.renorm rd fuel r) := by
  induction fuel generalizing r with
  | zero => exact honest_ok _
  | succ fuel ih => exact honest_ite (honest_bind (honest_getBit _ _) fun _ => ih _) (honest_ok _)

theorem honest_csrRd (csr : Nat) (s : State) : Honest (ruleCsrRd csr s) := by
  unfold ruleCsrRd
  split
  · exact honest_ok _
  · exact honest_error (by decide)

theorem honest_bcInit (mode : Nat) (ep grow : Bool) (s : State) : Honest (ruleBcInit mode ep grow s) := by
  unfold ruleBcInit
  split
  · exact honest_error (by decide)
  · exact honest_bind (honest_require (by decide)) fun _ => honest_pure _

theorem honest_rdcbp (intra : Bool) (s : State) : Honest (ruleCvRdcbp intra s) := by
  refine honest_bind (honest_require (by decide)) fun _ => honest_bind (honest_readUE _ _) fun x => ?_
  show Honest (match (cbpColumn s.geom.cat intra)[x.1]? with
    | some v => pure { s with cur := x.2, y0 := natWord v }
    | none => .error .eproto)
  split
  · exact honest_pure _
  · exact honest_error (by decide)

theorem honest_ctxget (c : Nat) (s : State) : Honest (ruleCbCtxget c s) := by
  refine honest_bind (honest_require (by decide)) fun _ => ?_
  split
  · exact honest_pure _
  · exact honest_error (by decide)

theorem honest_ddec (c : Nat) (s : State) : Honest (ruleCbDdec c s) := by
  refine honest_bind (honest_require (by decide)) fun _ => honest_bind (honest_require (by decide)) fun _ => ?_
  split
  · exact honest_error (by decide)
  · exact honest_ite (honest_bind (honest_decRenorm _ _ _) fun _ => honest_pure _)
      (honest_bind (honest_decRenorm _ _ _) fun _ => honest_pure _)

/-- No rule fails with OK or EFAULTED. -/
theorem honest_ruleOf (i : Instr) (s : State) : Honest (ruleOf i s) := by
  cases i with
  | nop =>
    exact honest_ok _
  | reset =>
    exact honest_ok _
  | csrRd _ =>
    exact honest_csrRd _ _
  | csrWr _ =>
    exact honest_csrWrite _ _ _
  | bcInit _ _ _ =>
    exact honest_bcInit _ _ _ _
  | bcRdu _ =>
    exact honest_bind (honest_require (by decide)) fun _ => honest_bind (honest_require (by decide)) fun _ =>
      honest_bind (honest_readBits _ _ _) fun _ => honest_pure _
  | bcRds _ =>
    exact honest_bind (honest_require (by decide)) fun _ => honest_bind (honest_require (by decide)) fun _ =>
      honest_bind (honest_readBits _ _ _) fun _ => honest_pure _
  | bcWru _ =>
    exact honest_bind (honest_require (by decide)) fun _ => honest_bind (honest_require (by decide)) fun _ =>
      honest_bind (honest_require (by decide)) fun _ => honest_bind (honest_writeBits _ _ _ _) fun _ => honest_pure
      _
  | bcWrs _ =>
    exact honest_bind (honest_require (by decide)) fun _ => honest_bind (honest_require (by decide)) fun _ =>
      honest_bind (honest_require (by decide)) fun _ => honest_bind (honest_writeBits _ _ _ _) fun _ => honest_pure
      _
  | bcAligned =>
    exact honest_bind (honest_require (by decide)) fun _ => honest_pure _
  | bcMore =>
    exact honest_bind (honest_require (by decide)) fun _ => honest_pure _
  | bcRdbytes =>
    exact honest_bind (honest_require (by decide)) fun _ => honest_bind (honest_require (by decide)) fun _ =>
      honest_bind (honest_require (by decide)) fun _ => honest_bind (honest_readRawBytes _ _ _ _ _) fun _ =>
      honest_pure _
  | bcWrbytes =>
    exact honest_bind (honest_require (by decide)) fun _ => honest_bind (honest_require (by decide)) fun _ =>
      honest_bind (honest_require (by decide)) fun _ => honest_bind (honest_writeRawBytes _ _ _ _ _) fun _ =>
      honest_pure _
  | egRdue =>
    exact honest_bind (honest_require (by decide)) fun _ => honest_bind (honest_readUE _ _) fun _ => honest_pure _
  | egWrue =>
    exact honest_bind (honest_require (by decide)) fun _ => honest_bind (honest_require (by decide)) fun _ =>
      honest_bind (honest_writeUE _ _ _) fun _ => honest_pure _
  | egRdse =>
    exact honest_bind (honest_require (by decide)) fun _ => honest_bind (honest_readUE _ _) fun _ => honest_pure _
  | egWrse =>
    exact honest_bind (honest_require (by decide)) fun _ => honest_bind (honest_require (by decide)) fun _ =>
      honest_bind (honest_writeUE _ _ _) fun _ => honest_pure _
  | egRdte =>
    exact honest_bind (honest_require (by decide)) fun _ => honest_ite (honest_bind (honest_getBit _ _) fun _ =>
      honest_pure _) (honest_bind (honest_readUE _ _) fun _ => honest_pure _)
  | egWrte =>
    exact honest_bind (honest_require (by decide)) fun _ => honest_ite (honest_bind (honest_require (by decide))
      fun _ => honest_bind (honest_putBit1 _ _ _) fun _ => honest_pure _) (honest_bind (honest_require (by decide))
      fun _ => honest_bind (honest_writeUE _ _ _) fun _ => honest_pure _)
  | cvNc _ _ =>
    exact honest_bind (honest_require (by decide)) fun _ => honest_bind (honest_require (by decide)) fun _ =>
      honest_bind (honest_require (by decide)) fun _ => honest_bind (honest_deriveNC _ _ _) fun _ => honest_pure _
  | cvRdtoken =>
    exact honest_bind (honest_require (by decide)) fun _ => honest_bind (honest_require (by decide)) fun _ =>
      honest_bind (honest_readCoeffToken _ _ _) fun _ => honest_pure _
  | cvWrtoken =>
    exact honest_bind (honest_require (by decide)) fun _ => honest_bind (honest_require (by decide)) fun _ =>
      honest_bind (honest_require (by decide)) fun _ => honest_bind (honest_writeCoeffToken _ _ _ _ _) fun _ =>
      honest_pure _
  | cvRdlevel =>
    exact honest_bind (honest_require (by decide)) fun _ => honest_bind (honest_require (by decide)) fun _ =>
      honest_bind (honest_readLevel _ _ _ _ _) fun _ => honest_pure _
  | cvWrlevel =>
    exact honest_bind (honest_require (by decide)) fun _ => honest_bind (honest_require (by decide)) fun _ =>
      honest_bind (honest_require (by decide)) fun _ => honest_bind (honest_writeLevel _ _ _ _ _) fun _ =>
      honest_pure _
  | cvRdtz =>
    exact honest_bind (honest_require (by decide)) fun _ => honest_bind (honest_require (by decide)) fun _ =>
      honest_bind (honest_require (by decide)) fun _ => honest_bind (honest_readTotalZeros _ _ _ _) fun _ =>
      honest_pure _
  | cvWrtz =>
    exact honest_bind (honest_require (by decide)) fun _ => honest_bind (honest_require (by decide)) fun _ =>
      honest_bind (honest_writeCodeword _ _ _ _) fun _ => honest_pure _
  | cvRdrun =>
    exact honest_bind (honest_require (by decide)) fun _ => honest_bind (honest_require (by decide)) fun _ =>
      honest_bind (honest_readRunBefore _ _ _) fun _ => honest_pure _
  | cvWrrun =>
    exact honest_bind (honest_require (by decide)) fun _ => honest_bind (honest_require (by decide)) fun _ =>
      honest_bind (honest_writeCodeword _ _ _ _) fun _ => honest_pure _
  | cvRdres _ _ _ _ =>
    exact honest_bind (honest_require (by decide)) fun _ => honest_bind (honest_checkResidualSetup _ _ _ _ _) fun
      _ => honest_bind (honest_readResidual _ _ _ _ _ _ _) fun _ => honest_pure _
  | cvWrres _ _ _ _ =>
    exact honest_bind (honest_require (by decide)) fun _ => honest_bind (honest_checkResidualSetup _ _ _ _ _) fun
      _ => honest_bind (honest_writeResidual _ _ _ _ _ _ _) fun _ => honest_pure _
  | cvRdcbp _ =>
    exact honest_rdcbp _ _
  | cvWrcbp _ =>
    exact honest_bind (honest_require (by decide)) fun _ => honest_bind (honest_require (by decide)) fun _ =>
      honest_bind (honest_writeUE _ _ _) fun _ => honest_pure _
  | cbCtxinit _ =>
    exact honest_bind (honest_require (by decide)) fun _ => honest_bind (honest_require (by decide)) fun _ =>
      honest_pure _
  | cbCtxset _ =>
    exact honest_bind (honest_require (by decide)) fun _ => honest_bind (honest_require (by decide)) fun _ =>
      honest_pure _
  | cbCtxget _ =>
    exact honest_ctxget _ _
  | cbEinit =>
    exact honest_bind (honest_require (by decide)) fun _ => honest_pure _
  | cbEdec _ =>
    exact honest_bind (honest_require (by decide)) fun _ => honest_bind (honest_require (by decide)) fun _ =>
      honest_bind (honest_decision _ _ _ _) fun _ => honest_pure _
  | cbEbyp =>
    exact honest_bind (honest_require (by decide)) fun _ => honest_bind (honest_require (by decide)) fun _ =>
      honest_bind (honest_bypass _ _ _) fun _ => honest_pure _
  | cbEterm =>
    exact honest_bind (honest_require (by decide)) fun _ => honest_bind (honest_require (by decide)) fun _ =>
      honest_ite (honest_bind (honest_flush _ _) fun _ => honest_pure _) (honest_bind (honest_encRenorm _ _ _) fun _
      => honest_pure _)
  | cbDinit =>
    exact honest_bind (honest_require (by decide)) fun _ => honest_bind (honest_readBits _ _ _) fun _ =>
      honest_bind (honest_require (by decide)) fun _ => honest_pure _
  | cbDdec _ =>
    exact honest_ddec _ _
  | cbDbyp =>
    exact honest_bind (honest_require (by decide)) fun _ => honest_bind (honest_getBit _ _) fun _ => honest_ite
      (honest_pure _) (honest_pure _)
  | cbDterm =>
    exact honest_bind (honest_require (by decide)) fun _ => honest_ite (honest_pure _) (honest_bind
      (honest_decRenorm _ _ _) fun _ => honest_pure _)
  | cbDbin _ _ =>
    exact honest_error (by decide)
  | bnU =>
    exact honest_bind (honest_require (by decide)) fun _ => honest_pure _
  | bnTu =>
    exact honest_bind (honest_require (by decide)) fun _ => honest_bind (honest_require (by decide)) fun _ =>
      honest_pure _
  | bnFl =>
    exact honest_bind (honest_require (by decide)) fun _ => honest_pure _
  | bnUegk _ _ =>
    exact honest_bind (honest_require (by decide)) fun _ => honest_pure _
  | bnEnc _ =>
    exact honest_bind (honest_require (by decide)) fun _ => honest_bind (honest_require (by decide)) fun _ =>
      honest_bind (honest_require (by decide)) fun _ => honest_bind (honest_encodeBins _ _ _ _) fun _ => honest_pure
      _
  | mbSlice =>
    exact honest_ok _
  | mbBegin =>
    exact honest_bind (honest_require (by decide)) fun _ => honest_bind (honest_require (by decide)) fun _ =>
      honest_bind (honest_require (by decide)) fun _ => honest_bind (honest_require (by decide)) fun _ =>
      honest_bind (honest_require (by decide)) fun _ => honest_bind (honest_require (by decide)) fun _ =>
      honest_bind (honest_require (by decide)) fun _ => honest_bind (honest_require (by decide)) fun _ =>
      honest_bind (honest_require (by decide)) fun _ => honest_pure _
  | mbSetnz _ _ _ =>
    exact honest_bind (honest_require (by decide)) fun _ => honest_bind (honest_require (by decide)) fun _ =>
      honest_ite (honest_bind (honest_require (by decide)) fun _ => honest_pure _) (honest_bind (honest_require (by
      decide)) fun _ => honest_pure _)
  | mbGet =>
    exact honest_bind (honest_require (by decide)) fun _ => honest_bind (honest_require (by decide)) fun _ =>
      honest_pure _
  | mbNbmb _ =>
    exact honest_bind (honest_require (by decide)) fun _ => honest_bind (honest_nbLoc _ _ _ _) fun _ =>
      honest_pure _
  | mbNbloc _ =>
    exact honest_bind (honest_require (by decide)) fun _ => honest_bind (honest_require (by decide)) fun _ =>
      honest_bind (honest_require (by decide)) fun _ => honest_bind (honest_nbLoc _ _ _ _) fun _ => honest_pure _
  | mbNbblk _ _ _ =>
    exact honest_bind (honest_require (by decide)) fun _ => honest_bind (honest_require (by decide)) fun _ =>
      honest_bind (honest_require (by decide)) fun _ => honest_bind (honest_require (by decide)) fun _ =>
      honest_bind (honest_nbBlk _ _ _ _) fun _ => honest_pure _
  | sgIdwr =>
    exact honest_bind (honest_require (by decide)) fun _ => honest_pure _
  | sgGen =>
    exact honest_bind (honest_require (by decide)) fun _ => honest_bind (honest_require (by decide)) fun _ =>
      honest_bind (honest_require (by decide)) fun _ => honest_pure _
  | sgMbgrp =>
    exact honest_bind (honest_require (by decide)) fun _ => honest_bind (honest_require (by decide)) fun _ =>
      honest_pure _
  | sgNext =>
    exact honest_bind (honest_require (by decide)) fun _ => honest_bind (honest_require (by decide)) fun _ =>
      honest_pure _

end Sys2Proof.Machine
end

