-- ==== Sys2Proof/Laws/Levels.lean ====
section
/-!
SUPPORT. Laws of the level codes (43_cavlc.md R235): reading a code that is there, and that the fields written for a
level are those read back as it.
-/

namespace Sys2Proof.Machine

/-- `ReadLevel` of the bits of a level code that are there. -/
theorem readLevel_append {rd : Nat → Byte} {c : Cursor} {maxPrefix sL p : Nat} {off : Bool} {suffix r : List Bool}
    (hp : p ≤ maxPrefix) (hs : suffix.length = levelSuffixSize sL p)
    (h : remBits rd c = List.replicate p false ++ true :: (suffix ++ r)) :
    ∃ d, readLevel rd maxPrefix sL off c = .ok ((levelValOf (levelCodeOf sL off p (bitsNat suffix)),
        nextSuffixLength sL (levelValOf (levelCodeOf sL off p (bitsNat suffix)))), d) ∧
      Consumed rd c d (p + 1 + suffix.length) r := by
  obtain ⟨d, hd, hcd⟩ := readZeroRun_append p maxPrefix 0 c hp h
  obtain ⟨e, he, hce⟩ := readBits_append hs hcd.rest
  refine ⟨e, ?_, ?_⟩
  · simp only [readLevel, hd, ok_bind, Nat.zero_add, he]; rfl
  · rw [hs]; exact hcd.trans hce

theorem escapePrefix_spec (fuel p x : Nat) (hp : 15 ≤ p) (hlo : 2 ^ (p - 3) ≤ x + 4096) (hx : x + 4096 < 2 ^ (p + fuel - 2)) :
    p ≤ escapePrefix fuel p x ∧ 2 ^ (escapePrefix fuel p x - 3) ≤ x + 4096 ∧ x + 4096 < 2 ^ (escapePrefix fuel p x - 2) := by
  induction fuel generalizing p with
  | zero => exact ⟨Nat.le_refl _, hlo, hx⟩
  | succ fuel ih =>
    unfold escapePrefix
    split
    · next h => exact ⟨Nat.le_refl _, hlo, h⟩
    · next h =>
      obtain ⟨h1, h2, h3⟩ := ih (p + 1) (by omega) (by rw [show p + 1 - 3 = p - 2 by omega]; omega) (by rw [show p + 1 + fuel - 2 = p + (fuel + 1) - 2 by omega]; exact hx)
      exact ⟨by omega, h2, h3⟩

theorem escapePrefix_small {fuel x : Nat} (hx : x < 4096) : escapePrefix (fuel + 1) 15 x = 15 := by
  unfold escapePrefix; rw [if_pos (by norm_num; omega)]

/-- The fields of a level code give it back. -/
theorem levelFields_spec (sL code : Nat) (hsL : sL ≤ 6) (hc : code < 2 ^ 33) :
    ∃ p size suffix, levelFields sL code = (p, size, suffix) ∧ size = levelSuffixSize sL p ∧ suffix < 2 ^ size ∧
      levelCodeOf sL false p suffix = code ∧ (code ≤ 4125 → p ≤ 15) := by
  have hpow := Nat.two_pow_pos sL
  unfold levelFields
  simp only
  split
  · next h => 
    refine ⟨_, _, _, rfl, ?_, by simp, ?_, by omega⟩
    · unfold levelSuffixSize; rw [if_neg (by omega), if_neg (by omega)]; omega
    · unfold levelCodeOf; simp only [h.1]; rw [if_neg (by omega), if_neg (by omega)]; simp; omega
  split
  · next h1 h =>
    refine ⟨_, _, _, rfl, ?_, by omega, ?_, by omega⟩
    · unfold levelSuffixSize; rw [if_pos ⟨rfl, h.1⟩]
    · unfold levelCodeOf; simp [h.1]; omega
  split
  · next h1 h2 h =>
    have hlt : code / 2 ^ sL < 15 := by rw [Nat.div_lt_iff_lt_mul hpow]; exact h.2
    refine ⟨_, _, _, rfl, ?_, Nat.mod_lt _ hpow, ?_, by omega⟩
    · unfold levelSuffixSize; rw [if_neg (by omega), if_neg (by omega)]
    · unfold levelCodeOf; rw [if_neg (by omega), if_neg (by omega), Nat.min_eq_right (by omega)]
      have := Nat.div_add_mod code (2 ^ sL); rw [Nat.mul_comm] at this; simp; omega
  · next h1 h2 h3 =>
    generalize hb : 15 * 2 ^ sL + (if sL = 0 then 15 else 0) = base
    have hbase : base ≤ code ∧ 30 ≤ base := by
      by_cases h0 : sL = 0
      · subst h0; simp at hb h1 h2; omega
      · simp [h0] at hb; have : 15 * 2 ^ sL ≤ code := by by_contra hh; exact h3 ⟨by omega, by omega⟩
        have : 2 ^ 1 ≤ 2 ^ sL := Nat.pow_le_pow_right (by omega) (by omega)
        omega
    obtain ⟨e1, e2, e3⟩ := escapePrefix_spec 24 15 (code - base) (by omega) (by norm_num) (by norm_num; omega)
    generalize hp : escapePrefix 24 15 (code - base) = p at *
    have h23 : 2 ^ (p - 2) = 2 * 2 ^ (p - 3) := by rw [show p - 2 = (p - 3) + 1 by omega, Nat.pow_succ]; omega
    refine ⟨_, _, _, rfl, ?_, by omega, ?_, fun h => ?_⟩
    · unfold levelSuffixSize; rw [if_neg (by omega), if_pos (by omega)]
    · unfold levelCodeOf
      rw [Nat.min_eq_left e1]
      by_cases h16 : 16 ≤ p
      · have : 2 ^ 13 ≤ 2 ^ (p - 3) := Nat.pow_le_pow_right (by omega) (by omega)
        by_cases h0 : sL = 0 <;> simp [h0, h16, e1] at hb ⊢ <;> omega
      · have h15 : p = 15 := by omega
        subst h15
        by_cases h0 : sL = 0 <;> simp [h0] at hb ⊢ <;> omega
    · rw [escapePrefix_small (by omega)] at hp; omega

/-- The level_prefix of a level code of 33 bits. -/
theorem levelPrefix_le {sL p suffix code : Nat} (h : levelCodeOf sL false p suffix = code) (hc : code < 2 ^ 33) :
    p ≤ 36 := by
  by_contra hp
  have h1 : 2 ^ 34 ≤ 2 ^ (p - 3) := Nat.pow_le_pow_right (by omega) (by omega)
  unfold levelCodeOf at h
  rw [if_pos (show p ≥ 16 by omega)] at h
  omega

theorem levelValOf_codeFor (off : Bool) (v : Int) (hv : v ≠ 0) (ho : ¬(off = true ∧ v.natAbs = 1)) :
    levelValOf (levelCodeFor off v + (if off then 2 else 0)) = v := by
  unfold levelValOf levelCodeFor
  cases off <;> simp at ho ⊢ <;> split <;> split <;> omega

theorem levelCodeOf_off (sL p suffix : Nat) (off : Bool) : levelCodeOf sL off p suffix = levelCodeOf sL false p suffix + (if off then 2 else 0) := by
  simp [levelCodeOf]

end Sys2Proof.Machine
end

