-- ==== Sys2Proof/Laws/Maps.lean ====
section
/-!
SUPPORT. The slice-group maps of every type (47_slice_group_map.md R372 to R379, R384): a value for each map unit, and
each value at most num.
-/

namespace Sys2Proof.Machine

/-- Map type 0 has a value for each unit, each a group (47_slice_group_map.md R372). -/
theorem interleavedMap_spec (sg : SliceGroups) (n g left : Nat) (hg : g ≤ sg.num) :
    (interleavedMap sg n g left).length = n ∧ ∀ v ∈ interleavedMap sg n g left, v ≤ sg.num := by
  induction n generalizing g left with
  | zero => simp [interleavedMap]
  | succ n ih =>
    cases left with
    | zero =>
      have h := ih (if g = sg.num then 0 else g + 1) (sg.runLengthAt (if g = sg.num then 0 else g + 1))
        (by split <;> omega)
      simpa [interleavedMap, hg] using h
    | succ left => simpa [interleavedMap, hg] using ih g left hg

/-- Map type 2 gives groups (47_slice_group_map.md R374). -/
theorem foregroundGroup_le (sg : SliceGroups) (w i : Nat) : foregroundGroup sg w i ≤ sg.num := by
  unfold foregroundGroup
  cases h : (List.range sg.num).find? fun g => sg.inRectangle w g i with
  | none => simp
  | some g => have := List.mem_range.1 (List.mem_of_find?_eq_some h); simp; omega

/-- Map types 4 and 5 give 0 and 1 (47_slice_group_map.md R376, R377). -/
theorem scanGroup_le (dir : Bool) (size k : Nat) : scanGroup dir size k ≤ 1 := by
  unfold scanGroup
  have := Bool.toNat_le dir
  split <;> omega

/-- Every map has a value for each map unit, in 0..num (47_slice_group_map.md R384), when R381's checks pass. -/
theorem unitMap_spec (sg : SliceGroups) (w h : Nat) (hw : 1 ≤ w) (hh : 1 ≤ h)
    (hok : sg.num = 0 ∨ sg.paramsOk w (w * h) = true) :
    (sg.unitMap w h).length = w * h ∧ ∀ v ∈ sg.unitMap w h, v ≤ sg.num := by
  unfold SliceGroups.unitMap
  by_cases hz : sg.num = 0
  · simp [hz]
  rw [if_neg hz]
  have hd : sg.changeDir.toNat ≤ 1 := Bool.toNat_le _
  have hm : sg.mapUnitsInGroup0 (w * h) ≤ w * h := Nat.min_le_right _ _
  have hp := hok.resolve_left hz
  unfold SliceGroups.paramsOk at hp
  split
  · exact interleavedMap_spec sg _ _ _ (Nat.zero_le _)
  · refine ⟨by simp, fun v hv => ?_⟩
    obtain ⟨i, -, rfl⟩ := List.mem_map.1 hv
    exact Nat.le_of_lt_succ (Nat.mod_lt _ (Nat.succ_pos _))
  · refine ⟨by simp, fun v hv => ?_⟩
    obtain ⟨i, -, rfl⟩ := List.mem_map.1 hv
    exact foregroundGroup_le sg w i
  · obtain ⟨hl, hb, -⟩ := boxOutMap_spec hd hw hh hm
    exact ⟨hl, fun v hv => by have := hb v hv; omega⟩
  · refine ⟨by simp, fun v hv => ?_⟩
    obtain ⟨i, -, rfl⟩ := List.mem_map.1 hv
    exact (scanGroup_le _ _ _).trans (by omega)
  · refine ⟨by simp, fun v hv => ?_⟩
    obtain ⟨i, -, rfl⟩ := List.mem_map.1 hv
    exact (scanGroup_le _ _ _).trans (by omega)
  · next h6 =>
    rw [h6] at hp
    refine ⟨by simp, fun v hv => ?_⟩
    obtain ⟨i, hi, rfl⟩ := List.mem_map.1 hv
    simpa using List.all_eq_true.1 hp i hi

end Sys2Proof.Machine
end

