-- ==== Sys2Proof/Laws/PerInstr.lean ====
section
/-!
SUPPORT. One lemma per command: a well-formed command's word decodes to that command (30_encoding.md R100 to R103).
-/

namespace Sys2Proof

set_option linter.unusedSimpArgs false

theorem wordOf_fields {opc f8 f16 : Nat} (ho : opc < 256) (h8 : f8 < 256) (h16 : f16 < 65536) :
    wordOpc (wordOf opc f8 f16) = opc ∧ wordF8 (wordOf opc f8 f16) = f8 ∧ wordF16 (wordOf opc f8 f16) = f16 := by
  have h : (wordOf opc f8 f16).toNat = opc * 2 ^ 24 + f8 * 2 ^ 16 + f16 := by
    simp only [wordOf, BitVec.toNat_ofNat]
    apply Nat.mod_eq_of_lt
    omega
  simp only [wordOpc, wordF8, wordF16, h]
  omega

/-- Decoding a word with given fields is decoding the fields. -/
theorem decode_wordOf {opc f8 f16 : Nat} (ho : opc < 256) (h8 : f8 < 256) (h16 : f16 < 65536) :
    decode (wordOf opc f8 f16) = decodeFields opc f8 f16 := by
  obtain ⟨h1, h2, h3⟩ := wordOf_fields ho h8 h16
  simp only [decode, h1, h2, h3]

theorem mbz_ok {opc : Nat} {zero : Bool} {i : Instr} (h : zero = true) : mbz opc zero i = .ok i := by
  simp [mbz, h]

/-- A well-formed command's word decodes to the command. -/
def Laws.RoundTrip.Statement (i : Instr) : Prop := i.wellFormed = true → decode (encode i) = .ok i

theorem Laws.RoundTrip.nop : Laws.RoundTrip.Statement .nop := by
  intro _; rfl

theorem Laws.RoundTrip.reset : Laws.RoundTrip.Statement .reset := by
  intro _; rfl

theorem Laws.RoundTrip.csrRd (csr : Nat) : Laws.RoundTrip.Statement (.csrRd csr) := by
  intro h
  simp only [Instr.wellFormed, decide_eq_true_eq] at h
  rw [encode, decode_wordOf (by simp only [Instr.opcode]; omega) (by simp only [Instr.f8]; omega) (by simp only [Instr.f16]; omega)]
  refine (mbz_ok ?_).trans ?_
  · simp only [Instr.f8, Instr.f16, bitField, Bool.and_eq_true, beq_iff_eq, true_and, and_true]; omega
  · simp [Instr.f8, Instr.f16, bitField, bitAt] <;> omega

theorem Laws.RoundTrip.csrWr (csr : Nat) : Laws.RoundTrip.Statement (.csrWr csr) := by
  intro h
  simp only [Instr.wellFormed, decide_eq_true_eq] at h
  rw [encode, decode_wordOf (by simp only [Instr.opcode]; omega) (by simp only [Instr.f8]; omega) (by simp only [Instr.f16]; omega)]
  refine (mbz_ok ?_).trans ?_
  · simp only [Instr.f8, Instr.f16, bitField, Bool.and_eq_true, beq_iff_eq, true_and, and_true]; omega
  · simp [Instr.f8, Instr.f16, bitField, bitAt] <;> omega

theorem Laws.RoundTrip.bcInit (mode : Nat) (ep : Bool) (grow : Bool) : Laws.RoundTrip.Statement (.bcInit mode ep grow) := by
  intro h
  simp only [Instr.wellFormed, decide_eq_true_eq] at h
  have := Bool.toNat_lt ep
  have := Bool.toNat_lt grow
  rw [encode, decode_wordOf (by simp only [Instr.opcode]; omega) (by simp only [Instr.f8]; omega) (by simp only [Instr.f16]; omega)]
  refine (mbz_ok ?_).trans ?_
  · simp only [Instr.f8, Instr.f16, bitField, Bool.and_eq_true, beq_iff_eq, true_and, and_true]; omega
  · cases ep <;> cases grow <;>
      simp [Instr.f8, Instr.f16, bitField, bitAt] <;> omega

theorem Laws.RoundTrip.bcRdu (n : Nat) : Laws.RoundTrip.Statement (.bcRdu n) := by
  intro h
  simp only [Instr.wellFormed, decide_eq_true_eq] at h
  rw [encode, decode_wordOf (by simp only [Instr.opcode]; omega) (by simp only [Instr.f8]; omega) (by simp only [Instr.f16]; omega)]
  rfl

theorem Laws.RoundTrip.bcRds (n : Nat) : Laws.RoundTrip.Statement (.bcRds n) := by
  intro h
  simp only [Instr.wellFormed, decide_eq_true_eq] at h
  rw [encode, decode_wordOf (by simp only [Instr.opcode]; omega) (by simp only [Instr.f8]; omega) (by simp only [Instr.f16]; omega)]
  rfl

theorem Laws.RoundTrip.bcWru (n : Nat) : Laws.RoundTrip.Statement (.bcWru n) := by
  intro h
  simp only [Instr.wellFormed, decide_eq_true_eq] at h
  rw [encode, decode_wordOf (by simp only [Instr.opcode]; omega) (by simp only [Instr.f8]; omega) (by simp only [Instr.f16]; omega)]
  rfl

theorem Laws.RoundTrip.bcWrs (n : Nat) : Laws.RoundTrip.Statement (.bcWrs n) := by
  intro h
  simp only [Instr.wellFormed, decide_eq_true_eq] at h
  rw [encode, decode_wordOf (by simp only [Instr.opcode]; omega) (by simp only [Instr.f8]; omega) (by simp only [Instr.f16]; omega)]
  rfl

theorem Laws.RoundTrip.bcAligned : Laws.RoundTrip.Statement .bcAligned := by
  intro _; rfl

theorem Laws.RoundTrip.bcMore : Laws.RoundTrip.Statement .bcMore := by
  intro _; rfl

theorem Laws.RoundTrip.bcRdbytes : Laws.RoundTrip.Statement .bcRdbytes := by
  intro _; rfl

theorem Laws.RoundTrip.bcWrbytes : Laws.RoundTrip.Statement .bcWrbytes := by
  intro _; rfl

theorem Laws.RoundTrip.egRdue : Laws.RoundTrip.Statement .egRdue := by
  intro _; rfl

theorem Laws.RoundTrip.egWrue : Laws.RoundTrip.Statement .egWrue := by
  intro _; rfl

theorem Laws.RoundTrip.egRdse : Laws.RoundTrip.Statement .egRdse := by
  intro _; rfl

theorem Laws.RoundTrip.egWrse : Laws.RoundTrip.Statement .egWrse := by
  intro _; rfl

theorem Laws.RoundTrip.egRdte : Laws.RoundTrip.Statement .egRdte := by
  intro _; rfl

theorem Laws.RoundTrip.egWrte : Laws.RoundTrip.Statement .egWrte := by
  intro _; rfl

theorem Laws.RoundTrip.cvNc (blkKind : Nat) (blkIdx : Nat) : Laws.RoundTrip.Statement (.cvNc blkKind blkIdx) := by
  intro h
  simp only [Instr.wellFormed, Bool.and_eq_true, decide_eq_true_eq] at h
  rw [encode, decode_wordOf (by simp only [Instr.opcode]; omega) (by simp only [Instr.f8]; omega) (by simp only [Instr.f16]; omega)]
  rfl

theorem Laws.RoundTrip.cvRdtoken : Laws.RoundTrip.Statement .cvRdtoken := by
  intro _; rfl

theorem Laws.RoundTrip.cvWrtoken : Laws.RoundTrip.Statement .cvWrtoken := by
  intro _; rfl

theorem Laws.RoundTrip.cvRdlevel : Laws.RoundTrip.Statement .cvRdlevel := by
  intro _; rfl

theorem Laws.RoundTrip.cvWrlevel : Laws.RoundTrip.Statement .cvWrlevel := by
  intro _; rfl

theorem Laws.RoundTrip.cvRdtz : Laws.RoundTrip.Statement .cvRdtz := by
  intro _; rfl

theorem Laws.RoundTrip.cvWrtz : Laws.RoundTrip.Statement .cvWrtz := by
  intro _; rfl

theorem Laws.RoundTrip.cvRdrun : Laws.RoundTrip.Statement .cvRdrun := by
  intro _; rfl

theorem Laws.RoundTrip.cvWrrun : Laws.RoundTrip.Statement .cvWrrun := by
  intro _; rfl

theorem Laws.RoundTrip.cvRdres (blkKind : Nat) (store : Bool) (ncx : Bool) (blkIdx : Nat) : Laws.RoundTrip.Statement (.cvRdres blkKind store ncx blkIdx) := by
  intro h
  simp only [Instr.wellFormed, Bool.and_eq_true, decide_eq_true_eq] at h
  have := Bool.toNat_lt store
  have := Bool.toNat_lt ncx
  rw [encode, decode_wordOf (by simp only [Instr.opcode]; omega) (by simp only [Instr.f8]; omega) (by simp only [Instr.f16]; omega)]
  refine (mbz_ok ?_).trans ?_
  · simp only [Instr.f8, Instr.f16, bitField, Bool.and_eq_true, beq_iff_eq, true_and, and_true]; omega
  · cases store <;> cases ncx <;>
      simp [Instr.f8, Instr.f16, bitField, bitAt] <;> omega

theorem Laws.RoundTrip.cvWrres (blkKind : Nat) (store : Bool) (ncx : Bool) (blkIdx : Nat) : Laws.RoundTrip.Statement (.cvWrres blkKind store ncx blkIdx) := by
  intro h
  simp only [Instr.wellFormed, Bool.and_eq_true, decide_eq_true_eq] at h
  have := Bool.toNat_lt store
  have := Bool.toNat_lt ncx
  rw [encode, decode_wordOf (by simp only [Instr.opcode]; omega) (by simp only [Instr.f8]; omega) (by simp only [Instr.f16]; omega)]
  refine (mbz_ok ?_).trans ?_
  · simp only [Instr.f8, Instr.f16, bitField, Bool.and_eq_true, beq_iff_eq, true_and, and_true]; omega
  · cases store <;> cases ncx <;>
      simp [Instr.f8, Instr.f16, bitField, bitAt] <;> omega

theorem Laws.RoundTrip.cvRdcbp (intra : Bool) : Laws.RoundTrip.Statement (.cvRdcbp intra) := by
  intro _; cases intra <;> rfl

theorem Laws.RoundTrip.cvWrcbp (intra : Bool) : Laws.RoundTrip.Statement (.cvWrcbp intra) := by
  intro _; cases intra <;> rfl

theorem Laws.RoundTrip.cbCtxinit (tableSel : Nat) : Laws.RoundTrip.Statement (.cbCtxinit tableSel) := by
  intro h
  simp only [Instr.wellFormed, decide_eq_true_eq] at h
  rw [encode, decode_wordOf (by simp only [Instr.opcode]; omega) (by simp only [Instr.f8]; omega) (by simp only [Instr.f16]; omega)]
  rfl

theorem Laws.RoundTrip.cbCtxset (ctxIdx : Nat) : Laws.RoundTrip.Statement (.cbCtxset ctxIdx) := by
  intro h
  simp only [Instr.wellFormed, decide_eq_true_eq] at h
  rw [encode, decode_wordOf (by simp only [Instr.opcode]; omega) (by simp only [Instr.f8]; omega) (by simp only [Instr.f16]; omega)]
  rfl

theorem Laws.RoundTrip.cbCtxget (ctxIdx : Nat) : Laws.RoundTrip.Statement (.cbCtxget ctxIdx) := by
  intro h
  simp only [Instr.wellFormed, decide_eq_true_eq] at h
  rw [encode, decode_wordOf (by simp only [Instr.opcode]; omega) (by simp only [Instr.f8]; omega) (by simp only [Instr.f16]; omega)]
  rfl

theorem Laws.RoundTrip.cbEinit : Laws.RoundTrip.Statement .cbEinit := by
  intro _; rfl

theorem Laws.RoundTrip.cbEdec (ctxIdx : Nat) : Laws.RoundTrip.Statement (.cbEdec ctxIdx) := by
  intro h
  simp only [Instr.wellFormed, decide_eq_true_eq] at h
  rw [encode, decode_wordOf (by simp only [Instr.opcode]; omega) (by simp only [Instr.f8]; omega) (by simp only [Instr.f16]; omega)]
  rfl

theorem Laws.RoundTrip.cbEbyp : Laws.RoundTrip.Statement .cbEbyp := by
  intro _; rfl

theorem Laws.RoundTrip.cbEterm : Laws.RoundTrip.Statement .cbEterm := by
  intro _; rfl

theorem Laws.RoundTrip.cbDinit : Laws.RoundTrip.Statement .cbDinit := by
  intro _; rfl

theorem Laws.RoundTrip.cbDdec (ctxIdx : Nat) : Laws.RoundTrip.Statement (.cbDdec ctxIdx) := by
  intro h
  simp only [Instr.wellFormed, decide_eq_true_eq] at h
  rw [encode, decode_wordOf (by simp only [Instr.opcode]; omega) (by simp only [Instr.f8]; omega) (by simp only [Instr.f16]; omega)]
  rfl

theorem Laws.RoundTrip.cbDbyp : Laws.RoundTrip.Statement .cbDbyp := by
  intro _; rfl

theorem Laws.RoundTrip.cbDterm : Laws.RoundTrip.Statement .cbDterm := by
  intro _; rfl

theorem Laws.RoundTrip.cbDbin (f8 : Nat) (f16 : Nat) : Laws.RoundTrip.Statement (.cbDbin f8 f16) := by
  intro h
  simp only [Instr.wellFormed, Bool.and_eq_true, decide_eq_true_eq] at h
  rw [encode, decode_wordOf (by simp only [Instr.opcode]; omega) (by simp only [Instr.f8]; omega) (by simp only [Instr.f16]; omega)]
  rfl

theorem Laws.RoundTrip.bnU : Laws.RoundTrip.Statement .bnU := by
  intro _; rfl

theorem Laws.RoundTrip.bnTu : Laws.RoundTrip.Statement .bnTu := by
  intro _; rfl

theorem Laws.RoundTrip.bnFl : Laws.RoundTrip.Statement .bnFl := by
  intro _; rfl

theorem Laws.RoundTrip.bnUegk (k : Nat) (signed : Bool) : Laws.RoundTrip.Statement (.bnUegk k signed) := by
  intro h
  simp only [Instr.wellFormed, decide_eq_true_eq] at h
  have := Bool.toNat_lt signed
  rw [encode, decode_wordOf (by simp only [Instr.opcode]; omega) (by simp only [Instr.f8]; omega) (by simp only [Instr.f16]; omega)]
  refine (mbz_ok ?_).trans ?_
  · simp only [Instr.f8, Instr.f16, bitField, Bool.and_eq_true, beq_iff_eq, true_and, and_true]; omega
  · cases signed <;>
      simp [Instr.f8, Instr.f16, bitField, bitAt] <;> omega

theorem Laws.RoundTrip.bnEnc (ctxIdx : Nat) : Laws.RoundTrip.Statement (.bnEnc ctxIdx) := by
  intro h
  simp only [Instr.wellFormed, decide_eq_true_eq] at h
  rw [encode, decode_wordOf (by simp only [Instr.opcode]; omega) (by simp only [Instr.f8]; omega) (by simp only [Instr.f16]; omega)]
  rfl

theorem Laws.RoundTrip.mbSlice : Laws.RoundTrip.Statement .mbSlice := by
  intro _; rfl

theorem Laws.RoundTrip.mbBegin : Laws.RoundTrip.Statement .mbBegin := by
  intro _; rfl

theorem Laws.RoundTrip.mbSetnz (comp : Nat) (size8 : Bool) (blkIdx : Nat) : Laws.RoundTrip.Statement (.mbSetnz comp size8 blkIdx) := by
  intro h
  simp only [Instr.wellFormed, Bool.and_eq_true, decide_eq_true_eq] at h
  have := Bool.toNat_lt size8
  rw [encode, decode_wordOf (by simp only [Instr.opcode]; omega) (by simp only [Instr.f8]; omega) (by simp only [Instr.f16]; omega)]
  refine (mbz_ok ?_).trans ?_
  · simp only [Instr.f8, Instr.f16, bitField, Bool.and_eq_true, beq_iff_eq, true_and, and_true]; omega
  · cases size8 <;>
      simp [Instr.f8, Instr.f16, bitField, bitAt] <;> omega

theorem Laws.RoundTrip.mbGet : Laws.RoundTrip.Statement .mbGet := by
  intro _; rfl

theorem Laws.RoundTrip.mbNbmb (dir : Bool) : Laws.RoundTrip.Statement (.mbNbmb dir) := by
  intro _; cases dir <;> rfl

theorem Laws.RoundTrip.mbNbloc (chroma : Bool) : Laws.RoundTrip.Statement (.mbNbloc chroma) := by
  intro _; cases chroma <;> rfl

theorem Laws.RoundTrip.mbNbblk (dir : Bool) (kind : Nat) (blkIdx : Nat) : Laws.RoundTrip.Statement (.mbNbblk dir kind blkIdx) := by
  intro h
  simp only [Instr.wellFormed, Bool.and_eq_true, decide_eq_true_eq] at h
  have := Bool.toNat_lt dir
  rw [encode, decode_wordOf (by simp only [Instr.opcode]; omega) (by simp only [Instr.f8]; omega) (by simp only [Instr.f16]; omega)]
  refine (mbz_ok ?_).trans ?_
  · simp only [Instr.f8, Instr.f16, bitField, Bool.and_eq_true, beq_iff_eq, true_and, and_true]; omega
  · cases dir <;>
      simp [Instr.f8, Instr.f16, bitField, bitAt] <;> omega

theorem Laws.RoundTrip.sgIdwr : Laws.RoundTrip.Statement .sgIdwr := by
  intro _; rfl

theorem Laws.RoundTrip.sgGen : Laws.RoundTrip.Statement .sgGen := by
  intro _; rfl

theorem Laws.RoundTrip.sgMbgrp : Laws.RoundTrip.Statement .sgMbgrp := by
  intro _; rfl

theorem Laws.RoundTrip.sgNext : Laws.RoundTrip.Statement .sgNext := by
  intro _; rfl

end Sys2Proof
end

