-- ==== Sys2Proof/Laws/Residual.lean ====
section
/-!
SUPPORT. Laws of the residual blocks (43_cavlc.md R244): what is written for the levels, the zeros and the runs is
`putBits` of bits that read back as them.
-/

namespace Sys2Proof.Machine

theorem coeffToken_row (nC : Int) (h1 : -2 ≤ nC) (h2 : nC < 8) (t1 tc : Nat) (htc : tc ≤ maxTotalCoeff nC)
    (ht1 : t1 ≤ min 3 tc) : ∃ r, rowOf (coeffTokenTable nC) (t1, tc) = some r := by
  have h16 : ∀ tc : Fin 17, ∀ t1 : Fin 4, t1.val ≤ tc.val → (rowOf coeffTokenV0 (t1.val, tc.val)).isSome ∧
      (rowOf coeffTokenV1 (t1.val, tc.val)).isSome ∧ (rowOf coeffTokenV2 (t1.val, tc.val)).isSome ∧
      (tc.val ≤ 8 → (rowOf coeffTokenVM2 (t1.val, tc.val)).isSome) ∧
      (tc.val ≤ 4 → (rowOf coeffTokenVM1 (t1.val, tc.val)).isSome) := by decide +kernel
  rw [← Option.isSome_iff_exists]
  unfold maxTotalCoeff at htc
  unfold coeffTokenTable
  split
  · next h =>
    subst h
    simp at htc
    exact (h16 ⟨tc, by omega⟩ ⟨t1, by omega⟩ (by show t1 ≤ tc; omega)).2.2.2.1 htc
  · next h =>
    split
    · next h' =>
      subst h'
      simp at htc
      exact (h16 ⟨tc, by omega⟩ ⟨t1, by omega⟩ (by show t1 ≤ tc; omega)).2.2.2.2 htc
    · next h' =>
      rw [if_neg h', if_neg h] at htc
      have := h16 ⟨tc, by omega⟩ ⟨t1, by omega⟩ (by show t1 ≤ tc; omega)
      split
      · exact this.1
      · split
        · exact this.2.1
        · exact this.2.2.1

theorem totalZeros_row (m t tz : Nat) (hm : m = 4 ∨ m = 8 ∨ m = 15 ∨ m = 16) (ht : 1 ≤ t) (ht2 : t ≤ tzMax m)
    (htz : tz + t ≤ m) : ∃ r, rowOf (totalZerosTable m t) tz = some r := by
  have a4 : ∀ t : Fin 16, ∀ z : Fin 16, 1 ≤ t.val → z.val + t.val ≤ 16 → (rowOf (totalZeros4x4 t.val) z.val).isSome := by
    decide +kernel
  have a2 : ∀ t : Fin 4, ∀ z : Fin 4, 1 ≤ t.val → z.val + t.val ≤ 4 → (rowOf (totalZeros2x2 t.val) z.val).isSome := by
    decide +kernel
  have a8 : ∀ t : Fin 8, ∀ z : Fin 8, 1 ≤ t.val → z.val + t.val ≤ 8 → (rowOf (totalZeros2x4 t.val) z.val).isSome := by
    decide +kernel
  rw [← Option.isSome_iff_exists]
  unfold tzMax at ht2
  unfold totalZerosTable
  rcases hm with rfl | rfl | rfl | rfl
  · exact a2 ⟨t, by simp at ht2; omega⟩ ⟨tz, by omega⟩ ht htz
  · exact a8 ⟨t, by simp at ht2; omega⟩ ⟨tz, by omega⟩ ht htz
  · exact a4 ⟨t, by simp at ht2; omega⟩ ⟨tz, by omega⟩ ht (by show tz + t ≤ 16; omega)
  · exact a4 ⟨t, by simp at ht2; omega⟩ ⟨tz, by omega⟩ ht htz

theorem runBefore_row (zl r : Nat) (h1 : 1 ≤ zl) (hr : r ≤ min zl 14) :
    ∃ row, rowOf (runBefore (min zl 7)) r = some row := by
  have a : ∀ z : Fin 8, ∀ r : Fin 15, 1 ≤ z.val → (r.val ≤ z.val ∨ z.val = 7) → (rowOf (runBefore z.val) r.val).isSome := by
    decide +kernel
  rw [← Option.isSome_iff_exists]
  exact a ⟨min zl 7, by omega⟩ ⟨r, by omega⟩ (by show 1 ≤ min zl 7; omega) (by show r ≤ min zl 7 ∨ min zl 7 = 7; omega)

/-- Writing and reading the levels of a block are inverse, up to the greatest level_prefix `pre` they need; beyond
MaxLevelPrefix the write is EPROTO (43_cavlc.md R235, R244, R250). -/
theorem writeLevels_spec (p : Params) (t1 : Nat) (vs : List Int) (i sL : Nat) (hsL : sL ≤ 6)
    (hv : ∀ v ∈ vs, v ≠ 0 ∧ v.natAbs ≤ 2 ^ 31)
    (hi : ∀ (j : Nat) (v : Int), vs[j]? = some v → (i + j < t1 → v.natAbs = 1) ∧ (i + j = t1 → t1 < 3 → v.natAbs ≠ 1)) :
    ∃ bs pre, bs.length ≤ 70 * vs.length ∧
      ((∀ v ∈ vs, v.natAbs ≤ 2063) → pre ≤ 15 ∧ bs.length ≤ 28 * vs.length) ∧
      (pre ≤ p.maxLevelPrefix → ∀ t, writeLevels p t1 vs i sL t = putBits p bs t) ∧
      (p.maxLevelPrefix < pre → ∃ as, as.length ≤ bs.length ∧
        ∀ t, writeLevels p t1 vs i sL t = putBits p as t >>= fun _ => .error .eproto) ∧
      ∀ (rd : Nat → Byte) (maxPrefix : Nat) (c : Cursor) (r : List Bool), pre ≤ maxPrefix → remBits rd c = bs ++ r →
        ∃ d, readLevels rd maxPrefix t1 vs.length i sL c = .ok (vs, d) ∧ Consumed rd c d bs.length r := by
  induction vs generalizing i sL with
  | nil =>
    refine ⟨[], 0, by simp, by simp, fun _ t => rfl, fun h => absurd h (Nat.not_lt_zero _),
      fun rd mp c r _ h => ⟨c, rfl, ?_⟩⟩
    exact ⟨Cursor.Moved.refl c, rfl, rfl, h⟩
  | cons v vs ih =>
    obtain ⟨hv0, hvb⟩ := hv v (by simp)
    have hi0 := hi 0 v rfl
    have hrest : ∀ (j : Nat) (w : Int), vs[j]? = some w →
        (i + 1 + j < t1 → w.natAbs = 1) ∧ (i + 1 + j = t1 → t1 < 3 → w.natAbs ≠ 1) := by
      intro j w hj
      have := hi (j + 1) w (by simpa using hj)
      rwa [show i + (j + 1) = i + 1 + j by omega] at this
    by_cases hlt : i < t1
    · obtain ⟨bs, pre, hl, hsm, hw, hx, hr⟩ := ih (i + 1) sL hsL (fun w hw => hv w (by simp [hw])) hrest
      refine ⟨decide (v < 0) :: bs, pre, by simp; omega, fun h => ?_, fun hle t => ?_, fun hgt => ?_,
        fun rd mp c r hmp h => ?_⟩
      · have := hsm fun w hw => h w (by simp [hw])
        simp only [List.length_cons]
        omega
      · simp only [writeLevels, if_pos hlt, putBits_cons]
        congr 1
        funext u
        exact hw hle u
      · obtain ⟨as, ha, hwa⟩ := hx hgt
        refine ⟨decide (v < 0) :: as, by simpa using ha, fun t => ?_⟩
        simp only [writeLevels, if_pos hlt, putBits_cons, bind_assoc]
        congr 1
        funext u
        exact hwa u
      · clear hx
        obtain ⟨d, hd, hcd⟩ := getBit_cons (show remBits rd c = decide (v < 0) :: (bs ++ r) from h)
        obtain ⟨e, he, hce⟩ := hr rd mp d r hmp hcd.rest
        refine ⟨e, ?_, ?_⟩
        · simp only [List.length_cons, readLevels, if_pos hlt, hd, ok_bind, he]
          have := hi0.1 (by omega)
          have hvv : (if decide (v < 0) = true then (-1 : Int) else 1) = v := by
            simp only [decide_eq_true_eq]
            split <;> omega
          simp only [hvv]
          rfl
        · have := hcd.trans hce
          rwa [show 1 + bs.length = (decide (v < 0) :: bs).length by simp; omega] at this
    · generalize hoff : decide (i = t1 ∧ t1 < 3) = off
      have ho : ¬(off = true ∧ v.natAbs = 1) := by
        rintro ⟨h1, h2⟩
        rw [← hoff, decide_eq_true_eq] at h1
        exact hi0.2 (by omega) h1.2 h2
      obtain ⟨pre, size, suffix, hfl, hsz, hsuf, hco, hp15⟩ := levelFields_spec sL (levelCodeFor off v) hsL (by
        unfold levelCodeFor
        split <;> split <;> omega)
      have hpre : v.natAbs ≤ 2063 → pre ≤ 15 := fun h => hp15 (by unfold levelCodeFor; split <;> split <;> omega)
      have hpre36 : pre ≤ 36 := levelPrefix_le hco (by unfold levelCodeFor; split <;> split <;> omega)
      have hsize : size ≤ 12 ∨ size = pre - 3 := by
        rw [hsz]
        unfold levelSuffixSize
        split
        · omega
        · split <;> omega
      have hnext : nextSuffixLength sL v ≤ 6 := by
        unfold nextSuffixLength
        simp only
        split <;> split <;> omega
      have hbits : levelBits sL off v = List.replicate pre false ++ true :: fieldBits suffix size := by
        unfold levelBits
        rw [hfl]
      have hbl : (levelBits sL off v).length = pre + 1 + size := by rw [hbits]; simp [fieldBits_length]; omega
      obtain ⟨bs, pre2, hl, hsm, hw, hx, hr⟩ := ih (i + 1) _ hnext (fun w hw => hv w (by simp [hw])) hrest
      refine ⟨levelBits sL off v ++ bs, max pre pre2, ?_, fun h => ?_, fun hle t => ?_, fun hgt => ?_,
        fun rd mp c r hmp h => ?_⟩
      · simp only [List.length_append, List.length_cons, hbl]
        omega
      · have h1 := hpre (h v (by simp))
        have h2 := hsm fun w hw => h w (by simp [hw])
        simp only [List.length_append, List.length_cons, hbl]
        omega
      · simp only [writeLevels, if_neg hlt, hoff, writeLevel_eq, hfl]
        rw [if_pos (by omega), putBits_append]
        cases putBits p (levelBits sL off v) t with
        | ok u => simp only [ok_bind]; exact hw (by omega) u
        | error e => rfl
      · by_cases h1 : pre ≤ p.maxLevelPrefix
        · obtain ⟨as, ha, hwa⟩ := hx (by omega)
          refine ⟨levelBits sL off v ++ as, by simpa using ha, fun t => ?_⟩
          simp only [writeLevels, if_neg hlt, hoff, writeLevel_eq, hfl]
          rw [if_pos h1, putBits_append]
          cases putBits p (levelBits sL off v) t with
          | ok u => simp only [ok_bind]; exact hwa u
          | error e => rfl
        · refine ⟨[], by simp, fun t => ?_⟩
          simp only [writeLevels, if_neg hlt, hoff, writeLevel_eq, hfl]
          rw [if_neg h1]
          rfl
      · rw [hbits, List.append_assoc, List.append_assoc] at h
        obtain ⟨d, hd, hcd⟩ := readLevel_append (off := off) (sL := sL) (suffix := fieldBits suffix size)
          (show pre ≤ mp by omega) (by rw [fieldBits_length, hsz]) (by simpa using h)
        rw [bitsNat_fieldBits _ _ hsuf, levelCodeOf_off, hco, levelValOf_codeFor off v hv0 ho] at hd
        obtain ⟨e, he, hce⟩ := hr rd mp d r (by omega) hcd.rest
        refine ⟨e, ?_, ?_⟩
        · simp only [List.length_cons, readLevels, if_neg hlt, hoff, hd, ok_bind, he]
          rfl
        · have := hcd.trans hce
          rw [hbits]
          simp only [fieldBits_length, List.length_append, List.length_replicate, List.length_cons] at this ⊢
          rwa [show pre + (size + 1) + bs.length = pre + 1 + size + bs.length by omega]

/-- Writing and reading one run are inverse (43_cavlc.md R242 to R244). -/
theorem writeRun_spec (p : Params) (zl r : Nat) (hr : r ≤ min zl 14) :
    ∃ bs, (∀ t, writeRun p zl r t = putBits p bs t) ∧ bs.length ≤ 11 ∧
      ∀ (rd : Nat → Byte) (c : Cursor) (rest : List Bool), remBits rd c = bs ++ rest →
        ∃ d, readRun rd zl c = .ok (r, d) ∧ Consumed rd c d bs.length rest := by
  by_cases h0 : 0 < zl
  · obtain ⟨row, hrow⟩ := runBefore_row zl r h0 hr
    obtain ⟨hmem, hsym⟩ := rowOf_mem hrow
    obtain ⟨hread, hpos, hlen⟩ := tableOk_row (runBefore_ok zl) hmem
    refine ⟨fieldBits row.code row.len, fun t => ?_, by rw [fieldBits_length]; exact hlen, fun rd c rest h => ?_⟩
    · rw [writeRun, if_pos h0, writeCodeword_row hrow]
    · obtain ⟨d, hd, hcd⟩ := readCodeword_row hread hlen hpos h
      refine ⟨d, ?_, by rwa [fieldBits_length]⟩
      rw [hsym] at hd
      have : r ≤ zl := by omega
      simp only [readRun, if_pos h0, readRunBefore, hd, ok_bind]
      rw [require_pos _ this]
      rfl
  · refine ⟨[], fun t => by rw [writeRun, if_neg h0]; rfl, by simp, fun rd c rest h => ?_⟩
    have : r = 0 := by omega
    exact ⟨c, by rw [readRun, if_neg h0, this], Cursor.Moved.refl c, rfl, rfl, h⟩

/-- total_zeros of a block (43_cavlc.md R239, R240, R244). -/
theorem writeBlockZeros_spec (p : Params) (tc n m tz : Nat) (hm : m = 4 ∨ m = 8 ∨ m = 15 ∨ m = 16) (h1 : 1 ≤ tc)
    (hn : n ≤ m) (hz : tz + tc ≤ n) :
    ∃ bs, (∀ t, writeBlockZeros p tc n m tz t = putBits p bs t) ∧ bs.length ≤ 9 ∧
      ∀ (rd : Nat → Byte) (c : Cursor) (rest : List Bool), remBits rd c = bs ++ rest →
        ∃ d, readBlockZeros rd tc n m c = .ok (tz, d) ∧ Consumed rd c d bs.length rest := by
  by_cases hlt : tc < n
  · have ht : tc ≤ tzMax m := by
      unfold tzMax
      rcases hm with rfl | rfl | rfl | rfl <;> simp <;> omega
    obtain ⟨row, hrow⟩ := totalZeros_row m tc tz hm h1 ht (by omega)
    obtain ⟨hmem, hsym⟩ := rowOf_mem hrow
    obtain ⟨hread, hpos, hlen⟩ := tableOk_row (totalZerosTable_ok m tc ht) hmem
    refine ⟨fieldBits row.code row.len, fun t => ?_, by rw [fieldBits_length]; exact hlen, fun rd c rest h => ?_⟩
    · rw [writeBlockZeros, if_pos hlt, writeCodeword_row hrow]
    · obtain ⟨d, hd, hcd⟩ := readCodeword_row hread hlen hpos h
      refine ⟨d, ?_, by rwa [fieldBits_length]⟩
      rw [hsym] at hd
      have : tz + tc ≤ m := by omega
      simp only [readBlockZeros, if_pos hlt, readTotalZeros, hd, ok_bind]
      rw [require_pos _ this]
      rfl
  · refine ⟨[], fun t => by rw [writeBlockZeros, if_neg hlt]; rfl, by simp, fun rd c rest h => ?_⟩
    have : tz = 0 := by omega
    exact ⟨c, by rw [readBlockZeros, if_neg hlt, this], Cursor.Moved.refl c, rfl, rfl, h⟩

/-- coeff_token of a block (43_cavlc.md R233, R234). -/
theorem writeCoeffToken_spec (p : Params) (nC : Int) (t1 tc : Nat) (h1 : -2 ≤ nC) (htc : tc ≤ maxTotalCoeff nC)
    (ht1 : t1 ≤ min 3 tc) :
    ∃ bs, (∀ t, writeCoeffToken p nC t1 tc t = putBits p bs t) ∧ bs.length ≤ 16 ∧
      (nC < 8 → ∃ row ∈ coeffTokenTable nC, row.sym = (t1, tc) ∧ bs = row.bits) ∧
      (8 ≤ nC → bs.length = 6 ∧ bitsNat bs = if tc = 0 then 3 else 4 * (tc - 1) + t1) ∧
      ∀ (rd : Nat → Byte) (c : Cursor) (rest : List Bool), remBits rd c = bs ++ rest →
        ∃ d, readCoeffToken rd nC c = .ok ((t1, tc), d) ∧ Consumed rd c d bs.length rest := by
  by_cases h8 : 8 ≤ nC
  · have htc16 : tc ≤ 16 := by
      unfold maxTotalCoeff at htc
      split at htc
      · omega
      · split at htc <;> omega
    have hv : (if tc = 0 then 3 else 4 * (tc - 1) + t1) < 2 ^ 6 := by split <;> omega
    refine ⟨fieldBits (if tc = 0 then 3 else 4 * (tc - 1) + t1) 6, fun t => ?_, by simp [fieldBits_length], by omega,
      fun _ => ⟨fieldBits_length _ _, bitsNat_fieldBits _ _ hv⟩, fun rd c rest h => ?_⟩
    · rw [writeCoeffToken, if_pos h8]
      rfl
    · obtain ⟨d, hd, hcd⟩ := readBits_field hv h
      refine ⟨d, ?_, by rwa [fieldBits_length]⟩
      simp only [readCoeffToken, if_pos h8, hd, ok_bind]
      by_cases h0 : tc = 0
      · simp only [if_pos h0]
        have : t1 = 0 := by omega
        subst h0 this
        rfl
      · simp only [if_neg h0]
        have e1 : (4 * (tc - 1) + t1) % 4 = t1 := by omega
        have e2 : (4 * (tc - 1) + t1) / 4 + 1 = tc := by omega
        rw [e1, e2, if_neg (by omega), require_pos _ ht1]
        rfl
  · obtain ⟨row, hrow⟩ := coeffToken_row nC h1 (by omega) t1 tc htc ht1
    obtain ⟨hmem, hsym⟩ := rowOf_mem hrow
    obtain ⟨hread, hpos, hlen⟩ := tableOk_row (coeffTokenTable_ok nC) hmem
    refine ⟨row.bits, fun t => ?_, by rw [Vlc.bits, fieldBits_length]; exact hlen, fun _ => ⟨row, hmem, hsym, rfl⟩, by omega,
      fun rd c rest h => ?_⟩
    · rw [writeCoeffToken, if_neg h8, writeCodeword_row hrow]
      rfl
    · obtain ⟨d, hd, hcd⟩ := readCodeword_row hread hlen hpos h
      rw [hsym] at hd
      exact ⟨d, by rw [readCoeffToken, if_neg h8]; exact hd, by rwa [Vlc.bits, fieldBits_length]⟩

/-! The runs and the places of the levels. -/

/-- The runs below the positions of a block, the lowest of which may not be below `first` (43_cavlc.md R244). -/
def gaps (first : Nat) : List Nat → List Nat
  | [] => []
  | [a] => [a - first]
  | a :: b :: rest => (a - b - 1) :: gaps first (b :: rest)

/-- Positions in decreasing order, none below `first`. -/
def Descending (first : Nat) : List Nat → Prop
  | [] => True
  | [a] => first ≤ a
  | a :: b :: rest => b < a ∧ Descending first (b :: rest)

theorem Descending.length_le {first a : Nat} {rest : List Nat} (h : Descending first (a :: rest)) :
    first + rest.length ≤ a := by
  induction rest generalizing a with
  | nil => exact h
  | cons b rest ih =>
    have := ih h.2
    have := h.1
    simp
    omega

/-- Writing and reading the runs of a block are inverse (43_cavlc.md R244, R250). -/
theorem writeRuns_spec (p : Params) (first a : Nat) (rest : List Nat) (zl : Nat) (hd : Descending first (a :: rest))
    (hzl : zl + rest.length + first = a) (h14 : rest ≠ [] → zl ≤ 14) :
    ∃ bs, (∀ t, writeRuns p (a :: rest) zl t = putBits p bs t) ∧ bs.length ≤ 11 * rest.length ∧
      ∀ (rd : Nat → Byte) (c : Cursor) (r : List Bool), remBits rd c = bs ++ r →
        ∃ d, readRuns rd rest.length zl c = .ok (gaps first (a :: rest), d) ∧ Consumed rd c d bs.length r := by
  induction rest generalizing a zl with
  | nil =>
    refine ⟨[], fun t => rfl, by simp, fun rd c r h => ⟨c, ?_, Cursor.Moved.refl c, rfl, rfl, h⟩⟩
    simp at hzl
    simp only [List.length_nil, readRuns, gaps]
    rw [show a - first = zl by omega]
  | cons b rest ih =>
    have hle := hd.2.length_le
    have hlt := hd.1
    simp only [List.length_cons] at hzl
    have hz := h14 (by simp)
    obtain ⟨b1, hw1, hl1, hr1⟩ := writeRun_spec p zl (a - b - 1) (by omega)
    obtain ⟨b2, hw2, hl2, hr2⟩ := ih b (zl - (a - b - 1)) hd.2 (by omega) (by intro; omega)
    refine ⟨b1 ++ b2, fun t => ?_, by simp; omega, fun rd c r h => ?_⟩
    · rw [putBits_append, ← hw1]
      simp only [writeRuns]
      congr 1
      funext u
      exact hw2 u
    · rw [List.append_assoc] at h
      obtain ⟨d, hd1, hcd⟩ := hr1 rd c _ h
      obtain ⟨e, he, hce⟩ := hr2 rd d r hcd.rest
      refine ⟨e, ?_, by simpa using hcd.trans hce⟩
      simp only [List.length_cons, readRuns, hd1, ok_bind, he, gaps]
      rfl

theorem placeLevels_append (xs ys : List (Int × Nat)) (pos : Nat) (coef : Vector Word 16) :
    placeLevels (xs ++ ys) pos coef = placeLevels ys (pos + (xs.map fun x => x.2 + 1).sum) (placeLevels xs pos coef) := by
  induction xs generalizing pos coef with
  | nil => rfl
  | cons x xs ih =>
    simp only [List.cons_append, placeLevels, ih, List.map_cons, List.sum_cons]
    congr 1
    omega

theorem gaps_length (first : Nat) (pos : List Nat) : (gaps first pos).length = pos.length := by
  induction pos with
  | nil => rfl
  | cons a rest ih =>
    cases rest with
    | nil => rfl
    | cons b rest => simp only [gaps, List.length_cons] at ih ⊢; omega

/-- The levels are placed where they were taken from (43_cavlc.md R244). -/
theorem placeLevels_gaps (first : Nat) (level : Nat → Int) (pos : List Nat) (hd : Descending first pos)
    (h16 : ∀ a ∈ pos, a < 16) (coef : Vector Word 16) :
    first + ((((pos.map level).zip (gaps first pos)).reverse.map fun x => x.2 + 1).sum) =
        (match pos with | [] => first | a :: _ => a + 1) ∧
      ∀ j : Fin 16, (placeLevels ((pos.map level).zip (gaps first pos)).reverse first coef)[j] =
        if j.val ∈ pos then intWord (level j.val) else coef[j] := by
  induction pos with
  | nil => exact ⟨rfl, fun j => by simp [placeLevels]⟩
  | cons a rest ih =>
    cases rest with
    | nil =>
      have ha : first ≤ a := hd
      refine ⟨by simp [gaps]; omega, fun j => ?_⟩
      have hv : placeLevels (([a].map level).zip (gaps first [a])).reverse first coef =
          coef.setIfInBounds a (intWord (level a)) := by
        show coef.setIfInBounds (first + (a - first)) (intWord (level a)) = _
        rw [show first + (a - first) = a by omega]
      rw [hv]
      simp only [Fin.getElem_fin, Vector.getElem_setIfInBounds, List.mem_singleton]
      by_cases hj : a = j.val
      · rw [if_pos hj, if_pos hj.symm, hj]
      · rw [if_neg hj, if_neg (fun h => hj h.symm)]
    | cons b rest =>
      obtain ⟨hs, hp⟩ := ih hd.2 (fun x hx => h16 x (by simp [hx]))
      have hlt := hd.1
      have hz : (((a :: b :: rest).map level).zip (gaps first (a :: b :: rest))).reverse =
          (((b :: rest).map level).zip (gaps first (b :: rest))).reverse ++ [(level a, a - b - 1)] := by
        show ((level a, a - b - 1) :: ((b :: rest).map level).zip (gaps first (b :: rest))).reverse = _
        rw [List.reverse_cons]
      generalize (((b :: rest).map level).zip (gaps first (b :: rest))).reverse = ps at *
      refine ⟨?_, fun j => ?_⟩
      · rw [hz, List.map_append, List.sum_append]
        simp only [List.map_cons, List.map_nil, List.sum_cons, List.sum_nil] at hs ⊢
        omega
      · have hv : placeLevels (((a :: b :: rest).map level).zip (gaps first (a :: b :: rest))).reverse first coef =
            (placeLevels ps first coef).setIfInBounds a (intWord (level a)) := by
          rw [hz, placeLevels_append]
          simp only [placeLevels]
          simp only at hs
          rw [show first + (List.map (fun x : Int × Nat => x.2 + 1) ps).sum + (a - b - 1) = a by omega]
        rw [hv]
        simp only [Fin.getElem_fin, Vector.getElem_setIfInBounds] at hp ⊢
        by_cases hj : a = j.val
        · rw [if_pos hj, if_pos (by simp [hj]), hj]
        · rw [if_neg hj, hp j]
          have hm : (j.val ∈ a :: b :: rest) ↔ (j.val ∈ b :: rest) := by
            simp only [List.mem_cons]
            constructor
            · rintro (h | h)
              · exact absurd h.symm hj
              · exact h
            · exact .inr
          simp only [hm]

theorem nonzeroPositions_mem (coef : Nat → Word) (first n j : Nat) :
    j ∈ nonzeroPositions coef first n ↔ first ≤ j ∧ j < first + n ∧ coef j ≠ 0 := by
  simp only [nonzeroPositions, List.mem_reverse, List.mem_filter, List.mem_map, List.mem_range, decide_eq_true_eq]
  constructor
  · rintro ⟨⟨k, hk, rfl⟩, h⟩
    exact ⟨by omega, by omega, h⟩
  · rintro ⟨h1, h2, h3⟩
    exact ⟨⟨j - first, by omega, by omega⟩, h3⟩

theorem nonzeroPositions_length_le (coef : Nat → Word) (first n : Nat) : (nonzeroPositions coef first n).length ≤ n := by
  unfold nonzeroPositions
  rw [List.length_reverse]
  refine (List.length_filter_le _ _).trans ?_
  simp

theorem descending_of_pairwise (first : Nat) (l : List Nat) (h : l.Pairwise (· > ·)) (hf : ∀ a ∈ l, first ≤ a) :
    Descending first l := by
  induction l with
  | nil => trivial
  | cons a rest ih =>
    cases rest with
    | nil => exact hf a (by simp)
    | cons b rest =>
      rw [List.pairwise_cons] at h
      exact ⟨h.1 b (by simp), ih h.2 (fun x hx => hf x (by simp [hx]))⟩

theorem nonzeroPositions_descending (coef : Nat → Word) (first n : Nat) :
    Descending first (nonzeroPositions coef first n) := by
  refine descending_of_pairwise first _ ?_ fun a ha => ((nonzeroPositions_mem coef first n a).mp ha).1
  unfold nonzeroPositions
  rw [List.pairwise_reverse]
  refine List.Pairwise.filter _ ?_
  rw [List.pairwise_map]
  exact List.Pairwise.imp (fun {a b} h => by omega) List.pairwise_lt_range

/-- The leading levels of magnitude 1, at most three (43_cavlc.md R244). -/
theorem leadingOnes_spec (room : Nat) (vs : List Int) :
    leadingOnes room vs ≤ room ∧ leadingOnes room vs ≤ vs.length ∧
      ∀ (j : Nat) (v : Int), vs[j]? = some v → (j < leadingOnes room vs → v.natAbs = 1) ∧
        (j = leadingOnes room vs → leadingOnes room vs < room → v.natAbs ≠ 1) := by
  induction vs generalizing room with
  | nil => cases room <;> exact ⟨by simp [leadingOnes], by simp [leadingOnes], by simp⟩
  | cons w vs ih =>
    cases room with
    | zero => exact ⟨by simp [leadingOnes], by simp [leadingOnes], fun j v _ => ⟨by simp [leadingOnes], by simp [leadingOnes]⟩⟩
    | succ room =>
      obtain ⟨h1, h2, h3⟩ := ih room
      by_cases hw : w.natAbs = 1
      · simp only [leadingOnes, if_pos hw, List.length_cons]
        refine ⟨by omega, by omega, fun j v hj => ?_⟩
        cases j with
        | zero =>
          simp at hj
          subst hj
          exact ⟨fun _ => hw, by omega⟩
        | succ j =>
          have := h3 j v (by simpa using hj)
          exact ⟨fun h => this.1 (by omega), fun h h' => this.2 (by omega) (by omega)⟩
      · simp only [leadingOnes, if_neg hw, List.length_cons]
        refine ⟨by omega, by omega, fun j v hj => ⟨by omega, fun h _ => ?_⟩⟩
        subst h
        simp at hj
        subst hj
        exact hw

/-- Writing and reading a residual block are inverse, up to the greatest level_prefix `pre` the block needs; beyond
MaxLevelPrefix the write is EPROTO (43_cavlc.md R244, R246, R250). -/
theorem writeResidual_spec (p : Params) (nC : Int) (first n m : Nat) (coef : Nat → Word)
    (hnC : -2 ≤ nC) (hm : m = 4 ∨ m = 8 ∨ m = 15 ∨ m = 16) (hn1 : 1 ≤ n) (hn : first + n ≤ m)
    (htc : n ≤ maxTotalCoeff nC) :
    ∃ bs t1 tc pre, bs.length ≤ 1310 ∧ t1 ≤ min 3 tc ∧ tc = (nonzeroPositions coef first n).length ∧
      ((∀ j, first ≤ j → j < first + n → (coef j).toInt.natAbs ≤ 2063) → pre ≤ 15 ∧ bs.length ≤ 638) ∧
      (pre ≤ p.maxLevelPrefix →
        ∀ t, writeResidual p nC first n m coef t = putBits p bs t >>= fun u => .ok ((t1, tc), u)) ∧
      (p.maxLevelPrefix < pre → ∃ as, as.length ≤ bs.length ∧
        ∀ t, writeResidual p nC first n m coef t = putBits p as t >>= fun _ => .error .eproto) ∧
      ∀ (rd : Nat → Byte) (maxPrefix : Nat) (c : Cursor) (r : List Bool), pre ≤ maxPrefix → remBits rd c = bs ++ r →
        ∃ (d : Cursor) (x : Vector Word 16), readResidual rd maxPrefix nC first n m c = .ok (⟨t1, tc, x⟩, d) ∧
          Consumed rd c d bs.length r ∧
          ∀ j : Fin 16, x[j] = if first ≤ j.val ∧ j.val < first + n then coef j.val else 0 := by
  have hmem := nonzeroPositions_mem coef first n
  have hlen := nonzeroPositions_length_le coef first n
  have hdesc := nonzeroPositions_descending coef first n
  have hform : ∀ t, writeResidual p nC first n m coef t = writeCoeffToken p nC
      (leadingOnes 3 ((nonzeroPositions coef first n).map fun j => sext32 (coef j))) (nonzeroPositions coef first n).length t
      >>= fun u1 => if (nonzeroPositions coef first n).length = 0 then
          .ok ((leadingOnes 3 ((nonzeroPositions coef first n).map fun j => sext32 (coef j)),
            (nonzeroPositions coef first n).length), u1)
        else writeLevels p (leadingOnes 3 ((nonzeroPositions coef first n).map fun j => sext32 (coef j)))
          ((nonzeroPositions coef first n).map fun j => sext32 (coef j)) 0
          (firstSuffixLength (leadingOnes 3 ((nonzeroPositions coef first n).map fun j => sext32 (coef j)))
            (nonzeroPositions coef first n).length) u1 >>= fun u2 =>
          writeBlockZeros p (nonzeroPositions coef first n).length n m
            ((nonzeroPositions coef first n).headD 0 - first + 1 - (nonzeroPositions coef first n).length) u2 >>= fun u3 =>
          writeRuns p (nonzeroPositions coef first n)
            ((nonzeroPositions coef first n).headD 0 - first + 1 - (nonzeroPositions coef first n).length) u3 >>= fun u4 =>
          .ok ((leadingOnes 3 ((nonzeroPositions coef first n).map fun j => sext32 (coef j)),
            (nonzeroPositions coef first n).length), u4) := by
    intro t
    unfold writeResidual
    show (require ((nonzeroPositions coef first n).length ≤ maxTotalCoeff nC) Code.einval >>= _) = _
    rw [require_pos _ (show (nonzeroPositions coef first n).length ≤ maxTotalCoeff nC by omega)]
    rfl
  have hcoef : ∀ j : Fin 16, (if j.val ∈ nonzeroPositions coef first n then intWord (sext32 (coef j.val)) else 0) =
      if first ≤ j.val ∧ j.val < first + n then coef j.val else 0 := by
    intro j
    have := hmem j.val
    by_cases hj : j.val ∈ nonzeroPositions coef first n
    · rw [if_pos hj, if_pos ⟨(this.mp hj).1, (this.mp hj).2.1⟩]
      simp [intWord, sext32]
    · rw [if_neg hj]
      split
      · next h =>
        by_contra h0
        exact hj (this.mpr ⟨h.1, h.2, fun h' => h0 h'.symm⟩)
      · rfl
  have hlev : ∀ v ∈ (nonzeroPositions coef first n).map (fun j => sext32 (coef j)), v ≠ 0 ∧ v.natAbs ≤ 2 ^ 31 := by
    intro v hv
    obtain ⟨j, hj, rfl⟩ := List.mem_map.mp hv
    have := (hmem j).mp hj
    have h1 := BitVec.le_toInt (coef j)
    have h2 := BitVec.toInt_lt (x := coef j)
    exact ⟨fun h => this.2.2 (BitVec.eq_of_toInt_eq h), by unfold sext32; omega⟩
  have hsmall : (∀ j, first ≤ j → j < first + n → (coef j).toInt.natAbs ≤ 2063) →
      ∀ v ∈ (nonzeroPositions coef first n).map (fun j => sext32 (coef j)), v.natAbs ≤ 2063 := by
    intro h v hv
    obtain ⟨j, hj, rfl⟩ := List.mem_map.mp hv
    have := (hmem j).mp hj
    exact h j this.1 this.2.1
  have h16 : ∀ a ∈ nonzeroPositions coef first n, a < 16 := by
    intro a ha
    have := (hmem a).mp ha
    omega
  have hplace := (placeLevels_gaps first (fun j => sext32 (coef j)) _ hdesc h16 (Vector.replicate 16 0)).2
  generalize nonzeroPositions coef first n = pos at *
  obtain ⟨l1, l2, l3⟩ := leadingOnes_spec 3 (pos.map fun j => sext32 (coef j))
  rw [List.length_map] at l2
  generalize leadingOnes 3 (pos.map fun j => sext32 (coef j)) = t1 at *
  obtain ⟨b1, hw1, hl1, _, _, hr1⟩ := writeCoeffToken_spec p nC t1 pos.length hnC (by omega) (by omega)
  cases pos with
  | nil =>
    simp only [List.length_nil] at l2
    refine ⟨b1, t1, 0, 0, by omega, by omega, rfl, fun _ => ⟨by omega, by omega⟩, fun _ t => ?_,
      fun h => absurd h (Nat.not_lt_zero _), fun rd mp c r _ h => ?_⟩
    · rw [hform, hw1]
      rfl
    · obtain ⟨d, hd, hcd⟩ := hr1 rd c r h
      refine ⟨d, Vector.replicate 16 0, ?_, hcd, fun j => ?_⟩
      · simp only [readResidual, hd, ok_bind, List.length_nil]
        rfl
      · rw [← hcoef j]
        simp
  | cons a rest =>
    have hle := hdesc.length_le
    have ha := (hmem a).mp (by simp)
    simp only [List.length_cons] at *
    obtain ⟨b2, pre, hl2, hs2, hw2, hx2, hr2⟩ := writeLevels_spec p t1 _ 0 (firstSuffixLength t1 (rest.length + 1)) (by
      unfold firstSuffixLength
      split <;> omega) hlev (fun j v hj => by
        have := l3 j v hj
        exact ⟨fun h => this.1 (by omega), fun h h' => this.2 (by omega) h'⟩)
    simp only [List.length_map, List.length_cons] at hl2 hs2 hr2
    generalize hz : (a :: rest).headD 0 - first + 1 - (rest.length + 1) = tz at *
    have hz' : tz + rest.length + first = a := by
      simp at hz
      omega
    obtain ⟨b3, hw3, hl3, hr3⟩ := writeBlockZeros_spec p (rest.length + 1) n m tz hm (by omega) (by omega) (by omega)
    obtain ⟨b4, hw4, hl4, hr4⟩ := writeRuns_spec p first a rest tz hdesc hz' (by
      intro h
      have : 1 ≤ rest.length := List.length_pos_iff.mpr h
      omega)
    refine ⟨b1 ++ (b2 ++ (b3 ++ b4)), t1, rest.length + 1, pre, ?_, by omega, rfl, fun h => ?_, fun hle t => ?_,
      fun hgt => ?_, fun rd mp c r hmp h => ?_⟩
    · clear hx2
      simp only [List.length_append]
      omega
    · have := hs2 (hsmall h)
      clear hx2
      simp only [List.length_append]
      omega
    · rw [hform, hw1]
      simp only [putBits_append, bind_assoc, hw2 hle, hw3, hw4]
      rfl
    · obtain ⟨as, ha, hwa⟩ := hx2 hgt
      refine ⟨b1 ++ as, by simp only [List.length_append]; omega, fun t => ?_⟩
      rw [hform, hw1]
      simp only [putBits_append, bind_assoc, hwa]
      rfl
    · simp only [List.append_assoc] at h
      obtain ⟨d1, e1, c1⟩ := hr1 rd c _ h
      obtain ⟨d2, e2, c2⟩ := hr2 rd mp d1 _ hmp c1.rest
      obtain ⟨d3, e3, c3⟩ := hr3 rd d2 _ c2.rest
      obtain ⟨d4, e4, c4⟩ := hr4 rd d3 _ c3.rest
      refine ⟨d4, placeLevels (((a :: rest).map fun j => sext32 (coef j)).zip (gaps first (a :: rest))).reverse first
        (Vector.replicate 16 0), ?_, ?_, fun j => (hplace j).trans (by rw [← hcoef j]; simp)⟩
      · simp only [readResidual, e1, ok_bind]
        rw [require_pos _ (show rest.length + 1 ≤ n by omega), ok_bind, if_neg (by omega)]
        simp only [e2, ok_bind, e3]
        rw [require_pos _ (show tz + (rest.length + 1) ≤ n by omega)]
        simp only [ok_bind, Nat.add_sub_cancel, e4]
        rfl
      · have := ((c1.trans c2).trans c3).trans c4
        simpa [Nat.add_assoc] using this

end Sys2Proof.Machine
end

