-- ==== Sys2Proof/Tests/Slice0.lean ====
section
/-!
SUPPORT. The model's own tests: ill-formed terms, words written out from 30_encoding.md R101, one step each of the
commands with results taken from 95_test_vectors.md or worked by hand from the rules, and for every statement with
hypotheses a state and operands that meet them.
-/

open Sys2Proof Sys2Proof.Machine

namespace Sys2Proof.Tests

set_option Elab.async false

/-! WellFormed: an ill-formed term for each check (30_encoding.md R101's field widths). -/

theorem test_ill_formed_csr : Instr.wellFormed (.csrRd 4096) = false ∧ Instr.wellFormed (.csrWr 4096) = false := by decide

theorem test_ill_formed_bits : Instr.wellFormed (.bcInit 4 false false) = false ∧ Instr.wellFormed (.bcRdu 256) = false ∧
    Instr.wellFormed (.bcRds 256) = false ∧ Instr.wellFormed (.bcWru 256) = false ∧
    Instr.wellFormed (.bcWrs 256) = false := by decide

theorem test_ill_formed_cavlc : Instr.wellFormed (.cvNc 256 0) = false ∧ Instr.wellFormed (.cvNc 0 65536) = false ∧
    Instr.wellFormed (.cvRdres 8 false false 0) = false ∧ Instr.wellFormed (.cvRdres 0 false false 65536) = false ∧
    Instr.wellFormed (.cvWrres 8 true true 0) = false ∧ Instr.wellFormed (.cvWrres 0 true true 65536) = false := by decide

theorem test_ill_formed_cabac : Instr.wellFormed (.cbCtxinit 256) = false ∧
    Instr.wellFormed (.cbCtxset 65536) = false ∧ Instr.wellFormed (.cbCtxget 65536) = false ∧
    Instr.wellFormed (.cbEdec 65536) = false ∧ Instr.wellFormed (.cbDdec 65536) = false ∧
    Instr.wellFormed (.cbDbin 256 0) = false ∧ Instr.wellFormed (.cbDbin 0 65536) = false ∧
    Instr.wellFormed (.bnUegk 16 false) = false ∧ Instr.wellFormed (.bnEnc 65536) = false := by decide

theorem test_ill_formed_mb : Instr.wellFormed (.mbSetnz 4 false 0) = false ∧
    Instr.wellFormed (.mbSetnz 0 false 65536) = false ∧ Instr.wellFormed (.mbNbblk false 4 0) = false ∧
    Instr.wellFormed (.mbNbblk false 0 65536) = false := by decide

/-! Decode: a word of every command, its fields written out from 30_encoding.md R101 as OPC, F8, F16. -/

theorem test_decode_control : decode 0b00000000_00000000_0000000000000000 = .ok .nop ∧
    decode 0b00000001_00000000_0000000000000000 = .ok .reset ∧
    decode 0b00000010_00000000_0000100000000001 = .ok (.csrRd 0x801) ∧
    decode 0b00000011_00000000_0000000001100111 = .ok (.csrWr 0x067) := by decide

theorem test_decode_bit_cursor : decode 0b00010000_00001101_0000000000000000 = .ok (.bcInit 1 true true) ∧
    decode 0b00010001_10000001_0000000000000000 = .ok (.bcRdu 129) ∧
    decode 0b00010010_00000100_0000000000000000 = .ok (.bcRds 4) ∧
    decode 0b00010011_00100000_0000000000000000 = .ok (.bcWru 32) ∧
    decode 0b00010100_00000001_0000000000000000 = .ok (.bcWrs 1) ∧
    decode 0b00010101_00000000_0000000000000000 = .ok .bcAligned ∧
    decode 0b00010110_00000000_0000000000000000 = .ok .bcMore ∧
    decode 0b00010111_00000000_0000000000000000 = .ok .bcRdbytes ∧
    decode 0b00011000_00000000_0000000000000000 = .ok .bcWrbytes := by decide

theorem test_decode_exp_golomb : decode 0b00100000_00000000_0000000000000000 = .ok .egRdue ∧
    decode 0b00100001_00000000_0000000000000000 = .ok .egWrue ∧
    decode 0b00100010_00000000_0000000000000000 = .ok .egRdse ∧
    decode 0b00100011_00000000_0000000000000000 = .ok .egWrse ∧
    decode 0b00100100_00000000_0000000000000000 = .ok .egRdte ∧
    decode 0b00100101_00000000_0000000000000000 = .ok .egWrte := by decide

theorem test_decode_cavlc : decode 0b00110000_00000011_1000000000000001 = .ok (.cvNc 3 0x8001) ∧
    decode 0b00110001_00000000_0000000000000000 = .ok .cvRdtoken ∧
    decode 0b00110010_00000000_0000000000000000 = .ok .cvWrtoken ∧
    decode 0b00110011_00000000_0000000000000000 = .ok .cvRdlevel ∧
    decode 0b00110100_00000000_0000000000000000 = .ok .cvWrlevel ∧
    decode 0b00110101_00000000_0000000000000000 = .ok .cvRdtz ∧
    decode 0b00110110_00000000_0000000000000000 = .ok .cvWrtz ∧
    decode 0b00110111_00000000_0000000000000000 = .ok .cvRdrun ∧
    decode 0b00111000_00000000_0000000000000000 = .ok .cvWrrun ∧
    decode 0b00111001_01000101_0000000000001111 = .ok (.cvRdres 5 true false 15) ∧
    decode 0b00111010_10000010_0000000000000111 = .ok (.cvWrres 2 false true 7) ∧
    decode 0b00111011_00000001_0000000000000000 = .ok (.cvRdcbp true) ∧
    decode 0b00111100_00000000_0000000000000000 = .ok (.cvWrcbp false) := by decide

theorem test_decode_cabac : decode 0b01000000_00000011_0000000000000000 = .ok (.cbCtxinit 3) ∧
    decode 0b01000001_00000000_0000001111111111 = .ok (.cbCtxset 1023) ∧
    decode 0b01000010_00000000_0000011111010000 = .ok (.cbCtxget 2000) ∧
    decode 0b01000011_00000000_0000000000000000 = .ok .cbEinit ∧
    decode 0b01000100_00000000_0000000000000011 = .ok (.cbEdec 3) ∧
    decode 0b01000101_00000000_0000000000000000 = .ok .cbEbyp ∧
    decode 0b01000110_00000000_0000000000000000 = .ok .cbEterm ∧
    decode 0b01001000_00000000_0000000000000000 = .ok .cbDinit ∧
    decode 0b01001001_00000000_0000000100010100 = .ok (.cbDdec 276) ∧
    decode 0b01001010_00000000_0000000000000000 = .ok .cbDbyp ∧
    decode 0b01001011_00000000_0000000000000000 = .ok .cbDterm ∧
    decode 0b01001100_11111111_1111111111111111 = .ok (.cbDbin 255 65535) := by decide

theorem test_decode_binarization : decode 0b01010000_00000000_0000000000000000 = .ok .bnU ∧
    decode 0b01010001_00000000_0000000000000000 = .ok .bnTu ∧
    decode 0b01010010_00000000_0000000000000000 = .ok .bnFl ∧
    decode 0b01010011_00010011_0000000000000000 = .ok (.bnUegk 3 true) ∧
    decode 0b01010100_00000000_1111111111111111 = .ok (.bnEnc 0xFFFF) := by decide

theorem test_decode_mb : decode 0b01100000_00000000_0000000000000000 = .ok .mbSlice ∧
    decode 0b01100001_00000000_0000000000000000 = .ok .mbBegin ∧
    decode 0b01100010_00010010_0000000000000010 = .ok (.mbSetnz 2 true 2) ∧
    decode 0b01100011_00000000_0000000000000000 = .ok .mbGet ∧
    decode 0b01100100_00000001_0000000000000000 = .ok (.mbNbmb true) ∧
    decode 0b01100101_00000001_0000000000000000 = .ok (.mbNbloc true) ∧
    decode 0b01100110_00000101_0000000000001001 = .ok (.mbNbblk true 2 9) := by decide

theorem test_decode_slice_group : decode 0b01110000_00000000_0000000000000000 = .ok .sgIdwr ∧
    decode 0b01110001_00000000_0000000000000000 = .ok .sgGen ∧
    decode 0b01110010_00000000_0000000000000000 = .ok .sgMbgrp ∧
    decode 0b01110011_00000000_0000000000000000 = .ok .sgNext := by decide

/-- An unassigned opcode and a must-be-zero bit (V-CTL-16, V-CTL-17, V-CTL-21). -/
theorem test_decode_rejects : decode 0x05000000 = .error (.unknownOpcode 5) ∧
    decode 0x00000001 = .error (.mustBeZero 0) ∧ decode 0x03001000 = .error (.mustBeZero 3) := by decide

/-! The small states the tests and witnesses run on. -/

/-- The command answers a next state with `p`. -/
def answers (o : Host.Outcome State Fault Refusal) (p : State → Bool) : Bool :=
  match o with
  | .next t => p t
  | _ => false

/-- The command completes with OK and `p`. -/
def completes (o : Host.Outcome State Fault Refusal) (p : State → Bool) : Bool :=
  answers o fun t => decide (t.status = ⟨.ok, false, 0⟩) && p t

/-- The command fails with the code `e`, FAULT set and its opcode in FAILOP. -/
def failsAs (o : Host.Outcome State Fault Refusal) (e : Code) (opc : Byte) : Bool :=
  answers o fun t => decide (t.status = ⟨e, true, opc⟩)

/-- "DEC, BUF b0 b1 ..." of 95_test_vectors.md section 0. -/
def decOver (bytes : List Byte) (ep : Bool) : State :=
  { State.reset with
    buf := (List.range bytes.length).zip bytes
    cur := ⟨.dec, ep, false, natWord bytes.length, natWord bytes.length, 0, 0, 0, 0, 0⟩ }

/-- "ENC growable" of 95_test_vectors.md section 0. -/
def encOpen (ep : Bool) : State := { State.reset with cur := ⟨.enc, ep, true, 0, 0, 0, 0, 0, 0, 0⟩ }

/-- The state with operand values for A0..A3. -/
def withA (s : State) (a b c d : Word) : State := { s with a0 := a, a1 := b, a2 := c, a3 := d }

/-- The bits written to the stream are the n bits of v, and BITS says so. -/
def wrote (t : State) (v n : Nat) : Bool := decide (t.written = fieldBits v n) && decide (t.cur.bits.toNat = n)

/-- The first bins, BINLEN of them. -/
def binsAre (t : State) (bs : List Bool) : Bool := decide ((List.range t.binLen).map t.binAt = bs)

/-- ENC growable with contexts 0 = (0, 0), 1 = (10, 1) after CB_EINIT (2.5 of 95_test_vectors.md). -/
def encEngine : State :=
  { encOpen false with enc := ⟨0, 510, 0, true, true⟩, ctx := [(0, ⟨0, false⟩), (1, ⟨10, true⟩)] }

/-- DEC after CB_DINIT with codIOffset `o` over seven more bits 0; context 0 = (0, 0). -/
def decEngine (o : BitVec 9) : State :=
  { decOver [0, 0] false with
    cur := ⟨.dec, false, false, 2, 2, 2, 0, 7, 0, 9⟩, dec := ⟨510, o, true⟩, ctx := [(0, ⟨0, false⟩)] }

/-- An MB entry with these flags and MBTYPE and no counts. -/
def entry (skip ipcm intra field : Bool) (mbType : Byte) : MbEntry :=
  ⟨skip, ipcm, intra, field, mbType, Vector.replicate 48 0, Vector.replicate 12 0⟩

/-- W w, HMU h, a frame picture of frame macroblocks. -/
def picture (w h : BitVec 16) : State :=
  { State.reset with geom := { State.reset.geom with picWidthMbs := w, picHeightMapUnits := h } }

/-- Start state S5 of 95_test_vectors.md 2.7. -/
def s5 : State :=
  { picture 4 3 with
    currMbAddr := 5
    currValid := true
    mb := [(0, entry false false true false 1),
      (1, { entry false false true false 1 with nz := (Vector.replicate 48 0).set 10 4 }),
      (2, entry true false false false 0), (3, entry false true true false 1),
      (4, { entry false false true false 1 with nz := (Vector.replicate 48 0).set 5 3 }),
      (5, entry false false true false 1)] }

/-- An MBAFF picture, W 2, HMU 2, with the given current macroblock; pair 0 field, pair 1 frame, pair 2 field
(V-MB-84 and V-MB-90). -/
def mbaff (curr : Word) : State :=
  { picture 2 2 with
    geom := ⟨2, 2, false, true, false, 1, false⟩
    currMbAddr := curr
    currValid := true
    mb := [(0, entry false false true true 1), (1, entry false false true true 1),
      (2, entry false false true false 1), (3, entry false false true false 1),
      (4, entry false false true true 1), (5, entry false false true true 1)] }

/-- A picture of 12 map units with SG_NUM_MINUS1 1 and map type `m` (2.8 of 95_test_vectors.md). -/
def groups (m : Fin 7) : State :=
  { picture 4 3 with sg := { SliceGroups.reset with numMinus1 := 1, mapType := m } }

/-- `y` are the Y registers. -/
def ysAre (t : State) (a b c d : Word) : Bool := decide (t.y0 = a ∧ t.y1 = b ∧ t.y2 = c ∧ t.y3 = d)

/-! One step of each command. The id after a test is the row of 95_test_vectors.md its result is taken from. -/

/-- A state whose FAULT is 1 after the word 0x05000000. -/
def faulted : State := { State.reset with status := ⟨.eillegal, true, 5⟩ }

/-- V-CTL-15. -/
theorem test_nop : answers (exec .nop faulted) (fun t => decide (t = { faulted with status := ⟨.ok, true, 5⟩ })) = true := by
  decide +kernel

/-- V-CTL-15. -/
theorem test_reset : completes (exec .reset faulted) (fun t => decide (t.status.failop = 0)) = true := by
  decide +kernel

/-- V-CTL-2. -/
theorem test_csr_rd : completes (exec (.csrRd 0x033) (picture 20 11)) (fun t => decide (t.y0 = 220)) = true := by
  decide +kernel

/-- V-CTL-12. -/
theorem test_csr_rd_unlisted : failsAs (exec (.csrRd 0x0FF) State.reset) .einval 2 = true := by decide +kernel

/-- V-CTL-3. -/
theorem test_csr_wr : completes (exec (.csrWr 0x020) (withA State.reset 19 0 0 0))
    (fun t => decide (t.geom.picWidthMbs = 19)) = true := by decide +kernel

/-- V-CTL-10. -/
theorem test_csr_wr_zero_width : failsAs (exec (.csrWr 0x020) State.reset) .einval 3 = true := by decide +kernel

/-- V-CTL-19. -/
theorem test_efaulted : answers (issueWord 0xFF000000 faulted) (fun t => decide (t.status = ⟨.efaulted, true, 5⟩)) = true := by
  decide +kernel

/-- V-BC-2. -/
theorem test_bc_init : completes (exec (.bcInit 2 false true) State.reset)
    (fun t => decide (t.cur = (encOpen false).cur)) = true := by decide +kernel

/-- V-BC-1, MODE=1 with 65 bytes. -/
theorem test_bc_init_too_long : failsAs (exec (.bcInit 1 false false) (withA State.reset 65 0 0 0)) .einval 0x10 = true := by
  decide +kernel

/-- V-BC-7. -/
theorem test_bc_rdu : completes (exec (.bcRdu 24) (decOver [0, 0, 3, 1] true))
    (fun t => decide (t.y0 = 1 ∧ t.cur.off = 4 ∧ t.cur.zeros = 0 ∧ t.cur.bits = 24)) = true := by decide +kernel

/-- V-BC-3. -/
theorem test_bc_rds : completes (exec (.bcRds 4) (decOver [0xA5, 0xF0] false))
    (fun t => decide (t.y0 = 0xFFFFFFFA)) = true := by decide +kernel

/-- V-BC-19. -/
theorem test_bc_wru_too_large : failsAs (exec (.bcWru 3) (withA (encOpen false) 8 0 0 0)) .einval 0x13 = true := by
  decide +kernel

/-- V-BC-18's first write. -/
theorem test_bc_wru : completes (exec (.bcWru 3) (withA (encOpen false) 5 0 0 0)) (fun t => wrote t 5 3) = true := by
  decide +kernel

/-- V-BC-20. -/
theorem test_bc_wrs : completes (exec (.bcWrs 4) (withA (encOpen false) (-2) 0 0 0)) (fun t => wrote t 14 4) = true := by
  decide +kernel

/-- V-BC-20. -/
theorem test_bc_wrs_too_small : failsAs (exec (.bcWrs 4) (withA (encOpen false) (-9) 0 0 0)) .einval 0x14 = true := by
  decide +kernel

/-- V-BC-25, after 3 bits: not aligned. -/
theorem test_bc_aligned : completes (exec .bcAligned { decOver [0xFF] false with
    cur := ⟨.dec, false, false, 1, 1, 1, 0xF8, 5, 0, 3⟩ }) (fun t => decide (t.y0 = 0)) = true := by decide +kernel

/-- V-BC-26. -/
theorem test_bc_more : completes (exec .bcMore (decOver [0x80] false)) (fun t => decide (t.y0 = 0)) = true := by
  decide +kernel

/-- V-BC-27. -/
theorem test_bc_more_strict : completes (exec .bcMore (decOver [0x80, 0] false)) (fun t => decide (t.y0 = 1)) = true := by
  decide +kernel

/-- V-BC-35. -/
theorem test_bc_rdbytes : completes (exec .bcRdbytes (withA (decOver [1, 2] false) 1 4095 0 0))
    (fun t => decide (t.rawByte 4095 = 1)) = true := by decide +kernel

/-- V-BC-35. -/
theorem test_bc_rdbytes_past_end : failsAs (exec .bcRdbytes (withA (decOver [1, 2] false) 1 4096 0 0)) .einval 0x17 = true := by
  decide +kernel

/-- V-BC-17. -/
theorem test_bc_wrbytes : completes (exec .bcWrbytes (withA { encOpen true with
    raw := [(0, 0), (1, 0), (2, 3), (3, 0), (4, 0), (5, 3)] } 6 0 0 0))
    (fun t => decide (t.output = [0, 0, 3, 3, 0, 0, 3, 3] ∧ t.cur.bits = 48)) = true := by decide +kernel

/-- V-EG-13. -/
theorem test_eg_rdue : completes (exec .egRdue (decOver [0, 0, 0, 1, 255, 255, 255, 254] false))
    (fun t => decide (t.y0 = 0xFFFFFFFE)) = true := by decide +kernel

/-- V-EG-12. -/
theorem test_eg_rdue_eproto : failsAs (exec .egRdue (decOver [0, 0, 0, 0, 128] false)) .eproto 0x20 = true := by
  decide +kernel

/-- V-EG-7. -/
theorem test_eg_wrue : completes (exec .egWrue (withA (encOpen false) 63 0 0 0))
    (fun t => wrote t 0b0000001000000 13) = true := by decide +kernel

/-- W2: codeNum 2 is -1. -/
theorem test_eg_rdse : completes (exec .egRdse (decOver [0b01100000] false)) (fun t => decide (t.y0 = 0xFFFFFFFF)) = true := by
  decide +kernel

/-- V-EG-19. -/
theorem test_eg_wrse : completes (exec .egWrse (withA (encOpen false) (-2) 0 0 0)) (fun t => wrote t 0b00101 5) = true := by
  decide +kernel

/-- V-EG-23. -/
theorem test_eg_wrse_least : failsAs (exec .egWrse (withA (encOpen false) 0x80000000 0 0 0)) .einval 0x23 = true := by
  decide +kernel

/-- W3: one inverted bit. -/
theorem test_eg_rdte : completes (exec .egRdte (withA (decOver [0x7F] false) 2 0 0 0))
    (fun t => decide (t.y0 = 1 ∧ t.cur.bits = 1)) = true := by decide +kernel

/-- V-EG-25. -/
theorem test_eg_wrte : completes (exec .egWrte (withA (encOpen false) 2 1 0 0)) (fun t => wrote t 0 1) = true := by
  decide +kernel

/-- V-EG-27. -/
theorem test_eg_wrte_ue : completes (exec .egWrte (withA (encOpen false) 8 5 0 0)) (fun t => wrote t 0b00110 5) = true := by
  decide +kernel

/-- V-MB-65. -/
theorem test_cv_nc : completes (exec (.cvNc 0 0) s5) (fun t => decide (t.y0 = 4)) = true := by decide +kernel

/-- V-MB-79: a constrained inter neighbour does not count. -/
theorem test_cv_nc_constrained : completes (exec (.cvNc 0 0) { picture 4 3 with
    geom := { (picture 4 3).geom with cipDp := true }, currMbAddr := 1, currValid := true,
    mb := [(0, { entry false false false false 1 with nz := (Vector.replicate 48 0).set 5 5 }),
      (1, entry false false true false 1)] }) (fun t => decide (t.y0 = 0)) = true := by decide +kernel

/-- V-CV-4. -/
theorem test_cv_rdtoken : completes (exec .cvRdtoken (decOver [0, 2] false))
    (fun t => decide (t.y0 = 1 ∧ t.y1 = 13 ∧ t.cur.bits = 15)) = true := by decide +kernel

/-- V-CV-19. -/
theorem test_cv_rdtoken_eproto : failsAs (exec .cvRdtoken (withA (decOver [0b00001000] false) 8 0 0 0)) .eproto 0x31 = true := by
  decide +kernel

/-- V-CV-3. -/
theorem test_cv_wrtoken : completes (exec .cvWrtoken (withA (encOpen false) 0 2 2 0)) (fun t => wrote t 1 3) = true := by
  decide +kernel

/-- V-CV-18. -/
theorem test_cv_wrtoken_dc : completes (exec .cvWrtoken (withA (encOpen false) (-2) 3 8 0)) (fun t => wrote t 4 11) = true := by
  decide +kernel

/-- V-CV-53. -/
theorem test_cv_rdlevel : completes (exec .cvRdlevel (withA (decOver [0b00011000] false) 1 0 0 0))
    (fun t => decide (t.y0 = 0xFFFFFFFC ∧ t.y1 = 2)) = true := by decide +kernel

/-- V-CV-54. -/
theorem test_cv_rdlevel_eproto : failsAs (exec .cvRdlevel (decOver [0, 0, 128, 0] false)) .eproto 0x33 = true := by
  decide +kernel

/-- V-CV-37. -/
theorem test_cv_wrlevel : completes (exec .cvWrlevel (withA (encOpen false) 1 0 4 0))
    (fun t => wrote t 0b00010 5 && decide (t.y1 = 2)) = true := by decide +kernel

/-- V-CV-45. -/
theorem test_cv_wrlevel_eproto : failsAs (exec .cvWrlevel (withA (encOpen false) 0 0 2064 0)) .eproto 0x34 = true := by
  decide +kernel

/-- V-CV-61. -/
theorem test_cv_rdtz : completes (exec .cvRdtz (withA (decOver [0b10000000] false) 7 16 0 0))
    (fun t => decide (t.y0 = 3 ∧ t.cur.bits = 3)) = true := by decide +kernel

/-- V-CV-70. -/
theorem test_cv_rdtz_eproto : failsAs (exec .cvRdtz (withA (decOver [0, 128] false) 1 15 0 0)) .eproto 0x35 = true := by
  decide +kernel

/-- V-CV-60. -/
theorem test_cv_wrtz : completes (exec .cvWrtz (withA (encOpen false) 1 16 15 0)) (fun t => wrote t 1 9) = true := by
  decide +kernel

/-- V-CV-72. -/
theorem test_cv_wrtz_einval : failsAs (exec .cvWrtz (withA (encOpen false) 2 4 3 0)) .einval 0x36 = true := by
  decide +kernel

/-- V-CV-82. -/
theorem test_cv_rdrun : completes (exec .cvRdrun (withA (decOver [0b00001000] false) 9 0 0 0))
    (fun t => decide (t.y0 = 8 ∧ t.cur.bits = 5)) = true := by decide +kernel

/-- V-CV-86. -/
theorem test_cv_rdrun_eproto : failsAs (exec .cvRdrun (withA (decOver [0b00001000] false) 7 0 0 0)) .eproto 0x37 = true := by
  decide +kernel

/-- V-CV-80. -/
theorem test_cv_wrrun : completes (exec .cvWrrun (withA (encOpen false) 7 7 0 0)) (fun t => wrote t 1 4) = true := by
  decide +kernel

/-- V-CV-87. -/
theorem test_cv_wrrun_einval : failsAs (exec .cvWrrun (withA (encOpen false) 7 14 0 0)) .einval 0x38 = true := by
  decide +kernel

/-- V-CV-105, read back. -/
theorem test_cv_rdres : completes (exec (.cvRdres 0 false true 0) (withA (decOver [0b00010010, 0b01110100] false) 0 15 16 0))
    (fun t => ysAre t 2 1 0 0 && decide (t.coef = ((Vector.replicate 16 0).set 1 3).set 2 (-1) ∧ t.cur.bits = 14)) = true := by
  decide +kernel

/-- V-CV-123. -/
theorem test_cv_rdres_eproto : failsAs (exec (.cvRdres 5 false true 0) (withA (decOver [1, 0xE0] false) 1 3 4 (-1)))
    .eproto 0x39 = true := by decide +kernel

/-- V-CV-105. -/
theorem test_cv_wrres : completes (exec (.cvWrres 0 false true 0) (withA { encOpen false with
    coef := ((Vector.replicate 16 0).set 1 3).set 2 (-1) } 0 15 16 0))
    (fun t => wrote t 0b00010010011101 14 && ysAre t 2 1 0 0) = true := by decide +kernel

/-- V-CV-122. -/
theorem test_cv_wrres_estate : failsAs (exec (.cvWrres 0 false false 0) (withA (encOpen false) 0 15 16 0)) .estate 0x3A = true := by
  decide +kernel

/-- V-CV-103. -/
theorem test_cv_rdcbp : completes (exec (.cvRdcbp true) (decOver [0b00000100, 0b00100000] false))
    (fun t => decide (t.y0 = 8)) = true := by decide +kernel

/-- V-CV-93. -/
theorem test_cv_wrcbp : completes (exec (.cvWrcbp false) (withA (encOpen false) 47 0 0 0)) (fun t => wrote t 0b0001101 7) = true := by
  decide +kernel

/-- V-CB-1. -/
theorem test_cb_ctxinit : completes (exec (.cbCtxinit 0) (withA State.reset 26 0 0 0)) (fun t =>
    decide (t.ctx = [(0, ⟨46, false⟩), (1, ⟨0, true⟩), (2, ⟨0, false⟩), (3, ⟨17, true⟩), (276, ⟨63, false⟩)])) = true := by
  decide +kernel

/-- V-CB-3: SliceQPY 51. -/
theorem test_cb_ctxinit_51 : completes (exec (.cbCtxinit 0) (withA State.reset 51 0 0 0)) (fun t =>
    decide (Table.find t.ctx 3 = some ⟨26, false⟩)) = true := by decide +kernel

/-- V-CB-10. -/
theorem test_cb_ctxset : completes (exec (.cbCtxset 5) (withA State.reset 0x45 0 0 0))
    (fun t => decide (Table.find t.ctx 5 = some ⟨5, true⟩)) = true := by decide +kernel

/-- V-CB-13. -/
theorem test_cb_ctxget : completes (exec (.cbCtxget 1023) { State.reset with ctx := [(1023, ⟨63, false⟩)] })
    (fun t => decide (t.y0 = 0x3F)) = true := by decide +kernel

/-- V-CTL-22. -/
theorem test_cb_ctxget_einval_first : failsAs (exec (.cbCtxget 2000) State.reset) .einval 0x42 = true := by decide +kernel

/-- V-CB-14. -/
theorem test_cb_einit : completes (exec .cbEinit (encOpen false)) (fun t => decide (t.enc = ⟨0, 510, 0, true, true⟩)) = true := by
  decide +kernel

/-- V-CB-18. -/
theorem test_cb_edec_lps : completes (exec (.cbEdec 0) (withA encEngine 1 0 0 0)) (fun t =>
    decide (t.enc = ⟨28, 480, 1, true, true⟩ ∧ Table.find t.ctx 0 = some ⟨0, true⟩ ∧ t.cur.bits = 0)) = true := by
  decide +kernel

/-- V-CB-19. -/
theorem test_cb_edec_mps : completes (exec (.cbEdec 1) (withA encEngine 1 0 0 0)) (fun t =>
    decide (t.enc = ⟨0, 368, 0, true, true⟩ ∧ Table.find t.ctx 1 = some ⟨11, true⟩)) = true := by decide +kernel

/-- V-CB-21. -/
theorem test_cb_ebyp : completes (exec .cbEbyp (withA encEngine 1 0 0 0)) (fun t =>
    decide (t.enc = ⟨510, 510, 0, false, true⟩ ∧ t.cur.bits = 0)) = true := by decide +kernel

/-- V-CB-23. -/
theorem test_cb_eterm : completes (exec .cbEterm encEngine) (fun t => decide (t.enc = ⟨0, 508, 0, true, true⟩)) = true := by
  decide +kernel

/-- V-CB-24. -/
theorem test_cb_eterm_flush : completes (exec .cbEterm (withA encEngine 1 0 0 0)) (fun t =>
    decide (t.enc = ⟨0, 256, 0, false, false⟩) && wrote t 0b111111101 9) = true := by decide +kernel

/-- V-CB-32. -/
theorem test_cb_dinit : completes (exec .cbDinit (decOver [0b10010110, 0] false)) (fun t =>
    decide (t.dec = ⟨510, 300, true⟩ ∧ t.cur.bits = 9)) = true := by decide +kernel

/-- V-CB-33. -/
theorem test_cb_dinit_eproto : failsAs (exec .cbDinit (decOver [0xFF, 0] false)) .eproto 0x48 = true := by decide +kernel

/-- V-CB-37. -/
theorem test_cb_ddec_lps : completes (exec (.cbDdec 0) (decEngine 300)) (fun t =>
    decide (t.y0 = 1 ∧ t.dec = ⟨480, 60, true⟩ ∧ Table.find t.ctx 0 = some ⟨0, true⟩ ∧ t.cur.bits = 10)) = true := by
  decide +kernel

/-- V-CB-38. -/
theorem test_cb_ddec_mps : completes (exec (.cbDdec 0) (decEngine 1)) (fun t =>
    decide (t.y0 = 0 ∧ t.dec = ⟨270, 1, true⟩ ∧ Table.find t.ctx 0 = some ⟨1, false⟩ ∧ t.cur.bits = 9)) = true := by
  decide +kernel

/-- V-CB-39. -/
theorem test_cb_dbyp : completes (exec .cbDbyp (decEngine 300)) (fun t => decide (t.y0 = 1 ∧ t.dec.offset = 90)) = true := by
  decide +kernel

/-- V-CB-41. -/
theorem test_cb_dterm : completes (exec .cbDterm (decEngine 508)) (fun t => decide (t.y0 = 1 ∧ t.dec = ⟨508, 508, false⟩)) = true := by
  decide +kernel

/-- V-CB-42. -/
theorem test_cb_dterm_zero : completes (exec .cbDterm (decEngine 507)) (fun t => decide (t.y0 = 0 ∧ t.dec = ⟨508, 507, true⟩)) = true := by
  decide +kernel

/-- V-CTL-18. -/
theorem test_cb_dbin : failsAs (exec (.cbDbin 0 0) State.reset) .eunsupp 0x4C = true := by decide +kernel

/-- V-BN-2. -/
theorem test_bn_u : completes (exec .bnU (withA State.reset 3 0 0 0)) (fun t => binsAre t [true, true, true, false]) = true := by
  decide +kernel

/-- V-BN-4. -/
theorem test_bn_u_einval : failsAs (exec .bnU (withA State.reset 128 0 0 0)) .einval 0x50 = true := by decide +kernel

/-- V-BN-6. -/
theorem test_bn_tu : completes (exec .bnTu (withA State.reset 2 5 0 0)) (fun t => binsAre t [true, true, false]) = true := by
  decide +kernel

/-- V-BN-9: no final 0 at the maximum. -/
theorem test_bn_tu_max : completes (exec .bnTu (withA State.reset 127 127 0 0)) (fun t =>
    binsAre t (List.replicate 127 true)) = true := by decide +kernel

/-- V-BN-13. -/
theorem test_bn_fl : completes (exec .bnFl (withA State.reset 5 15 0 0)) (fun t => binsAre t [true, false, true, false]) = true := by
  decide +kernel

/-- V-BN-18. -/
theorem test_bn_fl_einval : failsAs (exec .bnFl (withA State.reset 8 7 0 0)) .einval 0x52 = true := by decide +kernel

/-- V-BN-23. -/
theorem test_bn_uegk : completes (exec (.bnUegk 3 true) (withA State.reset (-12) 9 0 0)) (fun t =>
    binsAre t (List.replicate 9 true ++ [false, false, true, true, true])) = true := by decide +kernel

/-- V-BN-27. -/
theorem test_bn_uegk_no_prefix : completes (exec (.bnUegk 2 false) (withA State.reset 5 0 0 0)) (fun t =>
    binsAre t [true, false, false, false, true]) = true := by decide +kernel

/-- V-BN-31. -/
theorem test_bn_enc_bypass : completes (exec (.bnEnc 0xFFFF) (withA { encEngine with
    binLen := 3, bins := ((Vector.replicate 128 false).set 0 true).set 1 true } 0 3 0 0)) (fun t =>
    decide (t.enc = ⟨500, 510, 1, false, true⟩)) = true := by decide +kernel

/-- V-BN-32. -/
theorem test_bn_enc : completes (exec (.bnEnc 0) (withA { encEngine with
    binLen := 3, bins := ((Vector.replicate 128 false).set 0 true).set 1 true } 0 3 0 0)) (fun t =>
    decide (t.enc = ⟨106, 454, 1, false, true⟩ ∧ Table.find t.ctx 0 = some ⟨0, true⟩)) = true := by decide +kernel

/-- V-MB-63. -/
theorem test_mb_slice : completes (exec .mbSlice s5) (fun t => decide (t.mb = [] ∧ t.currValid = false ∧ t.currMbAddr = 5)) = true := by
  decide +kernel

/-- V-MB-43. -/
theorem test_mb_begin : completes (exec .mbBegin (withA s5 7 0 0 0)) (fun t => decide (t.currMbAddr = 7 ∧
    Table.find t.mb 7 = some (entry false false false false 0))) = true := by decide +kernel

/-- V-MB-41. -/
theorem test_mb_begin_einval : failsAs (exec .mbBegin (withA s5 6 5 0 0)) .einval 0x61 = true := by decide +kernel

/-- V-MB-52. -/
theorem test_mb_setnz : completes (exec (.mbSetnz 2 false 15) (withA s5 16 0 0 0)) (fun t =>
    decide ((t.mbEntry 5).nzAt 2 15 = 16)) = true := by decide +kernel

/-- V-MB-51. -/
theorem test_mb_setnz_8x8 : completes (exec (.mbSetnz 0 true 3) (withA s5 64 0 0 0)) (fun t =>
    decide ((t.mbEntry 5).nz8At 0 3 = 64)) = true := by decide +kernel

/-- V-MB-55. -/
theorem test_mb_get : completes (exec .mbGet (withA s5 1 0xA 0 0)) (fun t => decide (t.y0 = 0x109 ∧ t.y1 = 4)) = true := by
  decide +kernel

/-- V-MB-57. -/
theorem test_mb_get_skip : completes (exec .mbGet (withA s5 2 0 0 0)) (fun t => decide (t.y0 = 3 ∧ t.y1 = 0)) = true := by
  decide +kernel

/-- V-MB-1. -/
theorem test_mb_nbmb : completes (exec (.mbNbmb true) s5) (fun t => decide (t.y0 = 1 ∧ t.y1 = 1)) = true := by
  decide +kernel

/-- V-MB-86. -/
theorem test_mb_nbmb_mbaff : completes (exec (.mbNbmb false) (mbaff 3)) (fun t => decide (t.y0 = 0 ∧ t.y1 = 1)) = true := by
  decide +kernel

/-- V-MB-10. -/
theorem test_mb_nbloc : completes (exec (.mbNbloc true) (withA s5 (-1) 0 0 0)) (fun t => ysAre t 4 1 7 0) = true := by
  decide +kernel

/-- V-MB-84. -/
theorem test_mb_nbloc_mbaff : completes (exec (.mbNbloc false) (withA (mbaff 3) (-1) 5 0 0)) (fun t => ysAre t 1 1 15 10) = true := by
  decide +kernel

/-- V-MB-20. -/
theorem test_mb_nbblk : completes (exec (.mbNbblk true 0 5) s5) (fun t => ysAre t 1 1 15 0) = true := by decide +kernel

/-- V-MB-22. -/
theorem test_mb_nbblk_chroma : completes (exec (.mbNbblk true 1 0) s5) (fun t => ysAre t 1 1 2 0) = true := by
  decide +kernel

/-- V-SG-37. -/
theorem test_sg_idwr : completes (exec .sgIdwr (withA State.reset 63 7 0 0)) (fun t => decide (t.sg.groupId 63 = 7)) = true := by
  decide +kernel

/-- V-SG-12. -/
theorem test_sg_gen_box_out : completes (exec .sgGen { groups 3 with
    sg := { (groups 3).sg with changeDir := true, changeCycle := 4 } }) (fun t =>
    decide (t.sg.mapUnits = [1, 1, 1, 1, 1, 0, 0, 1, 1, 0, 0, 1] ∧ t.sg.mapValid = true)) = true := by decide +kernel

/-- V-SG-51. -/
theorem test_sg_gen_mbaff : completes (exec .sgGen { mbaff 0 with sg := (groups 1).sg }) (fun t =>
    decide (t.sg.mapUnits = [0, 1, 1, 0] ∧ t.sg.mbGroups = [0, 0, 1, 1, 1, 1, 0, 0])) = true := by decide +kernel

/-- The dispersed map of V-SG-43. -/
def dispersed : State :=
  { groups 1 with sg := { (groups 1).sg with
    mapUnits := [0, 1, 0, 1, 1, 0, 1, 0, 0, 1, 0, 1], mbGroups := [0, 1, 0, 1, 1, 0, 1, 0, 0, 1, 0, 1], mapValid := true } }

/-- V-SG-5. -/
theorem test_sg_mbgrp : completes (exec .sgMbgrp (withA dispersed 4 0 0 0)) (fun t => decide (t.y0 = 1)) = true := by
  decide +kernel

/-- V-SG-43. -/
theorem test_sg_next : completes (exec .sgNext (withA dispersed 4 0 0 0)) (fun t => decide (t.y0 = 6)) = true := by
  decide +kernel

/-- V-SG-43: no further macroblock in the group. -/
theorem test_sg_next_none : completes (exec .sgNext (withA dispersed 10 0 0 0)) (fun t => decide (t.y0 = 12)) = true := by
  decide +kernel

/-! WITNESSES. For each statement with hypotheses, states and operands that meet them, clause by clause. -/

/-- The tables of a state are in canonical form and inside their spaces. -/
def tablesOk (s : State) : Bool :=
  s.params.wf && Memory.wf s.buf && Memory.wf s.raw && Table.wf s.ctx && Table.wf s.mb && Table.wf s.sg.sgid &&
    tableBelow s.params.maxBufBytes.toNat s.buf && tableBelow Config.rawBufBytes s.raw &&
    tableBelow Config.numCtx s.ctx && tableBelow s.params.maxMbs s.mb && tableBelow s.params.maxMapUnits s.sg.sgid &&
    (s.sg.sgid.all fun e => decide (e.2 ≠ 0)) && (s.mb.all fun e => e.2.countsOk)

/-- The invariant of the slice-group map. -/
def mapOk (s : State) : Bool :=
  !s.sg.mapValid || (s.geom.valid && decide (s.geom.picSizeInMapUnits ≤ s.sg.mapUnits.length) &&
    decide (s.geom.picSizeInMbs ≤ s.sg.mbGroups.length) &&
    ((List.range s.geom.picSizeInMapUnits).all fun i => decide ((s.mapUnit i).toNat ≤ s.sg.num)) &&
    ((List.range s.geom.picSizeInMbs).all fun i => decide ((s.mbGroup i).toNat ≤ s.sg.num)))

theorem map_of {s : State} (h : mapOk s = true) (hm : s.sg.mapValid = true) :
    s.geom.valid = true ∧ s.geom.picSizeInMapUnits ≤ s.sg.mapUnits.length ∧
      s.geom.picSizeInMbs ≤ s.sg.mbGroups.length ∧ s.MapBounded := by
  simp only [mapOk, hm, Bool.not_true, Bool.false_or, Bool.and_eq_true, decide_eq_true_eq, List.all_eq_true,
    List.mem_range] at h
  obtain ⟨⟨⟨⟨a, b⟩, c⟩, d⟩, e⟩ := h
  exact ⟨a, b, c, d, e⟩

/-- The rest of the invariant of a state in DEC mode or in no mode. -/
def runsOk (s : State) : Bool :=
  decide (s.binLen ≤ 128 ∧ s.status = ⟨.ok, false, 0⟩ ∧ mapOk s = true) &&
    decide (s.currValid = true → s.mbValid s.currMbAddr.toNat = true) &&
    decide (s.dec.active = true → s.cur.mode = .dec ∧ s.dec.offset.toNat < s.dec.range.toNat ∧
      256 ≤ s.dec.range.toNat ∧ s.dec.range.toNat ≤ 510)

/-- The invariant of the cursor and the encoding engine in ENC mode. -/
def encModeOk (s : State) : Bool :=
  decide (s.cur.mode = .enc ∧ s.cur.cnt < 8 ∧ s.cur.off = s.cur.len ∧ s.cur.len.toNat ≤ s.cur.cap.toNat ∧
    s.cur.cap.toNat ≤ s.params.maxBufBytes.toNat) &&
  decide (s.cur.zeros = scanZeros s.bufByte s.cur.ep s.cur.len.toNat 0 0) &&
  ((List.range s.cur.len.toNat).all fun i => decide (i + 2 < s.cur.len.toNat → s.bufByte i = 0 →
    s.bufByte (i + 1) = 0 → 3 ≤ (s.bufByte (i + 2)).toNat)) &&
  decide (s.enc.active = true → s.enc.low.toNat + s.enc.range.toNat ≤ 1024 ∧ 256 ≤ s.enc.range.toNat ∧
    s.enc.range.toNat ≤ 510)

/-- The invariant of the cursor in DEC mode. -/
def decModeOk (s : State) : Bool :=
  decide (s.cur.mode = .dec ∧ s.enc.active = false ∧ s.cur.cnt < 8 ∧ s.cur.off.toNat ≤ s.cur.len.toNat ∧
    s.cur.len.toNat ≤ s.params.maxBufBytes.toNat) &&
  decide (s.cur.zeros ≤ 2 ∧ (s.cur.ep = false → s.cur.zeros = 0))

/-- The invariant of the cursor in no mode. -/
def idleOk (s : State) : Bool := decide (s.cur.mode = .idle ∧ s.enc.active = false)

theorem inv_of_checks {s : State} (h1 : tablesOk s = true) (h2 : runsOk s = true)
    (h3 : (encModeOk s || decModeOk s || idleOk s) = true) : s.Inv := by
  simp only [tablesOk, Bool.and_eq_true] at h1
  simp only [runsOk, Bool.and_eq_true, decide_eq_true_eq] at h2
  obtain ⟨⟨⟨⟨⟨⟨⟨⟨⟨⟨⟨⟨p, m1⟩, m2⟩, m3⟩, m4⟩, m5⟩, m6⟩, m7⟩, m8⟩, m9⟩, m10⟩, m11⟩, m12⟩ := h1
  obtain ⟨⟨⟨b, st, mv⟩, cv⟩, da⟩ := h2
  simp only [Bool.or_eq_true, encModeOk, decModeOk, idleOk, Bool.and_eq_true, decide_eq_true_eq, List.all_eq_true,
    List.mem_range] at h3
  refine ⟨p, ⟨m1, m2, m3, m4, m5, m6, m7, m8, m9, m10, m11, m12⟩, b, fun _ => ?_⟩
  obtain (⟨⟨⟨⟨e, e1, e2, e3, e4⟩, e5⟩, e6⟩, e7⟩ | ⟨⟨d, d1, d2, d3, d4⟩, d5, d6⟩) | ⟨i, i1⟩ := h3
  · exact ⟨st, fun _ => ⟨e1, e2, e3, e4, e5, fun _ i hi => e6 i (by omega) hi⟩, fun h => by simp [e] at h,
      fun h => ⟨e, (e7 h).1, (e7 h).2.1, (e7 h).2.2⟩, fun h => ⟨(da h).1, (da h).2.1, (da h).2.2.1, (da h).2.2.2⟩, cv,
      map_of mv⟩
  · exact ⟨st, fun h => by simp [d] at h, fun _ => ⟨d2, d3, d4, d5, d6⟩, fun h => by simp [d1] at h,
      fun h => ⟨(da h).1, (da h).2.1, (da h).2.2.1, (da h).2.2.2⟩, cv, map_of mv⟩
  · exact ⟨st, fun h => by simp [i] at h, fun h => by simp [i] at h, fun h => by simp [i1] at h,
      fun h => ⟨(da h).1, (da h).2.1, (da h).2.2.1, (da h).2.2.2⟩, cv, map_of mv⟩

/-- What a check of a command's answer shows. -/
theorem answer_of {o : Host.Outcome State Fault Refusal} {p : State → Bool} (h : answers o p = true) :
    ∃ t, o = .next t ∧ p t = true := by
  cases o with
  | next t => exact ⟨t, rfl, h⟩
  | fault r => simp [answers] at h
  | refused r => simp [answers] at h

/-- `HasRoom` as its decidable disjunction. -/
theorem room_of {s : State} {n : Nat} (h : s.cur.len.toNat + 2 * ((s.cur.cnt + n) / 8) ≤ s.cur.cap.toNat ∨
    (s.cur.grow = true ∧ s.cur.len.toNat + 2 * ((s.cur.cnt + n) / 8) + s.params.growBlock ≤
      s.params.maxBufBytes.toNat + 1)) : s.HasRoom n := h

/-- An ENC stream over a fixed buffer of `cap` bytes that already holds `bytes`. -/
def encOver (bytes : List Byte) (cap : Word) (ep grow : Bool) : State :=
  { State.reset with
    buf := (List.range bytes.length).zip bytes
    cur := ⟨.enc, ep, grow, natWord bytes.length, cap, natWord bytes.length, 0, 0,
      scanZeros (fun a => (bytes[a]?).getD 0) ep bytes.length 0 0, natWord (8 * bytes.length)⟩ }

theorem witness_DecodeOfEncode : Instr.wellFormed (.csrRd 4095) = true ∧ Instr.wellFormed (.cvRdres 7 true true 65535) = true := by
  decide

theorem witness_EncodeOfDecode : decode 0x39C7FFFF = .ok (.cvRdres 7 true true 65535) ∧ decode 0 = .ok .nop := by
  decide

theorem no_command (i : Instr) (h : i.wellFormed = true) : encode i ≠ 0x05000000 ∧ encode i ≠ 1 := by
  constructor <;> intro he <;> have ht := congrArg BitVec.toNat he <;> clear he <;>
  cases i <;> simp only [Instr.wellFormed, decide_eq_true_eq, Bool.and_eq_true] at h <;>
  simp only [encode, wordOf, Instr.opcode, Instr.f8, Instr.f16, BitVec.toNat_ofNat] at ht <;>
  simp at ht <;> try omega
  all_goals
    rename Bool => b
    first
      | (have := Bool.toNat_le b; omega)
      | (cases b <;> simp at ht <;> rename Bool => c <;> have := Bool.toNat_le c <;> omega)

theorem witness_WordsOutsideTheMapFail : (∀ i : Instr, i.wellFormed = true → encode i ≠ 0x05000000) ∧
    (∀ i : Instr, i.wellFormed = true → encode i ≠ 1) ∧ faulted.status.fault = true ∧
    3 ≤ (0x05000000 : Word).toNat / 2 ^ 24 ∧ ¬3 ≤ (1 : Word).toNat / 2 ^ 24 :=
  ⟨fun i h => (no_command i h).1, fun i h => (no_command i h).2, by decide, by decide, by decide⟩

theorem witness_StepRunsDecodedCommand : ({ State.reset with port := [.command 0x24000000] } : State).port =
    .command 0x24000000 :: [] ∧ decode 0x24000000 = .ok .egRdte := by decide

/-- A state whose host has this one action to come. -/
def hostDoes (x : HostAction) : State := { State.reset with port := [x] }

theorem witness_HostActionsWriteWhatTheyName : State.reset.port = [] ∧ (hostDoes (.setA 3 7)).port = [.setA 3 7] ∧
    (hostDoes (.writeCoef 15 7)).port = [.writeCoef 15 7] ∧ (hostDoes (.writeRaw 4095 7)).port = [.writeRaw 4095 7] ∧
    4095 < 4096 ∧ 4096 ≤ 4096 ∧ (hostDoes (.writeBuf 63 7)).cur.mode = .idle ∧
    63 < (hostDoes (.writeBuf 63 7)).params.maxBufBytes.toNat ∧
    (hostDoes (.writeBuf 64 7)).params.maxBufBytes.toNat ≤ 64 ∧ (decOver [1] false).cur.mode ≠ .idle := by decide

theorem witness_FaultDiscipline : faulted.status.fault = true ∧ Instr.bcMore ≠ .nop ∧ Instr.bcMore ≠ .reset ∧
    (∀ n, Instr.bcMore ≠ .csrRd n) ∧
    (∃ t, step { faulted with port := [.command 0x01000000] } = .next t ∧ t.status.fault = false) ∧
    (∃ t, step { faulted with port := [.command 0x16000000] } = .next t ∧ t.status.fault = true) :=
  ⟨by decide, by decide, by decide, fun n => by simp, ⟨_, rfl, rfl⟩, ⟨_, rfl, rfl⟩⟩

theorem witness_StatusAfterCommand : (∃ t, issueWord 0x01000000 faulted = .next t) ∧ decode 0x01000000 = .ok .reset ∧
    (∃ t, issueWord 0 faulted = .next t ∧ t.status.code = .ok) ∧
    (∃ t, issueWord 0x16000000 faulted = .next t ∧ t.status.code = .efaulted) ∧
    (∃ t, issueWord 0x16000000 State.reset = .next t ∧ t.status.code ≠ .ok ∧ t.status.code ≠ .efaulted) ∧
    decode 0 ≠ .ok .reset ∧ decode 0x16000000 ≠ .ok .reset :=
  ⟨⟨_, rfl⟩, by decide, ⟨_, rfl, rfl⟩, ⟨_, rfl, rfl⟩, ⟨_, rfl, by decide, by decide⟩, by decide, by decide⟩

theorem witness_NopRule : (0x00000001 : Word).toNat / 2 ^ 24 = 0 ∧ (0x00000001 : Word) ≠ 0 ∧
    (0x00FFFFFF : Word).toNat / 2 ^ 24 = 0 := by decide

theorem witness_CommandsKeepOperandRegisters : Instr.bcMore ≠ .reset ∧ (∃ t, exec .bcMore State.reset = .next t) ∧
    ∃ t, exec .nop State.reset = .next t := ⟨by decide, ⟨_, rfl⟩, ⟨_, rfl⟩⟩

theorem witness_CommandsWriteOnlyTheirPieces : (∃ t, exec .bnU State.reset = .next t ∧ t.status.fault = false) ∧
    Instr.bnU ≠ .reset ∧ Piece.mb ∉ mayWrite .bnU := ⟨⟨_, rfl, rfl⟩, by decide, by decide⟩

theorem witness_CsrReadValues : ({ State.reset with cur := { State.reset.cur with cnt := 8, zeros := 2 } } : State).cur.cnt ≤ 8 ∧
    ({ State.reset with cur := { State.reset.cur with cnt := 8, zeros := 2 } } : State).cur.zeros ≤ 2 ∧
    ({ State.reset with binLen := 128 } : State).binLen ≤ 128 ∧ csrListed 0x000 = true ∧ csrListed 0x067 = true ∧
    csrListed 0x008 = false ∧ csrListed 0x02A = false ∧ csrListed 0x068 = false := by decide

theorem witness_DerivedCsrValues : (picture 65535 65535).geom.picWidthMbs.toNat = 65535 ∧
    (picture 65535 65535).geom.frameMbsOnly.toNat = 1 ∧
    65535 * (((2 - 1) * 65535) / (1 + 0)) < 2 ^ 32 := by decide

theorem witness_CsrWriteEffect : (withA State.reset 65535 0 0 0).status.fault = false ∧
    csrLegal 0x020 (withA State.reset 65535 0 0 0).a0.toNat = true ∧
    csrLegal 0x020 (withA State.reset 65536 0 0 0).a0.toNat = false ∧
    csrLegal 0x041 (withA State.reset 6 0 0 0).a0.toNat = true ∧
    csrLegal 0x041 (withA State.reset 7 0 0 0).a0.toNat = false ∧
    csrLegal 0x026 (withA State.reset 1 0 0 0).a0.toNat = true ∧ csrLegal 0x027 1 = false ∧
    csrLegal 0x067 (withA State.reset (-1) 0 0 0).a0.toNat = true ∧ csrLegal 0x021 1 = true := by decide

theorem witness_BcInitStartsStream : State.reset.status.fault = false ∧ State.reset.a0 = 0 ∧
    1 ≤ (withA State.reset 1 0 0 0).a0.toNat ∧
    (withA State.reset 64 0 0 0).a0.toNat ≤ (withA State.reset 64 0 0 0).params.maxBufBytes.toNat ∧
    ¬(withA State.reset 65 0 0 0).a0.toNat ≤ (withA State.reset 65 0 0 0).params.maxBufBytes.toNat ∧
    (withA State.reset 65 0 0 0).a0 ≠ 0 := by decide

theorem witness_MissingModeOrEngineIsEstate : State.reset.status.fault = false ∧ needsDec .bcMore = true ∧
    State.reset.cur.mode ≠ .dec ∧ needsEnc .egWrue = true ∧ (decOver [1] false).cur.mode ≠ .enc ∧
    needsEact .cbEbyp = true ∧ (encOpen false).enc.active = false ∧ needsDact .cbDbyp = true ∧
    (decOver [1] false).dec.active = false ∧ State.reset.cur.mode = .idle := by decide

theorem witness_BcReadsFields : (decOver [0x80, 0, 0, 1] false).status.fault = false ∧
    (decOver [0x80, 0, 0, 1] false).cur.mode = .dec ∧
    (decOver [0x80, 0, 0, 1] false).remaining = fieldBits 0x80000001 32 ++ [] ∧
    (fieldBits 0x80000001 32).length = 32 ∧ (decOver [0x80] false).remaining = [] ++ fieldBits 0x80 8 ∧
    (decOver [0x80] false).remaining.length < 9 ∧ 9 ≤ 32 ∧ 32 < 33 := by decide +kernel

theorem witness_BcWritesFields : (withA (encOpen false) 0xFFFFFFFE 0 0 0).Inv ∧
    (withA (encOpen false) 0xFFFFFFFE 0 0 0).HasRoom 32 ∧
    ((withA (encOpen false) 0xFFFFFFFE 0 0 0).status.fault = false ∧
      (withA (encOpen false) 0xFFFFFFFE 0 0 0).cur.mode = .enc ∧
      (withA (encOpen false) 0xFFFFFFFE 0 0 0).a0.toNat = bitsNat (fieldBits 0xFFFFFFFE 32) ∧
      (withA (encOpen false) 0xFFFFFFFE 0 0 0).a0.toInt = bitsInt (fieldBits 2 2) ∧
      (fieldBits 0xFFFFFFFE 32).length = 32 ∧ (fieldBits 2 2).length = 2 ∧
      2 ^ 31 ≤ (withA (encOpen false) 0xFFFFFFFE 0 0 0).a0.toNat ∧
      (withA (encOpen false) 0xFFFFFFFE 0 0 0).a0.toInt < -(2 ^ (1 - 1)) ∧
      2 ^ (2 - 1) ≤ (withA (encOpen false) 2 0 0 0).a0.toInt ∧ (withA (encOpen false) 2 0 0 0).a0 ≠ 0 ∧ 32 < 33) :=
  ⟨inv_of_checks (by decide +kernel) (by decide +kernel) (by decide +kernel), room_of (by decide), by decide +kernel⟩

/-- Room for a byte and its escape, and for a byte alone; a fixed buffer full at the second byte of the escape and at
the first; a growable one that grows, that grows for the escape, and that may not grow. -/
theorem witness_OutputBytesAndCapacity : (encOver [0, 0] 4 true false).Inv ∧ (encOver [0, 0] 3 true false).Inv ∧
    (encOver [7] 1 false false).Inv ∧ (encOver [] 0 false true).Inv ∧ (encOver [0, 0] 3 true true).Inv ∧
    (encOver (List.replicate 61 7 ++ [0, 0]) 64 true true).Inv ∧
    ((encOver [0, 0] 4 true false).status.fault = false ∧ (encOver [0, 0] 4 true false).cur.mode = .enc ∧
      (encOver [0, 0] 4 true false).cur.cnt = 0 ∧ (withA (encOver [0, 0] 4 true false) 255 0 0 0).a0.toNat < 256 ∧
      (encOver [0, 0] 4 true false).cur.ep = true ∧ (encOver [0, 0] 4 true false).cur.zeros = 2 ∧
      (withA (encOver [0, 0] 4 true false) 3 0 0 0).a0.toNat ≤ 3 ∧
      ¬(withA (encOver [0, 0] 4 true false) 4 0 0 0).a0.toNat ≤ 3 ∧
      (encOver [0, 0] 4 true false).cur.len.toNat + 2 ≤ (encOver [0, 0] 4 true false).cur.cap.toNat) ∧
    ((encOver [0, 0] 3 true false).cur.cap.toNat < (encOver [0, 0] 3 true false).cur.len.toNat + 2 ∧
      (encOver [0, 0] 3 true false).cur.len.toNat + 1 ≤ (encOver [0, 0] 3 true false).cur.cap.toNat ∧
      (encOver [0, 0] 3 true false).cur.grow = false ∧
      (encOver [7] 1 false false).cur.cap.toNat < (encOver [7] 1 false false).cur.len.toNat + 1 ∧
      (encOver [] 0 false true).cur.grow = true ∧ 0 + 16 * ((0 + 1 - 0 + 16 - 1) / 16) ≤ State.reset.params.maxBufBytes.toNat ∧
      (encOver [0, 0] 3 true true).cur.zeros = 2 ∧
      3 + State.reset.params.growBlock * ((2 + 2 - 3 + State.reset.params.growBlock - 1) / State.reset.params.growBlock) ≤
        State.reset.params.maxBufBytes.toNat ∧
      (encOver (List.replicate 61 7 ++ [0, 0]) 64 true true).cur.zeros = 2 ∧
      (encOver (List.replicate 61 7 ++ [0, 0]) 64 true true).cur.cap.toNat <
        (encOver (List.replicate 61 7 ++ [0, 0]) 64 true true).cur.len.toNat + 2 ∧
      State.reset.params.maxBufBytes.toNat < 64 + State.reset.params.growBlock *
        ((63 + 2 - 64 + State.reset.params.growBlock - 1) / State.reset.params.growBlock)) :=
  ⟨inv_of_checks (by decide +kernel) (by decide +kernel) (by decide +kernel),
    inv_of_checks (by decide +kernel) (by decide +kernel) (by decide +kernel),
    inv_of_checks (by decide +kernel) (by decide +kernel) (by decide +kernel),
    inv_of_checks (by decide +kernel) (by decide +kernel) (by decide +kernel),
    inv_of_checks (by decide +kernel) (by decide +kernel) (by decide +kernel),
    inv_of_checks (by decide +kernel) (by decide +kernel) (by decide +kernel), by decide +kernel, by decide +kernel⟩

theorem witness_BcAlignedAndMore : (decOver [0x80, 0] false).status.fault = false ∧
    (decOver [0x80, 0] false).cur.mode ≠ .idle ∧ (decOver [0x80, 0] false).cur.mode = .dec ∧
    (decOver [0x80, 0] false).params.moreData = .strict ∧
    ({ decOver [0x80, 0] false with params := { Config.vectorParams with moreData := .lastOne } } : State).params.moreData =
      .lastOne := by decide

theorem witness_RawBytesMove : (withA (encOpen true) 3 4093 0 0).Inv ∧
    (withA (encOpen true) 3 4093 0 0).HasRoom (8 * (withA (encOpen true) 3 4093 0 0).a0.toNat) ∧
    ((withA (encOpen true) 3 4093 0 0).status.fault = false ∧ (withA (encOpen true) 3 4093 0 0).cur.mode = .enc ∧
      (withA (encOpen true) 3 4093 0 0).cur.cnt = 0 ∧
      (withA (encOpen true) 3 4093 0 0).a1.toNat + (withA (encOpen true) 3 4093 0 0).a0.toNat ≤ 4096 ∧
      4096 < (withA (encOpen true) 3 4094 0 0).a1.toNat + (withA (encOpen true) 3 4094 0 0).a0.toNat ∧
      ({ encOpen true with cur := { (encOpen true).cur with cnt := 7 } } : State).cur.cnt ≠ 0) ∧
    ((withA (decOver [0, 0, 3, 1] true) 3 4093 0 0).cur.mode = .dec ∧
      (withA (decOver [0, 0, 3, 1] true) 3 4093 0 0).cur.cnt = 0 ∧
      ([0, 0, 1] : List Byte).length = (withA (decOver [0, 0, 3, 1] true) 3 4093 0 0).a0.toNat ∧
      (withA (decOver [0, 0, 3, 1] true) 3 4093 0 0).remaining = ([0, 0, 1] : List Byte).flatMap byteBits ++ [] ∧
      (decEngine 0).cur.cnt ≠ 0 ∧ (decEngine 0).cur.mode = .dec) :=
  ⟨inv_of_checks (by decide +kernel) (by decide +kernel) (by decide +kernel), room_of (by decide), by decide +kernel, by decide +kernel⟩

/-- The premises on the writing state, and a reading state over the bytes 00 00 03 01 that it can leave. -/
theorem witness_EmulationPreventionRoundTrip : (withA (encOpen true) 3 0 0 0).Inv ∧
    (withA (encOpen true) 3 0 0 0).HasRoom (8 * (withA (encOpen true) 3 0 0 0).a0.toNat) ∧
    ((withA (encOpen true) 3 0 0 0).status.fault = false ∧ (withA (encOpen true) 3 0 0 0).cur.mode = .enc ∧
      (withA (encOpen true) 3 0 0 0).cur.ep = true ∧ (withA (encOpen true) 3 0 0 0).cur.len = 0 ∧
      (withA (encOpen true) 3 0 0 0).cur.cnt = 0 ∧
      (withA (encOpen true) 3 0 0 0).a1.toNat + (withA (encOpen true) 3 0 0 0).a0.toNat ≤ 4096) ∧
    completes (exec .bcWrbytes (withA { encOpen true with raw := [(0, 0), (1, 0), (2, 1)] } 3 0 0 0)) (fun t =>
      decide ((decOver [0, 0, 3, 1] true).cur = ⟨.dec, true, false, t.cur.len, t.cur.len, 0, 0, 0, 0, 0⟩ ∧
        (∀ a, a < t.cur.len.toNat → (decOver [0, 0, 3, 1] true).bufByte a = t.bufByte a) ∧
        (withA (decOver [0, 0, 3, 1] true) 3 0 0 0).a0 = t.a0)) = true :=
  ⟨inv_of_checks (by decide +kernel) (by decide +kernel) (by decide +kernel), room_of (by decide), by decide +kernel, by decide +kernel⟩

theorem witness_ExpGolombReads : (decOver [0, 0, 0, 1, 255, 255, 255, 254] false).status.fault = false ∧
    (decOver [0, 0, 0, 1, 255, 255, 255, 254] false).cur.mode = .dec ∧
    (decOver [0, 0, 0, 1, 255, 255, 255, 254] false).remaining =
      List.replicate 31 false ++ true :: (List.replicate 31 true ++ [false]) ∧
    (decOver [0x80] false).remaining = List.replicate 0 false ++ true :: ([] ++ List.replicate 7 false) ∧
    (decOver [0x80] false).a0 ≠ 2 ∧ (withA (decOver [0x80] false) 2 0 0 0).a0 = 2 ∧
    (withA (decOver [0x80] false) 2 0 0 0).remaining = true :: List.replicate 7 false ∧
    (decOver [0, 0, 0, 0] false).remaining = List.replicate 32 false ++ [] ∧
    (decOver [0] false).remaining = List.replicate 8 false ∧
    (decOver [1] false).remaining = List.replicate 7 false ++ true :: [] ∧ ([] : List Bool).length < 7 := by
  decide +kernel

theorem witness_ExpGolombWrites : (withA (encOpen false) 0xFFFFFFFE 0xFFFFFFFE 0 0).Inv ∧
    (withA (encOpen false) 0xFFFFFFFE 0xFFFFFFFE 0 0).HasRoom (2 * 31 + 1) ∧ (encOpen false).HasRoom 1 ∧
    ((withA (encOpen false) 0xFFFFFFFE 0xFFFFFFFE 0 0).status.fault = false ∧
      (withA (encOpen false) 0xFFFFFFFE 0xFFFFFFFE 0 0).cur.mode = .enc ∧
      (withA (encOpen false) 0xFFFFFFFE 0xFFFFFFFE 0 0).a0.toNat = 2 ^ 31 - 1 + bitsNat (List.replicate 31 true) ∧
      (withA (encOpen false) 0xFFFFFFFE 0xFFFFFFFE 0 0).a1.toNat = 2 ^ 31 - 1 + bitsNat (List.replicate 31 true) ∧
      (withA (encOpen false) 0xFFFFFFFE 0xFFFFFFFE 0 0).a0 ≠ 2 ∧
      (if 0 < (withA (encOpen false) 0x80000001 0 0 0).a0.toInt then 2 * (withA (encOpen false) 0x80000001 0 0 0).a0.toInt - 1
        else -2 * (withA (encOpen false) 0x80000001 0 0 0).a0.toInt) = ((2 ^ 31 - 1 + bitsNat (List.replicate 31 true) : Nat) : Int) ∧
      (withA (encOpen false) 2 1 0 0).a0 = 2 ∧ (withA (encOpen false) 2 1 0 0).a1.toNat ≤ 1 ∧
      2 ≤ (withA (encOpen false) 2 2 0 0).a1.toNat ∧ (withA (encOpen false) 0xFFFFFFFF 0 0 0).a0 = 0xFFFFFFFF ∧
      (withA (encOpen false) 0x80000000 0 0 0).a0 = 0x80000000 ∧
      (withA (encOpen false) 0 0xFFFFFFFF 0 0).a1 = 0xFFFFFFFF) :=
  ⟨inv_of_checks (by decide +kernel) (by decide +kernel) (by decide +kernel), room_of (by decide), room_of (by decide), by decide +kernel⟩

theorem witness_ExpGolombRoundTrip : (withA (encOpen false) 0xFFFFFFFE 0 0 0).Inv ∧
    (withA (encOpen false) 0x80000001 0 0 0).Inv ∧ (withA (encOpen false) 2 1 0 0).Inv ∧
    (withA (encOpen false) 0xFFFFFFFE 0 0 0).HasRoom 63 ∧
    ((withA (encOpen false) 0xFFFFFFFE 0 0 0).a0.toNat ≤ 2 ^ 32 - 2 ∧
      -(2 ^ 31 - 1) ≤ (withA (encOpen false) 0x80000001 0 0 0).a0.toInt ∧
      (withA (encOpen false) 2 1 0 0).a0 = 2 ∧ (withA (encOpen false) 2 1 0 0).a1.toNat ≤ 1 ∧
      (encOpen false).status.fault = false ∧ (encOpen false).cur.mode = .enc) ∧
    ((withA (decOver [0x7F] false) 2 0 0 0).status.fault = false ∧ (withA (decOver [0x7F] false) 2 0 0 0).cur.mode = .dec ∧
      (withA (decOver [0x7F] false) 2 0 0 0).a0 = 2 ∧
      (withA (decOver [0x7F] false) 2 0 0 0).remaining = [false] ++ List.replicate 7 true ∧
      (decOver [0, 0, 0, 1, 255, 255, 255, 254] false).remaining = ueBits 0xFFFFFFFE ++ [false]) :=
  ⟨inv_of_checks (by decide +kernel) (by decide +kernel) (by decide +kernel), inv_of_checks (by decide +kernel) (by decide +kernel) (by decide +kernel), inv_of_checks (by decide +kernel) (by decide +kernel) (by decide +kernel),
    room_of (by decide), by decide +kernel, by decide +kernel⟩

/-- Two macroblocks in the first row of `picture 4 3`, the second the current one. -/
def pairOf (e m : MbEntry) (cip : Bool) : State :=
  { picture 4 3 with
    geom := { (picture 4 3).geom with cipDp := cip }
    currMbAddr := 1
    currValid := true
    mb := [(0, e), (1, m)] }

/-- What a check of MB_NBBLK's answer shows. -/
theorem names_of {s : State} {dir : Bool} {kind idx : Nat} {b : NbBlock}
    (h : answers (exec (.mbNbblk dir kind idx) s) (fun t => decide (t.status.fault = false ∧
      (t.y1 = 0 ∧ b.addr = none ∨ t.y1 = 1 ∧ b.addr = some t.y0.toNat ∧ b.blk = t.y2.toNat))) = true) :
    s.NbblkNames dir kind idx b := by
  obtain ⟨t, ht, hp⟩ := answer_of h
  exact ⟨t, ht, (of_decide_eq_true hp).1, (of_decide_eq_true hp).2⟩

/-- Both blocks available, one of them, none, and the two ways a block is luma or chroma. -/
theorem witness_CvNcFromNeighbourCounts :
    (s5.status.fault = false ∧ s5.geom.chromaArrayType.toNat = 1 ∧ s5.geom.valid = true ∧ s5.currValid = true ∧
      15 < (if 0 ≤ 2 then 16 else 1) ∧ 3 < (if s5.geom.chromaArrayType.toNat = 1 then 4 else 8) ∧
      ¬((1 = 1 ∨ 1 = 2) → s5.geom.chromaArrayType.toNat = 3) ∧ 5 < 6) ∧
    s5.NbblkNames false 0 0 ⟨some 4, 5⟩ ∧ s5.NbblkNames true 0 0 ⟨some 1, 10⟩ ∧
    (s5.nbCount 0 ⟨some 4, 5⟩ = some 3 ∧ s5.nbCount 0 ⟨some 1, 10⟩ = some 4) ∧
    s5.NbblkNames false 1 3 ⟨some 5, 2⟩ ∧ s5.NbblkNames true 1 3 ⟨some 5, 1⟩ ∧
    (pairOf (entry false false true false 1) (entry false false true false 1) false).NbblkNames true 0 0 ⟨none, 0⟩ ∧
    (pairOf (entry false false true false 1) (entry false false true false 1) false).NbblkNames false 0 0 ⟨some 0, 5⟩ ∧
    State.NbblkNames { s5 with currMbAddr := 4 } false 0 0 ⟨none, 0⟩ ∧
    State.NbblkNames { s5 with currMbAddr := 4 } true 0 0 ⟨some 0, 10⟩ ∧
    State.NbblkNames { s5 with currMbAddr := 0 } false 0 0 ⟨none, 0⟩ ∧
    State.NbblkNames { s5 with currMbAddr := 0 } true 0 0 ⟨none, 0⟩ ∧
    (Table.find s5.mb 2 = some (entry true false false false 0) ∧ Table.find s5.mb 3 = some (entry false true true false 1) ∧
      Table.find s5.mb 5 = some (entry false false true false 1) ∧
      (entry true false false false 0).skip = true ∧ (entry false true true false 1).ipcm = true ∧
      (pairOf (entry false false false false 1) (entry false false true false 1) true).geom.cipDp = true ∧
      (entry false false false false 1).intra = false ∧ (2 ≤ 2 ∧ 15 < 16)) :=
  ⟨by decide +kernel, names_of (by decide +kernel), names_of (by decide +kernel), by decide +kernel,
    names_of (by decide +kernel), names_of (by decide +kernel), names_of (by decide +kernel),
    names_of (by decide +kernel), names_of (by decide +kernel), names_of (by decide +kernel),
    names_of (by decide +kernel), names_of (by decide +kernel), by decide +kernel⟩

theorem witness_CoeffTokenReads :
    ((withA (decOver [0, 8] false) 7 0 0 0).status.fault = false ∧ (withA (decOver [0, 8] false) 7 0 0 0).cur.mode = .dec ∧
      (withA (decOver [0, 8] false) 7 0 0 0).a0.toInt = 7 ∧ (withA (decOver [0, 8] false) (-2) 0 0 0).a0.toInt = -2 ∧
      (⟨16, 8, (3, 16)⟩ : Vlc (Nat × Nat)) ∈ coeffTokenTable 0 ∧
      (decOver [0, 8] false).remaining = (⟨16, 8, (3, 16)⟩ : Vlc (Nat × Nat)).bits ++ [] ∧
      (⟨1, 1, (0, 0)⟩ : Vlc (Nat × Nat)) ∈ coeffTokenTable (-2) ∧
      (decOver [128] false).remaining = (⟨1, 1, (0, 0)⟩ : Vlc (Nat × Nat)).bits ++ List.replicate 7 false) ∧
    ((withA (decOver [0x0C] false) 8 0 0 0).a0.toInt = 8 ∧ (withA (decOver [0x0C] false) 16 0 0 0).a0.toInt = 16 ∧
      (decOver [0x0C] false).remaining = fieldBits 3 6 ++ [false, false] ∧ bitsNat (fieldBits 3 6) = 3 ∧
      (decOver [0x08] false).remaining = fieldBits 2 6 ++ [false, false] ∧ bitsNat (fieldBits 2 6) = 2 ∧
      2 / 4 + 1 < 2 % 4 ∧ (decOver [0xFC] false).remaining = fieldBits 63 6 ++ [false, false] ∧
      63 % 4 ≤ 63 / 4 + 1 ∧ (withA (decOver [0] false) 17 0 0 0).a0.toInt = 17 ∧
      (withA (decOver [0] false) (-3) 0 0 0).a0.toInt = -3) := by decide +kernel

theorem witness_CoeffTokenWrites : (withA (encOpen false) (-2) 3 8 0).Inv ∧ (withA (encOpen false) 16 3 16 0).Inv ∧
    (withA (encOpen false) (-2) 3 8 0).HasRoom 16 ∧ (withA (encOpen false) 16 3 16 0).HasRoom 16 ∧
    ((withA (encOpen false) (-2) 3 8 0).status.fault = false ∧ (withA (encOpen false) (-2) 3 8 0).cur.mode = .enc ∧
      (withA (encOpen false) (-2) 3 8 0).a0.toInt = -2 ∧ (withA (encOpen false) (-2) 3 8 0).a2.toNat ≤ 8 ∧
      (withA (encOpen false) (-2) 3 8 0).a1.toNat ≤ min 3 (withA (encOpen false) (-2) 3 8 0).a2.toNat ∧
      (withA (encOpen false) 16 3 16 0).a0.toInt = 16 ∧ (withA (encOpen false) 16 3 16 0).a2.toNat ≤ 16 ∧
      (withA (encOpen false) 17 0 0 0).a0.toInt = 17 ∧ 8 < (withA (encOpen false) (-2) 3 9 0).a2.toNat ∧
      min 3 (withA (encOpen false) 0 3 2 0).a2.toNat < (withA (encOpen false) 0 3 2 0).a1.toNat) :=
  ⟨inv_of_checks (by decide +kernel) (by decide +kernel) (by decide +kernel),
    inv_of_checks (by decide +kernel) (by decide +kernel) (by decide +kernel), room_of (by decide), room_of (by decide),
    by decide +kernel⟩

/-- V-CV-34 and V-CV-54: prefix 15 with its 12-bit suffix, and prefix 16. -/
theorem witness_LevelReads :
    ((decOver [0, 1, 0, 0] false).status.fault = false ∧ (decOver [0, 1, 0, 0] false).cur.mode = .dec ∧
      (decOver [0, 1, 0, 0] false).a0.toNat = 0 ∧ (decOver [0, 1, 0, 0] false).a1.toNat ≤ 1 ∧
      15 ≤ (decOver [0, 1, 0, 0] false).params.maxLevelPrefix ∧ (fieldBits 0 12).length = 15 - 3 ∧
      (decOver [0, 1, 0, 0] false).remaining =
        List.replicate 15 false ++ true :: (fieldBits 0 12 ++ List.replicate 4 false) ∧
      30 + 0 = min 15 15 * 2 ^ 0 + bitsNat (fieldBits 0 12) + 15 + 0 + 0 ∧ (16 : Int) = ((30 : Int) + 2) / 2) ∧
    ((decOver [0, 0, 128, 0] false).remaining =
        List.replicate ((decOver [0, 0, 128, 0] false).params.maxLevelPrefix + 1) false ++
          (true :: List.replicate 15 false) ∧
      6 < (withA (decOver [0] false) 7 0 0 0).a0.toNat ∧ 1 < (withA (decOver [0] false) 0 2 0 0).a1.toNat ∧
      (withA (decOver [0] false) 6 1 0 0).a0.toNat ≤ 6 ∧ (withA (decOver [0] false) 6 1 0 0).a1.toNat ≤ 1) := by
  decide +kernel

theorem witness_LevelRoundTrip : (withA (encOpen false) 6 1 2063 0).Inv ∧ (withA (encOpen false) 0 0 (-2064) 0).Inv ∧
    (withA (encOpen false) 6 1 2063 0).HasRoom 60 ∧
    ((withA (encOpen false) 6 1 2063 0).status.fault = false ∧ (withA (encOpen false) 6 1 2063 0).cur.mode = .enc ∧
      (withA (encOpen false) 6 1 2063 0).a0.toNat ≤ 6 ∧ (withA (encOpen false) 6 1 2063 0).a1.toNat ≤ 1 ∧
      (withA (encOpen false) 6 1 2063 0).a2 ≠ 0 ∧ ¬(withA (encOpen false) 6 1 2063 0).a2.toInt.natAbs = 1 ∧
      15 = (levelFields (withA (encOpen false) 6 1 2063 0).a0.toNat
        (levelCodeFor (decide ((withA (encOpen false) 6 1 2063 0).a1 = 1)) (withA (encOpen false) 6 1 2063 0).a2.toInt)).1 ∧
      15 ≤ (withA (encOpen false) 6 1 2063 0).params.maxLevelPrefix ∧
      (withA (encOpen false) 0 0 (-2064) 0).params.maxLevelPrefix < (levelFields (withA (encOpen false) 0 0 (-2064) 0).a0.toNat
        (levelCodeFor (decide ((withA (encOpen false) 0 0 (-2064) 0).a1 = 1)) (withA (encOpen false) 0 0 (-2064) 0).a2.toInt)).1 ∧
      (withA (encOpen false) 6 1 2063 0).a2.toInt.natAbs ≤ 2063 ∧
      6 < (withA (encOpen false) 7 0 1 0).a0.toNat ∧ 1 < (withA (encOpen false) 0 2 1 0).a1.toNat ∧
      (withA (encOpen false) 0 1 (-1) 0).a1 = 1 ∧ (withA (encOpen false) 0 1 (-1) 0).a2.toInt.natAbs = 1) ∧
    ((withA (decOver [0b00011000] false) 1 0 0 0).status.fault = false ∧
      (withA (decOver [0b00011000] false) 1 0 0 0).cur.mode = .dec ∧
      (withA (decOver [0b00011000] false) 1 0 0 0).params.maxLevelPrefix = (encOpen false).params.maxLevelPrefix ∧
      (withA (decOver [0b00011000] false) 1 0 0 0).remaining = levelBits 1 false (-4) ++ [false, false, false]) :=
  ⟨inv_of_checks (by decide +kernel) (by decide +kernel) (by decide +kernel),
    inv_of_checks (by decide +kernel) (by decide +kernel) (by decide +kernel), room_of (by decide),
    by decide +kernel, by decide +kernel⟩

theorem witness_ZerosAndRunsReadAndWrite : (withA (encOpen false) 1 16 15 0).Inv ∧ (withA (encOpen false) 15 14 0 0).Inv ∧
    (withA (encOpen false) 1 16 15 0).HasRoom 9 ∧ (withA (encOpen false) 15 14 0 0).HasRoom 11 ∧
    ((withA (decOver [0, 128] false) 1 16 0 0).status.fault = false ∧ (withA (decOver [0, 128] false) 1 16 0 0).cur.mode = .dec ∧
      (withA (decOver [0, 128] false) 1 16 0 0).a0.toNat = 1 ∧ (withA (decOver [0, 128] false) 1 16 0 0).a1.toNat = 16 ∧
      (⟨9, 1, 15⟩ : Vlc Nat) ∈ totalZerosTable 16 1 ∧ 15 + 1 ≤ 16 ∧ 15 < 15 + 1 ∧
      (⟨9, 1, 15⟩ : Vlc Nat) ∈ totalZerosTable 15 1 ∧
      (decOver [0, 128] false).remaining = (⟨9, 1, 15⟩ : Vlc Nat).bits ++ List.replicate 7 false) ∧
    ((withA (encOpen false) 1 16 15 0).cur.mode = .enc ∧ (withA (encOpen false) 1 16 15 0).a2.toNat + 1 ≤ 16 ∧
      16 < (withA (encOpen false) 1 16 16 0).a2.toNat + 1 ∧ ¬(5 = 4 ∨ 5 = 8 ∨ 5 = 15 ∨ 5 = 16) ∧
      (withA (encOpen false) 1 5 0 0).a1.toNat = 5 ∧ (withA (encOpen false) 0 4 0 0).a0.toNat = 0 ∧
      3 < (withA (encOpen false) 4 4 0 0).a0.toNat ∧ 15 < (withA (encOpen false) 16 16 0 0).a0.toNat) ∧
    ((withA (decOver [0b00001000] false) 8 0 0 0).a0.toNat = 8 ∧ (⟨5, 1, 8⟩ : Vlc Nat) ∈ runBefore (min 8 7) ∧
      (decOver [0b00001000] false).remaining = (⟨5, 1, 8⟩ : Vlc Nat).bits ++ [false, false, false] ∧ 8 ≤ 8 ∧
      (⟨5, 1, 8⟩ : Vlc Nat) ∈ runBefore (min 7 7) ∧ 7 < 8 ∧ (withA (decOver [0b00001000] false) 7 0 0 0).a0.toNat = 7) ∧
    ((withA (encOpen false) 15 14 0 0).a0.toNat = 15 ∧ (withA (encOpen false) 15 14 0 0).a1.toNat ≤ min 15 14 ∧
      min 15 14 < (withA (encOpen false) 15 15 0 0).a1.toNat ∧ min 1 14 < (withA (encOpen false) 1 2 0 0).a1.toNat ∧
      (withA (encOpen false) 0 0 0 0).a0.toNat = 0 ∧ 15 < (withA (encOpen false) 16 0 0 0).a0.toNat) :=
  ⟨inv_of_checks (by decide +kernel) (by decide +kernel) (by decide +kernel),
    inv_of_checks (by decide +kernel) (by decide +kernel) (by decide +kernel), room_of (by decide), room_of (by decide),
    by decide +kernel, by decide +kernel, by decide +kernel, by decide +kernel⟩

theorem witness_CodedBlockPattern : (withA (encOpen false) 47 0 0 0).Inv ∧ (withA (encOpen false) 47 0 0 0).HasRoom 11 ∧
    ((withA (encOpen false) 47 0 0 0).status.fault = false ∧ (withA (encOpen false) 47 0 0 0).cur.mode = .enc ∧
      (encOpen false).geom.cat = 1 ∧ (withA (encOpen false) 47 0 0 0).a0.toNat < 48 ∧
      48 ≤ (withA (encOpen false) 48 0 0 0).a0.toNat) ∧
    ((decOver [0b00000110, 0] false).cur.mode = .dec ∧
      (decOver [0b00000110, 0] false).remaining = ueBits 47 ++ List.replicate 5 false ∧
      (cbpColumn (decOver [0] false).geom.cat false)[47]? = some 41 ∧
      (decOver [0b00000110, 0b00100000] false).remaining = ueBits 48 ++ List.replicate 5 false ∧
      ueBits 48 = [false, false, false, false, false, true, true, false, false, false, true]) :=
  ⟨inv_of_checks (by decide +kernel) (by decide +kernel) (by decide +kernel), room_of (by decide),
    by decide +kernel, by decide +kernel⟩

/-- S5 in an open stream. -/
def s5In (c : Cursor) : State := { s5 with cur := c }

theorem witness_ResidualLegal_given : ResidualLegal (withA (encOpen false) 0 15 16 0) 0 false true 0 0 where
  setup h := by cases h
  store h := by cases h
  block := by decide
  range := by decide
  size := by decide
  given _ := by decide
  derived h := by cases h

theorem witness_ResidualLegal_stored : ResidualLegal (withA (s5In (encOpen false).cur) 0 15 16 0) 0 true false 0 4 where
  setup _ := by decide
  store _ := by decide
  block := by decide
  range := by decide
  size := by decide
  given h := by cases h
  derived _ := ⟨by decide +kernel, by decide⟩

theorem witness_ResidualLegal_dc : ResidualLegal (withA (decOver [0x80] false) 0 7 8 (-2)) 5 false true 0 (-2) where
  setup h := by cases h
  store h := by cases h
  block := by decide
  range := by decide
  size := by decide
  given _ := by decide
  derived h := by cases h

theorem witness_ResidualSetupAndStore :
    ((¬∃ nC, ResidualLegal (withA (encOpen false) 0 15 16 0) 0 false false 0 nC) ∧
      (withA (encOpen false) 0 15 16 0).currValid = false ∧ (withA (encOpen false) 0 15 16 0).cur.mode = .enc ∧
      (withA (encOpen false) 0 15 16 0).status.fault = false) ∧
    ((¬∃ nC, ResidualLegal (withA (decOver [1] false) 0 15 16 0) 0 true true 0 nC) ∧
      (withA (decOver [1] false) 0 15 16 0).currValid = false ∧ (decOver [1] false).cur.mode = .dec) ∧
    ((¬∃ nC, ResidualLegal (withA (encOpen false) 5 4 16 0) 0 false true 0 nC) ∧
      (¬∃ nC, ResidualLegal (withA (encOpen false) 0 15 16 17) 0 false true 0 nC) ∧
      (¬∃ nC, ResidualLegal (withA (decOver [1] false) 0 16 16 0) 0 false true 0 nC)) ∧
    (4 ≤ 4 ∧ 15 < 16 ∧ 16 ≤ 16 ∧ Table.find s5.mb s5.currMbAddr.toNat = some (entry false false true false 1)) := by
  refine ⟨⟨fun ⟨_, h⟩ => ?_, by decide, by decide, by decide⟩, ⟨fun ⟨_, h⟩ => ?_, by decide, by decide⟩,
    ⟨fun ⟨_, h⟩ => ?_, fun ⟨_, h⟩ => ?_, fun ⟨_, h⟩ => ?_⟩, by decide⟩
  · exact absurd (h.setup rfl).2.2 (by decide)
  · exact absurd (h.store rfl).1 (by decide)
  · exact absurd h.range.1 (by decide)
  · obtain ⟨rfl, _, h3, _⟩ := h.given rfl
    exact absurd h3 (by decide)
  · exact absurd h.range.2 (by decide)

/-- COEF of the magnitudes at which prefix 15 ends, and of one that needs a prefix above the MaxLevelPrefix of 15. -/
theorem witness_ResidualRoundTrip : (withA (encOpen false) 0 15 16 0).Inv ∧
    (withA (s5In (encOpen false).cur) 0 15 16 0).Inv ∧
    ((withA (encOpen false) 0 15 16 0).status.fault = false ∧ (withA (encOpen false) 0 15 16 0).cur.mode = .enc ∧
      (∀ j, j ≤ 15 → ({ withA (encOpen false) 0 15 16 0 with coef := Vector.replicate 16 (-2063) } : State).coefAt j =
        (-2063 : Word)) ∧ (-2063 : Word).toInt.natAbs ≤ 2063 ∧
      15 ≤ (encOpen false).params.maxLevelPrefix ∧ (encOpen false).params.maxLevelPrefix < 16 ∧
      (levelFields 0 (levelCodeFor true 4000)).1 = 16) ∧
    ((withA (decOver [0b00010010, 0b01110100] false) 0 15 16 0).status.fault = false ∧
      (withA (decOver [0b00010010, 0b01110100] false) 0 15 16 0).cur.mode = .dec ∧
      15 ≤ (decOver [0] false).params.maxLevelPrefix ∧
      (decOver [0b00010010, 0b01110100] false).remaining = fieldBits 0b00010010011101 14 ++ [false, false]) :=
  ⟨inv_of_checks (by decide +kernel) (by decide +kernel) (by decide +kernel),
    inv_of_checks (by decide +kernel) (by decide +kernel) (by decide +kernel), by decide +kernel, by decide +kernel⟩

theorem witness_ContextInitialisation : (withA State.reset 51 0 0 0).status.fault = false ∧
    (withA State.reset 51 0 0 0).a0.toInt = 51 ∧ (withA State.reset (-48) 0 0 0).a0.toInt = -48 ∧
    (withA State.reset 52 0 0 0).a0.toInt = 52 ∧ (withA State.reset (-49) 0 0 0).a0.toInt = -49 ∧
    cabacInitMN State.reset.params 0 3 = some (-28, 127) ∧ cabacInitMN State.reset.params 0 1023 = none ∧
    cabacInitMN State.reset.params 0 2 = some (0, 63) ∧ (63 : Int) = max 1 (min 126 ((0 * max 0 (min 51 51)) / 16 + 63)) ∧
    cabacInitMN State.reset.params 0 1 = some (0, 64) ∧ (64 : Int) = max 1 (min 126 ((0 * max 0 (min 51 51)) / 16 + 64)) := by
  decide

theorem witness_ContextSetAndGet : (withA State.reset 127 0 0 0).status.fault = false ∧
    (withA State.reset 127 0 0 0).a0.toNat < 128 ∧ 128 ≤ (withA State.reset 128 0 0 0).a0.toNat ∧
    Table.find encEngine.ctx 1 = some ⟨10, true⟩ ∧ Table.find encEngine.ctx 1023 = none ∧ 1023 < 1024 := by decide

theorem witness_EnginesStart : (encOpen false).status.fault = false ∧ (encOpen false).cur.mode = .enc ∧
    (decOver [0xFE, 0x80] false).cur.mode = .dec ∧ (fieldBits 509 9).length = 9 ∧
    (decOver [0xFE, 0x80] false).remaining = fieldBits 509 9 ++ List.replicate 7 false ∧ bitsNat (fieldBits 509 9) < 510 ∧
    (decOver [0xFF, 0] false).remaining = fieldBits 510 9 ++ List.replicate 7 false ∧ 510 ≤ bitsNat (fieldBits 510 9) ∧
    (decOver [0xFF] false).remaining.length < 9 := by decide +kernel

theorem witness_EncodeDecisionBin : encEngine.Inv ∧ (withA encEngine 1 0 0 0).Inv ∧
    (withA encEngine 1 0 0 0).HasRoom ((withA encEngine 1 0 0 0).enc.outstanding.toNat + 8) ∧
    (encEngine.status.fault = false ∧ encEngine.enc.active = true ∧ encEngine.a0.toNat ≤ 1 ∧
      (withA encEngine 1 0 0 0).a0.toNat ≤ 1 ∧ Table.find encEngine.ctx 0 = some ⟨0, false⟩ ∧
      240 = rangeTabLPS (0 : BitVec 6).toNat (encEngine.enc.range.toNat / 64 % 4) ∧
      (decide (encEngine.a0 = 1) = false ∧ 270 = encEngine.enc.range.toNat - 240) ∧
      decide ((withA encEngine 1 0 0 0).a0 = 1) ≠ false ∧ encEngine.enc.outstanding.toNat + 8 < 2 ^ 32) ∧
    (Table.find encEngine.ctx 1023 = none ∧ 1023 < 1024 ∧ 1 < (withA encEngine 2 0 0 0).a0.toNat) :=
  ⟨inv_of_checks (by decide +kernel) (by decide +kernel) (by decide +kernel),
    inv_of_checks (by decide +kernel) (by decide +kernel) (by decide +kernel), room_of (by decide),
    by decide +kernel, by decide⟩

/-- The encoding engine with codILow `low` and the outstanding count `o`. -/
def engineAt (low : BitVec 10) (o a : Word) : State := { withA encEngine a 0 0 0 with enc := ⟨low, 510, o, false, true⟩ }

theorem witness_EncodeBypassBin : (engineAt 257 0 1).Inv ∧ (engineAt 255 0 0).Inv ∧ (engineAt 256 0xFFFFFFFF 0).Inv ∧
    (engineAt 257 0 1).HasRoom ((engineAt 257 0 1).enc.outstanding.toNat + 1) ∧
    (engineAt 255 0 0).HasRoom ((engineAt 255 0 0).enc.outstanding.toNat + 1) ∧
    ((engineAt 257 0 1).a0.toNat ≤ 1 ∧ (engineAt 257 0 1).a0 = 1 ∧ 1024 ≤ 2 * (engineAt 257 0 1).enc.low.toNat + 510 ∧
      2 * (engineAt 255 0 0).enc.low.toNat + 0 < 512 ∧ (engineAt 255 0 0).a0 ≠ 1 ∧
      512 ≤ 2 * (engineAt 256 0xFFFFFFFF 0).enc.low.toNat + 0 ∧ 2 * (engineAt 256 0xFFFFFFFF 0).enc.low.toNat + 0 < 1024 ∧
      (engineAt 256 0xFFFFFFFF 0).enc.outstanding = 0xFFFFFFFF ∧
      (engineAt 256 0xFFFFFFFE 0).enc.outstanding.toNat + 1 < 2 ^ 32 ∧ 1 < (engineAt 256 0 2).a0.toNat ∧
      (engineAt 256 0 2).enc.active = true ∧ (engineAt 256 0 2).status.fault = false) :=
  ⟨inv_of_checks (by decide +kernel) (by decide +kernel) (by decide +kernel),
    inv_of_checks (by decide +kernel) (by decide +kernel) (by decide +kernel),
    inv_of_checks (by decide +kernel) (by decide +kernel) (by decide +kernel), room_of (by decide), room_of (by decide),
    by decide +kernel⟩

theorem witness_EncodeTerminateBin : (engineAt 0 3 1).Inv ∧ (engineAt 0 3 0).Inv ∧
    (engineAt 0 3 0).HasRoom ((engineAt 0 3 0).enc.outstanding.toNat + 8) ∧
    (engineAt 0 3 1).HasRoom ((engineAt 0 3 1).enc.outstanding.toNat + 11) ∧
    ((engineAt 0 3 0).a0 = 0 ∧ (engineAt 0 3 1).a0 = 1 ∧ (engineAt 0 3 1).enc.outstanding.toNat + 8 < 2 ^ 32 ∧
      1 < (engineAt 0 3 2).a0.toNat ∧ (engineAt 0 3 2).status.fault = false ∧ (engineAt 0 3 2).enc.active = true) :=
  ⟨inv_of_checks (by decide +kernel) (by decide +kernel) (by decide +kernel),
    inv_of_checks (by decide +kernel) (by decide +kernel) (by decide +kernel), room_of (by decide), room_of (by decide),
    by decide +kernel⟩

/-- The decoding engine with no bit left in the stream. -/
def decEnd (r o : BitVec 9) : State :=
  { decEngine o with cur := ⟨.dec, false, false, 2, 2, 2, 0, 0, 0, 16⟩, dec := ⟨r, o, true⟩ }

theorem witness_DecodeDecisionBin : (decEngine 300).Inv ∧ (decEngine 1).Inv ∧ (decEnd 510 300).Inv ∧
    ((decEngine 300).status.fault = false ∧ (decEngine 300).dec.active = true ∧
      Table.find (decEngine 300).ctx 0 = some ⟨0, false⟩ ∧
      240 = rangeTabLPS (0 : BitVec 6).toNat ((decEngine 300).dec.range.toNat / 64 % 4) ∧
      (decEngine 300).dec.range.toNat - 240 ≤ (decEngine 300).dec.offset.toNat ∧ 256 ≤ 240 * 2 ^ 1 ∧ 240 * 2 ^ 1 ≤ 510 ∧
      (decEngine 300).remaining = [false] ++ List.replicate 6 false) ∧
    ((decEngine 269).dec.offset.toNat < (decEngine 269).dec.range.toNat - 240 ∧ 256 ≤ 270 * 2 ^ 0 ∧ 270 * 2 ^ 0 ≤ 510 ∧
      (decEngine 1).remaining = [] ++ List.replicate 7 false ∧ (decEnd 510 300).remaining.length < 1 ∧
      Table.find (decEngine 1).ctx 1023 = none ∧ 1023 < 1024) :=
  ⟨inv_of_checks (by decide +kernel) (by decide +kernel) (by decide +kernel),
    inv_of_checks (by decide +kernel) (by decide +kernel) (by decide +kernel),
    inv_of_checks (by decide +kernel) (by decide +kernel) (by decide +kernel), by decide +kernel, by decide +kernel⟩

theorem witness_DecodeBypassAndTerminate : (decEngine 255).Inv ∧ (decEnd 257 254).Inv ∧
    ({ decEngine 0 with dec := ⟨256, 253, true⟩ } : State).Inv ∧
    ((decEngine 255).remaining = false :: List.replicate 6 false ∧ 510 = 2 * (decEngine 255).dec.offset.toNat + 0 ∧
      (decEngine 255).dec.range.toNat ≤ 510 ∧ 508 = 2 * (decEngine 254).dec.offset.toNat + 0 ∧
      508 < (decEngine 254).dec.range.toNat ∧ (decEnd 257 254).remaining = []) ∧
    ((decEngine 508).dec.range.toNat - 2 ≤ (decEngine 508).dec.offset.toNat ∧
      (decEngine 507).dec.offset.toNat < (decEngine 507).dec.range.toNat - 2 ∧ 258 ≤ (decEngine 507).dec.range.toNat ∧
      (decEnd 257 254).dec.offset.toNat < (decEnd 257 254).dec.range.toNat - 2 ∧ (decEnd 257 254).dec.range.toNat < 258 ∧
      ({ decEngine 0 with dec := ⟨256, 253, true⟩ } : State).remaining = false :: List.replicate 6 false ∧
      (decEnd 257 254).status.fault = false ∧ (decEnd 257 254).dec.active = true) :=
  ⟨inv_of_checks (by decide +kernel) (by decide +kernel) (by decide +kernel),
    inv_of_checks (by decide +kernel) (by decide +kernel) (by decide +kernel),
    inv_of_checks (by decide +kernel) (by decide +kernel) (by decide +kernel), by decide +kernel, by decide +kernel⟩

theorem witness_DecodeBinIsRefused : faulted.status.fault = true ∧ State.reset.status.fault = false ∧ 255 < 256 ∧
    65535 < 65536 := by decide

theorem witness_BinStrings : (withA State.reset 127 127 0 0).status.fault = false ∧
    (withA State.reset 127 127 0 0).a0.toNat ≤ 127 ∧ 127 < (withA State.reset 128 128 0 0).a0.toNat ∧
    (withA State.reset 127 127 0 0).a1.toNat ≤ 127 ∧ 127 < (withA State.reset 128 128 0 0).a1.toNat ∧
    (withA State.reset 6 5 0 0).a1.toNat < (withA State.reset 6 5 0 0).a0.toNat ∧
    (withA State.reset 0xFFFFFFFF 0xFFFFFFFF 0 0).a0.toNat ≤ (withA State.reset 0xFFFFFFFF 0xFFFFFFFF 0 0).a1.toNat ∧
    (withA State.reset (-31) 32 0 0).a1.toNat ≤ 32 ∧ (withA State.reset (-31) 32 0 0).a0.toInt.natAbs < 32 ∧
    (withA State.reset (-32) 32 0 0).a0.toInt.natAbs = 32 + 2 ^ 15 * (2 ^ 0 - 1) + bitsNat (List.replicate 15 false) ∧
    (List.replicate 15 false).length = 15 + 0 ∧
    ((withA State.reset 0xFFFFFFFF 32 0 0).a0.toNat : Int).natAbs = 32 + 2 ^ 0 * (2 ^ 31 - 1) + bitsNat (fieldBits 0x7FFFFFE0 31) ∧
    (fieldBits 0x7FFFFFE0 31).length = 0 + 31 ∧ 32 < (withA State.reset 0 33 0 0).a1.toNat := by decide +kernel

theorem witness_BinStringBound :
    (∃ t, exec .bnU (withA State.reset 127 0 0 0) = .next t ∧ decide (t.status.fault = false ∧ t.binLen = 128) = true) ∧
    (∃ t, exec .bnTu (withA State.reset 127 127 0 0) = .next t ∧ decide (t.status.fault = false ∧ t.binLen = 127) = true) ∧
    (∃ t, exec .bnFl (withA State.reset 0xFFFFFFFF 0xFFFFFFFF 0 0) = .next t ∧
      decide (t.status.fault = false ∧ t.binLen = 32) = true) ∧
    (∃ t, exec (.bnUegk 0 false) (withA State.reset 0xFFFFFFFF 32 0 0) = .next t ∧
      decide (t.status.fault = false ∧ t.binLen = 95) = true) :=
  ⟨answer_of (by decide +kernel), answer_of (by decide +kernel), answer_of (by decide +kernel),
    answer_of (by decide +kernel)⟩

/-- The engine with BINBUF 1, 1, 0 (V-BN-31). -/
def encBins (a b : Word) : State :=
  { withA encEngine a b 0 0 with binLen := 3, bins := ((Vector.replicate 128 false).set 0 true).set 1 true }

theorem witness_BinEncode : (encBins 0 3).Inv ∧
    (encBins 0 3).HasRoom ((encBins 0 3).enc.outstanding.toNat + 8 * (encBins 0 3).a1.toNat) ∧
    ((encBins 0 3).status.fault = false ∧ (encBins 0 3).enc.active = true ∧
      (encBins 0 3).a0.toNat + (encBins 0 3).a1.toNat ≤ (encBins 0 3).binLen ∧ (encBins 3 0).a1 = 0 ∧
      (encBins 2 1).a1 = 1 ∧ (encBins 0 3).a1.toNat = 2 + 1 ∧ Table.find (encBins 0 3).ctx 0 = some ⟨0, false⟩ ∧
      Table.find (encBins 0 3).ctx 5 = none ∧ (encBins 0 3).a1 ≠ 0 ∧
      (encBins 0 3).enc.outstanding.toNat + 8 * (encBins 0 3).a1.toNat < 2 ^ 32 ∧
      (encBins 1 3).binLen < (encBins 1 3).a0.toNat + (encBins 1 3).a1.toNat ∧ 1023 < 1024 ∧ 1024 ≠ 0xFFFF) ∧
    (∃ t, exec .cbEbyp { encBins 2 1 with a0 := if (encBins 2 1).binAt (encBins 2 1).a0.toNat then 1 else 0 } = .next t ∧
      decide (t.status.fault = false) = true) ∧
    (∃ t, exec (.bnEnc 0xFFFF) { encBins 0 3 with a1 := 1 } = .next t ∧ (decide (t.status.fault = false) &&
      answers (exec (.bnEnc 0xFFFF) { t with a0 := (encBins 0 3).a0 + 1, a1 := natWord 2 }) fun e =>
        decide (e.status.fault = false)) = true) :=
  ⟨inv_of_checks (by decide +kernel) (by decide +kernel) (by decide +kernel), room_of (by decide), by decide +kernel,
    answer_of (by decide +kernel), answer_of (by decide +kernel)⟩

theorem witness_MbSliceRule : s5.status.fault = false ∧ (0x60000001 : Word).toNat / 2 ^ 24 = 0x60 ∧
    (0x60000001 : Word) ≠ 0x60000000 := by decide

theorem witness_MbBeginEntersMacroblock : MbBeginLegal (withA s5 11 0xFF04 0 0) ∧
    MbBeginLegal (withA (picture 9 8) 64 0 0 0) ∧ ¬MbBeginLegal (withA s5 12 0 0 0) ∧
    MbBeginLegal { mbaff 2 with a0 := 3, a1 := 4 } ∧
    ((withA s5 11 0xFF04 0 0).status.fault = false ∧ (withA s5 11 0xFF04 0 0).geom.valid = true ∧
      (withA s5 11 0xFF04 0 0).a0.toNat < (withA s5 11 0xFF04 0 0).params.maxMbs ∧ (picture 9 8).geom.valid = true ∧
      (withA (picture 9 8) 64 0 0 0).params.maxMbs ≤ (withA (picture 9 8) 64 0 0 0).a0.toNat ∧
      State.reset.geom.valid = false) := by
  refine ⟨⟨by decide, by decide, by decide, by decide, by decide, by decide, by decide, fun h => absurd h (by decide)⟩,
    ⟨by decide, by decide, by decide, by decide, by decide, by decide, by decide, fun h => absurd h (by decide)⟩,
    fun h => absurd h.inPicture (by decide),
    ⟨by decide, by decide, by decide, by decide, by decide, by decide, by decide, fun _ _ e he => ?_⟩, by decide⟩
  have : Table.find (mbaff 2).mb 2 = some (entry false false true false 1) := by decide
  rw [show ((3 : Word).toNat - 1) = 2 from rfl, this] at he
  cases he
  decide

theorem witness_MbCountsWriteAndRead : (withA s5 16 0 0 0).status.fault = false ∧ (withA s5 16 0 0 0).currValid = true ∧
    Table.find s5.mb s5.currMbAddr.toNat = some (entry false false true false 1) ∧ (withA s5 16 0 0 0).a0.toNat ≤ 16 ∧
    (withA s5 64 0 0 0).a0.toNat ≤ 64 ∧ 16 < (withA s5 17 0 0 0).a0.toNat ∧ 64 < (withA s5 65 0 0 0).a0.toNat ∧
    State.reset.currValid = false ∧ (withA s5 5 0x20F 0 0).a1.toNat = 15 + 256 * 2 + 4096 * false.toNat ∧
    (withA s5 5 0x1203 0 0).a1.toNat = 3 + 256 * 2 + 4096 * true.toNat ∧
    (withA s5 63 0 0 0).a0.toNat < (withA s5 63 0 0 0).params.maxMbs ∧ Table.find s5.mb 63 = none ∧
    (withA s5 64 0 0 0).params.maxMbs ≤ (withA s5 64 0 0 0).a0.toNat ∧
    ¬(∃ c k : Nat, ∃ size8 : Bool, c ≤ 2 ∧ k ≤ 15 ∧ (size8 = true → k ≤ 3) ∧
      (withA s5 5 0x300 0 0).a1.toNat = k + 256 * c + 4096 * size8.toNat) := by
  refine ⟨by decide, by decide, by decide, by decide, by decide, by decide, by decide, by decide, by decide, by decide,
    by decide, by decide, by decide, fun ⟨c, k, size8, h1, h2, h3, h4⟩ => ?_⟩
  have : (withA s5 5 0x300 0 0).a1.toNat = 0x300 := rfl
  cases size8 <;> simp at h4 <;> omega

theorem witness_NeighbourLocations : s5.status.fault = false ∧ s5.geom.valid = true ∧ s5.currValid = true ∧
    s5.geom.mbaffFrame = false ∧ s5.geom.cat = 1 ∧
    (-16 ≤ (withA s5 (-16) 15 0 0).a0.toInt ∧ (withA s5 (-16) 15 0 0).a0.toInt < 0 ∧
      (withA s5 (-16) 15 0 0).a1.toInt < 16 ∧ 0 ≤ (withA s5 (-16) 0 0 0).a1.toInt) ∧
    (0 ≤ (withA s5 15 (-16) 0 0).a0.toInt ∧ (withA s5 15 (-16) 0 0).a0.toInt < 16 ∧
      -16 ≤ (withA s5 15 (-16) 0 0).a1.toInt ∧ (withA s5 15 (-1) 0 0).a1.toInt < 0) ∧
    (16 ≤ (withA s5 16 0 0 0).a0.toInt ∧ 8 ≤ (withA s5 0 8 0 0).a1.toInt ∧ (withA s5 (-17) 0 0 0).a0.toInt < -16 ∧
      (withA s5 0 (-9) 0 0).a1.toInt < -8) ∧
    State.reset.geom.valid = false ∧ State.reset.currValid = false := by decide

/-- Location witnesses of the MBAFF picture: macroblock 3 (frame, bottom) has a field pair to its left; 2 is its top;
4 and 5 (field) lie below a field pair; in `mbaffMixed`, 6 (field) lies below and right of frame pairs. -/
def mbaffMixed (curr : Word) : State :=
  { mbaff curr with mb := [(2, entry false false true false 1), (3, entry false false true false 1),
    (4, entry false false true false 1), (5, entry false false true false 1), (6, entry false false true true 1),
    (7, entry false false true true 1)] }

theorem witness_NeighbourLocationsMbaff : (mbaff 3).status.fault = false ∧ (mbaff 3).geom.valid = true ∧
    (mbaff 3).currValid = true ∧ (mbaff 3).geom.mbaffFrame = true ∧ (mbaff 3).geom.cat = 1 ∧
    Table.find (mbaff 3).mb 3 = some (entry false false true false 1) ∧ 3 / 2 = 1 ∧
    Table.find (mbaff 3).mb (2 * (1 - 1)) = some (entry false false true true 1) ∧ 1 % 2 ≠ 0 ∧
    (-16 ≤ (withA (mbaff 3) (-16) 15 0 0).a0.toInt ∧ (withA (mbaff 3) (-16) 15 0 0).a0.toInt < 0 ∧
      (withA (mbaff 3) (-16) 15 0 0).a1.toInt < 16 ∧ (mbaff 3).mbValid 6 = false) ∧
    (4 / 2 % 2 = 0 ∧ Table.find (mbaff 5).mb 5 = some (entry false false true true 1) ∧ 2 ≤ 5 / 2 ∧
      Table.find (mbaff 5).mb (2 * (5 / 2 - 2)) = some (entry false false true true 1)) ∧
    (Table.find (mbaffMixed 6).mb 6 = some (entry false false true true 1) ∧
      Table.find (mbaffMixed 6).mb (2 * (6 / 2 - 1)) = some (entry false false true false 1) ∧
      Table.find (mbaffMixed 6).mb (2 * (6 / 2 - 2)) = some (entry false false true false 1) ∧
      -(16 : Int) / 2 ≤ (withA (mbaffMixed 6) 0 (-8) 0 0).a1.toInt ∧ (withA (mbaffMixed 6) 0 (-8) 0 0).a1.toInt < 0) ∧
    (1 < 2 ∧ (mbaff 3).currMbAddr.toNat % 2 = 1 ∧ 16 ≤ (withA (mbaff 3) 16 0 0 0).a0.toInt ∧
      (withA (mbaff 3) (-17) 0 0 0).a0.toInt < -16) := by decide

theorem witness_NeighbourBlocks : s5.status.fault = false ∧ s5.geom.valid = true ∧ s5.currValid = true ∧
    s5.geom.cat = 1 ∧ 15 < 16 ∧ 3 < 4 ∧ 12 = 15 / 4 % 2 * 8 + 15 % 4 % 2 * 4 ∧ 12 = 15 / 4 / 2 * 8 + 15 % 4 / 2 * 4 ∧
    4 = 3 % 2 * 4 ∧ 4 = 3 / 2 * 4 ∧ 8 = 3 % 2 * 8 ∧ 8 = 3 / 2 * 8 ∧ 2 < 3 ∧
    ({ s5 with geom := { s5.geom with chromaArrayType := 0 } } : State).geom.cat ≠ 1 ∧
    ({ s5 with geom := { s5.geom with chromaArrayType := 0 } } : State).geom.cat ≠ 2 ∧
    State.reset.geom.valid = false ∧ (picture 4 3).currValid = false := by decide

/-- Run lengths, rectangles and ids at the ends of their ranges (V-SG-3, V-SG-10, V-SG-24). -/
theorem witness_SgGenComputesMaps : (groups 1).sg.Legal 4 12 ∧
    ({ groups 0 with sg := { (groups 0).sg with runLengthMinus1 := (Vector.replicate 8 0).set 0 11 } } : State).sg.Legal 4 12 ∧
    ({ groups 2 with sg := { (groups 2).sg with bottomRight := (Vector.replicate 8 0).set 0 11 } } : State).sg.Legal 4 12 ∧
    ({ groups 3 with sg := { (groups 3).sg with changeRateMinus1 := 11 } } : State).sg.Legal 4 12 ∧
    (groups 4).sg.Legal 4 12 ∧ (groups 5).sg.Legal 4 12 ∧
    ({ groups 6 with sg := { (groups 6).sg with sgid := [(11, 1)] } } : State).sg.Legal 4 12 ∧
    (picture 4 3).sg.Legal 4 12 ∧
    ¬({ groups 4 with sg := { (groups 4).sg with changeRateMinus1 := 12 } } : State).sg.Legal 4 12 ∧
    ((groups 1).status.fault = false ∧ (groups 1).geom.valid = true ∧ 12 ≤ (groups 1).params.maxMapUnits ∧
      (groups 1).geom.picSizeInMbs = 12 ∧ (picture 8 8).geom.picSizeInMapUnits ≤ (picture 8 8).params.maxMapUnits ∧
      (picture 9 8).params.maxMapUnits < (picture 9 8).geom.picSizeInMapUnits ∧ State.reset.geom.valid = false) ∧
    (∃ g j q, g ≤ 1 ∧ j ≤ (groups 0).sg.runLengthAt g ∧
      11 = q * (groups 0).sg.runsBefore (1 + 1) + (groups 0).sg.runsBefore g + j) ∧
    (groups 2).sg.InRectangle 4 0 0 ∧ ¬(groups 2).sg.InRectangle 4 0 1 :=
  ⟨.inr (.inr (.inl rfl)), .inr (.inl ⟨rfl, by decide⟩), .inr (.inr (.inr (.inl ⟨rfl, by decide⟩))),
    .inr (.inr (.inr (.inr (.inl ⟨by decide, by decide⟩)))), .inr (.inr (.inr (.inr (.inl ⟨by decide, by decide⟩)))),
    .inr (.inr (.inr (.inr (.inl ⟨by decide, by decide⟩)))), .inr (.inr (.inr (.inr (.inr ⟨rfl, by decide⟩)))), .inl rfl,
    fun h => by rcases h with h | h | h | h | h | h <;> revert h <;> decide, by decide,
    ⟨1, 0, 5, by decide, by decide, by decide⟩, by unfold SliceGroups.InRectangle; decide,
    by unfold SliceGroups.InRectangle; decide⟩

theorem witness_SliceGroupMapBounds : (∃ t, exec .sgGen (groups 1) = .next t ∧ decide (t.status.fault = false ∧
    11 < t.geom.picSizeInMapUnits ∧ 11 < t.geom.picSizeInMbs) = true) := answer_of (by decide +kernel)

theorem witness_SgIdsAndQueries : (withA State.reset 63 7 0 0).status.fault = false ∧
    (withA State.reset 63 7 0 0).a0.toNat < (withA State.reset 63 7 0 0).params.maxMapUnits ∧
    (withA State.reset 63 7 0 0).a1.toNat ≤ 7 ∧
    (withA State.reset 64 7 0 0).params.maxMapUnits ≤ (withA State.reset 64 7 0 0).a0.toNat ∧
    7 < (withA State.reset 63 8 0 0).a1.toNat ∧ dispersed.sg.mapValid = true ∧
    (withA dispersed 11 0 0 0).a0.toNat < dispersed.geom.picSizeInMbs ∧
    dispersed.geom.picSizeInMbs ≤ (withA dispersed 12 0 0 0).a0.toNat ∧ State.reset.sg.mapValid = false := by decide

theorem witness_SgIdsAndQueries_inv : (withA State.reset 63 7 0 0).Inv :=
  inv_of_checks (by decide +kernel) (by decide +kernel) (by decide +kernel)

/-- A step from a state without a map, and SG_MBGRP in one with a valid map. -/
theorem witness_StepKeepsInvariant : (hostDoes (.command 0x61000000)).Inv ∧
    (∃ t, step (hostDoes (.command 0x61000000)) = .next t) ∧
    State.Inv { dispersed with port := [.command 0x72000000] } ∧ dispersed.sg.mapValid = true ∧
    ∃ t, step { dispersed with port := [.command 0x72000000] } = .next t :=
  ⟨inv_of_checks (by decide +kernel) (by decide +kernel) (by decide +kernel), ⟨_, rfl⟩,
    inv_of_checks (by decide +kernel) (by decide +kernel) (by decide +kernel), rfl, ⟨_, rfl⟩⟩

theorem witness_InvariantAtReset : Config.vectorParams.wf = true ∧
    ({ Config.vectorParams with growBlock := 1, maxLevelPrefix := 31, cabacInit := [⟨3, 1023, -128, 127⟩] } : Params).wf =
      true := by decide

theorem witness_CavlcTablesArePrefixCodes : -2 ≤ (-2 : Int) ∧ (7 : Int) < 8 ∧ 1 ≤ 15 ∧ 3 ≤ (if 4 = 4 then 3 else 7) ∧
    14 ≤ min 15 14 ∧ 0 + 4 ≤ 4 := by decide

end Sys2Proof.Tests
end

