-- ==== Sys2Proof/Proofs/Frames.lean ====
section
/-!
What a rule can answer with, and the pieces of state each rule writes (10_state.md R31 to R45).
-/

namespace Sys2Proof.Machine

/-- Every answer of a computation has the property `P`. -/
def Yields {α : Type} (P : α → Prop) (x : Except Code α) : Prop := ∀ a, x = .ok a → P a

theorem yields_ok {α : Type} {P : α → Prop} {a : α} (h : P a) : Yields P (.ok a) := fun _ hb => Except.ok.inj hb ▸ h

theorem yields_pure {α : Type} {P : α → Prop} {a : α} (h : P a) : Yields P (pure a : Except Code α) := yields_ok h

theorem yields_error {α : Type} {P : α → Prop} (e : Code) : Yields P (.error e) := fun _ h => nomatch h

theorem yields_bind {α β : Type} {P : β → Prop} {x : Except Code α} {f : α → Except Code β}
    (h : ∀ a, x = .ok a → Yields P (f a)) : Yields P (x >>= f) := fun b hb => by
  obtain ⟨a, ha, hfa⟩ := bind_eq_ok.mp hb
  exact h a ha b hfa

theorem yields_require {α : Type} {P : α → Prop} {c : Prop} [Decidable c] {e : Code} {f : Unit → Except Code α}
    (h : c → Yields P (f ())) : Yields P (require c e >>= f) := fun a ha => by
  obtain ⟨hc, hf⟩ := require_bind_eq_ok.mp ha
  exact h hc a hf

theorem yields_ite {α : Type} {P : α → Prop} {c : Prop} [Decidable c] {x y : Except Code α} (hx : c → Yields P x)
    (hy : ¬c → Yields P y) : Yields P (if c then x else y) := by
  split
  · exact hx ‹_›
  · exact hy ‹_›

/-! The shapes of the rules that look something up. -/

theorem csrWrite_eq_ok {s t : State} {n : Nat} {v : Word} (h : s.csrWrite n v = .ok t) :
    (∃ g, s.geom.writeCsr n v = some g ∧ t = ({ s with geom := g }.clearMbTable.clearMapValid)) ∨
      (s.geom.writeCsr n v = none ∧ ∃ sg, s.sg.writeCsr n v = some sg ∧ t = ({ s with sg := sg }.clearMapValid)) := by
  unfold State.csrWrite at h
  split at h
  · next g hg => exact .inl ⟨g, hg, (Except.ok.inj h).symm⟩
  · next hg =>
    split at h
    · next sg hsg => exact .inr ⟨hg, sg, hsg, (Except.ok.inj h).symm⟩
    · simp at h

theorem ruleCsrRd_eq_ok {s t : State} {n : Nat} (h : ruleCsrRd n s = .ok t) : ∃ y, t = { s with y0 := y } := by
  unfold ruleCsrRd at h
  split at h
  · exact ⟨_, (Except.ok.inj h).symm⟩
  · simp at h

theorem ruleBcInit_eq_ok {s t : State} {mode : Nat} {ep grow : Bool} (h : ruleBcInit mode ep grow s = .ok t) :
    ∃ m, bcInitOk s.params m ep grow s.a0 = true ∧ t = { s with
      cur := startCursor m ep grow s.a0
      enc := { s.enc with active := false }
      dec := { s.dec with active := false } } := by
  unfold ruleBcInit at h
  split at h
  · simp at h
  · next m _ =>
    obtain ⟨hok, ht⟩ := require_bind_eq_ok.mp h
    exact ⟨m, hok, (Except.ok.inj ht).symm⟩

theorem ruleCvRdcbp_eq_ok {s t : State} {intra : Bool} (h : ruleCvRdcbp intra s = .ok t) :
    s.cur.mode = .dec ∧ ∃ k c v, readUE s.bufByte s.cur = .ok (k, c) ∧ t = { s with cur := c, y0 := natWord v } := by
  obtain ⟨hm, h⟩ := require_bind_eq_ok.mp h
  obtain ⟨⟨k, c⟩, hk, h⟩ := bind_eq_ok.mp h
  simp only at h
  split at h
  · exact ⟨hm, k, c, _, hk, (Except.ok.inj h).symm⟩
  · simp at h

theorem ruleCbCtxget_eq_ok {s t : State} {c : Nat} (h : ruleCbCtxget c s = .ok t) : ∃ y, t = { s with y0 := y } := by
  obtain ⟨-, h⟩ := require_bind_eq_ok.mp h
  split at h
  · exact ⟨_, (Except.ok.inj h).symm⟩
  · simp at h

/-- CB_DDEC renormalises a run that has taken one of the two subintervals (44_cabac_engine.md R284). -/
theorem ruleCbDdec_eq_ok {s t : State} {c : Nat} (h : ruleCbDdec c s = .ok t) :
    s.cur.mode = .dec ∧ s.dec.active = true ∧ ∃ x y bin r0 r, Table.find s.ctx c = some x ∧
      DecRun.renorm s.bufByte 8 r0 = .ok r ∧ t = State.setDecRun { s with ctx := Table.put s.ctx c y } true bin r ∧
      r0.cur = s.cur ∧
      let lps := rangeTabLPS x.pStateIdx.toNat ((s.dec.range.toNat / 64) % 4)
      (s.dec.range.toNat - lps ≤ s.dec.offset.toNat ∧ r0.range = lps ∧
          r0.offset = s.dec.offset.toNat - (s.dec.range.toNat - lps) ∨
        s.dec.offset.toNat < s.dec.range.toNat - lps ∧ r0.range = s.dec.range.toNat - lps ∧
          r0.offset = s.dec.offset.toNat) := by
  obtain ⟨⟨hm, ha⟩, h⟩ := require_bind_eq_ok.mp h
  obtain ⟨-, h⟩ := require_bind_eq_ok.mp h
  refine ⟨hm, ha, ?_⟩
  split at h
  · simp at h
  · next x hx =>
    simp only at h
    split at h
    · next hle =>
      obtain ⟨r, hr, h⟩ := bind_eq_ok.mp h
      exact ⟨x, _, _, _, r, hx, hr, (Except.ok.inj h).symm, rfl, .inl ⟨hle, rfl, rfl⟩⟩
    · next hlt =>
      obtain ⟨r, hr, h⟩ := bind_eq_ok.mp h
      exact ⟨x, _, _, _, r, hx, hr, (Except.ok.inj h).symm, rfl, .inr ⟨Nat.lt_of_not_le hlt, rfl, rfl⟩⟩

/-! The engine procedures that leave the contexts alone. -/

theorem EncRun.putBit_ctx (p : Params) (b : Bool) (r : EncRun) : Yields (fun q => q.ctx = r.ctx) (r.putBit p b) :=
  yields_bind fun _ _ => yields_bind fun _ _ => yields_pure rfl

theorem EncRun.incOutstanding_ctx (r : EncRun) : Yields (fun q => q.ctx = r.ctx) r.incOutstanding :=
  yields_require fun _ => yields_pure rfl

theorem EncRun.settle_ctx (p : Params) (r : EncRun) : Yields (fun q => q.ctx = r.ctx) (r.settle p) := by
  unfold EncRun.settle
  exact yields_ite (fun _ => EncRun.putBit_ctx p _ _) fun _ =>
    yields_ite (fun _ => EncRun.putBit_ctx p _ { r with low := r.low - 512 }) fun _ =>
      EncRun.incOutstanding_ctx { r with low := r.low - 256 }

theorem EncRun.renorm_ctx (p : Params) (fuel : Nat) (r : EncRun) :
    Yields (fun q => q.ctx = r.ctx) (EncRun.renorm p fuel r) := by
  induction fuel generalizing r with
  | zero => exact yields_ok rfl
  | succ fuel ih =>
    refine yields_ite (fun _ => yields_bind fun t ht q hq => ?_) fun _ => yields_ok rfl
    exact (ih _ q hq).trans (EncRun.settle_ctx p r t ht)

theorem EncRun.bypass_ctx (p : Params) (bin : Bool) (r : EncRun) : Yields (fun q => q.ctx = r.ctx) (r.bypass p bin) := by
  unfold EncRun.bypass
  generalize 2 * r.low + (if bin then r.range else 0) = low
  exact yields_ite (fun _ => yields_bind fun t ht => yields_pure (EncRun.putBit_ctx p true { r with low := low } t ht))
    fun _ => yields_ite (fun _ => EncRun.putBit_ctx p false { r with low := low }) fun _ =>
      EncRun.incOutstanding_ctx { r with low := low - 512 }

theorem EncRun.flush_ctx (p : Params) (r : EncRun) : Yields (fun q => q.ctx = r.ctx) (r.flush p) :=
  yields_bind fun a ha => yields_bind fun b hb => yields_bind fun _ _ =>
    yields_pure ((EncRun.putBit_ctx p _ a b hb).trans (EncRun.renorm_ctx p 8 { r with range := 2 } a ha))

theorem storeNz_writes_mb (s : State) (a c k n : Nat) : ∃ m, s.storeNz a c k n = { s with mb := m } := by
  unfold State.storeNz
  split
  · exact ⟨s.mb, rfl⟩
  · exact ⟨_, rfl⟩

theorem storeNz8_writes_mb (s : State) (a c j n : Nat) : ∃ m, s.storeNz8 a c j n = { s with mb := m } := by
  unfold State.storeNz8
  split
  · exact ⟨s.mb, rfl⟩
  · exact ⟨_, rfl⟩

/-! The pieces a rule writes. -/

/-- `s` with the pieces `ps` taken from `t`. -/
def State.withPieces (s : State) (ps : List Piece) (t : State) : State :=
  { s with
    y0 := if .y0 ∈ ps then t.y0 else s.y0
    y1 := if .y1 ∈ ps then t.y1 else s.y1
    y2 := if .y2 ∈ ps then t.y2 else s.y2
    y3 := if .y3 ∈ ps then t.y3 else s.y3
    coef := if .coef ∈ ps then t.coef else s.coef
    bins := if .bins ∈ ps then t.bins else s.bins
    binLen := if .bins ∈ ps then t.binLen else s.binLen
    cur := if .cur ∈ ps then t.cur else s.cur
    buf := if .buf ∈ ps then t.buf else s.buf
    raw := if .raw ∈ ps then t.raw else s.raw
    ctx := if .ctx ∈ ps then t.ctx else s.ctx
    enc := if .enc ∈ ps then t.enc else s.enc
    dec := if .dec ∈ ps then t.dec else s.dec
    geom := if .geom ∈ ps then t.geom else s.geom
    mb := if .mb ∈ ps then t.mb else s.mb
    currMbAddr := if .currMbAddr ∈ ps then t.currMbAddr else s.currMbAddr
    currValid := if .currValid ∈ ps then t.currValid else s.currValid
    sg := if .sg ∈ ps then t.sg else s.sg }

/-- `t` is `s` but for the pieces `ps`. -/
def State.WritesOnly (ps : List Piece) (s t : State) : Prop := t = s.withPieces ps t

theorem setEncRun_writesOnly {s : State} {active : Bool} {r : EncRun} (h : r.ctx = s.ctx) :
    s.WritesOnly [.cur, .buf, .enc] (s.setEncRun active r) := by
  unfold State.setEncRun
  rw [h]
  rfl

theorem State.WritesOnly.same {ps : List Piece} {s t : State} (h : s.WritesOnly ps t) {p : Piece} (hp : p ∉ ps) :
    p.Same s t := by
  cases p with
  | y0 => exact (congrArg State.y0 h).trans (if_neg hp)
  | y1 => exact (congrArg State.y1 h).trans (if_neg hp)
  | y2 => exact (congrArg State.y2 h).trans (if_neg hp)
  | y3 => exact (congrArg State.y3 h).trans (if_neg hp)
  | coef => exact (congrArg State.coef h).trans (if_neg hp)
  | bins => exact ⟨(congrArg State.bins h).trans (if_neg hp), (congrArg State.binLen h).trans (if_neg hp)⟩
  | cur => exact (congrArg State.cur h).trans (if_neg hp)
  | buf => exact (congrArg State.buf h).trans (if_neg hp)
  | raw => exact (congrArg State.raw h).trans (if_neg hp)
  | ctx => exact (congrArg State.ctx h).trans (if_neg hp)
  | enc => exact (congrArg State.enc h).trans (if_neg hp)
  | dec => exact (congrArg State.dec h).trans (if_neg hp)
  | geom => exact (congrArg State.geom h).trans (if_neg hp)
  | mb => exact (congrArg State.mb h).trans (if_neg hp)
  | currMbAddr => exact (congrArg State.currMbAddr h).trans (if_neg hp)
  | currValid => exact (congrArg State.currValid h).trans (if_neg hp)
  | sg => exact (congrArg State.sg h).trans (if_neg hp)

section
variable {ps : List Piece} {s t : State} (h : s.WritesOnly ps t)
include h

theorem State.WritesOnly.params : t.params = s.params := (congrArg State.params h).trans rfl
theorem State.WritesOnly.port : t.port = s.port := (congrArg State.port h).trans rfl
theorem State.WritesOnly.epoch : t.epoch = s.epoch := (congrArg State.epoch h).trans rfl
theorem State.WritesOnly.status : t.status = s.status := (congrArg State.status h).trans rfl
theorem State.WritesOnly.a0 : t.a0 = s.a0 := (congrArg State.a0 h).trans rfl
theorem State.WritesOnly.a1 : t.a1 = s.a1 := (congrArg State.a1 h).trans rfl
theorem State.WritesOnly.a2 : t.a2 = s.a2 := (congrArg State.a2 h).trans rfl
theorem State.WritesOnly.a3 : t.a3 = s.a3 := (congrArg State.a3 h).trans rfl

end

/-- A rule writes only the pieces `mayWrite` lists for its command, and none of STATUS, A0..A3, the pending host
actions, the parameters and the epoch. -/
theorem ruleOf_writesOnly (i : Instr) (s : State) : Yields (s.WritesOnly (mayWrite i)) (ruleOf i s) := by
  cases i with
  | nop | reset => exact yields_ok rfl
  | csrRd _ =>
    intro t h
    obtain ⟨y, rfl⟩ := ruleCsrRd_eq_ok h
    rfl
  | csrWr _ =>
    intro t h
    obtain ⟨g, -, rfl⟩ | ⟨-, sg, -, rfl⟩ := csrWrite_eq_ok h
    · rfl
    · rfl
  | bcInit _ _ _ =>
    intro t h
    obtain ⟨m, -, rfl⟩ := ruleBcInit_eq_ok h
    rfl
  | bcRdu _ | bcRds _ | cvRdtoken | cvRdlevel | cvRdrun | cvWrtz | cvWrrun | cvWrcbp _ | egWrue | egWrse =>
    exact yields_require fun _ => yields_require fun _ => yields_bind fun _ _ => yields_pure rfl
  | bcWru _ | bcWrs _ | bcRdbytes | bcWrbytes | cvRdtz | cvWrtoken | cvWrlevel | cvNc _ _ =>
    exact yields_require fun _ => yields_require fun _ => yields_require fun _ => yields_bind fun _ _ => yields_pure rfl
  | bcAligned | bcMore | bnU | bnFl | bnUegk _ _ | cbEinit | sgIdwr => exact yields_require fun _ => yields_pure rfl
  | egRdue | egRdse | mbNbmb _ => exact yields_require fun _ => yields_bind fun _ _ => yields_pure rfl
  | egRdte =>
    exact yields_require fun _ => yields_ite (fun _ => yields_bind fun _ _ => yields_pure rfl)
      fun _ => yields_bind fun _ _ => yields_pure rfl
  | egWrte =>
    exact yields_require fun _ => yields_ite
      (fun _ => yields_require fun _ => yields_bind fun _ _ => yields_pure rfl)
      fun _ => yields_require fun _ => yields_bind fun _ _ => yields_pure rfl
  | cvRdres kind store _ blkIdx =>
    refine yields_require fun _ => yields_bind fun nC _ => yields_bind fun x _ => yields_pure ?_
    cases store
    · rfl
    · obtain ⟨m, hm⟩ := storeNz_writes_mb s s.currMbAddr.toNat (kindComponent kind) blkIdx x.1.tc
      simp only [State.storeTotalCoeff, if_true, hm]
      rfl
  | cvWrres kind store _ blkIdx =>
    refine yields_require fun _ => yields_bind fun nC _ => yields_bind fun x _ => yields_pure ?_
    cases store
    · rfl
    · obtain ⟨m, hm⟩ := storeNz_writes_mb s s.currMbAddr.toNat (kindComponent kind) blkIdx x.1.2
      simp only [State.storeTotalCoeff, if_true, hm]
      rfl
  | cvRdcbp _ =>
    intro t h
    obtain ⟨-, k, c, v, -, rfl⟩ := ruleCvRdcbp_eq_ok h
    rfl
  | cbCtxinit _ | cbCtxset _ | bnTu | mbGet | sgMbgrp | sgNext =>
    exact yields_require fun _ => yields_require fun _ => yields_pure rfl
  | cbCtxget _ =>
    intro t h
    obtain ⟨y, rfl⟩ := ruleCbCtxget_eq_ok h
    rfl
  | cbEdec _ => exact yields_require fun _ => yields_require fun _ => yields_bind fun _ _ => yields_pure rfl
  | cbEbyp =>
    exact yields_require fun _ => yields_require fun _ => yields_bind fun r hr =>
      yields_pure (setEncRun_writesOnly (EncRun.bypass_ctx _ _ _ r hr))
  | cbEterm =>
    exact yields_require fun _ => yields_require fun _ => yields_ite
      (fun _ => yields_bind fun r hr => yields_pure (setEncRun_writesOnly (EncRun.flush_ctx _ _ r hr)))
      fun _ => yields_bind fun r hr => yields_pure (setEncRun_writesOnly (EncRun.renorm_ctx _ _ _ r hr))
  | cbDinit => exact yields_require fun _ => yields_bind fun _ _ => yields_require fun _ => yields_pure rfl
  | cbDdec _ =>
    intro t h
    obtain ⟨-, -, x, y, bin, r0, r, -, -, rfl, -⟩ := ruleCbDdec_eq_ok h
    rfl
  | cbDbyp =>
    exact yields_require fun _ => yields_bind fun _ _ => yields_ite (fun _ => yields_pure rfl) fun _ => yields_pure rfl
  | cbDterm =>
    exact yields_require fun _ => yields_ite (fun _ => yields_pure rfl) fun _ => yields_bind fun _ _ => yields_pure rfl
  | cbDbin _ _ => exact yields_error _
  | bnEnc _ =>
    exact yields_require fun _ => yields_require fun _ => yields_require fun _ => yields_bind fun _ _ => yields_pure rfl
  | mbSlice => exact yields_ok rfl
  | mbBegin =>
    exact yields_require fun _ => yields_require fun _ => yields_require fun _ => yields_require fun _ =>
      yields_require fun _ => yields_require fun _ => yields_require fun _ => yields_require fun _ =>
      yields_require fun _ => yields_pure rfl
  | mbSetnz comp _ blkIdx =>
    refine yields_require fun _ => yields_require fun _ => yields_ite (fun _ => yields_require fun _ => yields_pure ?_)
      fun _ => yields_require fun _ => yields_pure ?_
    · obtain ⟨m, hm⟩ := storeNz8_writes_mb s s.currMbAddr.toNat comp blkIdx s.a0.toNat
      rw [hm]
      rfl
    · obtain ⟨m, hm⟩ := storeNz_writes_mb s s.currMbAddr.toNat comp blkIdx s.a0.toNat
      rw [hm]
      rfl
  | mbNbloc _ =>
    exact yields_require fun _ => yields_require fun _ => yields_require fun _ => yields_bind fun _ _ => yields_pure rfl
  | mbNbblk _ _ _ =>
    exact yields_require fun _ => yields_require fun _ => yields_require fun _ => yields_require fun _ =>
      yields_bind fun _ _ => yields_pure rfl
  | sgGen => exact yields_require fun _ => yields_require fun _ => yields_require fun _ => yields_pure rfl

theorem Piece.same_complete {p : Piece} {s t : State} {c : Code} (h : p.Same s t) : p.Same s (t.complete c) := by
  cases p <;> exact h

end Sys2Proof.Machine

open Sys2Proof Sys2Proof.Machine

/-- Settles O12: a rule that answers writes none of them, and `State.failWith` keeps them. -/
theorem commandsKeepOperandRegisters : Obligations.CommandsKeepOperandRegisters := by
  intro i s t hi h
  obtain ⟨-, -, rfl⟩ | ⟨u, hu, rfl⟩ | ⟨e, -, rfl⟩ := exec_cases hi h
  · exact ⟨rfl, rfl, rfl, rfl, rfl, rfl⟩
  · have hw := ruleOf_writesOnly i s u hu
    exact ⟨hw.a0, hw.a1, hw.a2, hw.a3, hw.port, hw.params⟩
  · exact ⟨rfl, rfl, rfl, rfl, rfl, rfl⟩

/-- Settles O13: completing without a failure is answering, and a rule that answers writes only what `mayWrite` lists. -/
theorem commandsWriteOnlyTheirPieces : Obligations.CommandsWriteOnlyTheirPieces := by
  intro i s t hi h hf p hp
  obtain ⟨hs, -, rfl⟩ | ⟨u, hu, rfl⟩ | ⟨e, -, rfl⟩ := exec_cases hi h
  · simp [hs] at hf
  · exact Piece.same_complete ((ruleOf_writesOnly i s u hu).same hp)
  · simp at hf
end

