-- ==== Sys2Proof/Proofs/Streams.lean ====
section
/-!
What reading and writing bits keeps of the invariant: every reader is a number of calls of `getBit`, every writer is
`putBits` of some bits (41_bitcursor.md R161 to R163, 43_cavlc.md).
-/

namespace Sys2Proof.Machine

/-! A bit read keeps the DEC cursor's invariant (10_state.md R35, 41_bitcursor.md R162). -/

theorem Word.toNat_add_one {a b : Word} (h : a < b) : (a + 1).toNat = a.toNat + 1 := by
  have hlt : a.toNat < b.toNat := h
  have := b.isLt
  rw [BitVec.toNat_add, show (1 : Word).toNat = 1 from rfl]
  omega

theorem DecOk.skipEscape {p : Params} {c : Cursor} (h : DecOk p c) (rd : Nat → Byte) : DecOk p (skipEscape rd c) := by
  unfold Machine.skipEscape
  split
  · next hc =>
    have hlt : c.off.toNat < c.len.toNat := hc.1
    have hoff : (c.off + 1).toNat ≤ c.len.toNat := by rw [Word.toNat_add_one hc.1]; omega
    exact { h with off := hoff, zeros := Nat.zero_le 2, plain := fun _ => rfl }
  · exact h

theorem nextZeros_le {ep : Bool} {z : Nat} {b : Byte} (h : z ≤ 2) : nextZeros ep z b ≤ 2 := by
  unfold nextZeros
  split
  · split <;> omega
  · exact h

/-- The first bit of a fetched byte is delivered from a cursor that meets the invariant again. -/
theorem DecOk.fetchByte {p : Params} {rd : Nat → Byte} {c d : Cursor} (h : DecOk p c) (hd : fetchByte rd c = .ok d) :
    DecOk p (takeCacheBit d).2 := by
  have hs := h.skipEscape rd
  unfold Machine.fetchByte at hd
  simp only at hd
  split at hd
  · next hlt =>
    have hlt' : (Machine.skipEscape rd c).off.toNat < (Machine.skipEscape rd c).len.toNat := hlt
    have hoff : ((Machine.skipEscape rd c).off + 1).toNat ≤ (Machine.skipEscape rd c).len.toNat := by
      rw [Word.toNat_add_one hlt]; omega
    obtain rfl := Except.ok.inj hd
    refine ⟨(by decide : 8 - 1 < 8), hoff, hs.len, nextZeros_le hs.zeros, fun hep => ?_⟩
    change (Machine.skipEscape rd c).ep = false at hep
    show nextZeros (Machine.skipEscape rd c).ep _ _ = 0
    rw [hep, hs.plain hep]
    rfl
  · simp at hd

theorem DecOk.getBit {p : Params} {rd : Nat → Byte} {c d : Cursor} {b : Bool} (h : DecOk p c)
    (hb : getBit rd c = .ok (b, d)) : DecOk p d := by
  unfold Machine.getBit at hb
  split at hb
  · split at hb
    · next e he =>
      obtain ⟨-, rfl⟩ := Prod.mk.inj (Except.ok.inj hb)
      exact h.fetchByte he
    · simp at hb
  · obtain ⟨-, rfl⟩ := Prod.mk.inj (Except.ok.inj hb)
    exact { h with cnt := Nat.lt_of_le_of_lt (Nat.sub_le _ _) h.cnt }

theorem getBit_mode {rd : Nat → Byte} {c d : Cursor} {b : Bool} (hb : getBit rd c = .ok (b, d)) : d.mode = c.mode := by
  rcases getBit_spec rd c with ⟨b', d', hd, -, hcon⟩ | ⟨he, -⟩
  · obtain ⟨-, rfl⟩ := Prod.mk.inj (Except.ok.inj (hd.symm.trans hb))
    exact hcon.moved.mode
  · simp [he] at hb

theorem Reads.mode {rd : Nat → Byte} {c d : Cursor} (h : Reads rd c d) : d.mode = c.mode :=
  h.keeps (P := fun e => e.mode = c.mode) (fun _ _ _ he hb => (getBit_mode hb).trans he) rfl

theorem Reads.decOk {p : Params} {rd : Nat → Byte} {c d : Cursor} (h : Reads rd c d) (hc : DecOk p c) : DecOk p d :=
  h.keeps (fun _ _ _ he hb => he.getBit hb) hc

/-! The readers of 43_cavlc.md and 41_bitcursor.md R171 are calls of `getBit`. -/

theorem readCoeffToken_reads {rd : Nat → Byte} {nC : Int} {c d : Cursor} {x : Nat × Nat}
    (h : readCoeffToken rd nC c = .ok (x, d)) : Reads rd c d := by
  unfold readCoeffToken at h
  split at h
  · obtain ⟨⟨v, e⟩, he, h⟩ := bind_eq_ok.mp h
    simp only at h
    split at h
    · obtain ⟨-, rfl⟩ := Prod.mk.inj (Except.ok.inj h)
      exact readBits_reads he
    · obtain ⟨-, h⟩ := require_bind_eq_ok.mp h
      obtain ⟨-, rfl⟩ := Prod.mk.inj (Except.ok.inj h)
      exact readBits_reads he
  · exact readCodeword_reads h

theorem readLevel_reads {rd : Nat → Byte} {maxP sL : Nat} {off : Bool} {c d : Cursor} {x : Int × Nat}
    (h : readLevel rd maxP sL off c = .ok (x, d)) : Reads rd c d := by
  obtain ⟨⟨z, e⟩, he, h⟩ := bind_eq_ok.mp h
  obtain ⟨⟨v, f⟩, hf, h⟩ := bind_eq_ok.mp h
  obtain ⟨-, rfl⟩ := Prod.mk.inj (Except.ok.inj h)
  exact (readZeroRun_reads he).trans (readBits_reads hf)

theorem readTotalZeros_reads {rd : Nat → Byte} {t m z : Nat} {c d : Cursor}
    (h : readTotalZeros rd t m c = .ok (z, d)) : Reads rd c d := by
  obtain ⟨⟨v, e⟩, he, h⟩ := bind_eq_ok.mp h
  obtain ⟨-, h⟩ := require_bind_eq_ok.mp h
  obtain ⟨-, rfl⟩ := Prod.mk.inj (Except.ok.inj h)
  exact readCodeword_reads he

theorem readRunBefore_reads {rd : Nat → Byte} {zl r : Nat} {c d : Cursor} (h : readRunBefore rd zl c = .ok (r, d)) :
    Reads rd c d := by
  obtain ⟨⟨v, e⟩, he, h⟩ := bind_eq_ok.mp h
  obtain ⟨-, h⟩ := require_bind_eq_ok.mp h
  obtain ⟨-, rfl⟩ := Prod.mk.inj (Except.ok.inj h)
  exact readCodeword_reads he

theorem readLevels_reads {rd : Nat → Byte} {maxP t1 n i sL : Nat} {c d : Cursor} {ls : List Int}
    (h : readLevels rd maxP t1 n i sL c = .ok (ls, d)) : Reads rd c d := by
  induction n generalizing i sL c ls with
  | zero =>
    obtain ⟨-, rfl⟩ := Prod.mk.inj (Except.ok.inj h)
    exact .refl c
  | succ n ih =>
    simp only [readLevels] at h
    split at h
    · obtain ⟨⟨b, e⟩, he, h⟩ := bind_eq_ok.mp h
      obtain ⟨⟨vs, f⟩, hf, h⟩ := bind_eq_ok.mp h
      obtain ⟨-, rfl⟩ := Prod.mk.inj (Except.ok.inj h)
      exact .step he (ih hf)
    · obtain ⟨⟨v, e⟩, he, h⟩ := bind_eq_ok.mp h
      obtain ⟨⟨vs, f⟩, hf, h⟩ := bind_eq_ok.mp h
      obtain ⟨-, rfl⟩ := Prod.mk.inj (Except.ok.inj h)
      exact (readLevel_reads he).trans (ih hf)

theorem readBlockZeros_reads {rd : Nat → Byte} {tc n m z : Nat} {c d : Cursor}
    (h : readBlockZeros rd tc n m c = .ok (z, d)) : Reads rd c d := by
  unfold readBlockZeros at h
  split at h
  · exact readTotalZeros_reads h
  · obtain ⟨-, rfl⟩ := Prod.mk.inj (Except.ok.inj h)
    exact .refl c

theorem readRun_reads {rd : Nat → Byte} {zl r : Nat} {c d : Cursor} (h : readRun rd zl c = .ok (r, d)) :
    Reads rd c d := by
  unfold readRun at h
  split at h
  · exact readRunBefore_reads h
  · obtain ⟨-, rfl⟩ := Prod.mk.inj (Except.ok.inj h)
    exact .refl c

theorem readRuns_reads {rd : Nat → Byte} {n zl : Nat} {c d : Cursor} {rs : List Nat}
    (h : readRuns rd n zl c = .ok (rs, d)) : Reads rd c d := by
  induction n generalizing zl c rs with
  | zero =>
    obtain ⟨-, rfl⟩ := Prod.mk.inj (Except.ok.inj h)
    exact .refl c
  | succ n ih =>
    obtain ⟨⟨r, e⟩, he, h⟩ := bind_eq_ok.mp h
    obtain ⟨⟨rs', f⟩, hf, h⟩ := bind_eq_ok.mp h
    obtain ⟨-, rfl⟩ := Prod.mk.inj (Except.ok.inj h)
    exact (readRun_reads he).trans (ih hf)

/-- A residual block read: calls of `getBit`, and at most as many coefficients as it has positions (43_cavlc.md R244). -/
theorem readResidual_reads {rd : Nat → Byte} {maxP first n m : Nat} {nC : Int} {c d : Cursor} {r : Residual}
    (h : readResidual rd maxP nC first n m c = .ok (r, d)) : Reads rd c d ∧ r.tc ≤ n := by
  obtain ⟨⟨⟨t1, tc⟩, c1⟩, h1, h⟩ := bind_eq_ok.mp h
  obtain ⟨htc, h⟩ := require_bind_eq_ok.mp h
  have r1 := readCoeffToken_reads h1
  simp only at h
  split at h
  · obtain ⟨rfl, rfl⟩ := Prod.mk.inj (Except.ok.inj h)
    exact ⟨r1, htc⟩
  · obtain ⟨⟨ls, c2⟩, h2, h⟩ := bind_eq_ok.mp h
    obtain ⟨⟨tz, c3⟩, h3, h⟩ := bind_eq_ok.mp h
    obtain ⟨-, h⟩ := require_bind_eq_ok.mp h
    obtain ⟨⟨rs, c4⟩, h4, h⟩ := bind_eq_ok.mp h
    obtain ⟨rfl, rfl⟩ := Prod.mk.inj (Except.ok.inj h)
    exact ⟨((r1.trans (readLevels_reads h2)).trans (readBlockZeros_reads h3)).trans (readRuns_reads h4), htc⟩

theorem readRawBytes_reads {rd : Nat → Byte} {n i : Nat} {m m' : Memory} {c d : Cursor}
    (h : readRawBytes rd n i m c = .ok (m', d)) : Reads rd c d := by
  induction n generalizing i m c with
  | zero =>
    obtain ⟨-, rfl⟩ := Prod.mk.inj (Except.ok.inj h)
    exact .refl c
  | succ n ih =>
    obtain ⟨⟨v, e⟩, he, h⟩ := bind_eq_ok.mp h
    exact (readBits_reads he).trans (ih h)

/-! The writers are `putBits` of some bits. -/

/-- `u` is `t` after some bits have been written. -/
def Puts (p : Params) (t u : Stream) : Prop := ∃ bs, putBits p bs t = .ok u

theorem Puts.refl (p : Params) (t : Stream) : Puts p t t := ⟨[], rfl⟩

theorem Puts.trans {p : Params} {t u v : Stream} (h1 : Puts p t u) (h2 : Puts p u v) : Puts p t v := by
  obtain ⟨as, ha⟩ := h1
  obtain ⟨bs, hb⟩ := h2
  exact ⟨as ++ bs, by rw [putBits_append, ha, ok_bind, hb]⟩

theorem putBit1_puts {p : Params} {b : Bool} {t u : Stream} (h : putBit1 p b t = .ok u) : Puts p t u :=
  ⟨[b], by rw [putBits_cons, h]; rfl⟩

theorem writeBits_puts {p : Params} {v n : Nat} {t u : Stream} (h : writeBits p v n t = .ok u) : Puts p t u := ⟨_, h⟩

theorem writeUE_puts {p : Params} {k : Nat} {t u : Stream} (h : writeUE p k t = .ok u) : Puts p t u :=
  ⟨_, (writeUE_eq p k t).symm.trans h⟩

theorem writeRawBytes_puts {p : Params} {raw : Nat → Byte} {n i : Nat} {t u : Stream}
    (h : writeRawBytes p raw n i t = .ok u) : Puts p t u := ⟨_, (writeRawBytes_eq p raw n i t).symm.trans h⟩

theorem writeCodeword_puts {α : Type} [DecidableEq α] {p : Params} {tab : List (Vlc α)} {x : α} {t u : Stream}
    (h : writeCodeword p tab x t = .ok u) : Puts p t u := by
  unfold writeCodeword at h
  split at h
  · exact writeBits_puts h
  · simp at h

theorem writeLevel_puts {p : Params} {sL n : Nat} {off : Bool} {v : Int} {t u : Stream}
    (h : writeLevel p sL off v t = .ok (n, u)) : Puts p t u := by
  rw [writeLevel_eq] at h
  split at h
  · obtain ⟨w, hw, h⟩ := bind_eq_ok.mp h
    obtain ⟨-, rfl⟩ := Prod.mk.inj (Except.ok.inj h)
    exact ⟨_, hw⟩
  · simp at h

theorem writeLevels_puts {p : Params} {t1 i sL : Nat} {vs : List Int} {t u : Stream}
    (h : writeLevels p t1 vs i sL t = .ok u) : Puts p t u := by
  induction vs generalizing i sL t with
  | nil => exact Except.ok.inj h ▸ Puts.refl p t
  | cons v vs ih =>
    simp only [writeLevels] at h
    split at h
    · obtain ⟨w, hw, h⟩ := bind_eq_ok.mp h
      exact (putBit1_puts hw).trans (ih h)
    · obtain ⟨⟨sL2, w⟩, hw, h⟩ := bind_eq_ok.mp h
      exact (writeLevel_puts hw).trans (ih h)

theorem writeRun_puts {p : Params} {zl r : Nat} {t u : Stream} (h : writeRun p zl r t = .ok u) : Puts p t u := by
  unfold writeRun at h
  split at h
  · exact writeCodeword_puts h
  · exact Except.ok.inj h ▸ Puts.refl p t

theorem writeBlockZeros_puts {p : Params} {tc n m tz : Nat} {t u : Stream} (h : writeBlockZeros p tc n m tz t = .ok u) :
    Puts p t u := by
  unfold writeBlockZeros at h
  split at h
  · exact writeCodeword_puts h
  · exact Except.ok.inj h ▸ Puts.refl p t

theorem writeRuns_puts {p : Params} {pos : List Nat} {zl : Nat} {t u : Stream} (h : writeRuns p pos zl t = .ok u) :
    Puts p t u := by
  induction pos generalizing zl t with
  | nil => exact Except.ok.inj h ▸ Puts.refl p t
  | cons a rest ih =>
    cases rest with
    | nil => exact Except.ok.inj h ▸ Puts.refl p t
    | cons b rest =>
      obtain ⟨w, hw, h⟩ := bind_eq_ok.mp h
      exact (writeRun_puts hw).trans (ih h)

theorem writeCoeffToken_puts {p : Params} {nC : Int} {t1 tc : Nat} {t u : Stream}
    (h : writeCoeffToken p nC t1 tc t = .ok u) : Puts p t u := by
  unfold writeCoeffToken at h
  split at h
  · exact writeBits_puts h
  · exact writeCodeword_puts h

/-- A residual block written: `putBits` of some bits, and at most 16 coefficients (43_cavlc.md R234, R244). -/
theorem writeResidual_puts {p : Params} {nC : Int} {first n m t1 tc : Nat} {coef : Nat → Word} {t u : Stream}
    (h : writeResidual p nC first n m coef t = .ok ((t1, tc), u)) : Puts p t u ∧ tc ≤ 16 := by
  have h16 : maxTotalCoeff nC ≤ 16 := by unfold maxTotalCoeff; split <;> [decide; split <;> decide]
  obtain ⟨htc, h⟩ := require_bind_eq_ok.mp h
  obtain ⟨u1, h1, h⟩ := bind_eq_ok.mp h
  have p1 := writeCoeffToken_puts h1
  split at h
  · obtain ⟨hx, rfl⟩ := Prod.mk.inj (Except.ok.inj h)
    exact ⟨p1, (Prod.mk.inj hx).2 ▸ htc.trans h16⟩
  · obtain ⟨u2, h2, h⟩ := bind_eq_ok.mp h
    obtain ⟨u3, h3, h⟩ := bind_eq_ok.mp h
    obtain ⟨u4, h4, h⟩ := bind_eq_ok.mp h
    obtain ⟨hx, rfl⟩ := Prod.mk.inj (Except.ok.inj h)
    exact ⟨((p1.trans (writeLevels_puts h2)).trans (writeBlockZeros_puts h3)).trans (writeRuns_puts h4),
      (Prod.mk.inj hx).2 ▸ htc.trans h16⟩

end Sys2Proof.Machine
end

