-- ==== Sys2Proof/Proofs/InvariantParts.lean ====
section
/-!
The invariant in parts, each about the pieces of state it speaks of, and what the operations on those pieces keep of
it: tables and memories, the stream with the engines, the MB info table, the slice-group map.
-/

namespace Sys2Proof.Machine

/-! Tables and memories (10_state.md R47). -/

/-- The table is in canonical form and inside a space of `n` indexes. -/
structure Table.Ok {β : Type} (n : Nat) (t : Table β) : Prop where
  wf : Table.wf t = true
  below : tableBelow n t = true

theorem Table.Ok.nil {β : Type} (n : Nat) : Table.Ok n ([] : Table β) := ⟨rfl, rfl⟩

theorem Table.Ok.put {β : Type} {n a : Nat} {t : Table β} (h : Table.Ok n t) (ha : a < n) (v : β) :
    Table.Ok n (Table.put t a v) := ⟨Table.wf_put t a v h.wf, tableBelow_put n t a v h.below ha⟩

theorem Table.Ok.drop {β : Type} {n : Nat} {t : Table β} (h : Table.Ok n t) (a : Nat) : Table.Ok n (Table.drop t a) :=
  ⟨Table.wf_drop t a h.wf, tableBelow_drop n t a h.below⟩

theorem Table.Ok.build {β : Type} (f : Nat → Option β) (n : Nat) : Table.Ok n (Table.build f n 0) :=
  ⟨Table.wf_build f n 0, tableBelow_build f n 0 n (Nat.zero_add n).le⟩

/-- A listed index may be written again. -/
theorem Table.Ok.put_listed {β : Type} {n a : Nat} {t : Table β} {w : β} (h : Table.Ok n t)
    (ha : Table.find t a = some w) (v : β) : Table.Ok n (Table.put t a v) :=
  h.put (tableBelow_find n t a w h.below ha) v

theorem readRawBytes_ok {rd : Nat → Byte} {n i size : Nat} {m m' : Memory} {c d : Cursor} (hm : Table.Ok size m)
    (hi : i + n ≤ size) (h : readRawBytes rd n i m c = .ok (m', d)) : Table.Ok size m' := by
  induction n generalizing i m c with
  | zero =>
    obtain ⟨rfl, -⟩ := Prod.mk.inj (Except.ok.inj h)
    exact hm
  | succ n ih =>
    obtain ⟨⟨v, e⟩, he, h⟩ := bind_eq_ok.mp h
    exact ih (hm.put (by omega) _) (by omega) h

/-! The cursor, BUF and the engines (10_state.md R35, R39; 41_bitcursor.md R163; 44_cabac_engine.md R276). -/

/-- What the invariant says of the stream `t`, BUF's unlisted bytes reading `free`, and of the engines. -/
structure StreamOk (p : Params) (free : Nat → Byte) (t : Stream) (e : Encoder) (d : Decoder) : Prop where
  buf : Table.Ok p.maxBufBytes.toNat t.buf
  enc : t.cur.mode = .enc → EncOk p (t.rd free) t.cur
  dec : t.cur.mode = .dec → DecOk p t.cur
  eact : e.active = true → t.cur.mode = .enc ∧ e.Ok
  dact : d.active = true → t.cur.mode = .dec ∧ d.Ok

section
variable {p : Params} {free : Nat → Byte} {t : Stream} {e : Encoder} {d : Decoder} (h : StreamOk p free t e d)
include h

/-- Writing bits keeps it; the encoding engine may have moved on. -/
theorem StreamOk.step {u : Stream} {bs : List Bool} (hm : t.cur.mode = .enc) (hs : StreamStep free p t u bs)
    {e' : Encoder} (he : e'.active = true → e'.Ok) : StreamOk p free u e' d := by
  have hmode : u.cur.mode = .enc := hs.moved.mode.trans hm
  obtain ⟨hwf, hbelow⟩ := hs.buf ⟨h.buf.wf, h.buf.below⟩
  refine ⟨⟨hwf, hbelow⟩, fun _ => hs.ok, fun hd => ?_, fun ha => ⟨hmode, he ha⟩, fun ha => ?_⟩
  · rw [hmode] at hd
    cases hd
  · have hdec := (h.dact ha).1
    rw [hm] at hdec
    cases hdec

theorem StreamOk.puts {u : Stream} (hg : 1 ≤ p.growBlock) (hm : t.cur.mode = .enc) (hp : Puts p t u) :
    StreamOk p free u e d := by
  obtain ⟨bs, hbs⟩ := hp
  exact h.step hm (putBits_spec hg (h.enc hm) hbs) fun ha => (h.eact ha).2

/-- Reading bits keeps it; the decoding engine may have moved on. -/
theorem StreamOk.reads {c : Cursor} (hm : t.cur.mode = .dec) (hr : Reads (t.rd free) t.cur c) {d' : Decoder}
    (hd : d'.active = true → d'.Ok) : StreamOk p free ⟨c, t.buf⟩ e d' := by
  have hmode : c.mode = .dec := hr.mode.trans hm
  refine ⟨h.buf, fun he => ?_, fun _ => hr.decOk (h.dec hm), fun ha => ?_, fun ha => ⟨hmode, hd ha⟩⟩
  · change c.mode = .enc at he
    rw [hmode] at he
    cases he
  · have henc := (h.eact ha).1
    rw [hm] at henc
    cases henc

/-- BC_INIT starts a stream and stops the engines (41_bitcursor.md R164). -/
theorem StreamOk.start {m : CursorMode} {ep grow : Bool} {a : Word} (hok : bcInitOk p m ep grow a = true) :
    StreamOk p free ⟨startCursor m ep grow a, t.buf⟩ { e with active := false } { d with active := false } := by
  refine ⟨h.buf, fun hm => ?_, fun hm => ?_, fun ha => (nomatch ha), fun ha => (nomatch ha)⟩
  · obtain rfl : m = .enc := hm
    refine ⟨Nat.zero_lt_succ 7, rfl, Nat.zero_le _, ?_, rfl, fun _ i hi => absurd hi (Nat.not_lt_zero _)⟩
    cases grow
    · exact of_decide_eq_true hok
    · exact Nat.zero_le _
  · obtain rfl : m = .dec := hm
    simp only [bcInitOk, Bool.and_eq_true, decide_eq_true_eq] at hok
    exact ⟨Nat.zero_lt_succ 7, Nat.zero_le _, hok.2, Nat.zero_le _, fun _ => rfl⟩

end

theorem EncRun.encoder_ok {r : EncRun} (hfit : r.Fits) (hleast : 256 ≤ r.range) (hmost : r.range ≤ 510)
    (active : Bool) : (r.encoder active).Ok := by
  unfold EncRun.Fits at hfit
  have hlow : (r.encoder active).low.toNat = r.low :=
    (BitVec.toNat_ofNat ..).trans (Nat.mod_eq_of_lt (by omega))
  have hrange : (r.encoder active).range.toNat = r.range :=
    (BitVec.toNat_ofNat ..).trans (Nat.mod_eq_of_lt (by omega))
  constructor <;> omega

theorem decoder_ok {range offset : Nat} (hoff : offset < range) (hleast : 256 ≤ range) (hmost : range ≤ 510)
    (active : Bool) : Decoder.Ok ⟨BitVec.ofNat 9 range, BitVec.ofNat 9 offset, active⟩ := by
  have hr : (BitVec.ofNat 9 range).toNat = range := (BitVec.toNat_ofNat ..).trans (Nat.mod_eq_of_lt (by omega))
  have ho : (BitVec.ofNat 9 offset).toNat = offset := (BitVec.toNat_ofNat ..).trans (Nat.mod_eq_of_lt (by omega))
  exact ⟨by rw [hr, ho]; exact hoff, by rw [hr]; exact hleast, by rw [hr]; exact hmost⟩

/-! The MB info table (10_state.md R44). -/

/-- What the invariant says of the MB info table, CurrMbAddr and CURR_VALID. -/
structure MbOk (p : Params) (mb : Table MbEntry) (curr : Word) (valid : Bool) : Prop where
  table : Table.Ok p.maxMbs mb
  counts : (mb.all fun x => x.2.countsOk) = true
  curr : valid = true → (Table.find mb curr.toNat).isSome = true

theorem MbOk.cleared (p : Params) (curr : Word) : MbOk p [] curr false := ⟨.nil _, rfl, fun h => nomatch h⟩

theorem Table.isSome_find_put {β : Type} {t : Table β} {a b : Nat} {v : β} (h : (Table.find t b).isSome = true) :
    (Table.find (Table.put t a v) b).isSome = true := by
  by_cases hb : b = a
  · rw [hb, Table.find_put_same]
    rfl
  · rwa [Table.find_put_other t a b v hb]

/-- An entry whose counts are in range may replace a listed one. -/
theorem MbOk.put_listed {p : Params} {mb : Table MbEntry} {curr : Word} {valid : Bool} {a : Nat} {x y : MbEntry}
    (h : MbOk p mb curr valid) (ha : Table.find mb a = some x) (hy : x.countsOk = true → y.countsOk = true) :
    MbOk p (Table.put mb a y) curr valid :=
  ⟨h.table.put_listed ha y, Table.all_put _ mb a y h.counts (hy (Table.of_find _ mb a x h.counts ha)),
    fun hv => Table.isSome_find_put (h.curr hv)⟩

theorem vector_all_setIfInBounds {α : Type} {n : Nat} {f : α → Bool} {v : Vector α n} {i : Nat} {x : α}
    (hv : v.all f = true) (hx : f x = true) : (v.setIfInBounds i x).all f = true := by
  rw [Vector.all_eq_true] at hv ⊢
  intro j hj
  rw [Vector.getElem_setIfInBounds hj]
  split
  · exact hx
  · exact hv j hj

theorem storeNz_mbOk {s : State} {a c k n : Nat} (h : MbOk s.params s.mb s.currMbAddr s.currValid) (hn : n ≤ 16) :
    MbOk s.params (s.storeNz a c k n).mb (s.storeNz a c k n).currMbAddr (s.storeNz a c k n).currValid := by
  unfold State.storeNz
  split
  · exact h
  · next x hx =>
    refine h.put_listed hx fun hc => ?_
    simp only [MbEntry.countsOk, Bool.and_eq_true] at hc ⊢
    refine ⟨vector_all_setIfInBounds hc.1 (decide_eq_true ?_), hc.2⟩
    exact (BitVec.toNat_ofNat ..).trans_le ((Nat.mod_le _ _).trans hn)

theorem storeNz8_mbOk {s : State} {a c j n : Nat} (h : MbOk s.params s.mb s.currMbAddr s.currValid) (hn : n ≤ 64) :
    MbOk s.params (s.storeNz8 a c j n).mb (s.storeNz8 a c j n).currMbAddr (s.storeNz8 a c j n).currValid := by
  unfold State.storeNz8
  split
  · exact h
  · next x hx =>
    refine h.put_listed hx fun hc => ?_
    simp only [MbEntry.countsOk, Bool.and_eq_true] at hc ⊢
    refine ⟨hc.1, vector_all_setIfInBounds hc.2 (decide_eq_true ?_)⟩
    exact (BitVec.toNat_ofNat ..).trans_le ((Nat.mod_le _ _).trans hn)

theorem newMbEntry_countsOk (f : Word) : (newMbEntry f).countsOk = true := by
  simp [MbEntry.countsOk, newMbEntry, Vector.all_replicate]

/-! The slice-group map (10_state.md R45, 47_slice_group_map.md R384). -/

/-- What the invariant says of SGID. -/
structure SgidOk (p : Params) (t : Table (BitVec 3)) : Prop where
  table : Table.Ok p.maxMapUnits t
  listed : (t.all fun e => decide (e.2 ≠ 0)) = true

/-- What the invariant says of the maps of a picture while SG_MAP_VALID = 1. -/
structure MapOk (g : Geometry) (sg : SliceGroups) : Prop where
  geom : g.valid = true
  unitsLen : g.picSizeInMapUnits ≤ sg.mapUnits.length
  groupsLen : g.picSizeInMbs ≤ sg.mbGroups.length
  units : ∀ v ∈ sg.mapUnits.take g.picSizeInMapUnits, v.toNat ≤ sg.num
  groups : ∀ v ∈ sg.mbGroups.take g.picSizeInMbs, v.toNat ≤ sg.num

/-- A bound on the first entries of a list, read with any default. -/
theorem forall_take_iff {α : Type} {l : List α} {n : Nat} (hn : n ≤ l.length) (free : Nat → α) (P : α → Prop) :
    (∀ v ∈ l.take n, P v) ↔ ∀ i, i < n → P ((l[i]?).getD (free i)) := by
  constructor
  · intro h i hi
    have hl : i < l.length := by omega
    rw [List.getElem?_eq_getElem hl]
    exact h _ (List.mem_take_iff_getElem.2 ⟨i, by omega, rfl⟩)
  · intro h v hv
    obtain ⟨i, hi, rfl⟩ := List.mem_take_iff_getElem.1 hv
    have := h i (by omega)
    rwa [List.getElem?_eq_getElem (by omega)] at this

theorem take_overlay {α : Type} {new old : List α} {n : Nat} (h : new.length = n) : (overlay new old).take n = new := by
  subst h
  exact List.take_left

theorem length_le_overlay {α : Type} (new old : List α) : new.length ≤ (overlay new old).length := by
  rw [overlay, List.length_append]
  exact Nat.le_add_right _ _

/-- Entries at most `k` stay so when they are stored in 3 bits. -/
theorem toNat_le_of_mem_map {l : List Nat} {k : Nat} (h : ∀ v ∈ l, v ≤ k) {b : BitVec 3}
    (hb : b ∈ l.map (BitVec.ofNat 3)) : b.toNat ≤ k := by
  obtain ⟨v, hv, rfl⟩ := List.mem_map.1 hb
  exact (BitVec.toNat_ofNat ..).trans_le ((Nat.mod_le _ _).trans (h v hv))

/-- The macroblock map takes its values from the unit map (47_slice_group_map.md R379). -/
theorem mbMap_le {g : Geometry} {units : List Nat} {k : Nat} (h : ∀ v ∈ units, v ≤ k) :
    ∀ v ∈ g.mbMap units, v ≤ k := by
  intro v hv
  obtain ⟨i, -, rfl⟩ := List.mem_map.1 hv
  cases hu : units[g.mapUnitOfMb i]? with
  | none => exact Nat.zero_le k
  | some u => exact h u (List.mem_of_getElem? hu)

/-- The maps SG_GEN writes (47_slice_group_map.md R381, R384). -/
theorem ruleSgGen_mapOk {s t : State} (h : ruleSgGen s = .ok t) : MapOk t.geom t.sg := by
  obtain ⟨hg, h⟩ := require_bind_eq_ok.mp h
  obtain ⟨-, h⟩ := require_bind_eq_ok.mp h
  obtain ⟨hok, h⟩ := require_bind_eq_ok.mp h
  obtain rfl := Except.ok.inj h
  have hsize : 1 ≤ s.geom.width ∧ 1 ≤ s.geom.heightMapUnits := by
    simp only [Geometry.valid, Bool.and_eq_true, decide_eq_true_eq] at hg
    exact hg.1
  obtain ⟨hlen, hle⟩ := unitMap_spec s.sg _ _ hsize.1 hsize.2 hok
  generalize s.sg.unitMap s.geom.width s.geom.heightMapUnits = units at hlen hle
  have hunits : (units.map (BitVec.ofNat 3)).length = s.geom.picSizeInMapUnits := List.length_map .. |>.trans hlen
  have hgroups : ((s.geom.mbMap units).map (BitVec.ofNat 3)).length = s.geom.picSizeInMbs := by
    simp [Geometry.mbMap]
  refine ⟨hg, hunits ▸ length_le_overlay _ _, hgroups ▸ length_le_overlay _ _, fun v hv => ?_, fun v hv => ?_⟩
  · rw [take_overlay hunits] at hv
    exact toNat_le_of_mem_map hle hv
  · rw [take_overlay hgroups] at hv
    exact toNat_le_of_mem_map (mbMap_le hle) hv

end Sys2Proof.Machine
end

