-- ==== Sys2Proof/Proofs/RulesKeep.lean ====
section
/-!
Every rule keeps the invariant's parts: a part whose pieces a command does not write is kept because `mayWrite` says
so, and the few commands that write them are taken one by one.
-/

namespace Sys2Proof.Machine

/-- The invariant of a state with FAULT = 0, STATUS apart, in parts. -/
structure State.Good (s : State) : Prop where
  params : s.params.wf = true
  binLen : s.binLen ≤ 128
  stream : StreamOk s.params s.bufFree s.stream s.enc s.dec
  raw : Table.Ok Config.rawBufBytes s.raw
  ctx : Table.Ok Config.numCtx s.ctx
  mb : MbOk s.params s.mb s.currMbAddr s.currValid
  sgid : SgidOk s.params s.sg.sgid
  map : s.sg.mapValid = true → MapOk s.geom s.sg

theorem Params.growBlock_pos {p : Params} (h : p.wf = true) : 1 ≤ p.growBlock := by
  simp only [Params.wf, Bool.and_eq_true, decide_eq_true_eq] at h
  exact h.1.1.1

/-! The stream. -/

/-- A command that moves the cursor and writes neither BUF nor the engines reads bits. -/
theorem ruleOf_reads {i : Instr} {s : State} (hc : .cur ∈ mayWrite i) (hb : .buf ∉ mayWrite i) (hd : .dec ∉ mayWrite i) :
    Yields (fun t => s.cur.mode = .dec ∧ Reads s.bufByte s.cur t.cur) (ruleOf i s) := by
  cases i with
  | bcRdu _ | bcRds _ =>
    exact yields_require fun hm => yields_require fun _ => yields_bind fun _ hx => yields_pure ⟨hm, readBits_reads hx⟩
  | bcRdbytes =>
    exact yields_require fun hm => yields_require fun _ => yields_require fun _ => yields_bind fun _ hx =>
      yields_pure ⟨hm, readRawBytes_reads hx⟩
  | egRdue | egRdse => exact yields_require fun hm => yields_bind fun _ hx => yields_pure ⟨hm, readUE_reads hx⟩
  | egRdte =>
    exact yields_require fun hm => yields_ite (fun _ => yields_bind fun _ hx => yields_pure ⟨hm, Reads.one hx⟩)
      fun _ => yields_bind fun _ hx => yields_pure ⟨hm, readUE_reads hx⟩
  | cvRdtoken =>
    exact yields_require fun hm => yields_require fun _ => yields_bind fun _ hx =>
      yields_pure ⟨hm, readCoeffToken_reads hx⟩
  | cvRdlevel =>
    exact yields_require fun hm => yields_require fun _ => yields_bind fun _ hx => yields_pure ⟨hm, readLevel_reads hx⟩
  | cvRdtz =>
    exact yields_require fun hm => yields_require fun _ => yields_require fun _ => yields_bind fun _ hx =>
      yields_pure ⟨hm, readTotalZeros_reads hx⟩
  | cvRdrun =>
    exact yields_require fun hm => yields_require fun _ => yields_bind fun _ hx =>
      yields_pure ⟨hm, readRunBefore_reads hx⟩
  | cvRdres _ _ _ _ =>
    exact yields_require fun hm => yields_bind fun _ _ => yields_bind fun _ hx =>
      yields_pure ⟨hm, (readResidual_reads hx).1⟩
  | cvRdcbp _ =>
    intro t h
    obtain ⟨hm, k, c, v, hk, rfl⟩ := ruleCvRdcbp_eq_ok h
    exact ⟨hm, readUE_reads hk⟩
  | _ => simp [mayWrite] at hc hb hd

/-- A command that writes BUF and not the encoding engine writes bits. -/
theorem ruleOf_puts {i : Instr} {s : State} (hb : .buf ∈ mayWrite i) (he : .enc ∉ mayWrite i) :
    Yields (fun t => s.cur.mode = .enc ∧ Puts s.params s.stream t.stream) (ruleOf i s) := by
  cases i with
  | bcWru _ | bcWrs _ =>
    exact yields_require fun hm => yields_require fun _ => yields_require fun _ => yields_bind fun _ hx =>
      yields_pure ⟨hm, writeBits_puts hx⟩
  | bcWrbytes =>
    exact yields_require fun hm => yields_require fun _ => yields_require fun _ => yields_bind fun _ hx =>
      yields_pure ⟨hm, writeRawBytes_puts hx⟩
  | egWrue | egWrse | cvWrcbp _ =>
    exact yields_require fun hm => yields_require fun _ => yields_bind fun _ hx => yields_pure ⟨hm, writeUE_puts hx⟩
  | egWrte =>
    exact yields_require fun hm => yields_ite
      (fun _ => yields_require fun _ => yields_bind fun _ hx => yields_pure ⟨hm, putBit1_puts hx⟩)
      fun _ => yields_require fun _ => yields_bind fun _ hx => yields_pure ⟨hm, writeUE_puts hx⟩
  | cvWrtoken =>
    exact yields_require fun hm => yields_require fun _ => yields_require fun _ => yields_bind fun _ hx =>
      yields_pure ⟨hm, writeCoeffToken_puts hx⟩
  | cvWrlevel =>
    exact yields_require fun hm => yields_require fun _ => yields_require fun _ => yields_bind fun _ hx =>
      yields_pure ⟨hm, writeLevel_puts hx⟩
  | cvWrtz | cvWrrun =>
    exact yields_require fun hm => yields_require fun _ => yields_bind fun _ hx =>
      yields_pure ⟨hm, writeCodeword_puts hx⟩
  | cvWrres _ _ _ _ =>
    exact yields_require fun hm => yields_bind fun _ _ => yields_bind fun _ hx =>
      yields_pure ⟨hm, (writeResidual_puts hx).1⟩
  | _ => simp [mayWrite] at hb he

section
variable {s : State} (h : s.Good)
include h

/-- The encoding engine at the start of a command. -/
theorem State.Good.encRun (ha : s.enc.active = true) :
    s.encRun.Fits ∧ 256 ≤ s.encRun.range ∧ s.encRun.range ≤ 510 ∧ s.encRun.outstanding < 2 ^ 32 := by
  obtain ⟨-, hlow, hleast, hmost⟩ := h.stream.eact ha
  exact ⟨hlow, hleast, hmost, s.enc.outstanding.isLt⟩

/-- The state a run of the encoding engine leaves. -/
theorem State.Good.setEncRun {active : Bool} {r : EncRun} (hm : s.cur.mode = .enc)
    (hs : ∃ bs, StreamStep s.bufFree s.params s.stream r.stream bs) (hfit : r.Fits) (hleast : 256 ≤ r.range)
    (hmost : r.range ≤ 510) : StreamOk s.params s.bufFree r.stream (r.encoder active) s.dec := by
  obtain ⟨bs, hbs⟩ := hs
  exact h.stream.step hm hbs fun _ => EncRun.encoder_ok hfit hleast hmost active

/-- CB_EDEC keeps the stream and the contexts (44_cabac_engine.md R279). -/
theorem ruleCbEdec_keeps (c : Nat) : Yields (fun t => StreamOk s.params s.bufFree t.stream t.enc t.dec ∧
    Table.Ok Config.numCtx t.ctx) (ruleCbEdec c s) := by
  refine yields_require fun ⟨hm, ha⟩ => yields_require fun _ => yields_bind fun r hr => yields_pure ?_
  obtain ⟨hfit, hleast, hmost, hout⟩ := h.encRun ha
  obtain ⟨x, hx, hs, hctx, hfit', hleast', hmost', -⟩ := EncRun.decision_spec (free := s.bufFree)
    (Params.growBlock_pos h.params) (h.stream.enc hm) hfit hout hleast hmost hr
  refine ⟨h.setEncRun hm hs hfit' hleast' hmost', ?_⟩
  show Table.Ok _ r.ctx
  rw [hctx]
  exact h.ctx.put_listed hx _

theorem ruleCbEbyp_keeps : Yields (fun t => StreamOk s.params s.bufFree t.stream t.enc t.dec) (ruleCbEbyp s) := by
  refine yields_require fun ⟨hm, ha⟩ => yields_require fun _ => yields_bind fun r hr => yields_pure ?_
  obtain ⟨hfit, hleast, hmost, -⟩ := h.encRun ha
  obtain ⟨hs, hfit', hrange, -⟩ := EncRun.bypass_spec (free := s.bufFree) (Params.growBlock_pos h.params)
    (h.stream.enc hm) hfit hmost hr
  exact h.setEncRun hm hs.stream hfit' (hrange ▸ hleast) (hrange ▸ hmost)

/-- CB_ETERM keeps the stream; with bin 1 the flush stops the engine (44_cabac_engine.md R281, R282). -/
theorem ruleCbEterm_keeps : Yields (fun t => StreamOk s.params s.bufFree t.stream t.enc t.dec) (ruleCbEterm s) := by
  refine yields_require fun ⟨hm, ha⟩ => yields_require fun _ => yields_ite (fun _ => ?_) fun _ => ?_
  all_goals
    refine yields_bind fun r hr => yields_pure ?_
    obtain ⟨hfit, hleast, hmost, hout⟩ := h.encRun ha
    unfold EncRun.Fits at hfit
  · obtain ⟨⟨bs, hs⟩, -, hleast', hmost', hfit', -⟩ := EncRun.flush_spec (free := s.bufFree)
      (r := { s.encRun with range := s.encRun.range - 2, low := s.encRun.low + (s.encRun.range - 2) })
      (Params.growBlock_pos h.params) (h.stream.enc hm)
      (show s.encRun.low + (s.encRun.range - 2) + 2 ≤ 1024 by omega) hout hr
    exact h.setEncRun hm ⟨_, hs⟩ hfit' hleast' hmost'
  · obtain ⟨hs, hfit', hleast', hmost', -⟩ := EncRun.renorm_spec (free := s.bufFree)
      (r := { s.encRun with range := s.encRun.range - 2 }) (Params.growBlock_pos h.params) (h.stream.enc hm)
      (show s.encRun.low + (s.encRun.range - 2) ≤ 1024 by omega) hout
      (show s.encRun.range - 2 ≤ 510 by omega) (show 256 ≤ (s.encRun.range - 2) * 2 ^ 8 by omega) hr
    exact h.setEncRun hm hs.stream hfit' hleast' hmost'

/-- BN_ENC keeps the stream and the contexts (45_cabac_binarization.md R315). -/
theorem ruleBnEnc_keeps (c : Nat) : Yields (fun t => StreamOk s.params s.bufFree t.stream t.enc t.dec ∧
    Table.Ok Config.numCtx t.ctx) (ruleBnEnc c s) := by
  refine yields_require fun ⟨hm, ha⟩ => yields_require fun _ => yields_require fun _ => yields_bind fun r hr =>
    yields_pure ?_
  obtain ⟨hfit, hleast, hmost, hout⟩ := h.encRun ha
  obtain ⟨hs, hfit', hleast', hmost', -, hwf, hbelow⟩ := encodeBins_spec (free := s.bufFree)
    (Params.growBlock_pos h.params) (h.stream.enc hm) hfit hout hleast hmost ⟨h.ctx.wf, h.ctx.below⟩ hr
  exact ⟨h.setEncRun hm hs hfit' hleast' hmost', hwf, hbelow⟩

/-- The state a run of the decoding engine leaves. -/
theorem State.Good.setDecRun {active : Bool} {r : DecRun} (hm : s.cur.mode = .dec) (hr : Reads s.bufByte s.cur r.cur)
    (hd : active = true → r.offset < r.range ∧ 256 ≤ r.range ∧ r.range ≤ 510) :
    StreamOk s.params s.bufFree ⟨r.cur, s.buf⟩ s.enc ⟨BitVec.ofNat 9 r.range, BitVec.ofNat 9 r.offset, active⟩ :=
  h.stream.reads hm hr fun ha => by
    obtain ⟨hoff, hleast, hmost⟩ := hd ha
    exact decoder_ok hoff hleast hmost active

theorem ruleCbDinit_keeps : Yields (fun t => StreamOk s.params s.bufFree t.stream t.enc t.dec) (ruleCbDinit s) :=
  yields_require fun hm => yields_bind fun x hx => yields_require fun hv => yields_pure
    (h.setDecRun (r := ⟨510, x.1, x.2⟩) hm (readBits_reads hx) fun _ => ⟨hv, (by decide : 256 ≤ 510), Nat.le_refl 510⟩)

/-- CB_DDEC keeps the stream and the contexts (44_cabac_engine.md R284). -/
theorem ruleCbDdec_keeps (c : Nat) : Yields (fun t => StreamOk s.params s.bufFree t.stream t.enc t.dec ∧
    Table.Ok Config.numCtx t.ctx) (ruleCbDdec c s) := by
  intro t ht
  obtain ⟨hm, ha, x, y, bin, r0, r, hx, hr, rfl, hcur, hint⟩ := ruleCbDdec_eq_ok ht
  obtain ⟨-, hoff, hleast, hmost⟩ := h.stream.dact ha
  obtain ⟨b1, b2, b3⟩ := rangeTabLPS_bounds x.pStateIdx.toNat _ x.pStateIdx.isLt hleast hmost
  simp only at hint
  obtain ⟨hreads, hrun⟩ := DecRun.renorm_spec (by omega) (by omega) (by omega) hr
  exact ⟨h.setDecRun hm (hcur ▸ hreads) fun _ => hrun, h.ctx.put_listed hx y⟩

theorem ruleCbDbyp_keeps : Yields (fun t => StreamOk s.params s.bufFree t.stream t.enc t.dec) (ruleCbDbyp s) := by
  refine yields_require fun ⟨hm, ha⟩ => yields_bind fun x hx => ?_
  obtain ⟨-, hoff, hleast, hmost⟩ := h.stream.dact ha
  have hbit : x.1.toNat ≤ 1 := Bool.toNat_le x.1
  have hreads : Reads s.bufByte s.cur x.2 := Reads.one hx
  refine yields_ite
    (fun hle => yields_pure (h.setDecRun (r := ⟨_, _, x.2⟩) hm hreads fun _ => ⟨?_, hleast, hmost⟩))
    fun hlt => yields_pure (h.setDecRun (r := ⟨_, _, x.2⟩) hm hreads fun _ => ⟨Nat.lt_of_not_le hlt, hleast, hmost⟩)
  show 2 * s.dec.offset.toNat + x.1.toNat - s.dec.range.toNat < s.dec.range.toNat
  omega

/-- CB_DTERM keeps the stream; bin 1 stops the engine (44_cabac_engine.md R286). -/
theorem ruleCbDterm_keeps : Yields (fun t => StreamOk s.params s.bufFree t.stream t.enc t.dec) (ruleCbDterm s) := by
  refine yields_require fun ⟨hm, ha⟩ => yields_ite (fun _ => ?_) fun hlt => yields_bind fun r hr => ?_
  · exact yields_pure (h.setDecRun (active := false) (r := ⟨_, _, s.cur⟩) hm (.refl _) fun hf => nomatch hf)
  · obtain ⟨-, -, hleast, hmost⟩ := h.stream.dact ha
    change ¬ s.dec.range.toNat - 2 ≤ s.dec.offset.toNat at hlt
    obtain ⟨hreads, hrun⟩ := DecRun.renorm_spec (r := ⟨s.dec.range.toNat - 2, s.dec.offset.toNat, s.cur⟩)
      (Nat.lt_of_not_le hlt) (show s.dec.range.toNat - 2 ≤ 510 by omega)
      (show 256 ≤ (s.dec.range.toNat - 2) * 2 ^ 8 by omega) hr
    exact yields_pure (h.setDecRun hm hreads fun _ => hrun)

theorem ruleOf_keeps_stream (i : Instr) :
    Yields (fun t => StreamOk s.params s.bufFree t.stream t.enc t.dec) (ruleOf i s) := by
  intro t ht
  have hw := ruleOf_writesOnly i s t ht
  by_cases hengine : .enc ∈ mayWrite i ∨ .dec ∈ mayWrite i
  · cases i with
    | bcInit _ _ _ =>
      obtain ⟨m, hok, rfl⟩ := ruleBcInit_eq_ok ht
      exact h.stream.start hok
    | cbEinit =>
      obtain ⟨hm, ht⟩ := require_bind_eq_ok.mp ht
      obtain rfl := Except.ok.inj ht
      exact h.stream.step hm (.refl (h.stream.enc hm)) fun _ =>
        (⟨by decide, by decide, by decide⟩ : Encoder.Ok ⟨0, 510, 0, true, true⟩)
    | cbEdec c => exact (ruleCbEdec_keeps h c t ht).1
    | cbEbyp => exact ruleCbEbyp_keeps h t ht
    | cbEterm => exact ruleCbEterm_keeps h t ht
    | bnEnc c => exact (ruleBnEnc_keeps h c t ht).1
    | cbDinit => exact ruleCbDinit_keeps h t ht
    | cbDdec c => exact (ruleCbDdec_keeps h c t ht).1
    | cbDbyp => exact ruleCbDbyp_keeps h t ht
    | cbDterm => exact ruleCbDterm_keeps h t ht
    | _ => simp [mayWrite] at hengine
  · obtain ⟨he, hd⟩ := not_or.mp hengine
    have henc : t.enc = s.enc := hw.same he
    have hdec : t.dec = s.dec := hw.same hd
    rw [henc, hdec]
    by_cases hb : .buf ∈ mayWrite i
    · obtain ⟨hm, hp⟩ := ruleOf_puts hb he t ht
      exact h.stream.puts (Params.growBlock_pos h.params) hm hp
    · have hbuf : t.buf = s.buf := hw.same hb
      by_cases hc : .cur ∈ mayWrite i
      · obtain ⟨hm, hr⟩ := ruleOf_reads hc hb hd t ht
        rw [State.stream, hbuf]
        exact h.stream.reads hm hr fun ha => (h.stream.dact ha).2
      · have hcur : t.cur = s.cur := hw.same hc
        rw [State.stream, hbuf, hcur]
        exact h.stream

/-! RAWBUF and the contexts. -/

theorem ruleOf_keeps_raw (i : Instr) : Yields (fun t => Table.Ok Config.rawBufBytes t.raw) (ruleOf i s) := by
  intro t ht
  by_cases hp : .raw ∈ mayWrite i
  · cases i with
    | bcRdbytes =>
      obtain ⟨-, ht⟩ := require_bind_eq_ok.mp ht
      obtain ⟨-, ht⟩ := require_bind_eq_ok.mp ht
      obtain ⟨hsize, ht⟩ := require_bind_eq_ok.mp ht
      obtain ⟨x, hx, ht⟩ := bind_eq_ok.mp ht
      obtain rfl := Except.ok.inj ht
      exact readRawBytes_ok h.raw hsize hx
    | _ => simp [mayWrite] at hp
  · rw [show t.raw = s.raw from (ruleOf_writesOnly i s t ht).same hp]
    exact h.raw

theorem ruleOf_keeps_ctx (i : Instr) : Yields (fun t => Table.Ok Config.numCtx t.ctx) (ruleOf i s) := by
  intro t ht
  by_cases hp : .ctx ∈ mayWrite i
  · cases i with
    | cbCtxinit _ =>
      obtain ⟨-, ht⟩ := require_bind_eq_ok.mp ht
      obtain ⟨-, ht⟩ := require_bind_eq_ok.mp ht
      obtain rfl := Except.ok.inj ht
      exact Table.Ok.build _ _
    | cbCtxset _ =>
      obtain ⟨hc, ht⟩ := require_bind_eq_ok.mp ht
      obtain ⟨-, ht⟩ := require_bind_eq_ok.mp ht
      obtain rfl := Except.ok.inj ht
      exact h.ctx.put (Nat.lt_succ_of_le hc) _
    | cbEdec c => exact (ruleCbEdec_keeps h c t ht).2
    | cbDdec c => exact (ruleCbDdec_keeps h c t ht).2
    | bnEnc c => exact (ruleBnEnc_keeps h c t ht).2
    | _ => simp [mayWrite] at hp
  · rw [show t.ctx = s.ctx from (ruleOf_writesOnly i s t ht).same hp]
    exact h.ctx

end

end Sys2Proof.Machine
end

