-- ==== Sys2Proof/Proofs/Invariant.lean ====
section
/-!
The rest of the invariant's parts (BINLEN, the MB info table, the slice groups), the states failing commands, RESET
and the host's other actions leave, and every step.
-/

namespace Sys2Proof.Machine

/-! The bin strings fit BINBUF (10_state.md R34, 45_cabac_binarization.md R316). -/

theorem unaryBins_length (v : Nat) : (unaryBins v).length = v + 1 := by simp [unaryBins]

theorem truncatedUnaryBins_length_le {v cMax : Nat} (h : v ≤ cMax) : (truncatedUnaryBins v cMax).length ≤ cMax := by
  unfold truncatedUnaryBins
  split
  · next hlt => exact (unaryBins_length v).trans_le hlt
  · simpa using h

theorem ceilLog2From_le (fuel e x : Nat) : ceilLog2From fuel e x ≤ e + fuel := by
  induction fuel generalizing e with
  | zero => exact Nat.le_refl e
  | succ fuel ih =>
    unfold ceilLog2From
    split
    · exact Nat.le_add_right e _
    · exact (ih (e + 1)).trans (by omega)

theorem fixedLengthBins_length_le (v cMax : Nat) : (fixedLengthBins v cMax).length ≤ 33 := by
  simpa [fixedLengthBins, ceilLog2] using ceilLog2From_le 33 0 (cMax + 1)

theorem expGolombSuffix_length_le (fuel k suf : Nat) : (expGolombSuffix fuel k suf).length ≤ 2 * fuel + k := by
  induction fuel generalizing k suf with
  | zero => exact Nat.zero_le _
  | succ fuel ih =>
    unfold expGolombSuffix
    split
    · have := ih (k + 1) (suf - 2 ^ k)
      rw [List.length_cons]
      omega
    · rw [List.length_cons, fieldBits_length]
      omega

theorem uegkBins_length_le {k uCoff : Nat} {signed : Bool} {v : Int} (hk : k < 16) (hu : uCoff ≤ 32) :
    (uegkBins k signed uCoff v).length ≤ 128 := by
  have h1 := truncatedUnaryBins_length_le (Nat.min_le_left uCoff v.natAbs)
  have h2 : (if uCoff ≤ v.natAbs then expGolombSuffix 40 k (v.natAbs - uCoff) else []).length ≤ 95 := by
    split
    · exact (expGolombSuffix_length_le 40 k _).trans (by omega)
    · exact Nat.zero_le _
  have h3 : (if signed = true ∧ v ≠ 0 then [decide (v < 0)] else []).length ≤ 1 := by
    split
    · exact Nat.le_refl 1
    · exact Nat.zero_le 1
  rw [uegkBins, List.length_append, List.length_append]
  omega

theorem ruleOf_keeps_binLen {i : Instr} {s : State} (hi : i.wellFormed = true) (h : s.binLen ≤ 128) :
    Yields (fun t => t.binLen ≤ 128) (ruleOf i s) := by
  intro t ht
  by_cases hp : .bins ∈ mayWrite i
  · cases i with
    | bnU =>
      obtain ⟨hv, ht⟩ := require_bind_eq_ok.mp ht
      obtain rfl := Except.ok.inj ht
      exact (unaryBins_length _).trans_le (Nat.succ_le_succ hv)
    | bnTu =>
      obtain ⟨hmax, ht⟩ := require_bind_eq_ok.mp ht
      obtain ⟨hv, ht⟩ := require_bind_eq_ok.mp ht
      obtain rfl := Except.ok.inj ht
      exact (truncatedUnaryBins_length_le hv).trans (hmax.trans (by decide))
    | bnFl =>
      obtain ⟨-, ht⟩ := require_bind_eq_ok.mp ht
      obtain rfl := Except.ok.inj ht
      exact (fixedLengthBins_length_le _ _).trans (by decide)
    | bnUegk k signed =>
      obtain ⟨hu, ht⟩ := require_bind_eq_ok.mp ht
      obtain rfl := Except.ok.inj ht
      exact uegkBins_length_le (of_decide_eq_true hi) hu
    | _ => simp [mayWrite] at hp
  · obtain ⟨-, hlen⟩ : t.bins = s.bins ∧ t.binLen = s.binLen := (ruleOf_writesOnly i s t ht).same hp
    exact hlen.trans_le h

/-! The MB info table. -/

/-- A residual command runs on at most 16 positions (43_cavlc.md R245). -/
theorem checkResidualSetup_last {s : State} {kind blkIdx : Nat} {store ncx : Bool} :
    Yields (fun _ => s.a1.toNat ≤ 15) (checkResidualSetup kind store ncx blkIdx s) := by
  refine yields_require fun _ => yields_require fun _ => yields_require fun _ => yields_require fun hr => ?_
  exact fun _ _ => by omega

theorem storeTotalCoeff_mbOk {s : State} {store : Bool} {kind blkIdx tc : Nat}
    (h : MbOk s.params s.mb s.currMbAddr s.currValid) (htc : tc ≤ 16) :
    MbOk s.params (s.storeTotalCoeff store kind blkIdx tc).mb (s.storeTotalCoeff store kind blkIdx tc).currMbAddr
      (s.storeTotalCoeff store kind blkIdx tc).currValid := by
  unfold State.storeTotalCoeff
  split
  · exact storeNz_mbOk h htc
  · exact h

theorem ruleOf_keeps_mb {i : Instr} {s : State} (h : MbOk s.params s.mb s.currMbAddr s.currValid) :
    Yields (fun t => MbOk s.params t.mb t.currMbAddr t.currValid) (ruleOf i s) := by
  intro t ht
  by_cases hp : .mb ∈ mayWrite i ∨ .currMbAddr ∈ mayWrite i ∨ .currValid ∈ mayWrite i
  · cases i with
    | csrWr _ =>
      obtain ⟨g, -, rfl⟩ | ⟨-, sg, -, rfl⟩ := csrWrite_eq_ok ht
      · exact .cleared _ _
      · exact h
    | cvRdres _ _ _ _ =>
      obtain ⟨-, ht⟩ := require_bind_eq_ok.mp ht
      obtain ⟨nC, hnC, ht⟩ := bind_eq_ok.mp ht
      obtain ⟨x, hx, ht⟩ := bind_eq_ok.mp ht
      obtain rfl := Except.ok.inj ht
      have hlast := checkResidualSetup_last nC hnC
      exact storeTotalCoeff_mbOk h ((readResidual_reads hx).2.trans (by omega))
    | cvWrres _ _ _ _ =>
      obtain ⟨-, ht⟩ := require_bind_eq_ok.mp ht
      obtain ⟨nC, -, ht⟩ := bind_eq_ok.mp ht
      obtain ⟨x, hx, ht⟩ := bind_eq_ok.mp ht
      obtain rfl := Except.ok.inj ht
      exact storeTotalCoeff_mbOk h (writeResidual_puts hx).2
    | mbSlice =>
      obtain rfl := Except.ok.inj ht
      exact .cleared _ _
    | mbBegin =>
      refine yields_require (P := fun t => MbOk s.params t.mb t.currMbAddr t.currValid) (fun _ => ?_) t ht
      iterate 7 refine yields_require fun _ => ?_
      refine yields_require fun hmax => yields_pure ⟨h.table.put hmax _, ?_, fun _ => ?_⟩
      · exact Table.all_put _ _ _ _ h.counts (newMbEntry_countsOk _)
      · rw [Table.find_put_same]
        rfl
    | mbSetnz _ _ _ =>
      refine yields_require (P := fun t => MbOk s.params t.mb t.currMbAddr t.currValid) (fun _ => ?_) t ht
      exact yields_require fun _ => yields_ite
        (fun _ => yields_require fun hn => yields_pure (storeNz8_mbOk h hn.2))
        fun _ => yields_require fun hn => yields_pure (storeNz_mbOk h hn.2)
    | _ => simp [mayWrite] at hp
  · obtain ⟨hmb, hp⟩ := not_or.mp hp
    obtain ⟨haddr, hvalid⟩ := not_or.mp hp
    have hw := ruleOf_writesOnly i s t ht
    rw [show t.mb = s.mb from hw.same hmb, show t.currMbAddr = s.currMbAddr from hw.same haddr,
      show t.currValid = s.currValid from hw.same hvalid]
    exact h

/-! The slice groups. -/

/-- A CSR write leaves SGID and the maps alone (10_state.md R40, R45). -/
theorem SliceGroups.writeCsr_keeps {sg sg' : SliceGroups} {n : Nat} {v : Word} (h : sg.writeCsr n v = some sg') :
    sg'.sgid = sg.sgid ∧ sg'.mapUnits = sg.mapUnits ∧ sg'.mbGroups = sg.mbGroups := by
  unfold SliceGroups.writeCsr at h
  simp only at h
  repeat' split at h
  all_goals cases h
  all_goals exact ⟨rfl, rfl, rfl⟩

theorem SgidOk.setGroupId {p : Params} {sg : SliceGroups} (h : SgidOk p sg.sgid) {i : Nat} (hi : i < p.maxMapUnits)
    (v : BitVec 3) : SgidOk p (sg.setGroupId i v).sgid := by
  unfold SliceGroups.setGroupId
  by_cases hv : v = 0
  · simp only [hv, if_true]
    exact ⟨h.table.drop i, Table.all_drop (fun v => decide (v ≠ 0)) _ _ h.listed⟩
  · simp only [hv, if_false]
    exact ⟨h.table.put hi v, Table.all_put (fun v => decide (v ≠ 0)) _ _ _ h.listed (decide_eq_true hv)⟩

theorem ruleOf_keeps_sgid {i : Instr} {s : State} (h : SgidOk s.params s.sg.sgid) :
    Yields (fun t => SgidOk s.params t.sg.sgid) (ruleOf i s) := by
  intro t ht
  by_cases hp : .sg ∈ mayWrite i
  · cases i with
    | csrWr _ =>
      obtain ⟨g, -, rfl⟩ | ⟨-, sg, hsg, rfl⟩ := csrWrite_eq_ok ht
      · exact h
      · exact (SliceGroups.writeCsr_keeps hsg).1 ▸ h
    | sgIdwr =>
      obtain ⟨⟨hi, -⟩, ht⟩ := require_bind_eq_ok.mp ht
      obtain rfl := Except.ok.inj ht
      exact h.setGroupId hi _
    | sgGen =>
      obtain ⟨-, ht⟩ := require_bind_eq_ok.mp ht
      obtain ⟨-, ht⟩ := require_bind_eq_ok.mp ht
      obtain ⟨-, ht⟩ := require_bind_eq_ok.mp ht
      obtain rfl := Except.ok.inj ht
      exact h
    | _ => simp [mayWrite] at hp
  · rw [show t.sg = s.sg from (ruleOf_writesOnly i s t ht).same hp]
    exact h

theorem ruleOf_keeps_map {i : Instr} {s : State} (h : s.sg.mapValid = true → MapOk s.geom s.sg) :
    Yields (fun t => t.sg.mapValid = true → MapOk t.geom t.sg) (ruleOf i s) := by
  intro t ht
  by_cases hp : .sg ∈ mayWrite i ∨ .geom ∈ mayWrite i
  · cases i with
    | csrWr _ =>
      obtain ⟨g, -, rfl⟩ | ⟨-, sg, -, rfl⟩ := csrWrite_eq_ok ht
      · exact fun hv => nomatch hv
      · exact fun hv => nomatch hv
    | sgIdwr =>
      obtain ⟨-, ht⟩ := require_bind_eq_ok.mp ht
      obtain rfl := Except.ok.inj ht
      exact fun hv => nomatch hv
    | sgGen => exact fun _ => ruleSgGen_mapOk ht
    | _ => simp [mayWrite] at hp
  · obtain ⟨hsg, hgeom⟩ := not_or.mp hp
    have hw := ruleOf_writesOnly i s t ht
    rw [show t.sg = s.sg from hw.same hsg, show t.geom = s.geom from hw.same hgeom]
    exact h

/-- A rule that answers keeps every part of the invariant. -/
theorem ruleOf_keeps_good {i : Instr} {s : State} (hi : i.wellFormed = true) (h : s.Good) :
    Yields State.Good (ruleOf i s) := by
  intro t ht
  have hw := ruleOf_writesOnly i s t ht
  have hparams : t.params = s.params := hw.params
  have hfree : t.bufFree = s.bufFree := by
    unfold State.bufFree
    rw [hw.epoch]
  constructor
  case params => exact hparams ▸ h.params
  case binLen => exact ruleOf_keeps_binLen hi h.binLen t ht
  case stream => rw [hparams, hfree]; exact ruleOf_keeps_stream h i t ht
  case raw => exact ruleOf_keeps_raw h i t ht
  case ctx => exact ruleOf_keeps_ctx h i t ht
  case mb => rw [hparams]; exact ruleOf_keeps_mb h.mb t ht
  case sgid => rw [hparams]; exact ruleOf_keeps_sgid h.sgid t ht
  case map => exact ruleOf_keeps_map h.map t ht

/-! The invariant and its parts. -/

theorem State.Inv.good {s : State} (h : s.Inv) (hf : s.status.fault = false) : s.Good := by
  obtain ⟨hparams, hm, hbin, hrun⟩ := h
  have hr := hrun hf
  exact {
    params := hparams
    binLen := hbin
    stream := ⟨⟨hm.buf, hm.bufBelow⟩, hr.enc, hr.dec, hr.eact, hr.dact⟩
    raw := ⟨hm.raw, hm.rawBelow⟩
    ctx := ⟨hm.ctx, hm.ctxBelow⟩
    mb := ⟨⟨hm.mb, hm.mbBelow⟩, hm.counts, hr.curr⟩
    sgid := ⟨⟨hm.sgid, hm.sgidBelow⟩, hm.sgidListed⟩
    map := fun hv => by
      obtain ⟨hgeom, hunits, hgroups, hbound⟩ := hr.map hv
      exact ⟨hgeom, hunits, hgroups, (forall_take_iff hunits _ (·.toNat ≤ s.sg.num)).2 hbound.units,
        (forall_take_iff hgroups _ (·.toNat ≤ s.sg.num)).2 hbound.groups⟩ }

theorem State.Good.inv {s : State} (h : s.Good) (hs : s.status = ⟨.ok, false, 0⟩) : s.Inv where
  params := h.params
  binLen := h.binLen
  memories := ⟨h.stream.buf.wf, h.raw.wf, h.ctx.wf, h.mb.table.wf, h.sgid.table.wf, h.stream.buf.below, h.raw.below,
    h.ctx.below, h.mb.table.below, h.sgid.table.below, h.sgid.listed, h.mb.counts⟩
  running := fun _ =>
    { status := hs
      enc := h.stream.enc
      dec := h.stream.dec
      eact := h.stream.eact
      dact := h.stream.dact
      curr := h.mb.curr
      map := fun hv =>
        have hm := h.map hv
        ⟨hm.geom, hm.unitsLen, hm.groupsLen, (forall_take_iff hm.unitsLen _ (·.toNat ≤ s.sg.num)).1 hm.units,
          (forall_take_iff hm.groupsLen _ (·.toNat ≤ s.sg.num)).1 hm.groups⟩ }

/-! Failing commands and RESET (60_exceptions.md R401, 70_reset_and_hazards.md R430). -/

theorem drawnMbEntry_countsOk (k a : Nat) : (drawnMbEntry k a).countsOk = true := by
  simp only [MbEntry.countsOk, drawnMbEntry, Bool.and_eq_true, Vector.all_eq_true, Vector.getElem_ofFn,
    BitVec.toNat_ofNat, decide_eq_true_eq]
  exact ⟨fun _ _ => by omega, fun _ _ => by omega⟩

/-- A drawn value lies in its register's range (notes/assumptions/13.md). -/
theorem State.failWith_inv {s : State} (h : s.params.wf = true) (e : Code) (opc : Nat) : (s.failWith e opc).Inv where
  params := h
  binLen := Nat.le_of_lt_succ (Nat.mod_lt _ (by decide))
  memories :=
    have hctx : Table.Ok Config.numCtx (drawnCtx (s.epoch + 1)) := .build _ _
    have hmb : Table.Ok s.params.maxMbs (drawnMb (s.epoch + 1) s.params.maxMbs) := .build _ _
    have hsgid : Table.Ok s.params.maxMapUnits (drawnSgid (s.epoch + 1) s.params.maxMapUnits) := .build _ _
    { buf := rfl, raw := rfl, ctx := hctx.wf, mb := hmb.wf, sgid := hsgid.wf
      bufBelow := rfl, rawBelow := rfl, ctxBelow := hctx.below, mbBelow := hmb.below, sgidBelow := hsgid.below
      sgidListed := Table.all_build (fun v => decide (v ≠ 0)) _ _ _ fun i v hv => by
        simp only at hv
        split at hv
        · simp at hv
        · next hne => exact decide_eq_true (Option.some.inj hv ▸ hne)
      counts := Table.all_build MbEntry.countsOk _ _ _ fun a x hx => by
        split at hx
        · exact Option.some.inj hx ▸ drawnMbEntry_countsOk _ _
        · simp at hx }
  running := fun hf => nomatch hf

theorem State.resetWith_inv {p : Params} (h : p.wf = true) (k : Nat) (port : List HostAction) :
    (State.resetWith p k port).Inv :=
  State.Good.inv
    { params := h
      binLen := Nat.zero_le _
      stream := ⟨.nil _, fun hm => (nomatch hm), fun hm => (nomatch hm), fun ha => (nomatch ha), fun ha => nomatch ha⟩
      raw := .nil _
      ctx := .nil _
      mb := .cleared p 0
      sgid := ⟨.nil _, rfl⟩
      map := fun hv => nomatch hv } rfl

/-! Commands. -/

/-- What Y0 and CODE hold does not matter to the invariant while FAULT = 1. -/
theorem State.Inv.faulted {s : State} (h : s.Inv) (hf : s.status.fault = true) (y : Word) (c : Code) :
    (State.complete c { s with y0 := y }).Inv :=
  { h with
    memories := { h.memories with }
    running := fun h0 => Bool.noConfusion (hf.symm.trans h0) }

theorem exec_keeps_inv {i : Instr} {s t : State} (hi : i.wellFormed = true) (h : s.Inv) (ht : exec i s = .next t) :
    t.Inv := by
  by_cases hreset : i = .reset
  · subst hreset
    obtain rfl := Host.Outcome.next.inj ht
    exact State.resetWith_inv h.params _ _
  cases hf : s.status.fault with
  | false =>
    obtain ⟨hf', -, -⟩ | ⟨u, hu, rfl⟩ | ⟨e, -, rfl⟩ := exec_cases hreset ht
    · rw [hf] at hf'
      cases hf'
    · have hstatus : u.status = ⟨.ok, false, 0⟩ := (ruleOf_writesOnly i s u hu).status.trans (h.running hf).status
      have hgood : u.Good := ruleOf_keeps_good hi (h.good hf) u hu
      exact State.Good.inv { hgood with } (congrArg (Status.complete .ok) hstatus)
    · exact State.failWith_inv h.params e _
  | true =>
    cases hr : runsFaulted i with
    | false =>
      rw [exec_eq_runCommand i s hr, runCommand_faulted hf] at ht
      obtain rfl := Host.Outcome.next.inj ht
      exact h.faulted hf s.y0 _
    | true =>
      cases i with
      | nop =>
        obtain rfl := Host.Outcome.next.inj ht
        exact h.faulted hf s.y0 _
      | csrRd _ =>
        obtain ⟨u, hu, rfl⟩ | ⟨e, -, rfl⟩ := runRule_cases ht
        · obtain ⟨y, rfl⟩ := ruleCsrRd_eq_ok hu
          exact h.faulted hf y _
        · exact State.failWith_inv h.params e _
      | reset => exact absurd rfl hreset
      | _ => simp [runsFaulted] at hr

/-! Words and the host's other actions. -/

theorem mbz_eq_ok {opc : Nat} {zero : Bool} {i j : Instr} (h : mbz opc zero i = .ok j) : i = j := by
  unfold mbz at h
  split at h
  · exact Except.ok.inj h
  · simp at h

/-- A decoded command's fields fit their bits (30_encoding.md R101). -/
theorem decodeFields_wellFormed {opc f8 f16 : Nat} {i : Instr} (h8 : f8 < 256) (h16 : f16 < 65536)
    (h : decodeFields opc f8 f16 = .ok i) : i.wellFormed = true := by
  unfold decodeFields at h
  split at h
  case h_20 | h_44 =>
    obtain rfl := Except.ok.inj h
    simp [Instr.wellFormed, h8, h16]
  case h_61 => simp at h
  all_goals
    obtain rfl := mbz_eq_ok h
    simp [Instr.wellFormed, bitField, Nat.mod_lt, h8, h16]

theorem decode_wellFormed {w : Word} {i : Instr} (h : decode w = .ok i) : i.wellFormed = true :=
  decodeFields_wellFormed (Nat.mod_lt _ (by decide)) (Nat.mod_lt _ (by decide)) h

theorem rejectWord_keeps_inv {opc : Nat} {s t : State} (h : s.Inv) (ht : rejectWord opc s = .next t) : t.Inv := by
  unfold rejectWord at ht
  split at ht
  · next hf =>
    obtain rfl := Host.Outcome.next.inj ht
    exact h.faulted hf.1 s.y0 _
  · obtain rfl := Host.Outcome.next.inj ht
    exact State.failWith_inv h.params _ _

theorem issueWord_keeps_inv {w : Word} {s t : State} (h : s.Inv) (ht : issueWord w s = .next t) : t.Inv := by
  unfold issueWord at ht
  split at ht
  · next i hi => exact exec_keeps_inv (decode_wellFormed hi) h ht
  · exact rejectWord_keeps_inv h ht

/-- The map's part of the invariant reads only the geometry, the slice-group state and the epoch. -/
theorem State.Running.map_congr {s t : State} (h : s.Running) (hgeom : t.geom = s.geom) (hsg : t.sg = s.sg)
    (hepoch : t.epoch = s.epoch) (hv : t.sg.mapValid = true) : t.geom.valid = true ∧
      t.geom.picSizeInMapUnits ≤ t.sg.mapUnits.length ∧ t.geom.picSizeInMbs ≤ t.sg.mbGroups.length ∧ t.MapBounded := by
  obtain ⟨hvalid, hunits, hgroups, hbound⟩ := h.map (hsg ▸ hv)
  cases t
  cases hgeom
  cases hsg
  cases hepoch
  exact ⟨hvalid, hunits, hgroups, hbound.units, hbound.groups⟩

section
variable {s : State} (h : s.Inv)
include h

/-- The pending host actions, A0..A3 and COEF do not matter to the invariant. -/
theorem State.Inv.withOperands (port : List HostAction) (a0 a1 a2 a3 : Word) (coef : Vector Word 16) :
    State.Inv { s with port := port, a0 := a0, a1 := a1, a2 := a2, a3 := a3, coef := coef } := by
  refine { h with memories := { h.memories with }, running := fun hf => ?_ }
  exact { h.running hf with map := (h.running hf).map_congr rfl rfl rfl }

theorem hostWriteRaw_keeps_inv {a : Nat} {b : Byte} {t : State} (ht : hostWriteRaw a b s = .next t) : t.Inv := by
  unfold hostWriteRaw at ht
  split at ht
  · next ha =>
    obtain rfl := Host.Outcome.next.inj ht
    obtain ⟨hwf, hbelow⟩ := Table.Ok.put ⟨h.memories.raw, h.memories.rawBelow⟩ ha b
    refine { h with memories := { h.memories with raw := hwf, rawBelow := hbelow }, running := fun hf => ?_ }
    exact { h.running hf with map := (h.running hf).map_congr rfl rfl rfl }
  · simp at ht

/-- The host writes BUF only while no stream is open, when the cursor's invariant says nothing of BUF. -/
theorem hostWriteBuf_keeps_inv {a : Nat} {b : Byte} {t : State} (ht : hostWriteBuf a b s = .next t) : t.Inv := by
  unfold hostWriteBuf at ht
  split at ht
  · simp at ht
  · next hm =>
    have hm := not_not.mp hm
    split at ht
    · next ha =>
      obtain rfl := Host.Outcome.next.inj ht
      obtain ⟨hwf, hbelow⟩ := Table.Ok.put ⟨h.memories.buf, h.memories.bufBelow⟩ ha b
      refine { h with memories := { h.memories with buf := hwf, bufBelow := hbelow }, running := fun hf => ?_ }
      exact { h.running hf with
        enc := fun he => absurd (hm.symm.trans he) (by decide)
        map := (h.running hf).map_congr rfl rfl rfl }
    · simp at ht

theorem takeAction_keeps_inv {x : HostAction} {t : State} (ht : takeAction x s = .next t) : t.Inv := by
  cases x with
  | command w => exact issueWord_keeps_inv h ht
  | setA i v =>
    obtain rfl := Host.Outcome.next.inj ht
    fin_cases i
    · exact h.withOperands s.port v s.a1 s.a2 s.a3 s.coef
    · exact h.withOperands s.port s.a0 v s.a2 s.a3 s.coef
    · exact h.withOperands s.port s.a0 s.a1 v s.a3 s.coef
    · exact h.withOperands s.port s.a0 s.a1 s.a2 v s.coef
  | writeBuf a b => exact hostWriteBuf_keeps_inv h ht
  | writeRaw a b => exact hostWriteRaw_keeps_inv h ht
  | writeCoef i v =>
    obtain rfl := Host.Outcome.next.inj ht
    exact h.withOperands s.port s.a0 s.a1 s.a2 s.a3 (s.coef.set i v)

end

end Sys2Proof.Machine

open Sys2Proof Sys2Proof.Machine

/-- Settles O59: the oldest pending host action keeps the invariant, a command because its rule keeps each part. -/
theorem stepKeepsInvariant : Obligations.StepKeepsInvariant := by
  intro s t h ht
  unfold step nextAction at ht
  split at ht
  · obtain rfl := Host.Outcome.next.inj ht
    exact h
  · next x rest _ => exact takeAction_keeps_inv (h.withOperands rest s.a0 s.a1 s.a2 s.a3 s.coef) ht
end

