-- ==== Sys2Proof/Proofs/Registers.lean ====
section
/-!
The control and status registers (10_state.md R40, R43; 40_control.md R142, R143): what CSR_RD gives of each, and what
a legal write does to them.
-/

namespace Sys2Proof.Machine

/-! Words. -/

theorem natWord_toNat {n : Nat} (h : n < 2 ^ 32) : (natWord n).toNat = n :=
  (BitVec.toNat_ofNat ..).trans (Nat.mod_eq_of_lt h)

theorem boolWord_toNat (b : Bool) : (boolWord b).toNat = b.toNat := by cases b <;> rfl

/-- A word that fits `k` bits is read back from a field of that width. -/
theorem natWord_ofNat_toNat {k : Nat} {v : Word} (h : v.toNat < 2 ^ k) :
    natWord (BitVec.ofNat k v.toNat).toNat = v := by
  rw [BitVec.toNat_ofNat, Nat.mod_eq_of_lt h, natWord, BitVec.ofNat_toNat, BitVec.setWidth_eq]

theorem boolWord_eq_of_le_one {v : Word} (h : v.toNat ≤ 1) : boolWord (decide (v.toNat = 1)) = v := by
  apply BitVec.eq_of_toNat_eq
  rw [boolWord_toNat]
  by_cases h1 : v.toNat = 1
  · rw [decide_eq_true h1, h1]
    rfl
  · rw [decide_eq_false h1]
    show 0 = v.toNat
    omega

/-! CSR_RD (40_control.md R142). -/

theorem exec_csrRd_of_some {s : State} {n : Nat} {y : Word} (h : s.csrValue n = some y) :
    exec (.csrRd n) s = .next (State.complete .ok { s with y0 := y }) := by
  simp [exec_csrRd, runRule, ruleCsrRd, h]

theorem exec_csrRd_of_none {s : State} {n : Nat} (h : s.csrValue n = none) :
    exec (.csrRd n) s = .next (s.failWith .einval 0x02) := by
  simp [exec_csrRd, runRule, ruleCsrRd, h]

/-- CSR_RD completes exactly where the register map has a value. -/
theorem csrReads_iff {s : State} {n v : Nat} : s.CsrReads n v ↔ ∃ y, s.csrValue n = some y ∧ y.toNat = v := by
  constructor
  · rintro ⟨y, hy, hv⟩
    cases hval : s.csrValue n with
    | none =>
      rw [exec_csrRd_of_none hval] at hy
      have hcode := congrArg (·.status.code) (Host.Outcome.next.inj hy)
      simp at hcode
    | some z =>
      rw [exec_csrRd_of_some hval] at hy
      exact ⟨z, rfl, (congrArg (·.y0.toNat) (Host.Outcome.next.inj hy)).trans hv⟩
  · rintro ⟨y, hy, hv⟩
    exact ⟨y, exec_csrRd_of_some hy, hv⟩

section
variable {s : State} {n : Nat}

theorem csrReads_word {w : Word} (h : s.csrValue n = some w) : s.CsrReads n w.toNat := csrReads_iff.2 ⟨w, h, rfl⟩

theorem csrReads_nat {v : Nat} (h : s.csrValue n = some (natWord v)) (hv : v < 2 ^ 32) : s.CsrReads n v :=
  csrReads_iff.2 ⟨_, h, natWord_toNat hv⟩

theorem csrReads_bool {b : Bool} (h : s.csrValue n = some (boolWord b)) : s.CsrReads n b.toNat :=
  csrReads_iff.2 ⟨_, h, boolWord_toNat b⟩

/-- A field narrower than a register. -/
theorem csrReads_field {k : Nat} {x : BitVec k} (h : s.csrValue n = some (natWord x.toNat)) (hk : k ≤ 32) :
    s.CsrReads n x.toNat := csrReads_nat h (x.isLt.trans_le (Nat.pow_le_pow_right (by decide) hk))

/-- The registers from 0x050 on are the slice groups' indexed ones. -/
theorem csrValue_indexed (h : 0x050 ≤ n) : s.csrValue n = s.sg.indexedCsr n := by
  unfold State.csrValue
  split
  case h_44 => rfl
  all_goals omega

end

theorem indexedCsr_runLength (sg : SliceGroups) {k : Nat} (hk : k < 8) :
    sg.indexedCsr (0x050 + k) = some sg.runLengthMinus1[k] := by
  rw [SliceGroups.indexedCsr, if_pos (by omega), Nat.add_sub_cancel_left, Vector.getElem?_eq_getElem hk]

theorem indexedCsr_topLeft (sg : SliceGroups) {k : Nat} (hk : k < 8) :
    sg.indexedCsr (0x058 + k) = some sg.topLeft[k] := by
  rw [SliceGroups.indexedCsr, if_neg (by omega), if_pos (by omega), Nat.add_sub_cancel_left,
    Vector.getElem?_eq_getElem hk]

theorem indexedCsr_bottomRight (sg : SliceGroups) {k : Nat} (hk : k < 8) :
    sg.indexedCsr (0x060 + k) = some sg.bottomRight[k] := by
  rw [SliceGroups.indexedCsr, if_neg (by omega), if_neg (by omega), if_pos (by omega), Nat.add_sub_cancel_left,
    Vector.getElem?_eq_getElem hk]

/-- A number of the table has a value. -/
theorem csrValue_listed (s : State) {n : Nat} (h : csrListed n = true) : ∃ y, s.csrValue n = some y := by
  simp only [csrListed, Bool.or_eq_true, Bool.and_eq_true, decide_eq_true_eq] at h
  obtain hscalar | ⟨hlo, hhi⟩ := h
  · obtain (((hhi | ⟨hlo, hhi⟩) | ⟨hlo, hhi⟩) | ⟨hlo, hhi⟩) | ⟨hlo, hhi⟩ := hscalar
    all_goals
      interval_cases n
      all_goals exact ⟨_, rfl⟩
  · rw [csrValue_indexed hlo]
    obtain hrun | htop | hbottom : n < 0x058 ∨ 0x058 ≤ n ∧ n < 0x060 ∨ 0x060 ≤ n := by omega
    · obtain ⟨k, rfl⟩ := Nat.exists_eq_add_of_le hlo
      exact ⟨_, indexedCsr_runLength s.sg (by omega)⟩
    · obtain ⟨k, rfl⟩ := Nat.exists_eq_add_of_le htop.1
      exact ⟨_, indexedCsr_topLeft s.sg (by omega)⟩
    · obtain ⟨k, rfl⟩ := Nat.exists_eq_add_of_le hbottom
      exact ⟨_, indexedCsr_bottomRight s.sg (by omega)⟩

/-- An unassigned number has none. -/
theorem csrValue_unlisted (s : State) {n : Nat} (h : csrListed n = false) : s.csrValue n = none := by
  unfold State.csrValue
  split
  case h_44 =>
    simp only [csrListed, Bool.or_eq_false_iff, Bool.and_eq_false_imp, decide_eq_true_eq, decide_eq_false_iff_not] at h
    rw [SliceGroups.indexedCsr, if_neg (by omega), if_neg (by omega), if_neg (by omega)]
  all_goals exact absurd h (by decide)

theorem Code.toNat_le (c : Code) : c.toNat ≤ 8 := by cases c <;> decide

theorem CursorMode.toNat_le (m : CursorMode) : m.toNat ≤ 2 := by cases m <;> decide

end Sys2Proof.Machine

open Sys2Proof Sys2Proof.Machine

/-- Settles O14: each value is `State.csrValue`'s, and fits its register. -/
theorem csrReadValues : Obligations.CsrReadValues := by
  intro s
  have hcode := s.status.code.toNat_le
  have hfault := Bool.toNat_le s.status.fault
  have hfailop := s.status.failop.isLt
  have hmode := s.cur.mode.toNat_le
  have hep := Bool.toNat_le s.cur.ep
  have hgrow := Bool.toNat_le s.cur.grow
  have hcache := s.cur.cache.isLt
  have heact := Bool.toNat_le s.enc.active
  have hdact := Bool.toNat_le s.dec.active
  refine ⟨csrReads_nat rfl (by omega), csrReads_nat rfl (by omega), csrReads_word rfl, csrReads_word rfl,
    csrReads_word rfl, fun h => csrReads_nat rfl (by omega), fun h => csrReads_nat rfl (by omega), csrReads_word rfl,
    csrReads_field rfl (by decide), csrReads_field rfl (by decide), csrReads_word rfl, csrReads_bool rfl,
    csrReads_field rfl (by decide), csrReads_field rfl (by decide), csrReads_nat rfl (by omega),
    fun h => csrReads_nat rfl (by omega), csrReads_field rfl (by decide), csrReads_field rfl (by decide),
    csrReads_bool rfl, csrReads_bool rfl, csrReads_bool rfl, csrReads_field rfl (by decide), csrReads_bool rfl,
    csrReads_word rfl, csrReads_bool rfl, csrReads_field rfl (by decide),
    csrReads_nat rfl (s.sg.mapType.isLt.trans (by decide)), csrReads_bool rfl, csrReads_word rfl, csrReads_word rfl,
    csrReads_bool rfl, fun g => ⟨?_, ?_, ?_⟩, fun n h => ?_, fun n h => exec_csrRd_of_none (csrValue_unlisted s h)⟩
  · exact csrReads_word ((csrValue_indexed (by omega)).trans (indexedCsr_runLength s.sg g.isLt))
  · exact csrReads_word ((csrValue_indexed (by omega)).trans (indexedCsr_topLeft s.sg g.isLt))
  · exact csrReads_word ((csrValue_indexed (by omega)).trans (indexedCsr_bottomRight s.sg g.isLt))
  · obtain ⟨y, hy⟩ := csrValue_listed s h
    exact ⟨y.toNat, csrReads_word hy⟩

namespace Sys2Proof.Machine

/-! The derived registers (10_state.md R43). -/

theorem toNat_eq_ite {b : Bool} {p : Prop} [Decidable p] (h : b = true ↔ p) : b.toNat = if p then 1 else 0 := by
  cases b
  · exact (if_neg fun hp => Bool.noConfusion (h.2 hp)).symm
  · exact (if_pos (h.1 rfl)).symm

theorem toNat_eq_one {b : Bool} : b.toNat = 1 ↔ b = true := by cases b <;> decide

theorem Geometry.valid_iff (g : Geometry) : g.valid = true ↔ 1 ≤ g.width ∧ 1 ≤ g.heightMapUnits ∧
    ¬(g.frameMbsOnly.toNat = 1 ∧ (g.fieldPic.toNat = 1 ∨ g.mbaffEnable.toNat = 1)) := by
  simp only [toNat_eq_one, Geometry.valid, Bool.and_eq_true, decide_eq_true_eq, and_assoc, Bool.not_eq_true',
    ← Bool.not_eq_true, Bool.or_eq_true]

theorem Geometry.mbaffFrame_iff (g : Geometry) :
    g.mbaffFrame = true ↔ g.mbaffEnable.toNat = 1 ∧ g.fieldPic.toNat = 0 := by
  cases hm : g.mbaffEnable <;> cases hf : g.fieldPic <;> simp [Geometry.mbaffFrame, hm, hf]

theorem Geometry.mbWidthC_eq (g : Geometry) :
    g.mbWidthC = if g.cat = 0 then 0 else if g.cat = 3 then 16 else 8 := by
  have hcat : g.cat < 4 := g.chromaArrayType.isLt
  unfold Geometry.mbWidthC
  interval_cases g.cat <;> rfl

theorem Geometry.mbHeightC_eq (g : Geometry) :
    g.mbHeightC = if g.cat = 0 then 0 else if g.cat = 1 then 8 else 16 := by
  have hcat : g.cat < 4 := g.chromaArrayType.isLt
  unfold Geometry.mbHeightC
  interval_cases g.cat <;> rfl

theorem Geometry.frameHeightInMbs_lt (g : Geometry) : g.frameHeightInMbs < 2 ^ 17 := by
  have hh : g.heightMapUnits < 2 ^ 16 := g.picHeightMapUnits.isLt
  have := Nat.mul_le_mul_right g.heightMapUnits (Nat.sub_le 2 g.frameMbsOnly.toNat)
  unfold Geometry.frameHeightInMbs
  omega

theorem Geometry.picSizeInMapUnits_lt (g : Geometry) : g.picSizeInMapUnits < 2 ^ 32 :=
  calc g.width * g.heightMapUnits
    _ < 2 ^ 16 * 2 ^ 16 := Nat.mul_lt_mul'' g.picWidthMbs.isLt g.picHeightMapUnits.isLt
    _ = 2 ^ 32 := by decide

end Sys2Proof.Machine

/-- Settles O15: the register map computes the derived registers from the present inputs, and each fits 32 bits. -/
theorem derivedCsrValues : Obligations.DerivedCsrValues := by
  rintro s _ _ _ _ _ _ _ _ rfl rfl rfl rfl rfl rfl rfl rfl
  have hwidth : s.geom.width < 2 ^ 16 := s.geom.picWidthMbs.isLt
  have hframe := s.geom.frameHeightInMbs_lt
  have hunits := s.geom.picSizeInMapUnits_lt
  have hpic : s.geom.picHeightInMbs ≤ s.geom.frameHeightInMbs := Nat.div_le_self _ _
  have hwidthC := s.geom.mbWidthC_eq
  have hheightC := s.geom.mbHeightC_eq
  refine ⟨?_, ?_, csrReads_nat rfl (hframe.trans (by decide)), csrReads_nat rfl (hpic.trans_lt (hframe.trans (by decide))),
    fun hsize => csrReads_nat (congrArg some (if_pos hsize)) hsize, csrReads_nat rfl hunits,
    csrReads_nat rfl (show s.geom.width * 16 < 2 ^ 32 by omega),
    csrReads_nat rfl (show s.geom.frameHeightInMbs * 16 < 2 ^ 32 by omega), ?_, ?_,
    csrReads_nat rfl (Nat.mod_lt _ (by decide)), csrReads_nat rfl ((Nat.min_le_right _ _).trans_lt hunits)⟩
  · exact toNat_eq_ite s.geom.valid_iff ▸ csrReads_bool rfl
  · exact toNat_eq_ite s.geom.mbaffFrame_iff ▸ csrReads_bool rfl
  · exact csrReads_nat (congrArg (some <| natWord ·) hwidthC) (by split <;> [decide; split <;> decide])
  · exact csrReads_nat (congrArg (some <| natWord ·) hheightC) (by split <;> [decide; split <;> decide])

namespace Sys2Proof.Machine

/-! CSR_WR (40_control.md R143). The RW registers, read from the geometry and from the slice-group state. -/

/-- The RW registers 0x020 to 0x026. -/
def Geometry.rwCsr (g : Geometry) : Nat → Option Word
  | 0x020 => some (natWord g.width)
  | 0x021 => some (natWord g.heightMapUnits)
  | 0x022 => some (boolWord g.frameMbsOnly)
  | 0x023 => some (boolWord g.mbaffEnable)
  | 0x024 => some (boolWord g.fieldPic)
  | 0x025 => some (natWord g.cat)
  | 0x026 => some (boolWord g.cipDp)
  | _ => none

/-- The RW registers from 0x040 on. -/
def SliceGroups.rwCsr (sg : SliceGroups) : Nat → Option Word
  | 0x040 => some (natWord sg.numMinus1.toNat)
  | 0x041 => some (natWord sg.mapType.val)
  | 0x042 => some (boolWord sg.changeDir)
  | 0x043 => some sg.changeRateMinus1
  | 0x044 => some sg.changeCycle
  | n => sg.indexedCsr n

theorem csrValue_geometry (s : State) {n : Nat} (h : 0x020 ≤ n ∧ n ≤ 0x026) : s.csrValue n = s.geom.rwCsr n := by
  obtain ⟨hlo, hhi⟩ := h
  interval_cases n
  all_goals rfl

theorem csrValue_sliceGroups (s : State) {n : Nat} (h : 0x040 ≤ n ∧ n ≤ 0x044 ∨ 0x050 ≤ n) :
    s.csrValue n = s.sg.rwCsr n := by
  obtain ⟨hlo, hhi⟩ | hlo := h
  · interval_cases n
    all_goals rfl
  · rw [csrValue_indexed hlo]
    unfold SliceGroups.rwCsr
    split
    case h_6 => rfl
    all_goals omega

/-- 1 is legal for every RW register and for no other number. -/
theorem csrLegal_one {n : Nat} (h : csrLegal n 1 = true) :
    (0x020 ≤ n ∧ n ≤ 0x026) ∨ (0x040 ≤ n ∧ n ≤ 0x044) ∨ (0x050 ≤ n ∧ n ≤ 0x067) := by
  simp only [csrLegal, Bool.or_eq_true, Bool.and_eq_true, beq_iff_eq, decide_eq_true_eq] at h
  omega

theorem Geometry.writeCsr_isSome (g : Geometry) (n : Nat) (v : Word) :
    (g.writeCsr n v).isSome = true ↔ (0x020 ≤ n ∧ n ≤ 0x026) ∧ csrLegal n v.toNat = true := by
  unfold Geometry.writeCsr
  simp only
  split
  case h_8 =>
    refine ⟨fun h => Bool.noConfusion h, fun ⟨⟨hlo, hhi⟩, _⟩ => ?_⟩
    simp only [imp_false] at *
    omega
  all_goals simp [csrLegal]

theorem SliceGroups.writeCsr_isSome (sg : SliceGroups) (n : Nat) (v : Word) :
    (sg.writeCsr n v).isSome = true ↔ 0x040 ≤ n ∧ csrLegal n v.toNat = true := by
  unfold SliceGroups.writeCsr
  simp only
  split
  case h_6 =>
    simp only [imp_false] at *
    simp only [csrLegal, Bool.or_eq_true, Bool.and_eq_true, beq_iff_eq, decide_eq_true_eq]
    repeat' split
    all_goals simp only [Option.isSome_some, Option.isSome_none, Bool.false_eq_true, true_iff, false_iff]
    all_goals omega
  all_goals simp [csrLegal, Nat.lt_succ_iff]

/-- A geometry register reads the value written to it. -/
theorem Geometry.rwCsr_written {g g' : Geometry} {n : Nat} {v : Word} (h : g.writeCsr n v = some g') :
    g'.rwCsr n = some v := by
  unfold Geometry.writeCsr at h
  simp only at h
  split at h
  case h_8 => cases h
  case h_1 | h_2 | h_6 =>
    split at h
    · obtain rfl := Option.some.inj h
      exact congrArg some (natWord_ofNat_toNat (by omega))
    · cases h
  all_goals
    split at h
    · next hv =>
      obtain rfl := Option.some.inj h
      exact congrArg some (boolWord_eq_of_le_one hv)
    · cases h

/-- Every other geometry register keeps its value. -/
theorem Geometry.rwCsr_other {g g' : Geometry} {n m : Nat} {v : Word} (h : g.writeCsr n v = some g') (hne : m ≠ n) :
    g'.rwCsr m = g.rwCsr m := by
  unfold Geometry.writeCsr at h
  simp only at h
  repeat' split at h
  all_goals cases h
  all_goals
    unfold Geometry.rwCsr
    split
    all_goals first | rfl | exact absurd rfl hne

theorem SliceGroups.rwCsr_indexed (sg : SliceGroups) {n : Nat} (h : 0x050 ≤ n) : sg.rwCsr n = sg.indexedCsr n := by
  unfold SliceGroups.rwCsr
  split
  case h_6 => rfl
  all_goals omega

/-- A slice-group register reads the value written to it. -/
theorem SliceGroups.rwCsr_written {sg sg' : SliceGroups} {n : Nat} {v : Word} (h : sg.writeCsr n v = some sg') :
    sg'.rwCsr n = some v := by
  unfold SliceGroups.writeCsr at h
  simp only at h
  split at h
  case h_6 =>
    repeat' split at h
    all_goals cases h
    all_goals
      rw [SliceGroups.rwCsr_indexed _ (by omega)]
      unfold SliceGroups.indexedCsr
      simp (disch := omega) only [if_pos, if_neg]
      exact Vector.getElem?_setIfInBounds_self_of_lt (by omega)
  case h_4 | h_5 =>
    cases h
    rfl
  case h_1 =>
    split at h
    · obtain rfl := Option.some.inj h
      exact congrArg some (natWord_ofNat_toNat (by omega))
    · cases h
  case h_2 =>
    split at h
    · obtain rfl := Option.some.inj h
      exact congrArg some (BitVec.eq_of_toNat_eq (natWord_toNat v.isLt))
    · cases h
  case h_3 =>
    split at h
    · next hv =>
      obtain rfl := Option.some.inj h
      exact congrArg some (boolWord_eq_of_le_one hv)
    · cases h

/-- Every other slice-group register keeps its value. -/
theorem SliceGroups.rwCsr_other {sg sg' : SliceGroups} {n m : Nat} {v : Word} (h : sg.writeCsr n v = some sg')
    (hne : m ≠ n) : sg'.rwCsr m = sg.rwCsr m := by
  unfold SliceGroups.writeCsr at h
  simp only at h
  split at h
  case h_6 =>
    repeat' split at h
    all_goals cases h
    all_goals
      unfold SliceGroups.rwCsr
      split
      case h_6 =>
        unfold SliceGroups.indexedCsr
        simp only
        repeat' split
        all_goals first | rfl | exact Vector.getElem?_setIfInBounds_ne (by omega)
      all_goals rfl
  all_goals
    repeat' split at h
    all_goals cases h
    all_goals
      unfold SliceGroups.rwCsr
      split
      all_goals first | rfl | exact absurd rfl hne

/-- No RW register shows the map's validity. -/
theorem SliceGroups.rwCsr_mapValid (sg : SliceGroups) (b : Bool) (n : Nat) :
    { sg with mapValid := b }.rwCsr n = sg.rwCsr n := by
  unfold SliceGroups.rwCsr
  split <;> rfl

theorem csrWrite_of_geometry {s : State} {n : Nat} {v : Word} {g : Geometry} (h : s.geom.writeCsr n v = some g) :
    s.csrWrite n v = .ok ({ s with geom := g }.clearMbTable.clearMapValid) := by
  simp [State.csrWrite, h]

theorem csrWrite_of_sliceGroups {s : State} {n : Nat} {v : Word} {sg : SliceGroups}
    (hg : s.geom.writeCsr n v = none) (h : s.sg.writeCsr n v = some sg) :
    s.csrWrite n v = .ok ({ s with sg := sg }.clearMapValid) := by
  simp [State.csrWrite, hg, h]

theorem csrWrite_illegal {s : State} {n : Nat} {v : Word} (h : csrLegal n v.toNat = false) :
    s.csrWrite n v = .error .einval := by
  have hg : s.geom.writeCsr n v = none := by
    rw [← Option.not_isSome_iff_eq_none, Geometry.writeCsr_isSome, h]
    simp
  have hsg : s.sg.writeCsr n v = none := by
    rw [← Option.not_isSome_iff_eq_none, SliceGroups.writeCsr_isSome, h]
    simp
  simp [State.csrWrite, hg, hsg]

/-- What CSR_RD gives of a register whose value two states share. -/
theorem csrReads_congr {s t : State} {m v : Nat} (h : t.csrValue m = s.csrValue m) (hr : s.CsrReads m v) :
    t.CsrReads m v := csrReads_iff.2 (h ▸ csrReads_iff.1 hr)

/-- The RW registers are a function of the geometry and the slice-group state. -/
theorem csrValue_rw (s : State) {m : Nat} (h : csrLegal m 1 = true) :
    s.csrValue m = if m < 0x040 then s.geom.rwCsr m else s.sg.rwCsr m := by
  obtain hgeom | hsg | hsg := csrLegal_one h
  · rw [if_pos (by omega), csrValue_geometry s hgeom]
  · rw [if_neg (by omega), csrValue_sliceGroups s (.inl hsg)]
  · rw [if_neg (by omega), csrValue_sliceGroups s (.inr hsg.1)]

/-- A legal value's register is RW. -/
theorem csrLegal_one_of_legal {n v : Nat} (h : csrLegal n v = true) : csrLegal n 1 = true := by
  simp only [csrLegal, Bool.or_eq_true, Bool.and_eq_true, beq_iff_eq, decide_eq_true_eq] at h ⊢
  omega

end Sys2Proof.Machine

/-- Settles O16: the RW registers are read from the geometry and the slice-group state, of which a legal write changes
one field. -/
theorem csrWriteEffect : Obligations.CsrWriteEffect := by
  intro n s hf
  refine ⟨fun hlegal => ?_, fun hillegal => exec_error Instr.noConfusion hf (csrWrite_illegal hillegal)⟩
  have hrw := csrLegal_one_of_legal hlegal
  by_cases hn : 0x020 ≤ n ∧ n ≤ 0x026
  · obtain ⟨g, hg⟩ := Option.isSome_iff_exists.1 ((s.geom.writeCsr_isSome n s.a0).2 ⟨hn, hlegal⟩)
    refine ⟨_, exec_ok Instr.noConfusion hf (csrWrite_of_geometry hg), rfl, csrReads_word ?_,
      fun m v hm hne hr => csrReads_congr ?_ hr, rfl, rfl, rfl, rfl, by rw [if_pos hn]; exact ⟨rfl, rfl⟩⟩
    · rw [csrValue_geometry _ hn]
      exact Geometry.rwCsr_written hg
    · rw [csrValue_rw _ hm, csrValue_rw s hm]
      exact congrArg (fun x => if m < 0x040 then x else s.sg.rwCsr m) (Geometry.rwCsr_other hg hne)
  · have hnone : s.geom.writeCsr n s.a0 = none := by
      rw [← Option.not_isSome_iff_eq_none, Geometry.writeCsr_isSome]
      exact fun h => hn h.1
    have hlo : ¬ n < 0x040 := by
      have := csrLegal_one hrw
      omega
    obtain ⟨sg, hsg⟩ := Option.isSome_iff_exists.1 ((s.sg.writeCsr_isSome n s.a0).2 ⟨by omega, hlegal⟩)
    obtain ⟨hsgid, hunits, hgroups⟩ := SliceGroups.writeCsr_keeps hsg
    refine ⟨_, exec_ok Instr.noConfusion hf (csrWrite_of_sliceGroups hnone hsg), rfl, csrReads_word ?_,
      fun m v hm hne hr => csrReads_congr ?_ hr, rfl, hsgid, hunits, hgroups, by rw [if_neg hn]; exact ⟨rfl, rfl⟩⟩
    · rw [csrValue_rw _ hrw, if_neg hlo]
      exact (SliceGroups.rwCsr_mapValid sg false n).trans (SliceGroups.rwCsr_written hsg)
    · rw [csrValue_rw _ hm, csrValue_rw s hm]
      exact congrArg (fun x => if m < 0x040 then s.geom.rwCsr m else x)
        ((SliceGroups.rwCsr_mapValid sg false m).trans (SliceGroups.rwCsr_other hsg hne))

end

