-- ==== Sys2Proof/Proofs/HostActions.lean ====
section
/-!
The host's own actions (10_state.md R31, R33, R37; 20_memory.md R84, R92).
-/

namespace Sys2Proof.Machine

section
variable {s : State} {rest : List HostAction}

theorem step_idle (h : s.port = []) : step s = .next s := by
  rw [step, nextAction, h]

theorem step_takes {x : HostAction} (h : s.port = x :: rest) : step s = takeAction x { s with port := rest } := by
  rw [step, nextAction, h]

theorem step_setA {i : Fin 4} {v : Word} (h : s.port = .setA i v :: rest) :
    step s = .next ({ s with port := rest }.setA i v) := step_takes h

end

section
variable {s : State} {a : Nat} (b : Byte)

theorem hostWriteRaw_inside (h : a < 4096) :
    hostWriteRaw a b s = .next { s with raw := Memory.write s.raw a b } := if_pos h

theorem hostWriteRaw_outside (h : 4096 ≤ a) : hostWriteRaw a b s = .fault .noSuchAddress := if_neg h.not_gt

theorem hostWriteBuf_inside (hm : s.cur.mode = .idle) (h : a < s.params.maxBufBytes.toNat) :
    hostWriteBuf a b s = .next { s with buf := Memory.write s.buf a b } :=
  (if_neg (not_not_intro hm)).trans (if_pos h)

theorem hostWriteBuf_outside (hm : s.cur.mode = .idle) (h : s.params.maxBufBytes.toNat ≤ a) :
    hostWriteBuf a b s = .fault .noSuchAddress := (if_neg (not_not_intro hm)).trans (if_neg h.not_gt)

theorem hostWriteBuf_inStream (hm : s.cur.mode ≠ .idle) : hostWriteBuf a b s = .refused .hostWriteInStream := if_pos hm

end

section
variable (s : State) (i : Fin 16) (v : Word)

theorem coefAt_set_same : State.coefAt { s with coef := s.coef.set i v } i = v := by
  simp [State.coefAt]

theorem coefAt_set_other {j : Nat} (h : j ≠ i.val) : State.coefAt { s with coef := s.coef.set i v } j = s.coefAt j := by
  simp [State.coefAt, Vector.getElem?_set_ne i.isLt h.symm]

end

end Sys2Proof.Machine

open Sys2Proof Sys2Proof.Machine

/-- Settles O6: the step takes the oldest pending action, and a write to COEF, RAWBUF or BUF is read back at its own
place only. -/
theorem hostActionsWriteWhatTheyName : Obligations.HostActionsWriteWhatTheyName := by
  intro s rest
  refine ⟨step_idle, fun v => step_setA, fun v => step_setA, fun v => step_setA, fun v => step_setA,
    fun i v h => ⟨_, step_takes h, rfl, coefAt_set_same s i v, fun j => coefAt_set_other s i v⟩,
    fun a b h ha => ⟨_, (step_takes h).trans (hostWriteRaw_inside b ha), rfl, Memory.read_write_same .., fun c =>
      Memory.read_write_other _ _ b a c⟩,
    fun a b h ha => (step_takes h).trans (hostWriteRaw_outside b ha),
    fun a b h hm ha => ⟨_, (step_takes h).trans (hostWriteBuf_inside b hm ha), rfl, Memory.read_write_same .., fun c =>
      Memory.read_write_other _ _ b a c⟩,
    fun a b h hm ha => (step_takes h).trans (hostWriteBuf_outside b hm ha),
    fun a b h hm => (step_takes h).trans (hostWriteBuf_inStream b hm)⟩

end

