-- ==== Sys2Proof/Proofs/CommandPort.lean ====
section
/-!
Issuing a command word at the host port (20_memory.md R88, R90; 40_control.md R144).
-/

namespace Sys2Proof.Machine

theorem issueWord_of_decode {w : Word} {i : Instr} (s : State) (h : decode w = .ok i) : issueWord w s = exec i s := by
  rw [issueWord, h]

end Sys2Proof.Machine

open Sys2Proof Sys2Proof.Machine

/-- Settles O5: the step takes the word off the port and issues it, and issuing a decoded word executes its command. -/
theorem stepRunsDecodedCommand : Obligations.StepRunsDecodedCommand := by
  intro s w rest i hport hdecode
  calc step s = issueWord w { s with port := rest } := step_takes hport
    _ = exec i { s with port := rest } := issueWord_of_decode _ hdecode

end

