-- ==== Sys2Proof/Proofs/Encoding.lean ====
section
/-!
The decoder and the encoder agree, word for word (30_encoding.md R100 to R103), and a word outside the opcode map fails
(30_encoding.md R105; 40_control.md R144).
-/

namespace Sys2Proof.Machine

theorem bitAt_toNat (v i : Nat) : (bitAt v i).toNat = v / 2 ^ i % 2 := by
  obtain h | h := Nat.mod_two_eq_zero_or_one (v / 2 ^ i) <;> simp [bitAt, h]

/-- A word is the word of its own three fields (30_encoding.md R100). -/
theorem wordOf_own_fields (w : Word) : wordOf (wordOpc w) (wordF8 w) (wordF16 w) = w := by
  apply BitVec.eq_of_toNat_eq
  have := w.isLt
  simp only [wordOf, wordOpc, wordF8, wordF16, BitVec.toNat_ofNat]
  omega

theorem zero_of_mbz_eq_ok {opc : Nat} {zero : Bool} {i j : Instr} (h : mbz opc zero i = .ok j) : zero = true := by
  unfold mbz at h
  split at h
  · assumption
  · cases h

/-- A command is decoded only from its own three fields: the operands give back F8 and F16, whose other bits the
must-be-zero check has found 0 (30_encoding.md R101, R103). -/
theorem fields_of_decodeFields {opc f8 f16 : Nat} {i : Instr} (h8 : f8 < 256) (h16 : f16 < 65536)
    (h : decodeFields opc f8 f16 = .ok i) : i.opcode = opc ∧ i.f8 = f8 ∧ i.f16 = f16 := by
  unfold decodeFields at h
  split at h
  case h_20 | h_44 =>
    obtain rfl := Except.ok.inj h
    exact ⟨rfl, rfl, rfl⟩
  case h_61 => cases h
  all_goals
    have hzero := zero_of_mbz_eq_ok h
    obtain rfl := mbz_eq_ok h
    simp only [Bool.and_eq_true, beq_iff_eq, bitField] at hzero
    simp only [Instr.opcode, Instr.f8, Instr.f16, bitAt_toNat, bitField, true_and, and_true]
    omega

/-- The round trip of each command, by its own law (30_encoding.md R101). -/
theorem roundTrip : ∀ i : Instr, Laws.RoundTrip.Statement i
  | .nop => Laws.RoundTrip.nop
  | .reset => Laws.RoundTrip.reset
  | .csrRd csr => Laws.RoundTrip.csrRd csr
  | .csrWr csr => Laws.RoundTrip.csrWr csr
  | .bcInit mode ep grow => Laws.RoundTrip.bcInit mode ep grow
  | .bcRdu n => Laws.RoundTrip.bcRdu n
  | .bcRds n => Laws.RoundTrip.bcRds n
  | .bcWru n => Laws.RoundTrip.bcWru n
  | .bcWrs n => Laws.RoundTrip.bcWrs n
  | .bcAligned => Laws.RoundTrip.bcAligned
  | .bcMore => Laws.RoundTrip.bcMore
  | .bcRdbytes => Laws.RoundTrip.bcRdbytes
  | .bcWrbytes => Laws.RoundTrip.bcWrbytes
  | .egRdue => Laws.RoundTrip.egRdue
  | .egWrue => Laws.RoundTrip.egWrue
  | .egRdse => Laws.RoundTrip.egRdse
  | .egWrse => Laws.RoundTrip.egWrse
  | .egRdte => Laws.RoundTrip.egRdte
  | .egWrte => Laws.RoundTrip.egWrte
  | .cvNc blkKind blkIdx => Laws.RoundTrip.cvNc blkKind blkIdx
  | .cvRdtoken => Laws.RoundTrip.cvRdtoken
  | .cvWrtoken => Laws.RoundTrip.cvWrtoken
  | .cvRdlevel => Laws.RoundTrip.cvRdlevel
  | .cvWrlevel => Laws.RoundTrip.cvWrlevel
  | .cvRdtz => Laws.RoundTrip.cvRdtz
  | .cvWrtz => Laws.RoundTrip.cvWrtz
  | .cvRdrun => Laws.RoundTrip.cvRdrun
  | .cvWrrun => Laws.RoundTrip.cvWrrun
  | .cvRdres blkKind store ncx blkIdx => Laws.RoundTrip.cvRdres blkKind store ncx blkIdx
  | .cvWrres blkKind store ncx blkIdx => Laws.RoundTrip.cvWrres blkKind store ncx blkIdx
  | .cvRdcbp intra => Laws.RoundTrip.cvRdcbp intra
  | .cvWrcbp intra => Laws.RoundTrip.cvWrcbp intra
  | .cbCtxinit tableSel => Laws.RoundTrip.cbCtxinit tableSel
  | .cbCtxset ctxIdx => Laws.RoundTrip.cbCtxset ctxIdx
  | .cbCtxget ctxIdx => Laws.RoundTrip.cbCtxget ctxIdx
  | .cbEinit => Laws.RoundTrip.cbEinit
  | .cbEdec ctxIdx => Laws.RoundTrip.cbEdec ctxIdx
  | .cbEbyp => Laws.RoundTrip.cbEbyp
  | .cbEterm => Laws.RoundTrip.cbEterm
  | .cbDinit => Laws.RoundTrip.cbDinit
  | .cbDdec ctxIdx => Laws.RoundTrip.cbDdec ctxIdx
  | .cbDbyp => Laws.RoundTrip.cbDbyp
  | .cbDterm => Laws.RoundTrip.cbDterm
  | .cbDbin f8 f16 => Laws.RoundTrip.cbDbin f8 f16
  | .bnU => Laws.RoundTrip.bnU
  | .bnTu => Laws.RoundTrip.bnTu
  | .bnFl => Laws.RoundTrip.bnFl
  | .bnUegk k signed => Laws.RoundTrip.bnUegk k signed
  | .bnEnc ctxIdx => Laws.RoundTrip.bnEnc ctxIdx
  | .mbSlice => Laws.RoundTrip.mbSlice
  | .mbBegin => Laws.RoundTrip.mbBegin
  | .mbSetnz comp size8 blkIdx => Laws.RoundTrip.mbSetnz comp size8 blkIdx
  | .mbGet => Laws.RoundTrip.mbGet
  | .mbNbmb dir => Laws.RoundTrip.mbNbmb dir
  | .mbNbloc chroma => Laws.RoundTrip.mbNbloc chroma
  | .mbNbblk dir kind blkIdx => Laws.RoundTrip.mbNbblk dir kind blkIdx
  | .sgIdwr => Laws.RoundTrip.sgIdwr
  | .sgGen => Laws.RoundTrip.sgGen
  | .sgMbgrp => Laws.RoundTrip.sgMbgrp
  | .sgNext => Laws.RoundTrip.sgNext

theorem decode_encode {i : Instr} (h : i.wellFormed = true) : decode (encode i) = .ok i := roundTrip i h

theorem fields_of_decode {w : Word} {i : Instr} (h : decode w = .ok i) :
    i.opcode = wordOpc w ∧ i.f8 = wordF8 w ∧ i.f16 = wordF16 w :=
  fields_of_decodeFields (Nat.mod_lt _ (by decide)) (Nat.mod_lt _ (by decide)) h

theorem encode_of_decode {w : Word} {i : Instr} (h : decode w = .ok i) : encode i = w := by
  obtain ⟨hopc, hf8, hf16⟩ := fields_of_decode h
  rw [encode, hopc, hf8, hf16, wordOf_own_fields]

theorem decode_rejects_of_no_command {w : Word} (h : ∀ i : Instr, i.wellFormed = true → encode i ≠ w) :
    ∃ r, decode w = .error r := by
  cases hdecode : decode w with
  | ok i => exact absurd (encode_of_decode hdecode) (h i (decode_wellFormed hdecode))
  | error r => exact ⟨r, rfl⟩

theorem issueWord_of_reject {w : Word} {r : Reject} (s : State) (h : decode w = .error r) :
    issueWord w s = rejectWord (wordOpc w) s := by
  rw [issueWord, h]

theorem rejectWord_eq_next (opc : Nat) (s : State) : rejectWord opc s =
    .next (if s.status.fault = true ∧ 3 ≤ opc then s.complete .efaulted else s.failWith .eillegal opc) :=
  (apply_ite Host.Outcome.next ..).symm

end Sys2Proof.Machine

open Sys2Proof Sys2Proof.Machine

/-- Settles O1: the round trip holds of each command's fields. -/
theorem decodeOfEncode : Obligations.DecodeOfEncode := fun _ => decode_encode

/-- Settles O2: the decoder bounds every operand by its field, and the operands give the word's fields back. -/
theorem encodeOfDecode : Obligations.EncodeOfDecode := fun _ _ h => ⟨decode_wellFormed h, encode_of_decode h⟩

/-- Settles O4: a word that decodes would be the word of a well-formed command, so the decoder rejects it. -/
theorem wordsOutsideTheMapFail : Obligations.WordsOutsideTheMapFail := by
  intro w s hnone
  obtain ⟨r, hreject⟩ := decode_rejects_of_no_command hnone
  calc issueWord w s = rejectWord (wordOpc w) s := issueWord_of_reject s hreject
    _ = _ := rejectWord_eq_next (wordOpc w) s

/-- Settles O3: each word is its command's own word, so the round trip decodes it. -/
theorem commandWordsDecode : Obligations.CommandWordsDecode :=
  ⟨decode_encode (i := .nop) rfl, decode_encode (i := .csrWr 0x020) rfl, decode_encode (i := .bcInit 1 true false) rfl,
    decode_encode (i := .bcInit 2 false true) rfl, decode_encode (i := .bcRdu 24) rfl,
    decode_encode (i := .egRdte) rfl, decode_encode (i := .cvWrres 0 false true 0) rfl,
    decode_encode (i := .cvWrcbp true) rfl, decode_encode (i := .cbCtxset 5) rfl,
    decode_encode (i := .cbDbin 0 0) rfl, decode_encode (i := .bnEnc 0xFFFF) rfl,
    decode_encode (i := .mbSetnz 1 false 5) rfl, decode_encode (i := .sgGen) rfl⟩

end

