-- ==== Sys2Proof/Proofs/Fault.lean ====
section
/-!
The FAULT discipline and NOP (40_control.md R140, R141, R144; 60_exceptions.md R400, R401, R405).
-/

namespace Sys2Proof.Machine

/-- From `st` to `st'` a failure stays recorded: FAULT = 1 is kept, and FAILOP with it (60_exceptions.md R400, R405). -/
def Status.KeepsFault (st st' : Status) : Prop := st.fault = true → st'.fault = true ∧ st'.failop = st.failop

theorem Status.KeepsFault.refl (st : Status) : st.KeepsFault st := fun hf => ⟨hf, rfl⟩

theorem Status.complete_keepsFault (c : Code) (st : Status) : st.KeepsFault (st.complete c) := fun hf => ⟨hf, rfl⟩

theorem Status.failWith_keepsFault (e : Code) (opc : Nat) (st : Status) : st.KeepsFault (st.failWith e opc) :=
  fun hf => ⟨rfl, if_pos hf⟩

theorem runsFaulted_eq_false {i : Instr} (hnop : i ≠ .nop) (hreset : i ≠ .reset) (hrd : ∀ n, i ≠ .csrRd n) :
    runsFaulted i = false := by
  cases i with
  | nop => exact absurd rfl hnop
  | reset => exact absurd rfl hreset
  | csrRd n => exact absurd rfl (hrd n)
  | _ => rfl

/-- No command but RESET clears FAULT or changes FAILOP while FAULT = 1. -/
theorem exec_keepsFault {i : Instr} {s t : State} (hi : i ≠ .reset) (h : exec i s = .next t) :
    s.status.KeepsFault t.status := by
  obtain ⟨-, -, rfl⟩ | ⟨u, hu, rfl⟩ | ⟨e, -, rfl⟩ := exec_cases hi h
  · exact Status.complete_keepsFault _ _
  · rw [← (ruleOf_writesOnly i s u hu).status]
    exact Status.complete_keepsFault _ _
  · exact Status.failWith_keepsFault _ _ _

theorem rejectWord_keepsFault {opc : Nat} {s t : State} (h : rejectWord opc s = .next t) :
    s.status.KeepsFault t.status := by
  obtain rfl := Host.Outcome.next.inj ((rejectWord_eq_next opc s).symm.trans h)
  split
  · exact Status.complete_keepsFault _ _
  · exact Status.failWith_keepsFault _ _ _

/-- RESET has one word (30_encoding.md R101). -/
theorem eq_of_decode_reset {w : Word} (h : decode w = .ok .reset) : w = 0x01000000 := (encode_of_decode h).symm

theorem issueWord_keepsFault {w : Word} {s t : State} (hw : w ≠ 0x01000000) (h : issueWord w s = .next t) :
    s.status.KeepsFault t.status := by
  cases hd : decode w with
  | ok i =>
    have hi : i ≠ .reset := fun hi => hw (eq_of_decode_reset (hi ▸ hd))
    exact exec_keepsFault hi ((issueWord_of_decode s hd).symm.trans h)
  | error r => exact rejectWord_keepsFault ((issueWord_of_reject s hd).symm.trans h)

theorem hostWriteBuf_status {a : Nat} {b : Byte} {s t : State} (h : hostWriteBuf a b s = .next t) :
    t.status = s.status := by
  unfold hostWriteBuf at h
  split_ifs at h
  obtain rfl := Host.Outcome.next.inj h
  rfl

theorem hostWriteRaw_status {a : Nat} {b : Byte} {s t : State} (h : hostWriteRaw a b s = .next t) :
    t.status = s.status := by
  unfold hostWriteRaw at h
  split_ifs at h
  obtain rfl := Host.Outcome.next.inj h
  rfl

@[simp] theorem State.setA_status (s : State) (i : Fin 4) (v : Word) : (s.setA i v).status = s.status := by
  unfold State.setA
  split <;> rfl

/-- Every host action but the RESET word keeps a recorded failure; those that are no command do not write STATUS. -/
theorem takeAction_keepsFault {x : HostAction} {s t : State} (hx : x ≠ .command 0x01000000)
    (h : takeAction x s = .next t) : s.status.KeepsFault t.status := by
  cases x with
  | command w => exact issueWord_keepsFault (fun hw => hx (congrArg _ hw)) h
  | setA i v =>
    obtain rfl := Host.Outcome.next.inj h
    rw [State.setA_status]
    exact .refl _
  | writeBuf a b =>
    rw [hostWriteBuf_status h]
    exact .refl _
  | writeRaw a b =>
    rw [hostWriteRaw_status h]
    exact .refl _
  | writeCoef i v =>
    obtain rfl := Host.Outcome.next.inj h
    exact .refl _

theorem step_keepsFault {s t : State} (hp : ∀ rest, s.port ≠ .command 0x01000000 :: rest) (h : step s = .next t) :
    s.status.KeepsFault t.status := by
  cases hport : s.port with
  | nil =>
    obtain rfl := Host.Outcome.next.inj ((step_idle hport).symm.trans h)
    exact .refl _
  | cons x rest =>
    have hx : x ≠ .command 0x01000000 := fun hx => hp rest (hx ▸ hport)
    exact takeAction_keepsFault (s := { s with port := rest }) hx ((step_takes hport).symm.trans h)

theorem step_reset {s : State} {rest : List HostAction} (h : s.port = .command 0x01000000 :: rest) :
    step s = .next { s with port := rest }.recover :=
  (step_takes h).trans (issueWord_of_decode _ (decode_encode (i := .reset) rfl))

theorem eq_nop_of_opcode_eq_zero {i : Instr} (h : i.opcode = 0) : i = .nop := by
  cases i with
  | nop => rfl
  | _ => cases h

end Sys2Proof.Machine

open Sys2Proof Sys2Proof.Machine

/-- Settles O8: no step but that of the RESET word loses a recorded failure, and after RESET FAULT is 0. -/
theorem faultDiscipline : Obligations.FaultDiscipline := by
  refine ⟨fun i s hnop hreset hrd hf => ?_, fun s t hf h => ?_⟩
  · rw [exec_eq_runCommand i s (runsFaulted_eq_false hnop hreset hrd)]
    exact runCommand_faulted hf
  · by_cases hp : ∃ rest, s.port = .command 0x01000000 :: rest
    · obtain ⟨rest, hport⟩ := hp
      obtain rfl := Host.Outcome.next.inj ((step_reset hport).symm.trans h)
      exact ⟨fun _ => ⟨rest, hport⟩, nofun⟩
    · obtain ⟨hfault, hfailop⟩ := step_keepsFault (not_exists.1 hp) h hf
      exact ⟨fun hf' => absurd (hfault.symm.trans hf') (by decide), fun _ => hfailop⟩

/-- Settles O10: NOP's rule is the identity, and a word of its opcode that decoded would be NOP's own word. -/
theorem nopRule : Obligations.NopRule := by
  refine ⟨rfl, exec_nop, fun w s hopc hw => ?_⟩
  have hnone : ∀ i : Instr, i.wellFormed = true → encode i ≠ w := by
    rintro i hi rfl
    obtain ⟨hopcode, -, -⟩ := fields_of_decode (decode_encode hi)
    obtain rfl := eq_nop_of_opcode_eq_zero (hopcode.trans hopc)
    exact hw rfl
  have hnext := wordsOutsideTheMapFail w s hnone
  rw [hopc] at hnext
  exact hnext.trans (congrArg Host.Outcome.next (if_neg fun h => absurd h.2 (by decide)))

end

