-- ==== Sys2Proof/Proofs/BitCursor.lean ====
section
/-!
The bit cursor: BC_INIT, fields read and written, BC_ALIGNED, BC_MORE, and the ESTATE check that comes before every
other one (41_bitcursor.md R160 to R170).
-/

namespace Sys2Proof.Machine

/-! BC_INIT (41_bitcursor.md R164). -/

section
variable {p : Params} {ep grow : Bool} {a : Word}

theorem bcInitOk_idle : bcInitOk p .idle ep grow a = true ↔ ep = false ∧ grow = false ∧ a = 0 := by
  simp [bcInitOk, and_assoc]

theorem bcInitOk_dec : bcInitOk p .dec ep grow a = true ↔
    grow = false ∧ 1 ≤ a.toNat ∧ a.toNat ≤ p.maxBufBytes.toNat := by
  simp [bcInitOk, and_assoc, BitVec.le_def]

theorem bcInitOk_enc : bcInitOk p .enc ep grow a = true ↔
    (grow = false ∧ a.toNat ≤ p.maxBufBytes.toNat) ∨ (grow = true ∧ a = 0) := by
  cases grow <;> simp [bcInitOk, BitVec.le_def]

/-- The operands BC_INIT takes (41_bitcursor.md R164). -/
def BcInitLegal (p : Params) (mode : Nat) (ep grow : Bool) (a : Word) : Prop :=
  (mode = 0 ∧ ep = false ∧ grow = false ∧ a = 0) ∨
    (mode = 1 ∧ grow = false ∧ 1 ≤ a.toNat ∧ a.toNat ≤ p.maxBufBytes.toNat) ∨
    (mode = 2 ∧ grow = false ∧ a.toNat ≤ p.maxBufBytes.toNat) ∨ (mode = 2 ∧ grow = true ∧ a = 0)

/-- BC_INIT's check passes for these operands. -/
theorem bcInitLegal_iff {mode : Nat} :
    BcInitLegal p mode ep grow a ↔ ∃ m, modeOfField mode = some m ∧ bcInitOk p m ep grow a = true := by
  match mode with
  | 0 => simp [BcInitLegal, modeOfField, bcInitOk_idle]
  | 1 => simp [BcInitLegal, modeOfField, bcInitOk_dec]
  | 2 => simp [BcInitLegal, modeOfField, bcInitOk_enc]
  | _ + 3 => simp [BcInitLegal, modeOfField]

/-- A growable buffer starts with A0 = 0, so that CAP is A0 in every mode. -/
theorem startCursor_cap {m : CursorMode} (h : bcInitOk p m ep grow a = true) : (startCursor m ep grow a).cap = a := by
  show (if m = .enc ∧ grow = true then 0 else a) = a
  split
  · next hc =>
    obtain ⟨rfl, rfl⟩ := hc
    obtain ⟨hg, -⟩ | ⟨-, ha⟩ := bcInitOk_enc.1 h
    · cases hg
    · exact ha.symm
  · rfl

theorem startCursor_eq {mode : Nat} {m : CursorMode} (hm : modeOfField mode = some m)
    (h : bcInitOk p m ep grow a = true) : startCursor m ep grow a =
      ⟨if mode = 0 then .idle else if mode = 1 then .dec else .enc, ep, grow, if mode = 1 then a else 0, a,
        0, 0, 0, 0, 0⟩ := by
  have hcap := startCursor_cap h
  match mode with
  | 0 | 1 | 2 =>
    obtain rfl := Option.some.inj hm
    exact congrArg (fun cap => { startCursor _ ep grow a with cap := cap }) hcap
  | _ + 3 => cases hm

end

section
variable {s : State} {ep grow : Bool}

theorem exec_bcInit {mode : Nat} {m : CursorMode} (hf : s.status.fault = false) (hm : modeOfField mode = some m)
    (h : bcInitOk s.params m ep grow s.a0 = true) :
    exec (.bcInit mode ep grow) s = .next (State.complete .ok { s with
      cur := startCursor m ep grow s.a0
      enc := { s.enc with active := false }
      dec := { s.dec with active := false } }) :=
  exec_ok nofun hf (by rw [ruleOf, ruleBcInit, hm]; simp only [require_pos _ h]; rfl)

theorem exec_bcInit_einval {mode : Nat} (hf : s.status.fault = false)
    (h : ∀ m, modeOfField mode = some m → bcInitOk s.params m ep grow s.a0 ≠ true) :
    exec (.bcInit mode ep grow) s = .next (s.failWith .einval 0x10) := by
  refine exec_error (i := .bcInit mode ep grow) nofun hf ?_
  rw [ruleOf, ruleBcInit]
  split
  · rfl
  · next m hm => rw [require_neg _ (h m hm), error_bind]

end

/-! The missing mode or engine (41_bitcursor.md R160, 60_exceptions.md R402). -/

/-- A rule whose first check fails is ESTATE, whatever follows. -/
theorem require_bind_estate {c : Prop} [Decidable c] {f : Unit → Except Code State} (h : ¬c) :
    (require c .estate >>= f) = .error .estate := by
  rw [require_neg _ h, error_bind]

section
variable {i : Instr} {s : State}

theorem ruleOf_of_not_dec (hi : needsDec i = true) (h : s.cur.mode ≠ .dec) : ruleOf i s = .error .estate := by
  cases i with
  | bcRdu | bcRds | bcMore | bcRdbytes | egRdue | egRdse | egRdte | cvRdtoken | cvRdlevel | cvRdtz | cvRdrun | cvRdres
  | cvRdcbp | cbDinit => exact require_bind_estate h
  | cbDdec | cbDbyp | cbDterm => exact require_bind_estate fun hc => h hc.1
  | _ => cases hi

theorem ruleOf_of_not_enc (hi : needsEnc i = true) (h : s.cur.mode ≠ .enc) : ruleOf i s = .error .estate := by
  cases i with
  | bcWru | bcWrs | bcWrbytes | egWrue | egWrse | egWrte | cvWrtoken | cvWrlevel | cvWrtz | cvWrrun | cvWrres | cvWrcbp
  | cbEinit => exact require_bind_estate h
  | cbEdec | cbEbyp | cbEterm | bnEnc => exact require_bind_estate fun hc => h hc.1
  | _ => cases hi

theorem ruleOf_of_not_eact (hi : needsEact i = true) (h : s.enc.active = false) : ruleOf i s = .error .estate := by
  cases i with
  | cbEdec | cbEbyp | cbEterm | bnEnc => exact require_bind_estate fun hc => Bool.false_ne_true (h.symm.trans hc.2)
  | _ => cases hi

theorem ruleOf_of_not_dact (hi : needsDact i = true) (h : s.dec.active = false) : ruleOf i s = .error .estate := by
  cases i with
  | cbDdec | cbDbyp | cbDterm => exact require_bind_estate fun hc => Bool.false_ne_true (h.symm.trans hc.2)
  | _ => cases hi

theorem ruleOf_bcAligned_idle (h : s.cur.mode = .idle) : ruleOf .bcAligned s = .error .estate :=
  require_bind_estate (not_not_intro h)

end

/-! Fields read (41_bitcursor.md R165, R166). -/

section
variable {s : State} {n : Nat}

theorem ruleBcRdu_eq (hm : s.cur.mode = .dec) (hn : n ≤ 32) : ruleBcRdu n s =
    readBits s.bufByte n s.cur >>= fun x => .ok { s with cur := x.2, y0 := natWord x.1 } := by
  rw [ruleBcRdu, require_pos _ hm, require_pos _ hn]
  rfl

theorem ruleBcRds_eq (hm : s.cur.mode = .dec) (hn : n ≤ 32) : ruleBcRds n s =
    readBits s.bufByte n s.cur >>= fun x => .ok { s with cur := x.2, y0 := intWord (signedField n x.1) } := by
  rw [ruleBcRds, require_pos _ hm, require_pos _ hn]
  rfl

theorem ruleBcRdu_long (hm : s.cur.mode = .dec) (hn : 32 < n) : ruleBcRdu n s = .error .einval := by
  rw [ruleBcRdu, require_pos _ hm, require_neg _ hn.not_ge]
  rfl

theorem ruleBcRds_long (hm : s.cur.mode = .dec) (hn : 32 < n) : ruleBcRds n s = .error .einval := by
  rw [ruleBcRds, require_pos _ hm, require_neg _ hn.not_ge]
  rfl

/-- A command whose rule reads a field of n bits and puts a function of it in Y0. -/
theorem exec_readBits {i : Instr} {y : Nat → Word} {bs r : List Bool} (hi : i ≠ .reset) (hf : s.status.fault = false)
    (hrule : ruleOf i s = readBits s.bufByte n s.cur >>= fun x => .ok { s with cur := x.2, y0 := y x.1 })
    (hn : bs.length = n) (h : s.remaining = bs ++ r) :
    ∃ c, exec i s = .next (State.complete .ok { s with cur := c, y0 := y (bitsNat bs) }) ∧
      Consumed s.bufByte s.cur c n r := by
  obtain ⟨c, hread, hcon⟩ := readBits_append hn h
  exact ⟨c, exec_ok hi hf (by rw [hrule, hread, ok_bind]), hcon⟩

theorem exec_bcRdu_short (hf : s.status.fault = false) (hm : s.cur.mode = .dec) (hn : n ≤ 32)
    (h : s.remaining.length < n) : exec (.bcRdu n) s = .next (s.failWith .eio 0x11) :=
  exec_error (i := .bcRdu n) nofun hf (by rw [ruleOf, ruleBcRdu_eq hm hn, readBits_short h, error_bind])

theorem exec_bcRds_short (hf : s.status.fault = false) (hm : s.cur.mode = .dec) (hn : n ≤ 32)
    (h : s.remaining.length < n) : exec (.bcRds n) s = .next (s.failWith .eio 0x12) :=
  exec_error (i := .bcRds n) nofun hf (by rw [ruleOf, ruleBcRds_eq hm hn, readBits_short h, error_bind])

end

/-! Fields written (41_bitcursor.md R167, R168). -/

section
variable {s : State} {n : Nat}

theorem ruleBcWru_eq (hm : s.cur.mode = .enc) (hn : n ≤ 32) (hv : s.a0.toNat < 2 ^ n) : ruleBcWru n s =
    putBits s.params (fieldBits s.a0.toNat n) s.stream >>= fun u => .ok (s.setStream u) := by
  rw [ruleBcWru, require_pos _ hm, require_pos _ hn, require_pos _ hv]
  rfl

theorem ruleBcWrs_eq (hm : s.cur.mode = .enc) (hn : n ≤ 32) (hv : fitsSigned n (sext32 s.a0) = true) :
    ruleBcWrs n s =
      putBits s.params (fieldBits (sext32 s.a0 % 2 ^ n).toNat n) s.stream >>= fun u => .ok (s.setStream u) := by
  rw [ruleBcWrs, require_pos _ hm, require_pos _ hn]
  simp only [require_pos _ hv]
  rfl

theorem ruleBcWru_einval (hm : s.cur.mode = .enc) (h : 32 < n ∨ 2 ^ n ≤ s.a0.toNat) :
    ruleBcWru n s = .error .einval := by
  rw [ruleBcWru, require_pos _ hm]
  by_cases hn : n ≤ 32
  · rw [require_pos _ hn, require_neg _ (h.resolve_left hn.not_gt).not_gt]
    rfl
  · rw [require_neg _ hn]
    rfl

/-- The values BC_WRS refuses (41_bitcursor.md R168). -/
theorem not_fitsSigned {w : Word} (h : (n = 0 ∧ w ≠ 0) ∨
    (1 ≤ n ∧ (w.toInt < -(2 ^ (n - 1)) ∨ 2 ^ (n - 1) ≤ w.toInt))) : fitsSigned n (sext32 w) ≠ true := by
  unfold fitsSigned sext32
  rcases h with ⟨rfl, hw⟩ | ⟨hn, hw⟩
  · simpa [← BitVec.toInt_inj] using hw
  · rw [if_neg (by omega), ne_eq, Bool.and_eq_true, decide_eq_true_eq, decide_eq_true_eq]
    omega

theorem ruleBcWrs_einval (hm : s.cur.mode = .enc) (h : 32 < n ∨ fitsSigned n (sext32 s.a0) ≠ true) :
    ruleBcWrs n s = .error .einval := by
  rw [ruleBcWrs, require_pos _ hm]
  by_cases hn : n ≤ 32
  · rw [require_pos _ hn]
    simp only [require_neg _ (h.resolve_left hn.not_gt)]
    rfl
  · rw [require_neg _ hn]
    rfl

end

/-! more_rbsp_data (41_bitcursor.md R170). -/

theorem all_not_iff_replicate {bs : List Bool} : bs.all (!·) = true ↔ bs = List.replicate bs.length false := by
  rw [List.eq_replicate_iff]
  simp

theorem moreStrict_eq_false {bs : List Bool} :
    moreStrict bs = false ↔ bs = [] ∨ ∃ k, k ≤ 7 ∧ bs = true :: List.replicate k false := by
  cases bs with
  | nil => simp [moreStrict]
  | cons b bs =>
    simp only [moreStrict, Bool.not_eq_false', Bool.and_eq_true, decide_eq_true_eq, all_not_iff_replicate,
      List.cons.injEq, reduceCtorEq, false_or]
    constructor
    · rintro ⟨⟨rfl, hlen⟩, hbs⟩
      exact ⟨bs.length, hlen, rfl, hbs⟩
    · rintro ⟨k, hk, rfl, rfl⟩
      simp [hk]

theorem moreLastOne_eq_false {bs : List Bool} :
    moreLastOne bs = false ↔ true ∉ bs ∨ ∃ k, bs = true :: List.replicate k false := by
  cases bs with
  | nil => simp [moreLastOne]
  | cons b bs =>
    have hzeros : moreLastOne (b :: bs) = false ↔ bs = List.replicate bs.length false := by
      rw [← all_not_iff_replicate]
      simp [moreLastOne]
    rw [hzeros]
    constructor
    · intro h
      cases b with
      | false => exact .inl (by rw [h]; simp)
      | true => exact .inr ⟨bs.length, congrArg _ h⟩
    · rintro (h | ⟨k, h⟩)
      · have htail : true ∉ bs := fun hb => h (List.mem_cons_of_mem _ hb)
        exact List.eq_replicate_iff.2 ⟨rfl, fun c hc => Bool.eq_false_iff.2 fun ht => htail (ht ▸ hc)⟩
      · obtain ⟨-, rfl⟩ := List.cons.inj h
        rw [List.length_replicate]

end Sys2Proof.Machine

open Sys2Proof Sys2Proof.Machine

/-- Settles O17: BC_INIT's check is the statement's list of legal operands, and then CAP is A0. -/
theorem bcInitStartsStream : Obligations.BcInitStartsStream := by
  intro mode ep grow s hf _
  refine ⟨fun h => ?_, fun h => exec_bcInit_einval hf fun m hm hok => h (bcInitLegal_iff.2 ⟨m, hm, hok⟩)⟩
  obtain ⟨m, hm, hok⟩ := bcInitLegal_iff.1 h
  rw [exec_bcInit hf hm hok, startCursor_eq hm hok]

/-- Settles O18: the first check of each rule is that of the mode, and of the engine where the command needs one. -/
theorem missingModeOrEngineIsEstate : Obligations.MissingModeOrEngineIsEstate := by
  intro i s hf h
  have hreset : i ≠ .reset := by
    rintro rfl
    simp [needsDec, needsEnc, needsEact, needsDact] at h
  refine exec_error hreset hf ?_
  rcases h with ⟨hi, hm⟩ | ⟨hi, hm⟩ | ⟨hi, ha⟩ | ⟨hi, ha⟩ | ⟨rfl, hm⟩
  · exact ruleOf_of_not_dec hi hm
  · exact ruleOf_of_not_enc hi hm
  · exact ruleOf_of_not_eact hi ha
  · exact ruleOf_of_not_dact hi ha
  · exact ruleOf_bcAligned_idle hm

/-- Settles O19: both rules read the next n bits, and differ in what they make of their value. -/
theorem bcReadsFields : Obligations.BcReadsFields := by
  intro n s hf hm
  refine ⟨fun bs r hn hlen h => ⟨?_, ?_⟩, fun hn h => ⟨exec_bcRdu_short hf hm hn h, exec_bcRds_short hf hm hn h⟩,
    fun hn => ⟨exec_error (i := .bcRdu n) nofun hf (ruleBcRdu_long hm hn),
      exec_error (i := .bcRds n) nofun hf (ruleBcRds_long hm hn)⟩⟩
  · exact exec_readBits (i := .bcRdu n) nofun hf (ruleBcRdu_eq hm hn) hlen h
  · rw [← signedField_bitsNat hlen]
    exact exec_readBits (i := .bcRds n) (y := fun u => intWord (signedField n u)) nofun hf (ruleBcRds_eq hm hn) hlen h

/-- Settles O20: each rule writes the n low bits of A0 once A0 is known to fit them. -/
theorem bcWritesFields : Obligations.BcWritesFields := by
  intro n s hi hf hm
  refine ⟨fun bs hn hlen hr => ⟨fun hv => ?_, fun hv => ?_⟩,
    fun h => exec_error (i := .bcWru n) nofun hf (ruleBcWru_einval hm h),
    fun h => exec_error (i := .bcWrs n) nofun hf (ruleBcWrs_einval hm (h.imp_right not_fitsSigned))⟩
  · have hlt : s.a0.toNat < 2 ^ n := by
      rw [hv, ← hlen]
      exact bitsNat_lt bs
    have hrule := ruleBcWru_eq hm hn hlt
    rw [fieldBits_of hlen hv] at hrule
    exact exec_putBits (i := .bcWru n) nofun hi hf hm hlen.le hr hrule
  · have hfits : fitsSigned n (sext32 s.a0) = true := by
      rw [sext32, hv]
      exact fitsSigned_bitsInt hlen
    have hrule := ruleBcWrs_eq hm hn hfits
    rw [fieldBits_of hlen (by rw [sext32, hv, bitsInt_emod hlen])] at hrule
    exact exec_putBits (i := .bcWrs n) nofun hi hf hm hlen.le hr hrule

/-- Settles O22: neither rule touches the cursor, and a stream has no more data just when its remaining bits have the
form of its policy's trailing bits. -/
theorem bcAlignedAndMore : Obligations.BcAlignedAndMore := by
  intro s hf
  refine ⟨fun hm => exec_ok nofun hf ?_, fun hm => ⟨moreData s.params s.remaining, exec_ok nofun hf ?_,
    fun hp => ?_, fun hp => ?_⟩⟩
  · rw [ruleOf, ruleBcAligned, require_pos _ hm]
    simp only [boolWord, decide_eq_true_eq]
    rfl
  · rw [ruleOf, ruleBcMore, require_pos _ hm]
    rfl
  · rw [moreData, hp]
    exact moreStrict_eq_false
  · rw [moreData, hp]
    exact moreLastOne_eq_false

end

