-- ==== Sys2Proof/Proofs/RawBytes.lean ====
section
/-!
BC_RDBYTES and BC_WRBYTES: bytes between the stream and RAWBUF (41_bitcursor.md R171 to R173).
-/

namespace Sys2Proof.Machine

/-- The A0 bytes of RAWBUF from index A1 on, which BC_WRBYTES writes (41_bitcursor.md R172). -/
def State.rawOperand (s : State) : List Byte := (List.range s.a0.toNat).map fun i => s.rawByte (s.a1.toNat + i)

theorem State.rawOperand_length (s : State) : s.rawOperand.length = s.a0.toNat := by simp [rawOperand]

theorem State.rawOperand_getElem? {s : State} {i : Nat} (h : i < s.a0.toNat) :
    s.rawOperand[i]? = some (s.rawByte (s.a1.toNat + i)) := by
  simp [rawOperand, h]

theorem State.rawOperand_bits (s : State) : s.rawOperand.flatMap byteBits =
    (List.range s.a0.toNat).flatMap fun i => byteBits (s.rawByte (s.a1.toNat + i)) := List.flatMap_map ..

theorem flatMap_byteBits_length (bytes : List Byte) : (bytes.flatMap byteBits).length = 8 * bytes.length := by
  induction bytes with
  | nil => rfl
  | cons b bytes ih =>
    rw [List.flatMap_cons, List.length_append, ih, List.length_cons, Nat.mul_succ, Nat.add_comm]
    rfl

theorem State.rawOperand_bits_length (s : State) : (s.rawOperand.flatMap byteBits).length = 8 * s.a0.toNat := by
  rw [flatMap_byteBits_length, s.rawOperand_length]

/-- At a byte boundary the bits written are those of BUF (41_bitcursor.md R163). -/
theorem writtenBits_of_aligned {rd : Nat → Byte} {c : Cursor} (h : c.cnt = 0) :
    writtenBits rd c = remBytes rd c.ep c.len.toNat 0 0 := by
  rw [writtenBits, h]
  exact List.append_nil _

section
variable {s : State}

theorem ruleBcRdbytes_eq (hm : s.cur.mode = .dec) (hc : s.cur.cnt = 0)
    (hb : s.a1.toNat + s.a0.toNat ≤ Config.rawBufBytes) : ruleBcRdbytes s =
      readRawBytes s.bufByte s.a0.toNat s.a1.toNat s.raw s.cur >>= fun x => .ok { s with raw := x.1, cur := x.2 } := by
  rw [ruleBcRdbytes, require_pos _ hm, require_pos _ hc, require_pos _ hb]
  rfl

theorem ruleBcRdbytes_unaligned (hm : s.cur.mode = .dec) (hc : s.cur.cnt ≠ 0) :
    ruleBcRdbytes s = .error .estate := by
  rw [ruleBcRdbytes, require_pos _ hm, require_neg _ hc]
  rfl

theorem ruleBcRdbytes_outside (hm : s.cur.mode = .dec) (hc : s.cur.cnt = 0)
    (hb : Config.rawBufBytes < s.a1.toNat + s.a0.toNat) : ruleBcRdbytes s = .error .einval := by
  rw [ruleBcRdbytes, require_pos _ hm, require_pos _ hc, require_neg _ hb.not_ge]
  rfl

/-- The bytes BC_WRBYTES writes are those of RAWBUF, bit 7 first (41_bitcursor.md R172). -/
theorem ruleBcWrbytes_eq (hm : s.cur.mode = .enc) (hc : s.cur.cnt = 0)
    (hb : s.a1.toNat + s.a0.toNat ≤ Config.rawBufBytes) : ruleBcWrbytes s =
      putBits s.params (s.rawOperand.flatMap byteBits) s.stream >>= fun u => .ok (s.setStream u) := by
  rw [ruleBcWrbytes, require_pos _ hm, require_pos _ hc, require_pos _ hb, writeRawBytes_eq, State.rawOperand_bits]
  simp only [fieldBits_byte]
  rfl

theorem ruleBcWrbytes_unaligned (hm : s.cur.mode = .enc) (hc : s.cur.cnt ≠ 0) :
    ruleBcWrbytes s = .error .estate := by
  rw [ruleBcWrbytes, require_pos _ hm, require_neg _ hc]
  rfl

theorem ruleBcWrbytes_outside (hm : s.cur.mode = .enc) (hc : s.cur.cnt = 0)
    (hb : Config.rawBufBytes < s.a1.toNat + s.a0.toNat) : ruleBcWrbytes s = .error .einval := by
  rw [ruleBcWrbytes, require_pos _ hm, require_pos _ hc, require_neg _ hb.not_ge]
  rfl

/-- BC_RDBYTES of bytes that are there (41_bitcursor.md R171). -/
theorem exec_bcRdbytes {bytes : List Byte} {r : List Bool} (hf : s.status.fault = false) (hm : s.cur.mode = .dec)
    (hc : s.cur.cnt = 0) (hn : bytes.length = s.a0.toNat) (hb : s.a1.toNat + s.a0.toNat ≤ Config.rawBufBytes)
    (h : s.remaining = bytes.flatMap byteBits ++ r) :
    ∃ c m, exec .bcRdbytes s = .next (State.complete .ok { s with raw := m, cur := c }) ∧
      Consumed s.bufByte s.cur c (8 * s.a0.toNat) r ∧
      (∀ (i : Nat) (b : Byte), bytes[i]? = some b → State.rawByte { s with raw := m } (s.a1.toNat + i) = b) ∧
      ∀ a, a < s.a1.toNat ∨ s.a1.toNat + s.a0.toNat ≤ a → State.rawByte { s with raw := m } a = s.rawByte a := by
  obtain ⟨m, c, hread, hcon, hinside, houtside⟩ := readRawBytes_append bytes s.a1.toNat s.raw s.rawFree s.cur h
  rw [hn] at hread hcon houtside
  refine ⟨c, m, exec_ok nofun hf ?_, hcon, hinside, houtside⟩
  rw [ruleOf, ruleBcRdbytes_eq hm hc hb, hread, ok_bind]

/-- BC_WRBYTES into an empty stream with EP = 1 leaves no start code, and its bytes are in BUF under the escapes
(41_bitcursor.md R173). -/
theorem exec_bcWrbytes_fresh (hi : s.Inv) (hf : s.status.fault = false) (hm : s.cur.mode = .enc)
    (hep : s.cur.ep = true) (hlen : s.cur.len = 0) (hc : s.cur.cnt = 0)
    (hb : s.a1.toNat + s.a0.toNat ≤ Config.rawBufBytes) (hr : s.HasRoom (8 * s.a0.toNat)) :
    ∃ t, exec .bcWrbytes s = .next t ∧ NoStartCode t.bufByte t.cur.len.toNat ∧
      remBytes t.bufByte true t.cur.len.toNat 0 0 = s.rawOperand.flatMap byteBits := by
  have hbits := s.rawOperand_bits_length
  obtain ⟨u, hu, hstep, happ⟩ := putBits_state hi hf hm hbits.le hr
  have hep' : u.cur.ep = true := hstep.moved.ep.trans hep
  have hcnt : u.cur.cnt = 0 := by
    rw [putBits_cnt (by rw [State.stream_cur, hc]; decide) hu, hbits, State.stream_cur, hc, Nat.zero_add,
      Nat.mul_mod_right]
  have hempty : s.written = [] := by
    rw [State.written, writtenBits_of_aligned hc, hlen]
    rfl
  refine ⟨(s.setStream u).complete .ok, exec_ok nofun hf ?_, hstep.ok.noStart hep', ?_⟩
  · rw [ruleOf, ruleBcWrbytes_eq hm hc hb, hu, ok_bind]
  · calc remBytes (s.setStream u).bufByte true u.cur.len.toNat 0 0
      _ = (s.setStream u).written := by
        rw [State.written, writtenBits_of_aligned (c := (s.setStream u).cur) hcnt, ← hep']
        rfl
      _ = s.rawOperand.flatMap byteBits := by rw [happ.written, hempty, List.nil_append]

end

/-- A DEC cursor at the start of BUF has all its bytes to deliver (41_bitcursor.md R161). -/
theorem State.remaining_of_start {d : State} {ep : Bool} {len cap : Word}
    (h : d.cur = ⟨.dec, ep, false, len, cap, 0, 0, 0, 0, 0⟩) : d.remaining = remBytes d.bufByte ep len.toNat 0 0 := by
  rw [State.remaining, h]
  rfl

end Sys2Proof.Machine

open Sys2Proof Sys2Proof.Machine

/-- Settles O24: what BC_WRBYTES writes is BUF with its escapes removed, which is all that BC_RDBYTES has to read. -/
theorem emulationPreventionRoundTrip : Obligations.EmulationPreventionRoundTrip := by
  intro s hi hf hm hep hlen hc hb hr
  obtain ⟨t, ht, hstart, hbits⟩ := exec_bcWrbytes_fresh hi hf hm hep hlen hc hb hr
  refine ⟨t, ht, hstart, fun d hdf hcur hbuf ha0 hdb => ?_⟩
  have hrem : d.remaining = s.rawOperand.flatMap byteBits ++ [] := by
    rw [State.remaining_of_start hcur, remBytes_congr true _ 0 0 fun a _ ha => hbuf a (by omega), hbits,
      List.append_nil]
  obtain ⟨c, m, hexec, hcon, hraw, -⟩ := exec_bcRdbytes hdf (by rw [hcur]) (by rw [hcur])
    (s.rawOperand_length.trans (congrArg _ ha0.symm)) hdb hrem
  refine ⟨_, hexec, hdf, fun i h => hraw i _ (State.rawOperand_getElem? h), ?_⟩
  have hmode : c.mode = .dec := hcon.moved.mode.trans (by rw [hcur])
  have hend : (State.complete .ok { d with raw := m, cur := c }).remaining = [] := hcon.rest
  exact exec_bcRdu_short hdf hmode (by decide) (by rw [hend]; decide)

/-- Settles O23: both rules run their bytes after the three checks, and each check fails with its own code. -/
theorem rawBytesMove : Obligations.RawBytesMove := by
  intro s hf
  refine ⟨fun bytes r hm hc hn hb h => exec_bcRdbytes hf hm hc hn hb h, fun hi hm hc hb hr => ?_,
    fun hm hc => exec_error nofun hf (ruleBcRdbytes_unaligned hm hc),
    fun hm hc => exec_error nofun hf (ruleBcWrbytes_unaligned hm hc),
    fun hm hc hb => exec_error nofun hf (ruleBcRdbytes_outside hm hc hb),
    fun hm hc hb => exec_error nofun hf (ruleBcWrbytes_outside hm hc hb)⟩
  rw [← State.rawOperand_bits]
  exact exec_putBits nofun hi hf hm s.rawOperand_bits_length.le hr (ruleBcWrbytes_eq hm hc hb)

end

