-- ==== Sys2Proof/Proofs/OutputBytes.lean ====
section
/-!
Completed output bytes, escapes and the capacity of BUF (41_bitcursor.md R163).
-/

namespace Sys2Proof.Machine

/-! The space check. -/

section
variable {p : Params} {k : Nat} {c : Cursor}

theorem ensureSpace_fits (h : c.len.toNat + k ≤ c.cap.toNat) : ensureSpace p k c = .ok c := if_neg h.not_gt

theorem ensureSpace_fixed (h : c.cap.toNat < c.len.toNat + k) (hg : c.grow = false) :
    ensureSpace p k c = .error .eio := by
  rw [ensureSpace, if_pos h, hg]
  rfl

theorem ensureSpace_grows (h : c.cap.toNat < c.len.toNat + k) (hg : c.grow = true)
    (hmax : grownCap p c k ≤ p.maxBufBytes.toNat) :
    ensureSpace p k c = .ok { c with cap := natWord (grownCap p c k) } := by
  rw [ensureSpace, if_pos h, if_pos hg, if_pos hmax]

theorem ensureSpace_full (h : c.cap.toNat < c.len.toNat + k) (hg : c.grow = true)
    (hmax : p.maxBufBytes.toNat < grownCap p c k) : ensureSpace p k c = .error .enomem := by
  rw [ensureSpace, if_pos h, if_pos hg, if_neg hmax.not_ge]

/-- The capacity after a space check that passes: unchanged when the bytes fit, else grown. -/
theorem ensureSpace_cap (h : c.len.toNat + k ≤ c.cap.toNat ∨ (c.grow = true ∧ grownCap p c k ≤ p.maxBufBytes.toNat)) :
    ∃ d, ensureSpace p k c = .ok d ∧
      d.cap.toNat = if c.len.toNat + k ≤ c.cap.toNat then c.cap.toNat else grownCap p c k := by
  by_cases hfit : c.len.toNat + k ≤ c.cap.toNat
  · exact ⟨c, ensureSpace_fits hfit, (if_pos hfit).symm⟩
  · obtain ⟨hg, hmax⟩ := h.resolve_left hfit
    have hlt : grownCap p c k < 2 ^ 32 := hmax.trans_lt p.maxBufBytes.isLt
    exact ⟨_, ensureSpace_grows (Nat.lt_of_not_le hfit) hg hmax,
      (Nat.mod_eq_of_lt hlt).trans (if_neg hfit).symm⟩

end

/-! One byte out. -/

/-- The bytes `EmitByte(v)` puts in BUF: two when `v` needs an escape (41_bitcursor.md R163). -/
def emittedBytes (c : Cursor) (v : Byte) : Nat := if needsEscape c v then 2 else 1

theorem storeByte_len {v : Byte} {t : Stream} (h : t.cur.len.toNat + 1 < 2 ^ 32) :
    (storeByte v t).cur.len.toNat = t.cur.len.toNat + 1 := by
  show (t.cur.len + 1).toNat = _
  rw [BitVec.toNat_add, show (1 : Word).toNat = 1 from rfl, Nat.mod_eq_of_lt h]

theorem storeByte_rd_same {free : Nat → Byte} {v : Byte} {t : Stream} {n : Nat} (h : t.cur.len.toNat = n) :
    (storeByte v t).rd free n = v := (Stream.rd_storeByte free v t n).trans (if_pos h.symm)

theorem storeByte_rd_other {free : Nat → Byte} {v : Byte} {t : Stream} {a : Nat} (h : a ≠ t.cur.len.toNat) :
    (storeByte v t).rd free a = t.rd free a := (Stream.rd_storeByte free v t a).trans (if_neg h)

/-- BUF and the cursor after `EmitByte(v)` of a byte for which there is space: the bytes stand at the old LEN, the
escape first (41_bitcursor.md R163). -/
structure Emitted (free : Nat → Byte) (v : Byte) (t u : Stream) : Prop where
  len : u.cur.len.toNat = t.cur.len.toNat + emittedBytes t.cur v
  escape : needsEscape t.cur v = true → u.rd free t.cur.len.toNat = 3
  last : u.rd free (t.cur.len.toNat + emittedBytes t.cur v - 1) = v
  before : ∀ a, a < t.cur.len.toNat → u.rd free a = t.rd free a

/-- The escape byte, after which Z is 0 (41_bitcursor.md R163). -/
def storeEscape (t : Stream) : Stream := storeByte 3 { t with cur := { t.cur with zeros := 0 } }

theorem storeEscape_len {t : Stream} (h : t.cur.len.toNat + 1 < 2 ^ 32) :
    (storeEscape t).cur.len.toNat = t.cur.len.toNat + 1 :=
  storeByte_len (t := { t with cur := { t.cur with zeros := 0 } }) h

theorem storeEscape_rd_same {free : Nat → Byte} {t : Stream} {n : Nat} (h : t.cur.len.toNat = n) :
    (storeEscape t).rd free n = 3 := storeByte_rd_same h

theorem storeEscape_rd_other {free : Nat → Byte} {t : Stream} {a : Nat} (h : a ≠ t.cur.len.toNat) :
    (storeEscape t).rd free a = t.rd free a :=
  storeByte_rd_other (t := { t with cur := { t.cur with zeros := 0 } }) h

section
variable {p : Params} {v : Byte} {t : Stream}

theorem emitByte_plain {d : Cursor} (hesc : needsEscape t.cur v = false) (hd : ensureSpace p 1 t.cur = .ok d) :
    emitByte p v t = .ok { storeByte v ⟨d, t.buf⟩ with
      cur := { (storeByte v ⟨d, t.buf⟩).cur with zeros := nextZeros d.ep d.zeros v } } := by
  unfold emitByte
  simp only [hesc, Bool.false_eq_true, if_false, hd]
  rfl

theorem emitByte_escaped {d : Cursor} (hesc : needsEscape t.cur v = true) (hd : ensureSpace p 2 t.cur = .ok d) :
    emitByte p v t = .ok { storeByte v (storeEscape ⟨d, t.buf⟩) with
      cur := { (storeByte v (storeEscape ⟨d, t.buf⟩)).cur with zeros := nextZeros d.ep 0 v } } := by
  unfold emitByte
  simp only [hesc, if_true, hd]
  rfl

theorem emitByte_error {e : Code} (hd : ensureSpace p (emittedBytes t.cur v) t.cur = .error e) :
    emitByte p v t = .error e := by
  unfold emitByte
  unfold emittedBytes at hd
  simp only [hd, error_bind]

theorem emitByte_emits {d : Cursor} (free : Nat → Byte) (hg : 1 ≤ p.growBlock)
    (hcap : t.cur.cap.toNat ≤ p.maxBufBytes.toNat) (hd : ensureSpace p (emittedBytes t.cur v) t.cur = .ok d) :
    ∃ u, emitByte p v t = .ok u ∧ u.cur.cap = d.cap ∧ Emitted free v t u := by
  obtain ⟨hdeq, hroom, -, -⟩ := ensureSpace_spec hg hcap hd
  have hlen : d.len.toNat = t.cur.len.toNat := by rw [hdeq]
  have hlt := d.cap.isLt
  cases hesc : needsEscape t.cur v with
  | false =>
    have hone : emittedBytes t.cur v = 1 := by rw [emittedBytes, hesc]; rfl
    rw [hone] at hd hroom
    refine ⟨_, emitByte_plain hesc hd, rfl, ?_, fun h => absurd (hesc.symm.trans h) Bool.false_ne_true, ?_,
      fun a ha => storeByte_rd_other (t := ⟨d, t.buf⟩) (by rw [hlen]; exact ha.ne)⟩
    · rw [hone, ← hlen]
      exact storeByte_len (v := v) (t := ⟨d, t.buf⟩) (by rw [hlen]; omega)
    · rw [hone]
      exact storeByte_rd_same (t := ⟨d, t.buf⟩) hlen
  | true =>
    have htwo : emittedBytes t.cur v = 2 := by rw [emittedBytes, hesc]; rfl
    rw [htwo] at hd hroom
    have hlen1 : (storeEscape ⟨d, t.buf⟩).cur.len.toNat = t.cur.len.toNat + 1 := by
      rw [← hlen]
      exact storeEscape_len (t := ⟨d, t.buf⟩) (by rw [hlen]; omega)
    refine ⟨_, emitByte_escaped hesc hd, rfl, ?_, fun _ => ?_, ?_, fun a ha => ?_⟩
    · rw [htwo]
      exact (storeByte_len (v := v) (by rw [hlen1]; omega)).trans (congrArg (· + 1) hlen1)
    · exact (storeByte_rd_other (by rw [hlen1]; omega)).trans (storeEscape_rd_same hlen)
    · rw [htwo]
      exact storeByte_rd_same hlen1
    · exact (storeByte_rd_other (by rw [hlen1]; omega)).trans
        (storeEscape_rd_other (t := ⟨d, t.buf⟩) (by rw [hlen]; exact ha.ne))

end

/-! Eight bits written at a byte boundary are one byte emitted. -/

/-- CACHE taken up by bits (41_bitcursor.md R163). -/
def shiftBits (bs : List Bool) (c : Cursor) : Cursor := bs.foldl (fun d b => shiftIn b d) c

theorem shiftBits_eq (bs : List Bool) (c : Cursor) : shiftBits bs c = { c with
    cache := (shiftBits bs c).cache, cnt := (shiftBits bs c).cnt, bits := (shiftBits bs c).bits } := by
  induction bs generalizing c with
  | nil => rfl
  | cons b bs ih => exact ih (shiftIn b c)

theorem cacheBits_shiftBits (bs : List Bool) (c : Cursor) (h : c.cnt + bs.length ≤ 8) :
    cacheBits (shiftBits bs c).cache (c.cnt + bs.length) = cacheBits c.cache c.cnt ++ bs := by
  induction bs generalizing c with
  | nil => exact (List.append_nil _).symm
  | cons b bs ih =>
    rw [List.length_cons] at h ⊢
    have hcnt : (shiftIn b c).cnt = c.cnt + 1 := rfl
    calc cacheBits (shiftBits (b :: bs) c).cache (c.cnt + (bs.length + 1))
      _ = cacheBits (shiftBits bs (shiftIn b c)).cache ((shiftIn b c).cnt + bs.length) := by
        rw [hcnt, Nat.add_assoc, Nat.add_comm 1]
        rfl
      _ = cacheBits (shiftIn b c).cache (c.cnt + 1) ++ bs := ih _ (by omega)
      _ = cacheBits c.cache c.cnt ++ b :: bs := by
        rw [shiftIn, cacheBits_shiftIn b c.cache c.cnt (by omega), List.append_assoc]
        rfl

/-- The stream with an empty CACHE, which a completed byte leaves (41_bitcursor.md R163). -/
def Stream.clearCache (t : Stream) : Stream := { t with cur := { t.cur with cache := 0, cnt := 0 } }

theorem putBits_fills {p : Params} (bs : List Bool) (t : Stream) (hc : t.cur.cnt < 8)
    (h : t.cur.cnt + bs.length = 8) : putBits p bs t =
      emitByte p (shiftBits bs t.cur).cache ⟨shiftBits bs t.cur, t.buf⟩ >>= fun u => .ok u.clearCache := by
  induction bs generalizing t with
  | nil => exact absurd h hc.ne
  | cons b bs ih =>
    rw [List.length_cons] at h
    rw [putBits_cons]
    by_cases h8 : (shiftIn b t.cur).cnt = 8
    · obtain rfl : bs = [] := List.length_eq_zero_iff.1 (by change t.cur.cnt + 1 = 8 at h8; omega)
      simp only [putBit1, h8, if_true]
      show _ = emitByte p (shiftIn b t.cur).cache ⟨shiftIn b t.cur, t.buf⟩ >>= _
      cases emitByte p (shiftIn b t.cur).cache ⟨shiftIn b t.cur, t.buf⟩ <;> rfl
    · have hput : putBit1 p b t = .ok { t with cur := shiftIn b t.cur } := if_neg h8
      have hcnt : (shiftIn b t.cur).cnt = t.cur.cnt + 1 := rfl
      have hlt : (shiftIn b t.cur).cnt < 8 := by omega
      rw [hput, ok_bind, ih _ hlt (by change (shiftIn b t.cur).cnt + _ = 8; omega)]
      rfl

theorem byteBits_injective {a b : Byte} (h : byteBits a = byteBits b) : a = b := by
  rw [← bitsNat_byteBits a, h, bitsNat_byteBits]

/-- The eight bits of a byte, from an empty CACHE on: the byte is emitted. -/
theorem putBits_byte {p : Params} (b : Byte) {t : Stream} (hc : t.cur.cnt = 0) :
    ∃ cache cnt bits, putBits p (byteBits b) t =
      emitByte p b ⟨{ t.cur with cache := cache, cnt := cnt, bits := bits }, t.buf⟩ >>= fun u => .ok u.clearCache := by
  have hcache : (shiftBits (byteBits b) t.cur).cache = b := by
    have h := cacheBits_shiftBits (byteBits b) t.cur (by rw [hc]; exact Nat.le_refl 8)
    rw [hc] at h
    exact byteBits_injective h
  have hput := putBits_fills (p := p) (byteBits b) t (by omega) (by rw [hc]; rfl)
  rw [hcache, shiftBits_eq] at hput
  exact ⟨_, _, _, hput⟩

section
variable {s : State}

/-- BC_WRU of eight bits at a byte boundary emits the low byte of A0. -/
theorem ruleBcWru_byte (hm : s.cur.mode = .enc) (hc : s.cur.cnt = 0) (hv : s.a0.toNat < 256) :
    ∃ cache cnt bits, ruleBcWru 8 s =
      emitByte s.params (s.a0.setWidth 8) ⟨{ s.cur with cache := cache, cnt := cnt, bits := bits }, s.buf⟩ >>=
        fun u => .ok (s.setStream u.clearCache) := by
  have hbits : fieldBits s.a0.toNat 8 = byteBits (s.a0.setWidth 8) := by
    rw [← fieldBits_byte, BitVec.toNat_setWidth, Nat.mod_eq_of_lt hv]
  obtain ⟨cache, cnt, bits, hput⟩ := putBits_byte (p := s.params) (s.a0.setWidth 8) (t := s.stream) hc
  refine ⟨cache, cnt, bits, ?_⟩
  rw [ruleBcWru_eq hm (by decide) hv, hbits, hput, bind_assoc]
  rfl

/-- The bytes BC_WRU emits, by the value of A0. -/
theorem emittedBytes_eq (hv : s.a0.toNat < 256) : emittedBytes s.cur (s.a0.setWidth 8) =
    if s.cur.ep = true ∧ s.cur.zeros = 2 ∧ s.a0.toNat ≤ 3 then 2 else 1 := by
  have hle : s.a0.setWidth 8 ≤ 3 ↔ s.a0.toNat ≤ 3 := by
    rw [BitVec.le_def, BitVec.toNat_setWidth, Nat.mod_eq_of_lt hv]
    rfl
  simp only [emittedBytes, needsEscape, Bool.and_eq_true, decide_eq_true_eq, hle, and_assoc]

theorem needsEscape_of_emits_two {c : Cursor} {v : Byte} (h : emittedBytes c v = 2) : needsEscape c v = true := by
  by_contra hesc
  rw [emittedBytes, if_neg hesc] at h
  cases h

/-- BC_WRU of a byte with space for it. -/
theorem exec_bcWru_byte {need : Nat} (hi : s.Inv) (hf : s.status.fault = false) (hm : s.cur.mode = .enc)
    (hc : s.cur.cnt = 0) (hv : s.a0.toNat < 256) (hneed : need = emittedBytes s.cur (s.a0.setWidth 8))
    (h : s.cur.len.toNat + need ≤ s.cur.cap.toNat ∨
      (s.cur.grow = true ∧ grownCap s.params s.cur need ≤ s.params.maxBufBytes.toNat)) :
    ∃ u, exec (.bcWru 8) s = .next (State.complete .ok (s.setStream u)) ∧
      u.cur.cap.toNat =
        (if s.cur.len.toNat + need ≤ s.cur.cap.toNat then s.cur.cap.toNat else grownCap s.params s.cur need) ∧
      u.cur.cnt = 0 ∧ Emitted s.bufFree (s.a0.setWidth 8) s.stream u := by
  obtain ⟨cache, cnt, bits, hrule⟩ := ruleBcWru_byte hm hc hv
  subst hneed
  obtain ⟨d, hd, hcap⟩ :=
    ensureSpace_cap (p := s.params) (c := { s.cur with cache := cache, cnt := cnt, bits := bits }) h
  obtain ⟨u, hu, hucap, hlen, hesc, hlast, hbefore⟩ :=
    emitByte_emits (t := ⟨{ s.cur with cache := cache, cnt := cnt, bits := bits }, s.buf⟩) s.bufFree hi.growBlock_pos
      (hi.encOk hf hm).cap hd
  exact ⟨u.clearCache, exec_ok nofun hf (by rw [ruleOf, hrule, hu, ok_bind]),
    (congrArg _ hucap).trans hcap, rfl, ⟨hlen, hesc, hlast, hbefore⟩⟩

/-- BC_WRU of a byte without space for it fails with the code of the space check. -/
theorem exec_bcWru_byte_error {e : Code} (hf : s.status.fault = false) (hm : s.cur.mode = .enc) (hc : s.cur.cnt = 0)
    (hv : s.a0.toNat < 256)
    (h : ∀ cache cnt bits, ensureSpace s.params (emittedBytes s.cur (s.a0.setWidth 8))
      { s.cur with cache := cache, cnt := cnt, bits := bits } = .error e) :
    exec (.bcWru 8) s = .next (s.failWith e 0x13) := by
  obtain ⟨cache, cnt, bits, hrule⟩ := ruleBcWru_byte hm hc hv
  refine exec_error (i := .bcWru 8) nofun hf ?_
  rw [ruleOf, hrule, emitByte_error (h cache cnt bits), error_bind]

end

end Sys2Proof.Machine

open Sys2Proof Sys2Proof.Machine

/-- Settles O21: the byte is emitted after a space check for the bytes it needs, and the clauses are its outcomes. -/
theorem outputBytesAndCapacity : Obligations.OutputBytesAndCapacity := by
  rintro s _ _ need grown hi hf hm hc hv rfl rfl hneed rfl
  replace hneed := hneed.trans (emittedBytes_eq hv).symm
  refine ⟨fun h => ?_, fun hfull hg => ?_, fun hfull hg hmax => ?_⟩
  · obtain ⟨u, hexec, hcap, hcnt, hlen, hesc, hlast, hbefore⟩ := exec_bcWru_byte hi hf hm hc hv hneed h
    rw [State.stream_cur, ← hneed] at hlen hlast
    exact ⟨u, hexec, hcap, hcnt, hlen, fun h2 => hesc (needsEscape_of_emits_two (hneed.symm.trans h2)), hlast, hbefore⟩
  · subst hneed
    exact exec_bcWru_byte_error hf hm hc hv fun _ _ _ => ensureSpace_fixed hfull hg
  · subst hneed
    exact exec_bcWru_byte_error hf hm hc hv fun _ _ _ => ensureSpace_full hfull hg hmax

end

