-- ==== Sys2Proof/Proofs/ExpGolomb.lean ====
section
/-!
Exp-Golomb codes: codewords read, codewords written, and the round trip (42_expgolomb.md R200 to R207).
-/

namespace Sys2Proof.Machine

/-! codeNum and its codeword (42_expgolomb.md R200, R203, R204). -/

/-- At most 31 info bits keep codeNum below 2^32 - 1. -/
theorem codeNum_le {m k : Nat} {x : List Bool} (hm : m ≤ 31) (hx : x.length = m) (hk : k = 2 ^ m - 1 + bitsNat x) :
    k ≤ 2 ^ 32 - 2 := by
  have hlt : bitsNat x < 2 ^ m := hx ▸ bitsNat_lt x
  have hpow : 2 ^ m ≤ 2 ^ 31 := Nat.pow_le_pow_right (by decide) hm
  omega

theorem log2_codeNum_le {k : Nat} (hk : k ≤ 2 ^ 32 - 2) : Nat.log2 (k + 1) ≤ 31 := by
  have : Nat.log2 (k + 1) < 32 := (Nat.log2_lt (by omega)).2 (by omega)
  omega

theorem ueBits_length (k : Nat) : (ueBits k).length = 2 * Nat.log2 (k + 1) + 1 := by
  obtain ⟨m, x, rfl, hx, -, hbits⟩ := ueBits_info k
  rw [hbits, List.length_append, List.length_replicate, List.length_cons, hx]
  omega

theorem ueBits_length_le {k : Nat} (hk : k ≤ 2 ^ 32 - 2) : (ueBits k).length ≤ 63 := by
  have := log2_codeNum_le hk
  rw [ueBits_length]
  omega

theorem seCodeNum_eq {v : Int} {k : Nat} (h : (if 0 < v then 2 * v - 1 else -2 * v) = (k : Int)) :
    seCodeNum v = k := by
  unfold seCodeNum
  split_ifs at h ⊢ <;> omega

theorem seValue_seCodeNum (v : Int) : seValue (seCodeNum v) = v := by
  unfold seValue seCodeNum
  split <;> split <;> omega

theorem seCodeNum_le {w : Word} (h : -(2 ^ 31 - 1) ≤ w.toInt) : seCodeNum w.toInt ≤ 2 ^ 32 - 2 := by
  have hlt := BitVec.toInt_lt (x := w)
  unfold seCodeNum
  split <;> omega

/-! Codewords read (42_expgolomb.md R201, R203, R205). -/

/-- More than 31 leading zeros are no codeword. -/
theorem readUE_zeros {rd : Nat → Byte} {c : Cursor} {r : List Bool}
    (h : remBits rd c = List.replicate 32 false ++ r) : readUE rd c = .error .eproto := by
  rw [readUE, readZeroRun_long 31 0 c h, error_bind]

/-- A codeword the input ends in, among its zeros or among its info bits. -/
theorem readUE_short {rd : Nat → Byte} {c : Cursor} {m : Nat} {x : List Bool} (hm : m ≤ 31)
    (h : remBits rd c = List.replicate m false ∨
      (x.length < m ∧ remBits rd c = List.replicate m false ++ true :: x)) : readUE rd c = .error .eio := by
  rcases h with h | ⟨hx, h⟩
  · rw [readUE, readZeroRun_eof m 31 0 c hm h, error_bind]
  · obtain ⟨d, hd, hcon⟩ := readZeroRun_append m 31 0 c hm h
    rw [← hcon.rest, ← Nat.zero_add m] at hx
    rw [readUE, hd, ok_bind]
    simp only [readBits_short hx, error_bind]

/-- The rule of `i` reads one codeword and puts `y` of its codeNum in Y0. -/
def ReadsUE (i : Instr) (y : Nat → Word) (s : State) : Prop :=
  ruleOf i s = readUE s.bufByte s.cur >>= fun x => .ok { s with cur := x.2, y0 := y x.1 }

section
variable {s : State} {i : Instr} {y : Nat → Word} {r : List Bool}

theorem readsUE_egRdue (hm : s.cur.mode = .dec) : ReadsUE .egRdue natWord s := by
  rw [ReadsUE, ruleOf, ruleEgRdue, require_pos _ hm]
  rfl

theorem readsUE_egRdse (hm : s.cur.mode = .dec) : ReadsUE .egRdse (fun k => intWord (seValue k)) s := by
  rw [ReadsUE, ruleOf, ruleEgRdse, require_pos _ hm]
  rfl

theorem readsUE_egRdte (hm : s.cur.mode = .dec) (ha : s.a0 ≠ 2) : ReadsUE .egRdte natWord s := by
  rw [ReadsUE, ruleOf, ruleEgRdte, require_pos _ hm, ok_bind, if_neg ha]
  rfl

theorem exec_readUE {m : Nat} {x : List Bool} (hi : i ≠ .reset) (hf : s.status.fault = false) (h : ReadsUE i y s)
    (hm : m ≤ 31) (hx : x.length = m) (hr : s.remaining = List.replicate m false ++ true :: (x ++ r)) :
    ∃ c, exec i s = .next (State.complete .ok { s with cur := c, y0 := y (2 ^ m - 1 + bitsNat x) }) ∧
      Consumed s.bufByte s.cur c (2 * m + 1) r := by
  obtain ⟨c, hread, hcon⟩ := readUE_append hm hx hr
  exact ⟨c, exec_ok hi hf (by rw [h, hread, ok_bind]), hcon⟩

theorem exec_readUE_error {e : Code} (hi : i ≠ .reset) (hf : s.status.fault = false) (h : ReadsUE i y s)
    (hr : readUE s.bufByte s.cur = .error e) : exec i s = .next (s.failWith e i.opcode) :=
  exec_error hi hf (by rw [h, hr, error_bind])

/-- The three reads fail as `ReadUE()` does. -/
theorem exec_egReads_error {e : Code} (hf : s.status.fault = false) (hm : s.cur.mode = .dec)
    (hr : readUE s.bufByte s.cur = .error e) :
    exec .egRdue s = .next (s.failWith e 0x20) ∧ exec .egRdse s = .next (s.failWith e 0x22) ∧
      (s.a0 ≠ 2 → exec .egRdte s = .next (s.failWith e 0x24)) :=
  ⟨exec_readUE_error (i := .egRdue) nofun hf (readsUE_egRdue hm) hr,
    exec_readUE_error (i := .egRdse) nofun hf (readsUE_egRdse hm) hr,
    fun ha => exec_readUE_error (i := .egRdte) nofun hf (readsUE_egRdte hm ha) hr⟩

/-- The codeword of k is read back as k (42_expgolomb.md R207). -/
theorem exec_readUE_ueBits {k : Nat} (hi : i ≠ .reset) (hf : s.status.fault = false) (h : ReadsUE i y s)
    (hk : k ≤ 2 ^ 32 - 2) (hr : s.remaining = ueBits k ++ r) :
    ∃ c, exec i s = .next (State.complete .ok { s with cur := c, y0 := y k }) ∧
      Consumed s.bufByte s.cur c (ueBits k).length r := by
  obtain ⟨m, x, rfl, hx, hval, hbits⟩ := ueBits_info k
  rw [hbits, List.append_assoc] at hr
  obtain ⟨c, hexec, hcon⟩ := exec_readUE hi hf h (log2_codeNum_le hk) hx hr
  rw [← hval] at hexec
  rw [← ueBits_length] at hcon
  exact ⟨c, hexec, hcon⟩

/-- EG_RDTE of a one-bit value (42_expgolomb.md R205). -/
theorem exec_egRdte_bit {b : Bool} (hf : s.status.fault = false) (hm : s.cur.mode = .dec) (ha : s.a0 = 2)
    (hr : s.remaining = b :: r) :
    ∃ c, exec .egRdte s = .next (State.complete .ok { s with cur := c, y0 := if b then 0 else 1 }) ∧
      Consumed s.bufByte s.cur c 1 r := by
  obtain ⟨c, hread, hcon⟩ := getBit_cons hr
  refine ⟨c, exec_ok (i := .egRdte) nofun hf ?_, hcon⟩
  rw [ruleOf, ruleEgRdte, require_pos _ hm, ok_bind, if_pos ha, hread, ok_bind]
  cases b <;> rfl

end

/-! Codewords written (42_expgolomb.md R202, R204, R206). -/

section
variable {s : State}

theorem ruleEgWrue_eq (hm : s.cur.mode = .enc) (hv : s.a0.toNat ≤ 2 ^ 32 - 2) : ruleEgWrue s =
    putBits s.params (ueBits s.a0.toNat) s.stream >>= fun u => .ok (s.setStream u) := by
  rw [ruleEgWrue, require_pos _ hm, require_pos _ hv, writeUE_eq]
  rfl

theorem ruleEgWrse_eq (hm : s.cur.mode = .enc) (hv : s.a0.toInt ≠ -(2 ^ 31)) : ruleEgWrse s =
    putBits s.params (ueBits (seCodeNum s.a0.toInt)) s.stream >>= fun u => .ok (s.setStream u) := by
  rw [ruleEgWrse, require_pos _ hm, require_pos (c := sext32 s.a0 ≠ _) _ hv, writeUE_eq]
  rfl

theorem ruleEgWrte_eq (hm : s.cur.mode = .enc) (ha : s.a0 ≠ 2) (hv : s.a1.toNat ≤ 2 ^ 32 - 2) : ruleEgWrte s =
    putBits s.params (ueBits s.a1.toNat) s.stream >>= fun u => .ok (s.setStream u) := by
  rw [ruleEgWrte, require_pos _ hm, ok_bind, if_neg ha, require_pos _ hv, writeUE_eq]
  rfl

theorem ruleEgWrte_bit (hm : s.cur.mode = .enc) (ha : s.a0 = 2) (hv : s.a1.toNat ≤ 1) : ruleEgWrte s =
    putBits s.params [decide (s.a1 = 0)] s.stream >>= fun u => .ok (s.setStream u) := by
  rw [ruleEgWrte, require_pos _ hm, ok_bind, if_pos ha, require_pos _ hv, ok_bind, putBits_cons, bind_assoc]
  rfl

theorem ruleEgWrue_einval (hm : s.cur.mode = .enc) (ha : s.a0 = 0xFFFFFFFF) : ruleEgWrue s = .error .einval := by
  rw [ruleEgWrue, require_pos _ hm, require_neg _ (by rw [ha]; decide)]
  rfl

theorem ruleEgWrse_einval (hm : s.cur.mode = .enc) (ha : s.a0 = 0x80000000) : ruleEgWrse s = .error .einval := by
  rw [ruleEgWrse, require_pos _ hm, require_neg _ (by rw [ha]; decide)]
  rfl

theorem ruleEgWrte_einval (hm : s.cur.mode = .enc)
    (h : s.a0 = 2 ∧ 2 ≤ s.a1.toNat ∨ s.a0 ≠ 2 ∧ s.a1 = 0xFFFFFFFF) : ruleEgWrte s = .error .einval := by
  rw [ruleEgWrte, require_pos _ hm, ok_bind]
  rcases h with ⟨ha, hv⟩ | ⟨ha, hv⟩
  · rw [if_pos ha, require_neg _ (by omega), error_bind]
  · rw [if_neg ha, require_neg _ (by rw [hv]; decide), error_bind]

/-- The bit EG_WRTE writes of a one-bit value is the one EG_RDTE inverts back. -/
theorem word_of_inverted_bit {w : Word} (h : w.toNat ≤ 1) : (if decide (w = 0) then (0 : Word) else 1) = w := by
  by_cases hw : w = 0
  · simp [hw]
  · have hne : w.toNat ≠ 0 := fun h0 => hw (BitVec.eq_of_toNat_eq h0)
    have h1 : w = 1 := BitVec.eq_of_toNat_eq (show w.toNat = 1 by omega)
    simp [h1]

end

end Sys2Proof.Machine

open Sys2Proof Sys2Proof.Machine

/-- Settles O27: both sides of each round trip speak of the same codeword `ueBits`, of at most 63 bits. -/
theorem expGolombRoundTrip : Obligations.ExpGolombRoundTrip := by
  intro s hinv hf hm hroom
  refine ⟨fun hv => ?_, fun hv => ?_, fun ha hv => ?_⟩
  · obtain ⟨u, hexec, happ⟩ :=
      exec_putBits (i := .egWrue) nofun hinv hf hm (ueBits_length_le hv) hroom (ruleEgWrue_eq hm hv)
    refine ⟨u, _, hexec, happ, ueBits_length _, fun d r hdf hdm hr => ?_⟩
    have hread := exec_readUE_ueBits (i := .egRdue) nofun hdf (readsUE_egRdue hdm) hv hr
    rwa [natWord, BitVec.ofNat_toNat, BitVec.setWidth_eq] at hread
  · have hk := seCodeNum_le hv
    obtain ⟨u, hexec, happ⟩ :=
      exec_putBits (i := .egWrse) nofun hinv hf hm (ueBits_length_le hk) hroom (ruleEgWrse_eq hm (by omega))
    refine ⟨u, _, hexec, happ, fun d r hdf hdm hr => ?_⟩
    have hread := exec_readUE_ueBits (i := .egRdse) nofun hdf (readsUE_egRdse hdm) hk hr
    rwa [seValue_seCodeNum, intWord, BitVec.ofInt_toInt] at hread
  · obtain ⟨u, hexec, happ⟩ :=
      exec_putBits (i := .egWrte) (n := 63) nofun hinv hf hm (by simp) hroom (ruleEgWrte_bit hm ha hv)
    refine ⟨u, _, hexec, happ, fun d r hdf hdm hda hr => ?_⟩
    have hread := exec_egRdte_bit hdf hdm hda hr
    rwa [word_of_inverted_bit hv] at hread

/-- Settles O25: the three reads share `ReadUE()` and differ in what they make of its codeNum. -/
theorem expGolombReads : Obligations.ExpGolombReads := by
  intro s hf hm
  refine ⟨fun m x r k hm31 hx hr hk => ?_, fun b r ha hr => exec_egRdte_bit hf hm ha hr,
    fun r hr => exec_egReads_error hf hm (readUE_zeros hr),
    fun m x hm31 hr => exec_egReads_error hf hm (readUE_short hm31 hr)⟩
  subst hk
  exact ⟨exec_readUE (i := .egRdue) nofun hf (readsUE_egRdue hm) hm31 hx hr,
    exec_readUE (i := .egRdse) nofun hf (readsUE_egRdse hm) hm31 hx hr,
    fun ha => exec_readUE (i := .egRdte) nofun hf (readsUE_egRdte hm ha) hm31 hx hr⟩

/-- Settles O26: each rule writes `ueBits` of its codeNum, which is the codeword with the info bits x. -/
theorem expGolombWrites : Obligations.ExpGolombWrites := by
  intro s hinv hf hm
  refine ⟨fun m x k bs hm31 hx hk hbs hroom => ?_, fun ha hv hroom => ?_,
    fun ha => exec_error (i := .egWrue) nofun hf (ruleEgWrue_einval hm ha),
    fun ha => exec_error (i := .egWrse) nofun hf (ruleEgWrse_einval hm ha),
    fun h => exec_error (i := .egWrte) nofun hf (ruleEgWrte_einval hm h)⟩
  · have hle := codeNum_le hm31 hx hk
    have hlen : (ueBits k).length ≤ 2 * m + 1 := by
      rw [ueBits_eq hx hk, List.length_append, List.length_replicate, List.length_cons, hx]
      omega
    obtain rfl : bs = ueBits k := hbs.trans (ueBits_eq hx hk).symm
    refine ⟨fun hv => ?_, fun hv => ?_, fun ha hv => ?_⟩
    · subst hv
      exact exec_putBits (i := .egWrue) nofun hinv hf hm hlen hroom (ruleEgWrue_eq hm hle)
    · have hne : s.a0.toInt ≠ -(2 ^ 31) := by
        split at hv <;> omega
      obtain rfl := seCodeNum_eq hv
      exact exec_putBits (i := .egWrse) nofun hinv hf hm hlen hroom (ruleEgWrse_eq hm hne)
    · subst hv
      exact exec_putBits (i := .egWrte) nofun hinv hf hm hlen hroom (ruleEgWrte_eq hm ha hle)
  · exact exec_putBits (i := .egWrte) nofun hinv hf hm (Nat.le_refl 1) hroom (ruleEgWrte_bit hm ha hv)

end

