-- ==== Sys2Proof/Proofs/ResidualBlocks.lean ====
section
/-!
Residual blocks (43_cavlc.md R220, R244 to R246, R250).
-/

namespace Sys2Proof.Machine

/-! Rules that fail with one code only. -/

/-- A computation fails with the code `e` or not at all. -/
def FailsWith {α : Type} (e : Code) (x : Except Code α) : Prop := ∀ c, x = .error c → c = e

theorem failsWith_ok {α : Type} {e : Code} (a : α) : FailsWith e (.ok a : Except Code α) := nofun

theorem failsWith_error {α : Type} (e : Code) : FailsWith e (.error e : Except Code α) :=
  fun _ h => (Except.error.inj h).symm

theorem failsWith_bind {α β : Type} {e : Code} {x : Except Code α} {f : α → Except Code β} (hx : FailsWith e x)
    (hf : ∀ a, FailsWith e (f a)) : FailsWith e (x >>= f) := by
  intro c h
  cases x with
  | ok a => exact hf a c h
  | error d => exact hx c (congrArg Except.error (Except.error.inj h))

theorem failsWith_require {e : Code} (c : Prop) [Decidable c] : FailsWith e (require c e) := by
  unfold require
  split
  · exact failsWith_ok _
  · exact failsWith_error e

theorem failsWith_ite {α : Type} {e : Code} {c : Prop} [Decidable c] {x y : Except Code α} (hx : FailsWith e x)
    (hy : FailsWith e y) : FailsWith e (if c then x else y) := by
  split
  · exact hx
  · exact hy

theorem classify_failsWith (maxW maxH : Nat) (xN yN : Int) : FailsWith .einval (classify maxW maxH xN yN) :=
  failsWith_ite (failsWith_error _) (failsWith_ite (failsWith_ok _) (failsWith_ite (failsWith_ok _)
    (failsWith_ite (failsWith_ok _) (failsWith_ite (failsWith_error _) (failsWith_ok _)))))

theorem nbLoc_failsWith (s : State) (plane : Plane) (xN yN : Int) : FailsWith .einval (s.nbLoc plane xN yN) :=
  failsWith_bind (classify_failsWith _ _ _ _) fun _ => failsWith_ite (failsWith_ok _) (failsWith_ok _)

theorem nbBlockAt_failsWith (s : State) (plane : Plane) (idx : Nat → Nat → Nat) (above : Bool) (x y : Nat) :
    FailsWith .einval (s.nbBlockAt plane idx above x y) :=
  failsWith_bind (nbLoc_failsWith _ _ _ _) fun _ => failsWith_ok _

theorem ncBlock_failsWith (s : State) (kind blkIdx : Nat) (above : Bool) :
    FailsWith .einval (s.ncBlock kind blkIdx above) :=
  failsWith_ite (nbBlockAt_failsWith _ _ _ _ _ _) (nbBlockAt_failsWith _ _ _ _ _ _)

theorem deriveNC_failsWith (s : State) (kind blkIdx : Nat) : FailsWith .einval (s.deriveNC kind blkIdx) :=
  failsWith_ite (failsWith_ok _) (failsWith_bind (ncBlock_failsWith _ _ _ _) fun _ =>
    failsWith_bind (ncBlock_failsWith _ _ _ _) fun _ => failsWith_ok _)

/-! CheckResidualSetup() (43_cavlc.md R245). -/

/-- The values of maxNumCoeff as register contents and as numbers. -/
theorem maxNumCoeff_eq_iff (w : Word) :
    (w = 4 ↔ w.toNat = 4) ∧ (w = 8 ↔ w.toNat = 8) ∧ (w = 15 ↔ w.toNat = 15) ∧ (w = 16 ↔ w.toNat = 16) :=
  ⟨BitVec.toNat_inj.symm, BitVec.toNat_inj.symm, BitVec.toNat_inj.symm, BitVec.toNat_inj.symm⟩

section
variable {s : State} {kind blkIdx : Nat} {store ncx : Bool} {nC : Int}

/-- The nC of a residual command, from A3 with NCX = 1 and derived without, and its checks (43_cavlc.md R245). -/
def State.residualNC (s : State) (kind blkIdx : Nat) (ncx : Bool) : Except Code Int :=
  if ncx then do
    require (-2 ≤ sext32 s.a3 ∧ sext32 s.a3 ≤ 16) .einval
    require (sext32 s.a3 < 0 ↔ kind = 5) .einval
    require ((sext32 s.a3 ≠ -1 ∨ s.a2.toNat = 4) ∧ (sext32 s.a3 ≠ -2 ∨ s.a2.toNat = 8)) .einval
    return sext32 s.a3
  else do
    let nC ← s.deriveNC kind blkIdx
    require (kind ≠ 5 ∨ s.a2.toNat = if s.geom.cat = 1 then 4 else 8) .einval
    return nC

/-- CheckResidualSetup() makes its state checks first, then those of its operands. -/
theorem checkResidualSetup_eq : checkResidualSetup kind store ncx blkIdx s =
    (require (ncx = true ∨ (kindNeeds s.geom.cat kind ∧ s.geom.valid ∧ s.currValid)) .estate >>= fun _ =>
    require (store = false ∨ s.currValid) .estate >>= fun _ =>
    require (kind ≤ 5 ∧ blkIdx < kindRange s.geom.cat kind) .einval >>= fun _ =>
    require ((s.a2.toNat = 4 ∨ s.a2.toNat = 8 ∨ s.a2.toNat = 15 ∨ s.a2.toNat = 16) ∧ s.a0.toNat ≤ s.a1.toNat ∧
      s.a1.toNat ≤ s.a2.toNat - 1) .einval >>= fun _ =>
    require (if kind = 5 then (s.a2.toNat = 4 ∨ s.a2.toNat = 8) ∧ store = false
      else s.a2.toNat = 15 ∨ s.a2.toNat = 16) .einval >>= fun _ =>
    s.residualNC kind blkIdx ncx) := by
  cases ncx <;> rfl

theorem residualNC_given : s.residualNC kind blkIdx true = .ok nC ↔
    nC = s.a3.toInt ∧ -2 ≤ nC ∧ nC ≤ 16 ∧ (nC < 0 ↔ kind = 5) ∧ (nC = -1 → s.a2 = 4) ∧ (nC = -2 → s.a2 = 8) := by
  obtain ⟨h4, h8, -, -⟩ := maxNumCoeff_eq_iff s.a2
  simp only [State.residualNC, if_true, require_bind_eq_ok, h4, h8]
  constructor
  · rintro ⟨⟨hlo, hhi⟩, hkind, ⟨h1, h2⟩, h⟩
    obtain rfl := Except.ok.inj h
    exact ⟨rfl, hlo, hhi, hkind, fun h => h1.resolve_left (not_not_intro h), fun h => h2.resolve_left (not_not_intro h)⟩
  · rintro ⟨rfl, hlo, hhi, hkind, h1, h2⟩
    exact ⟨⟨hlo, hhi⟩, hkind, ⟨Decidable.not_or_of_imp h1, Decidable.not_or_of_imp h2⟩, rfl⟩

theorem residualNC_derived : s.residualNC kind blkIdx false = .ok nC ↔
    s.deriveNC kind blkIdx = .ok nC ∧ (kind = 5 → s.a2 = if s.geom.cat = 1 then 4 else 8) := by
  have hm : (s.a2 = if s.geom.cat = 1 then 4 else 8) ↔ s.a2.toNat = if s.geom.cat = 1 then 4 else 8 := by
    split <;> exact BitVec.toNat_inj.symm
  rw [hm]
  constructor
  · intro h
    obtain ⟨n, hn, h⟩ := bind_eq_ok.1 h
    obtain ⟨hm, h⟩ := require_bind_eq_ok.1 h
    obtain rfl := Except.ok.inj h
    exact ⟨hn, fun h5 => hm.resolve_left (not_not_intro h5)⟩
  · rintro ⟨hn, hm⟩
    exact bind_eq_ok.2 ⟨nC, hn, require_bind_eq_ok.2 ⟨Decidable.not_or_of_imp hm, rfl⟩⟩

/-- The checks of s, e, m and STORE, as the statements say them. -/
theorem residualOperands_iff :
    ((s.a2.toNat = 4 ∨ s.a2.toNat = 8 ∨ s.a2.toNat = 15 ∨ s.a2.toNat = 16) ∧ s.a0.toNat ≤ s.a1.toNat ∧
      s.a1.toNat ≤ s.a2.toNat - 1) ∧ (if kind = 5 then (s.a2.toNat = 4 ∨ s.a2.toNat = 8) ∧ store = false
        else s.a2.toNat = 15 ∨ s.a2.toNat = 16) ↔
    (s.a0.toNat ≤ s.a1.toNat ∧ s.a1.toNat < s.a2.toNat) ∧
      (if kind = 5 then s.a2 = 4 ∨ s.a2 = 8 else s.a2 = 15 ∨ s.a2 = 16) ∧ (store = true → kind ≠ 5) := by
  obtain ⟨h4, h8, h15, h16⟩ := maxNumCoeff_eq_iff s.a2
  rw [h4, h8, h15, h16]
  by_cases h5 : kind = 5
  · rw [if_pos h5, if_pos h5]
    cases store with
    | true => simp [h5]
    | false =>
      simp only [reduceCtorEq, false_implies, and_true]
      omega
  · rw [if_neg h5, if_neg h5]
    simp only [ne_eq, h5, not_false_eq_true, implies_true, and_true]
    omega

theorem checkResidualSetup_eq_ok :
    checkResidualSetup kind store ncx blkIdx s = .ok nC ↔ ResidualLegal s kind store ncx blkIdx nC := by
  simp only [checkResidualSetup_eq, require_bind_eq_ok]
  constructor
  · rintro ⟨hready, hstore, hblock, hrange, hsize, hnC⟩
    obtain ⟨hrange, hsize, h5⟩ := residualOperands_iff.1 ⟨hrange, hsize⟩
    refine ⟨fun h => hready.resolve_left (by simp [h]), fun h => ⟨hstore.resolve_left (by simp [h]), h5 h⟩, hblock,
      hrange, hsize, fun h => ?_, fun h => ?_⟩
    · subst h
      exact residualNC_given.1 hnC
    · subst h
      exact residualNC_derived.1 hnC
  · intro h
    obtain ⟨hrange, hsize⟩ := residualOperands_iff.2 ⟨h.range, h.size, fun hs => (h.store hs).2⟩
    refine ⟨?_, ?_, h.block, hrange, hsize, ?_⟩
    · cases ncx
      · exact .inr (h.setup rfl)
      · exact .inl rfl
    · cases store
      · exact .inl rfl
      · exact .inr (h.store rfl).1
    · cases ncx
      · exact residualNC_derived.2 (h.derived rfl)
      · exact residualNC_given.2 (h.given rfl)

/-! The block a legal setup names. -/

theorem deriveNC_range (h : s.deriveNC kind blkIdx = .ok nC) :
    (kind = 5 → nC = if s.geom.cat = 1 then -1 else -2) ∧ (kind ≠ 5 → 0 ≤ nC) := by
  unfold State.deriveNC at h
  split at h
  · next h5 => exact ⟨fun _ => (Except.ok.inj h).symm, fun h => absurd h5 h⟩
  · next h5 =>
    refine ⟨fun h => absurd h h5, fun _ => ?_⟩
    obtain ⟨a, -, h⟩ := bind_eq_ok.1 h
    obtain ⟨b, -, h⟩ := bind_eq_ok.1 h
    obtain rfl := Except.ok.inj h
    exact Int.natCast_nonneg _

/-- What a legal setup says of nC and maxNumCoeff, however nC was got. -/
theorem ResidualLegal.nC_range (h : ResidualLegal s kind store ncx blkIdx nC) :
    -2 ≤ nC ∧ (nC < 0 → kind = 5) ∧ (nC = -1 → s.a2.toNat = 4) ∧ (nC = -2 → s.a2.toNat = 8) := by
  obtain ⟨h4, h8, -, -⟩ := maxNumCoeff_eq_iff s.a2
  cases ncx with
  | true =>
    obtain ⟨-, hlo, -, hkind, h1, h2⟩ := h.given rfl
    exact ⟨hlo, hkind.1, h4.1 ∘ h1, h8.1 ∘ h2⟩
  | false =>
    obtain ⟨hder, hm⟩ := h.derived rfl
    obtain ⟨h5, hne⟩ := deriveNC_range hder
    by_cases hk : kind = 5
    · have hn := h5 hk
      have hm := hm hk
      split at hn
      · next hcat =>
        rw [if_pos hcat, h4] at hm
        exact ⟨by omega, fun _ => hk, fun _ => hm, by omega⟩
      · next hcat =>
        rw [if_neg hcat, h8] at hm
        exact ⟨by omega, fun _ => hk, by omega, fun _ => hm⟩
    · have := hne hk
      exact ⟨by omega, by omega, by omega, by omega⟩

/-- The range of positions of a legal setup, as `writeResidual_spec` takes it. -/
theorem ResidualLegal.positions (h : ResidualLegal s kind store ncx blkIdx nC) :
    (s.a2.toNat = 4 ∨ s.a2.toNat = 8 ∨ s.a2.toNat = 15 ∨ s.a2.toNat = 16) ∧
      s.a0.toNat + (s.a1.toNat - s.a0.toNat + 1) = s.a1.toNat + 1 ∧ s.a1.toNat + 1 ≤ s.a2.toNat ∧
      s.a1.toNat - s.a0.toNat + 1 ≤ maxTotalCoeff nC := by
  obtain ⟨⟨hm, hle, hlt⟩, -⟩ := residualOperands_iff.2 ⟨h.range, h.size, fun hs => (h.store hs).2⟩
  obtain ⟨-, -, h4, h8⟩ := h.nC_range
  refine ⟨hm, by omega, by omega, ?_⟩
  unfold maxTotalCoeff
  split_ifs <;> omega

/-- TotalCoeff counted over COEF[first..last] (43_cavlc.md R244). -/
theorem coefCount_eq_length (coef : Nat → Word) {first n last : Nat} (h : first + n = last + 1) :
    coefCount coef first last = (nonzeroPositions coef first n).length := by
  have hsplit : List.range (last + 1) = List.range first ++ (List.range n).map (first + ·) := by
    rw [← h, List.range_add]
  have hlow : (List.range first).filter (fun j => decide (first ≤ j ∧ coef j ≠ 0)) = [] := by
    rw [List.filter_eq_nil_iff]
    intro j hj
    simp at hj ⊢
    omega
  rw [coefCount, nonzeroPositions, List.length_reverse, hsplit, List.filter_append, hlow, List.nil_append]
  congr 1
  refine List.filter_congr fun j hj => ?_
  obtain ⟨k, -, rfl⟩ := List.mem_map.1 hj
  simp

/-! The two commands past their checks (43_cavlc.md R245, R246). -/

theorem ruleCvRdres_eq (hm : s.cur.mode = .dec) (h : ResidualLegal s kind store ncx blkIdx nC) :
    ruleCvRdres kind store ncx blkIdx s =
      readResidual s.bufByte s.params.maxLevelPrefix nC s.a0.toNat (s.a1.toNat - s.a0.toNat + 1) s.a2.toNat s.cur >>=
        fun x => .ok { s.storeTotalCoeff store kind blkIdx x.1.tc with
          cur := x.2, coef := x.1.coef, y0 := natWord x.1.tc, y1 := natWord x.1.t1, y2 := intWord nC } := by
  rw [ruleCvRdres, require_pos _ hm, ok_bind, checkResidualSetup_eq_ok.2 h]
  rfl

theorem ruleCvWrres_eq (hm : s.cur.mode = .enc) (h : ResidualLegal s kind store ncx blkIdx nC) :
    ruleCvWrres kind store ncx blkIdx s =
      writeResidual s.params nC s.a0.toNat (s.a1.toNat - s.a0.toNat + 1) s.a2.toNat s.coefAt s.stream >>=
        fun x => .ok { (s.storeTotalCoeff store kind blkIdx x.1.2).setStream x.2 with
          y0 := natWord x.1.2, y1 := natWord x.1.1, y2 := intWord nC } := by
  rw [ruleCvWrres, require_pos _ hm, ok_bind, checkResidualSetup_eq_ok.2 h]
  rfl

/-! A setup that fails (43_cavlc.md R245). -/

/-- The state checks of CheckResidualSetup() fail. -/
def ResidualUnready (s : State) (kind : Nat) (store ncx : Bool) : Prop :=
  (ncx = false ∧ (kindNeeds s.geom.cat kind = false ∨ s.geom.valid = false ∨ s.currValid = false)) ∨
    (store = true ∧ s.currValid = false)

theorem not_residualUnready_iff : ¬ResidualUnready s kind store ncx ↔
    (ncx = true ∨ (kindNeeds s.geom.cat kind ∧ s.geom.valid ∧ s.currValid)) ∧ (store = false ∨ s.currValid) := by
  simp only [ResidualUnready, not_or, not_and_or, Bool.not_eq_true, Bool.not_eq_false]

theorem checkResidualSetup_estate (h : ResidualUnready s kind store ncx) :
    checkResidualSetup kind store ncx blkIdx s = .error .estate := by
  have hnot := mt not_residualUnready_iff.2 (not_not_intro h)
  rw [checkResidualSetup_eq]
  by_cases hsetup : ncx = true ∨ (kindNeeds s.geom.cat kind ∧ s.geom.valid ∧ s.currValid)
  · rw [require_pos _ hsetup, ok_bind, require_neg _ fun hstore => hnot ⟨hsetup, hstore⟩]
    rfl
  · rw [require_neg _ hsetup]
    rfl

theorem residualNC_failsWith : FailsWith .einval (s.residualNC kind blkIdx ncx) :=
  failsWith_ite
    (failsWith_bind (failsWith_require _) fun _ => failsWith_bind (failsWith_require _) fun _ =>
      failsWith_bind (failsWith_require _) fun _ => failsWith_ok _)
    (failsWith_bind (deriveNC_failsWith s kind blkIdx) fun _ => failsWith_bind (failsWith_require _) fun _ =>
      failsWith_ok _)

theorem checkResidualSetup_einval (h : ¬ResidualUnready s kind store ncx)
    (hn : ¬∃ nC, ResidualLegal s kind store ncx blkIdx nC) :
    checkResidualSetup kind store ncx blkIdx s = .error .einval := by
  obtain ⟨hsetup, hstore⟩ := not_residualUnready_iff.1 h
  have hfails : FailsWith .einval (checkResidualSetup kind store ncx blkIdx s) := by
    rw [checkResidualSetup_eq, require_pos _ hsetup, ok_bind, require_pos _ hstore, ok_bind]
    exact failsWith_bind (failsWith_require _) fun _ => failsWith_bind (failsWith_require _) fun _ =>
      failsWith_bind (failsWith_require _) fun _ => residualNC_failsWith
  cases hx : checkResidualSetup kind store ncx blkIdx s with
  | ok nC => exact absurd ⟨nC, checkResidualSetup_eq_ok.1 hx⟩ hn
  | error e => rw [hfails e hx]

/-- Both commands fail as the setup does. -/
theorem exec_residual_error {e : Code} (hf : s.status.fault = false)
    (h : checkResidualSetup kind store ncx blkIdx s = .error e) :
    (s.cur.mode = .dec → exec (.cvRdres kind store ncx blkIdx) s = .next (s.failWith e 0x39)) ∧
      (s.cur.mode = .enc → exec (.cvWrres kind store ncx blkIdx) s = .next (s.failWith e 0x3A)) := by
  constructor
  · intro hm
    refine exec_error (i := .cvRdres kind store ncx blkIdx) nofun hf ?_
    rw [ruleOf, ruleCvRdres, require_pos _ hm, ok_bind, h, error_bind]
  · intro hm
    refine exec_error (i := .cvWrres kind store ncx blkIdx) nofun hf ?_
    rw [ruleOf, ruleCvWrres, require_pos _ hm, ok_bind, h, error_bind]

end

/-! The store of TotalCoeff (10_state.md R44, 43_cavlc.md R220, R245). -/

/-- An MB entry with `n` written to NZ[c][k], as `State.storeNz` writes it. -/
def MbEntry.setNz (e : MbEntry) (c k n : Nat) : MbEntry :=
  { e with nz := e.nz.setIfInBounds (16 * c + k) (BitVec.ofNat 5 n) }

theorem MbEntry.nzAt_setNz (e : MbEntry) {c c' k k' n : Nat} (hc : c ≤ 2) (hk : k < 16) (hk' : k' < 16) (hn : n < 32) :
    (e.setNz c' k' n).nzAt c k = if c = c' ∧ k = k' then n else e.nzAt c k := by
  have hlt : 16 * c + k < 48 := by omega
  have hiff : 16 * c' + k' = 16 * c + k ↔ c = c' ∧ k = k' := by omega
  simp only [MbEntry.nzAt, MbEntry.setNz, Vector.getElem?_eq_getElem hlt, Vector.getElem_setIfInBounds, hiff,
    Option.getD_some]
  split
  · rw [BitVec.toNat_ofNat, Nat.mod_eq_of_lt hn]
  · rfl

theorem kindComponent_eq {kind : Nat} (h : kind ≤ 4) :
    kindComponent kind = if kind = 1 ∨ kind = 3 then 1 else if kind = 2 ∨ kind = 4 then 2 else 0 := by
  interval_cases kind <;> rfl

theorem storeTotalCoeff_of_find {s : State} {kind blkIdx tc : Nat} {e : MbEntry}
    (h : Table.find s.mb s.currMbAddr.toNat = some e) :
    s.storeTotalCoeff true kind blkIdx tc =
      { s with mb := Table.put s.mb s.currMbAddr.toNat (e.setNz (kindComponent kind) blkIdx tc) } := by
  rw [State.storeTotalCoeff, if_pos rfl, State.storeNz, h]
  rfl

end Sys2Proof.Machine

open Sys2Proof Sys2Proof.Machine

/-- Settles O37: `writeResidual_spec` gives the block's bits, which CV_WRRES puts and CV_RDRES reads, and its greatest
level_prefix; a legal setup gives the range of positions it asks for. -/
theorem residualRoundTrip : Obligations.ResidualRoundTrip := by
  intro kind store ncx blkIdx nC s hinv hf hm hlegal
  obtain ⟨hmax, hend, hfit, htc⟩ := hlegal.positions
  have hrange : ∀ j, j < s.a0.toNat + (s.a1.toNat - s.a0.toNat + 1) ↔ j ≤ s.a1.toNat := by omega
  obtain ⟨bs, t1, tc, pre, hlen, ht1, htcEq, hsmall, hwrite, hproto, hread⟩ :=
    writeResidual_spec s.params nC s.a0.toNat (s.a1.toNat - s.a0.toNat + 1) s.a2.toNat s.coefAt hlegal.nC_range.1 hmax
      (by omega) (by omega) htc
  simp only [hrange] at hsmall hread
  refine ⟨bs, t1, tc, pre, hlen, ht1, htcEq.trans (coefCount_eq_length _ hend).symm, hsmall, fun hpre hroom => ?_,
    fun hpre hroom => ?_, fun kind' store' ncx' blkIdx' d r hdf hdm hdlegal h0 h1 h2 hpre hrem => ?_⟩
  · obtain ⟨u, hu, -, happ⟩ := putBits_state hinv hf hm (Nat.le_refl _) hroom
    exact ⟨u, exec_ok (i := .cvWrres kind store ncx blkIdx) nofun hf (by
      rw [ruleOf, ruleCvWrres_eq hm hlegal, hwrite hpre, hu]; rfl), happ⟩
  · obtain ⟨as, has, hwrite⟩ := hproto hpre
    obtain ⟨u, hu, -, -⟩ := putBits_state hinv hf hm has hroom
    exact exec_error (i := .cvWrres kind store ncx blkIdx) nofun hf (by
      rw [ruleOf, ruleCvWrres_eq hm hlegal, hwrite, hu]; rfl)
  · obtain ⟨c, coef, hres, hcon, hcoef⟩ := hread d.bufByte d.params.maxLevelPrefix d.cur r hpre hrem
    refine ⟨c, coef, exec_ok (i := .cvRdres kind' store' ncx' blkIdx') nofun hdf ?_, hcon, hcoef⟩
    rw [ruleOf, ruleCvRdres_eq hdm hdlegal, h0, h1, h2, hres]
    rfl

/-- Settles O36: past the state checks CheckResidualSetup() fails with EINVAL only, and it answers just when the setup
is legal; STORE puts the current macroblock's entry back with one NZ entry changed. -/
theorem residualSetupAndStore : Obligations.ResidualSetupAndStore := by
  refine ⟨fun kind store ncx blkIdx s hf hn => ⟨fun h => exec_residual_error hf (checkResidualSetup_estate h),
    fun h => exec_residual_error hf (checkResidualSetup_einval h hn)⟩, fun s kind blkIdx tc e hk hb htc he => ?_⟩
  rw [storeTotalCoeff_of_find he, ← kindComponent_eq hk]
  exact ⟨rfl, _, e.setNz (kindComponent kind) blkIdx tc, rfl, rfl, Table.find_put_same _ _ _, rfl,
    fun c k hc hlt => MbEntry.nzAt_setNz e hc hlt hb (by omega), fun a ha => Table.find_put_other _ _ _ _ ha⟩

end

