-- ==== Sys2Proof/Proofs/Codewords.lean ====
section
/-!
The CAVLC code tables as `PrefixCode`s, and the commands that read and write one codeword: coeff_token, total_zeros,
run_before and coded_block_pattern (43_cavlc.md R232 to R234, R238 to R243, R247 to R249).
-/

namespace Sys2Proof.Machine

/-! The tables (43_cavlc.md R232, R238, R241, R247). -/

/-- A `PrefixCode` whose symbols are (TrailingOnes, TotalCoeff) pairs, TotalCoeff at most `max` (43_cavlc.md R232). -/
def TokenCode (max : Nat) (t : List (Vlc (Nat × Nat))) : Prop :=
  PrefixCode t ∧ ∀ r ∈ t, r.sym.2 ≤ max ∧ r.sym.1 ≤ min 3 r.sym.2

theorem coeffTokenV0_code : TokenCode 16 coeffTokenV0 := by unfold TokenCode PrefixCode; decide +kernel

theorem coeffTokenV1_code : TokenCode 16 coeffTokenV1 := by unfold TokenCode PrefixCode; decide +kernel

theorem coeffTokenV2_code : TokenCode 16 coeffTokenV2 := by unfold TokenCode PrefixCode; decide +kernel

theorem coeffTokenVM1_code : TokenCode 4 coeffTokenVM1 := by unfold TokenCode PrefixCode; decide +kernel

theorem coeffTokenVM2_code : TokenCode 8 coeffTokenVM2 := by unfold TokenCode PrefixCode; decide +kernel

theorem coeffTokenTable_code (nC : Int) : TokenCode (maxTotalCoeff nC) (coeffTokenTable nC) := by
  unfold coeffTokenTable maxTotalCoeff
  split_ifs
  · omega
  · exact coeffTokenVM1_code
  · exact coeffTokenVM2_code
  · exact coeffTokenV0_code
  · exact coeffTokenV1_code
  · exact coeffTokenV2_code

theorem coeffTokenTable_symbol {nC : Int} (h1 : -2 ≤ nC) (h2 : nC < 8) {t1 tc : Nat} :
    (∃ r ∈ coeffTokenTable nC, r.sym = (t1, tc)) ↔ tc ≤ maxTotalCoeff nC ∧ t1 ≤ min 3 tc := by
  constructor
  · rintro ⟨r, hr, hsym⟩
    have := (coeffTokenTable_code nC).2 r hr
    rwa [hsym] at this
  · rintro ⟨htc, ht1⟩
    obtain ⟨r, hrow⟩ := coeffToken_row nC h1 h2 t1 tc htc ht1
    exact ⟨r, rowOf_mem hrow⟩

theorem totalZeros4x4_prefixCode : ∀ t : Fin 16, PrefixCode (totalZeros4x4 t.val) := by
  unfold PrefixCode
  decide +kernel

theorem totalZeros2x2_prefixCode : ∀ t : Fin 4, PrefixCode (totalZeros2x2 t.val) := by
  unfold PrefixCode
  decide +kernel

theorem totalZeros2x4_prefixCode : ∀ t : Fin 8, PrefixCode (totalZeros2x4 t.val) := by
  unfold PrefixCode
  decide +kernel

theorem totalZerosTable_prefixCode {m t : Nat} (h : t ≤ tzMax m) : PrefixCode (totalZerosTable m t) := by
  unfold totalZerosTable
  unfold tzMax at h
  split_ifs at h ⊢
  · exact totalZeros2x2_prefixCode ⟨t, by omega⟩
  · exact totalZeros2x4_prefixCode ⟨t, by omega⟩
  · exact totalZeros4x4_prefixCode ⟨t, by omega⟩

theorem runBefore_prefixCode : ∀ col : Fin 8, PrefixCode (runBefore col.val) := by
  unfold PrefixCode
  decide +kernel

/-- The number of codeNums of a coded_block_pattern column (43_cavlc.md R247). -/
def cbpCount (cat : Nat) : Nat := if cat = 1 ∨ cat = 2 then 48 else 16

theorem cbpColumn_perm (cat : Nat) (intra : Bool) : (cbpColumn cat intra).Perm (List.range (cbpCount cat)) := by
  have h48 : cbp48Intra.Perm (List.range 48) ∧ cbp48Inter.Perm (List.range 48) := by decide +kernel
  have h16 : cbp16Intra.Perm (List.range 16) ∧ cbp16Inter.Perm (List.range 16) := by decide +kernel
  unfold cbpColumn cbpCount
  split_ifs
  · exact h48.1
  · exact h48.2
  · exact h16.1
  · exact h16.2

theorem cbpColumn_length (cat : Nat) (intra : Bool) : (cbpColumn cat intra).length = cbpCount cat :=
  (cbpColumn_perm cat intra).length_eq.trans List.length_range

theorem mem_cbpColumn {cat v : Nat} {intra : Bool} : v ∈ cbpColumn cat intra ↔ v < cbpCount cat :=
  (cbpColumn_perm cat intra).mem_iff.trans List.mem_range

/-! One codeword (43_cavlc.md R233, R239, R242). -/

theorem readCodeword_mem {α : Type} [DecidableEq α] {rd : Nat → Byte} {t : List (Vlc α)} {row : Vlc α} {max : Nat}
    {c : Cursor} {r : List Bool} (ht : tableOk max t = true) (hrow : row ∈ t) (h : remBits rd c = row.bits ++ r) :
    ∃ d, readCodeword rd t max 0 0 c = .ok (row.sym, d) ∧ Consumed rd c d row.len r := by
  obtain ⟨hread, hpos, hlen⟩ := tableOk_row ht hrow
  exact readCodeword_row hread hlen hpos h

theorem bits_length_le {α : Type} [DecidableEq α] {t : List (Vlc α)} {row : Vlc α} {max : Nat}
    (ht : tableOk max t = true) (hrow : row ∈ t) : row.bits.length ≤ max :=
  (fieldBits_length _ _).trans_le (tableOk_row ht hrow).2.2

/-- A command whose rule writes the codeword of a symbol that has one. -/
theorem exec_writeCodeword {α : Type} [DecidableEq α] {s : State} {i : Instr} {t : List (Vlc α)} {x : α} {max : Nat}
    (hir : i ≠ .reset) (hi : s.Inv) (hf : s.status.fault = false) (hm : s.cur.mode = .enc) (hr : s.HasRoom max)
    (ht : tableOk max t = true) (hx : ∃ row, rowOf t x = some row)
    (h : ruleOf i s = writeCodeword s.params t x s.stream >>= fun u => .ok (s.setStream u)) :
    ∃ u, ∃ row ∈ t, row.sym = x ∧ exec i s = .next (State.complete .ok (s.setStream u)) ∧
      Appended s (s.setStream u) row.bits := by
  obtain ⟨row, hrow⟩ := hx
  obtain ⟨hmem, hsym⟩ := rowOf_mem hrow
  rw [writeCodeword_row hrow] at h
  obtain ⟨u, hexec, happ⟩ := exec_putBits hir hi hf hm (bits_length_le ht hmem) hr h
  exact ⟨u, row, hmem, hsym, hexec, happ⟩

/-! coeff_token (43_cavlc.md R233, R234). -/

theorem readCoeffToken_row {rd : Nat → Byte} {nC : Int} {row : Vlc (Nat × Nat)} {c : Cursor} {r : List Bool}
    (hn : nC < 8) (hrow : row ∈ coeffTokenTable nC) (h : remBits rd c = row.bits ++ r) :
    ∃ d, readCoeffToken rd nC c = .ok (row.sym, d) ∧ Consumed rd c d row.len r := by
  rw [readCoeffToken, if_neg (by omega)]
  exact readCodeword_mem (coeffTokenTable_ok nC) hrow h

/-- The 6-bit code of nC >= 8 (43_cavlc.md R232). -/
theorem readCoeffToken_fixed {rd : Nat → Byte} {nC : Int} {bs : List Bool} {v : Nat} {c : Cursor} {r : List Bool}
    (hn : 8 ≤ nC) (hlen : bs.length = 6) (hv : v = bitsNat bs) (h : remBits rd c = bs ++ r) :
    ∃ d, Consumed rd c d 6 r ∧ readCoeffToken rd nC c =
      if v = 3 then .ok ((0, 0), d)
      else if v % 4 ≤ v / 4 + 1 then .ok ((v % 4, v / 4 + 1), d) else .error .eproto := by
  obtain ⟨d, hread, hcon⟩ := readBits_append hlen h
  have hmin : v % 4 ≤ min 3 (v / 4 + 1) ↔ v % 4 ≤ v / 4 + 1 := by omega
  refine ⟨d, hcon, ?_⟩
  rw [readCoeffToken, if_pos hn, hread, ok_bind, ← hv]
  simp only [require, hmin]
  split_ifs <;> rfl

section
variable {s : State}

theorem ruleCvRdtoken_eq (hm : s.cur.mode = .dec) (hn : -2 ≤ sext32 s.a0 ∧ sext32 s.a0 ≤ 16) : ruleCvRdtoken s =
    readCoeffToken s.bufByte (sext32 s.a0) s.cur >>= fun x =>
      .ok { s with cur := x.2, y0 := natWord x.1.1, y1 := natWord x.1.2 } := by
  rw [ruleCvRdtoken, require_pos _ hm, ok_bind]
  simp only [require_pos _ hn]
  rfl

theorem ruleCvRdtoken_einval (hm : s.cur.mode = .dec) (hn : ¬(-2 ≤ sext32 s.a0 ∧ sext32 s.a0 ≤ 16)) :
    ruleCvRdtoken s = .error .einval := by
  rw [ruleCvRdtoken, require_pos _ hm, ok_bind]
  simp only [require_neg _ hn]
  rfl

/-- CV_RDTOKEN of the 6-bit code: a pair, or EPROTO where it has too many trailing ones. -/
theorem exec_cvRdtoken_fixed {bs r : List Bool} {v : Nat} (hf : s.status.fault = false) (hm : s.cur.mode = .dec)
    (h8 : 8 ≤ sext32 s.a0) (h16 : sext32 s.a0 ≤ 16) (hlen : bs.length = 6) (hr : s.remaining = bs ++ r)
    (hv : v = bitsNat bs) :
    ∃ c, Consumed s.bufByte s.cur c 6 r ∧ exec .cvRdtoken s =
      if v = 3 then .next (State.complete .ok { s with cur := c, y0 := 0, y1 := 0 })
      else if v % 4 ≤ v / 4 + 1 then .next (State.complete .ok { s with
        cur := c, y0 := natWord (v % 4), y1 := natWord (v / 4 + 1) })
      else .next (s.failWith .eproto 0x31) := by
  obtain ⟨c, hcon, hread⟩ := readCoeffToken_fixed h8 hlen hv hr
  have hrule := (ruleCvRdtoken_eq hm ⟨h8.trans' (by decide), h16⟩).trans (congrArg (· >>= _) hread)
  refine ⟨c, hcon, ?_⟩
  split_ifs at hrule ⊢
  · exact exec_ok (i := .cvRdtoken) nofun hf hrule
  · exact exec_ok (i := .cvRdtoken) nofun hf hrule
  · exact exec_error (i := .cvRdtoken) nofun hf hrule

theorem ruleCvWrtoken_eq (hm : s.cur.mode = .enc) (hn : -2 ≤ sext32 s.a0 ∧ sext32 s.a0 ≤ 16)
    (hpair : s.a2.toNat ≤ maxTotalCoeff (sext32 s.a0) ∧ s.a1.toNat ≤ min 3 s.a2.toNat) : ruleCvWrtoken s =
    writeCoeffToken s.params (sext32 s.a0) s.a1.toNat s.a2.toNat s.stream >>= fun u => .ok (s.setStream u) := by
  rw [ruleCvWrtoken, require_pos _ hm, ok_bind]
  simp only [require_pos _ hn, require_pos _ hpair]
  rfl

theorem ruleCvWrtoken_einval (hm : s.cur.mode = .enc) (h : ¬((-2 ≤ sext32 s.a0 ∧ sext32 s.a0 ≤ 16) ∧
    s.a2.toNat ≤ maxTotalCoeff (sext32 s.a0) ∧ s.a1.toNat ≤ min 3 s.a2.toNat)) : ruleCvWrtoken s = .error .einval := by
  rw [ruleCvWrtoken, require_pos _ hm, ok_bind]
  by_cases hn : -2 ≤ sext32 s.a0 ∧ sext32 s.a0 ≤ 16
  · simp only [require_pos _ hn, ok_bind, require_neg _ fun hpair => h ⟨hn, hpair⟩]
    rfl
  · simp only [require_neg _ hn]
    rfl

end

/-! total_zeros (43_cavlc.md R239, R240). -/

theorem readTotalZeros_row {rd : Nat → Byte} {t m : Nat} {row : Vlc Nat} {c : Cursor} {r : List Bool}
    (ht : t ≤ tzMax m) (hrow : row ∈ totalZerosTable m t) (h : remBits rd c = row.bits ++ r) :
    ∃ d, Consumed rd c d row.len r ∧
      readTotalZeros rd t m c = if row.sym + t ≤ m then .ok (row.sym, d) else .error .eproto := by
  obtain ⟨d, hread, hcon⟩ := readCodeword_mem (totalZerosTable_ok m t ht) hrow h
  refine ⟨d, hcon, ?_⟩
  rw [readTotalZeros, hread, ok_bind]
  simp only [require]
  split_ifs <;> rfl

section
variable {s : State}

/-- The operands total_zeros is coded for: maxNumCoeff `m` and tzVlcIndex `t` (43_cavlc.md R239). -/
def TotalZerosLegal (t m : Nat) : Prop := (m = 4 ∨ m = 8 ∨ m = 15 ∨ m = 16) ∧ 1 ≤ t ∧ t ≤ tzMax m

theorem ruleCvRdtz_eq (hm : s.cur.mode = .dec) (h : TotalZerosLegal s.a0.toNat s.a1.toNat) : ruleCvRdtz s =
    readTotalZeros s.bufByte s.a0.toNat s.a1.toNat s.cur >>= fun x => .ok { s with cur := x.2, y0 := natWord x.1 } := by
  rw [ruleCvRdtz, require_pos _ hm, ok_bind]
  simp only [require_pos _ h.1, require_pos _ h.2]
  rfl

theorem ruleCvRdtz_einval (hm : s.cur.mode = .dec) (h : ¬TotalZerosLegal s.a0.toNat s.a1.toNat) :
    ruleCvRdtz s = .error .einval := by
  rw [ruleCvRdtz, require_pos _ hm, ok_bind]
  by_cases hmax : s.a1.toNat = 4 ∨ s.a1.toNat = 8 ∨ s.a1.toNat = 15 ∨ s.a1.toNat = 16
  · simp only [require_pos _ hmax, ok_bind, require_neg _ fun ht => h ⟨hmax, ht⟩]
    rfl
  · simp only [require_neg _ hmax]
    rfl

/-- CV_RDTZ of a codeword of its row, whose total_zeros may be more than the block has room for. -/
theorem exec_cvRdtz_row {row : Vlc Nat} {r : List Bool} (hf : s.status.fault = false) (hm : s.cur.mode = .dec)
    (h : TotalZerosLegal s.a0.toNat s.a1.toNat) (hrow : row ∈ totalZerosTable s.a1.toNat s.a0.toNat)
    (hr : s.remaining = row.bits ++ r) :
    (row.sym + s.a0.toNat ≤ s.a1.toNat → ∃ c, exec .cvRdtz s = .next (State.complete .ok { s with
        cur := c, y0 := natWord row.sym }) ∧ Consumed s.bufByte s.cur c row.len r) ∧
      (s.a1.toNat < row.sym + s.a0.toNat → exec .cvRdtz s = .next (s.failWith .eproto 0x35)) := by
  obtain ⟨c, hcon, hread⟩ := readTotalZeros_row h.2.2 hrow hr
  have hrule := (ruleCvRdtz_eq hm h).trans (congrArg (· >>= _) hread)
  refine ⟨fun htz => ⟨c, exec_ok (i := .cvRdtz) nofun hf ?_, hcon⟩,
    fun htz => exec_error (i := .cvRdtz) nofun hf ?_⟩
  · rw [ruleOf, hrule, if_pos htz]
    rfl
  · rw [ruleOf, hrule, if_neg htz.not_ge]
    rfl

theorem ruleCvWrtz_eq (hm : s.cur.mode = .enc) (h : TotalZerosLegal s.a0.toNat s.a1.toNat)
    (htz : s.a2.toNat + s.a0.toNat ≤ s.a1.toNat) : ruleCvWrtz s =
    writeCodeword s.params (totalZerosTable s.a1.toNat s.a0.toNat) s.a2.toNat s.stream >>= fun u =>
      .ok (s.setStream u) := by
  rw [ruleCvWrtz, require_pos _ hm, ok_bind]
  simp only [require_pos _ (And.intro h.1 (And.intro h.2.1 (And.intro h.2.2 htz)))]
  rfl

theorem ruleCvWrtz_einval (hm : s.cur.mode = .enc)
    (h : TotalZerosLegal s.a0.toNat s.a1.toNat → s.a1.toNat < s.a2.toNat + s.a0.toNat) :
    ruleCvWrtz s = .error .einval := by
  rw [ruleCvWrtz, require_pos _ hm, ok_bind]
  simp only [require_neg _ fun hc : _ ∧ _ ∧ _ ∧ _ => (h ⟨hc.1, hc.2.1, hc.2.2.1⟩).not_ge hc.2.2.2]
  rfl

end

/-! run_before (43_cavlc.md R242, R243). -/

theorem readRunBefore_row {rd : Nat → Byte} {zl : Nat} {row : Vlc Nat} {c : Cursor} {r : List Bool}
    (hrow : row ∈ runBefore (min zl 7)) (h : remBits rd c = row.bits ++ r) :
    ∃ d, Consumed rd c d row.len r ∧
      readRunBefore rd zl c = if row.sym ≤ zl then .ok (row.sym, d) else .error .eproto := by
  obtain ⟨d, hread, hcon⟩ := readCodeword_mem (runBefore_ok zl) hrow h
  refine ⟨d, hcon, ?_⟩
  rw [readRunBefore, hread, ok_bind]
  simp only [require]
  split_ifs <;> rfl

section
variable {s : State}

theorem ruleCvRdrun_eq (hm : s.cur.mode = .dec) (h : 1 ≤ s.a0.toNat ∧ s.a0.toNat ≤ 15) : ruleCvRdrun s =
    readRunBefore s.bufByte s.a0.toNat s.cur >>= fun x => .ok { s with cur := x.2, y0 := natWord x.1 } := by
  rw [ruleCvRdrun, require_pos _ hm, ok_bind, require_pos _ h]
  rfl

theorem ruleCvRdrun_einval (hm : s.cur.mode = .dec) (h : ¬(1 ≤ s.a0.toNat ∧ s.a0.toNat ≤ 15)) :
    ruleCvRdrun s = .error .einval := by
  rw [ruleCvRdrun, require_pos _ hm, ok_bind, require_neg _ h]
  rfl

/-- CV_RDRUN of a codeword of its column, whose run may be longer than the zeros left. -/
theorem exec_cvRdrun_row {row : Vlc Nat} {r : List Bool} (hf : s.status.fault = false) (hm : s.cur.mode = .dec)
    (h : 1 ≤ s.a0.toNat ∧ s.a0.toNat ≤ 15) (hrow : row ∈ runBefore (min s.a0.toNat 7))
    (hr : s.remaining = row.bits ++ r) :
    (row.sym ≤ s.a0.toNat → ∃ c, exec .cvRdrun s = .next (State.complete .ok { s with
        cur := c, y0 := natWord row.sym }) ∧ Consumed s.bufByte s.cur c row.len r) ∧
      (s.a0.toNat < row.sym → exec .cvRdrun s = .next (s.failWith .eproto 0x37)) := by
  obtain ⟨c, hcon, hread⟩ := readRunBefore_row hrow hr
  have hrule := (ruleCvRdrun_eq hm h).trans (congrArg (· >>= _) hread)
  refine ⟨fun hrun => ⟨c, exec_ok (i := .cvRdrun) nofun hf ?_, hcon⟩,
    fun hrun => exec_error (i := .cvRdrun) nofun hf ?_⟩
  · rw [ruleOf, hrule, if_pos hrun]
    rfl
  · rw [ruleOf, hrule, if_neg hrun.not_ge]
    rfl

theorem ruleCvWrrun_eq (hm : s.cur.mode = .enc)
    (h : 1 ≤ s.a0.toNat ∧ s.a0.toNat ≤ 15 ∧ s.a1.toNat ≤ min s.a0.toNat 14) : ruleCvWrrun s =
    writeCodeword s.params (runBefore (min s.a0.toNat 7)) s.a1.toNat s.stream >>= fun u => .ok (s.setStream u) := by
  rw [ruleCvWrrun, require_pos _ hm, ok_bind]
  simp only [require_pos _ h]
  rfl

theorem ruleCvWrrun_einval (hm : s.cur.mode = .enc)
    (h : ¬(1 ≤ s.a0.toNat ∧ s.a0.toNat ≤ 15 ∧ s.a1.toNat ≤ min s.a0.toNat 14)) : ruleCvWrrun s = .error .einval := by
  rw [ruleCvWrrun, require_pos _ hm, ok_bind]
  simp only [require_neg _ h]
  rfl

end

/-! coded_block_pattern (43_cavlc.md R248, R249). -/

/-- `ReadUE()` of the codeword of k (42_expgolomb.md R207). -/
theorem readUE_ueBits {rd : Nat → Byte} {k : Nat} {c : Cursor} {r : List Bool} (hk : k ≤ 2 ^ 32 - 2)
    (h : remBits rd c = ueBits k ++ r) :
    ∃ d, readUE rd c = .ok (k, d) ∧ Consumed rd c d (ueBits k).length r := by
  obtain ⟨m, x, rfl, hx, hval, hbits⟩ := ueBits_info k
  rw [hbits, List.append_assoc] at h
  rw [ueBits_length]
  have hread := readUE_append (log2_codeNum_le hk) hx h
  rwa [← hval] at hread

section
variable {s : State} {intra : Bool} {k : Nat} {c : Cursor}

theorem ruleCvRdcbp_some {v : Nat} (hm : s.cur.mode = .dec) (hread : readUE s.bufByte s.cur = .ok (k, c))
    (hv : (cbpColumn s.geom.cat intra)[k]? = some v) :
    ruleCvRdcbp intra s = .ok { s with cur := c, y0 := natWord v } := by
  rw [ruleCvRdcbp, require_pos _ hm, ok_bind, hread, ok_bind]
  simp only [hv]
  rfl

theorem ruleCvRdcbp_none (hm : s.cur.mode = .dec) (hread : readUE s.bufByte s.cur = .ok (k, c))
    (hv : (cbpColumn s.geom.cat intra)[k]? = none) : ruleCvRdcbp intra s = .error .eproto := by
  rw [ruleCvRdcbp, require_pos _ hm, ok_bind, hread, ok_bind]
  simp only [hv]

theorem ruleCvWrcbp_eq (hm : s.cur.mode = .enc) (h : s.a0.toNat < cbpCount s.geom.cat) : ruleCvWrcbp intra s =
    putBits s.params (ueBits ((cbpColumn s.geom.cat intra).idxOf s.a0.toNat)) s.stream >>= fun u =>
      .ok (s.setStream u) := by
  rw [← cbpColumn_length s.geom.cat intra] at h
  rw [ruleCvWrcbp, require_pos _ hm, ok_bind]
  simp only [require_pos _ h, writeUE_eq]
  rfl

theorem ruleCvWrcbp_einval (hm : s.cur.mode = .enc) (h : cbpCount s.geom.cat ≤ s.a0.toNat) :
    ruleCvWrcbp intra s = .error .einval := by
  rw [← cbpColumn_length s.geom.cat intra] at h
  rw [ruleCvWrcbp, require_pos _ hm, ok_bind]
  simp only [require_neg _ h.not_gt]
  rfl

/-- The codeword of a codeNum of a column is at most 11 bits long. -/
theorem ueBits_length_of_cbp {cat : Nat} (h : k < cbpCount cat) : (ueBits k).length ≤ 11 := by
  have hcount : cbpCount cat ≤ 48 := by unfold cbpCount; split <;> decide
  have : Nat.log2 (k + 1) < 6 := (Nat.log2_lt (by omega)).2 (by omega)
  rw [ueBits_length]
  omega

end

end Sys2Proof.Machine

open Sys2Proof Sys2Proof.Machine

/-- Settles O28: `PrefixCode` is checked table by table, and each symbol's row is looked up. -/
theorem cavlcTablesArePrefixCodes : Obligations.CavlcTablesArePrefixCodes := by
  refine ⟨fun nC h1 h2 => ⟨(coeffTokenTable_code nC).1, fun t1 tc => coeffTokenTable_symbol h1 h2⟩,
    fun m t hm h1 h2 => ⟨totalZerosTable_prefixCode h2, fun tz htz => ?_⟩,
    fun zl h1 h2 => ⟨runBefore_prefixCode ⟨min zl 7, by omega⟩, fun run hrun => ?_⟩,
    fun cat intra => ⟨?_, ?_, fun v => ?_⟩⟩
  · obtain ⟨r, hrow⟩ := totalZeros_row m t tz hm h1 h2 htz
    exact ⟨r, rowOf_mem hrow⟩
  · obtain ⟨r, hrow⟩ := runBefore_row zl run h1 hrun
    exact ⟨r, rowOf_mem hrow⟩
  · exact (cbpColumn_perm cat intra).nodup_iff.2 List.nodup_range
  · exact cbpColumn_length cat intra
  · rw [cbpColumn_length]
    exact mem_cbpColumn

/-- Settles O30: both codes of coeff_token are read bit by bit, the 6-bit one with its check of TrailingOnes. -/
theorem coeffTokenReads : Obligations.CoeffTokenReads := by
  rintro s nC hf hm (rfl : nC = sext32 s.a0)
  refine ⟨fun h1 h2 row hrow r hr => ?_, fun h1 h2 bs r v hlen hr hv => ?_, fun h => ?_⟩
  · have hn : -2 ≤ sext32 s.a0 ∧ sext32 s.a0 ≤ 16 := by omega
    obtain ⟨c, hread, hcon⟩ := readCoeffToken_row h2 hrow hr
    exact ⟨c, exec_ok nofun hf (by rw [ruleOf, ruleCvRdtoken_eq hm hn, hread]; rfl), hcon⟩
  · obtain ⟨c, hcon, hexec⟩ := exec_cvRdtoken_fixed hf hm h1 h2 hlen hr hv
    refine ⟨fun h3 => ⟨c, ?_, hcon⟩, fun h3 hones => ⟨c, ?_, hcon⟩, fun h3 hones => ?_⟩
    · rw [hexec, if_pos h3]
    · rw [hexec, if_neg h3, if_pos hones]
    · rw [hexec, if_neg h3, if_neg hones.not_ge]
  · have hn : ¬(-2 ≤ sext32 s.a0 ∧ sext32 s.a0 ≤ 16) := by omega
    exact exec_error (i := .cvRdtoken) nofun hf (ruleCvRdtoken_einval hm hn)

/-- Settles O31: `writeCoeffToken_spec` gives the bits of the pair, at most 16 of them. -/
theorem coeffTokenWrites : Obligations.CoeffTokenWrites := by
  rintro s nC maxTc hinv hf hm (rfl : nC = sext32 s.a0) (rfl : maxTc = maxTotalCoeff (sext32 s.a0))
  refine ⟨fun h1 h2 htc ht1 hroom => ?_, fun h => ?_⟩
  · obtain ⟨bs, hwrite, hlen, hrow, hfixed, -⟩ := writeCoeffToken_spec s.params (sext32 s.a0) _ _ h1 htc ht1
    have hrule := ruleCvWrtoken_eq hm ⟨h1, h2⟩ ⟨htc, ht1⟩
    rw [hwrite] at hrule
    obtain ⟨u, hexec, happ⟩ := exec_putBits (i := .cvWrtoken) nofun hinv hf hm hlen hroom hrule
    refine ⟨u, bs, hexec, happ, hrow, fun h8 => ?_⟩
    have hzero : s.a2 = 0 ↔ s.a2.toNat = 0 := BitVec.toNat_inj.symm
    simp only [hzero]
    exact hfixed h8
  · exact exec_error (i := .cvWrtoken) nofun hf (ruleCvWrtoken_einval hm (by omega))

/-- Settles O34: a codeword of the row or column is read and its symbol checked; a legal symbol has a codeword. -/
theorem zerosAndRunsReadAndWrite : Obligations.ZerosAndRunsReadAndWrite := by
  constructor
  · rintro s _ _ _ hf rfl rfl rfl
    refine ⟨fun hmax h1 h2 => ?_, fun h => ?_⟩
    · have hlegal : TotalZerosLegal s.a0.toNat s.a1.toNat := ⟨hmax, h1, h2⟩
      exact ⟨fun hm row hrow r hr => exec_cvRdtz_row hf hm hlegal hrow hr,
        fun hinv hm htz hroom => exec_writeCodeword (i := .cvWrtz) nofun hinv hf hm hroom (totalZerosTable_ok _ _ h2)
          (totalZeros_row _ _ _ hmax h1 h2 htz) (ruleCvWrtz_eq hm hlegal htz),
        fun hm htz => exec_error (i := .cvWrtz) nofun hf (ruleCvWrtz_einval hm fun _ => htz)⟩
    · have hlegal : ¬TotalZerosLegal s.a0.toNat s.a1.toNat := by
        unfold TotalZerosLegal tzMax
        omega
      exact ⟨fun hm => exec_error (i := .cvRdtz) nofun hf (ruleCvRdtz_einval hm hlegal),
        fun hm => exec_error (i := .cvWrtz) nofun hf (ruleCvWrtz_einval hm fun hl => absurd hl hlegal)⟩
  · rintro s _ hf rfl
    refine ⟨fun h1 h2 => ⟨fun hm row hrow r hr => exec_cvRdrun_row hf hm ⟨h1, h2⟩ hrow hr,
      fun hinv hm hrun hroom => exec_writeCodeword (i := .cvWrrun) nofun hinv hf hm hroom (runBefore_ok _)
        (runBefore_row _ _ h1 hrun) (ruleCvWrrun_eq hm ⟨h1, h2, hrun⟩),
      fun hm hrun => exec_error (i := .cvWrrun) nofun hf (ruleCvWrrun_einval hm (by omega))⟩,
      fun h => ⟨fun hm => ?_, fun hm => ?_⟩⟩
    · exact exec_error (i := .cvRdrun) nofun hf (ruleCvRdrun_einval hm (by omega))
    · exact exec_error (i := .cvWrrun) nofun hf (ruleCvWrrun_einval hm (by omega))

/-- Settles O35: a column is a permutation, so that the codeNum of each value below its length is there. -/
theorem codedBlockPattern : Obligations.CodedBlockPattern := by
  rintro s intra _ hf rfl
  refine ⟨fun hm k r hk hr => ?_, fun hinv hm hv hroom => ?_,
    fun hm hv => exec_error (i := .cvWrcbp intra) nofun hf (ruleCvWrcbp_einval hm hv)⟩
  · obtain ⟨c, hread, hcon⟩ := readUE_ueBits hk hr
    refine ⟨fun v hv => ⟨c, exec_ok (i := .cvRdcbp intra) nofun hf (ruleCvRdcbp_some hm hread hv), hcon⟩,
      fun hlen => exec_error (i := .cvRdcbp intra) nofun hf (ruleCvRdcbp_none hm hread ?_)⟩
    rw [List.getElem?_eq_none_iff, cbpColumn_length]
    exact hlen
  · have hmem := mem_cbpColumn (intra := intra).2 hv
    have hidx := List.idxOf_lt_length_of_mem hmem
    obtain ⟨u, hexec, happ⟩ := exec_putBits (i := .cvWrcbp intra) nofun hinv hf hm
      (ueBits_length_of_cbp (cbpColumn_length _ _ ▸ hidx)) hroom (ruleCvWrcbp_eq hm hv)
    exact ⟨u, _, List.getElem?_idxOf hmem, hexec, happ⟩

end

