-- ==== Sys2Proof/Proofs/Levels.lean ====
section
/-!
Levels: CV_RDLEVEL, CV_WRLEVEL and their round trip (43_cavlc.md R235 to R237, R250).
-/

namespace Sys2Proof.Machine

/-! The level arithmetic as the statements write it (43_cavlc.md R235). -/

theorem levelCodeOf_eq {sL p suffix code : Nat} {off : Bool}
    (h : code + (if 16 ≤ p then 4096 else 0) = min 15 p * 2 ^ sL + suffix + (if 15 ≤ p ∧ sL = 0 then 15 else 0) +
      (if 16 ≤ p then 2 ^ (p - 3) else 0) + (if off then 2 else 0)) : levelCodeOf sL off p suffix = code := by
  unfold levelCodeOf
  by_cases h16 : 16 ≤ p
  · have hpow : 2 ^ 13 ≤ 2 ^ (p - 3) := Nat.pow_le_pow_right (by decide) (by omega)
    simp only [if_pos h16, ge_iff_le] at h ⊢
    omega
  · simp only [if_neg h16, ge_iff_le] at h ⊢
    omega

theorem levelValOf_eq (code : Nat) :
    levelValOf code = if code % 2 = 0 then ((code : Int) + 2) / 2 else -(((code : Int) + 1) / 2) := by
  unfold levelValOf
  split <;> omega

theorem nextSuffixLength_eq (sL : Nat) (v : Int) : nextSuffixLength sL v =
    if 3 * 2 ^ (max 1 sL - 1) < v.natAbs ∧ max 1 sL < 6 then max 1 sL + 1 else max 1 sL := by
  have hmax : (if sL = 0 then 1 else sL) = max 1 sL := by split <;> omega
  unfold nextSuffixLength
  simp only [hmax, gt_iff_lt]

theorem levelCodeFor_le (off : Bool) (v : Int) : levelCodeFor off v ≤ 2 * v.natAbs - 1 := by
  unfold levelCodeFor
  split <;> split <;> omega

/-! The bits of a level (43_cavlc.md R235). -/

section
variable {sL : Nat} {off : Bool} {v : Int}

/-- What the bits of a level are: `pre` zeros, a one and level_suffix, which give the level code back, a level_prefix of
at most 15 being enough for a small level. -/
theorem levelBits_fields (hsL : sL ≤ 6) (hv : v.natAbs ≤ 2 ^ 31) : ∃ pre suffix,
    (levelFields sL (levelCodeFor off v)).1 = pre ∧ suffix < 2 ^ levelSuffixSize sL pre ∧
      levelBits sL off v = List.replicate pre false ++ true :: fieldBits suffix (levelSuffixSize sL pre) ∧
      levelCodeOf sL false pre suffix = levelCodeFor off v ∧ (v.natAbs ≤ 2063 → pre ≤ 15) := by
  have hle := levelCodeFor_le off v
  obtain ⟨pre, size, suffix, hfields, rfl, hsuffix, hcode, hsmall⟩ :=
    levelFields_spec sL (levelCodeFor off v) hsL (by omega)
  exact ⟨pre, suffix, by rw [hfields], hsuffix, by rw [levelBits, hfields], hcode, fun h => hsmall (by omega)⟩

theorem levelBits_length_le (hsL : sL ≤ 6) (hv : v.natAbs ≤ 2 ^ 31)
    (hpre : (levelFields sL (levelCodeFor off v)).1 ≤ 31) : (levelBits sL off v).length ≤ 60 := by
  obtain ⟨pre, suffix, rfl, -, hbits, -⟩ := levelBits_fields (off := off) hsL hv
  rw [hbits, List.length_append, List.length_replicate, List.length_cons, fieldBits_length]
  unfold levelSuffixSize
  split_ifs <;> omega

theorem levelPrefix_le_of_small (hsL : sL ≤ 6) (hv : v.natAbs ≤ 2063) :
    (levelFields sL (levelCodeFor off v)).1 ≤ 15 := by
  obtain ⟨pre, suffix, rfl, -, -, -, hsmall⟩ := levelBits_fields (off := off) hsL (hv.trans (by decide))
  exact hsmall hv

/-- The bits of a level are read back as it (43_cavlc.md R235, R250). -/
theorem readLevel_levelBits {rd : Nat → Byte} {maxPrefix : Nat} {c : Cursor} {r : List Bool} (hsL : sL ≤ 6)
    (hv : v.natAbs ≤ 2 ^ 31) (h0 : v ≠ 0) (ho : ¬(off = true ∧ v.natAbs = 1))
    (hpre : (levelFields sL (levelCodeFor off v)).1 ≤ maxPrefix) (h : remBits rd c = levelBits sL off v ++ r) :
    ∃ d, readLevel rd maxPrefix sL off c = .ok ((v, nextSuffixLength sL v), d) ∧
      Consumed rd c d (levelBits sL off v).length r := by
  obtain ⟨pre, suffix, rfl, hsuffix, hbits, hcode, -⟩ := levelBits_fields (off := off) hsL hv
  rw [hbits, List.append_assoc] at h
  obtain ⟨d, hread, hcon⟩ := readLevel_append (off := off) hpre (fieldBits_length _ _) h
  rw [bitsNat_fieldBits _ _ hsuffix, levelCodeOf_off, hcode, levelValOf_codeFor off v h0 ho] at hread
  refine ⟨d, hread, ?_⟩
  rw [hbits, List.length_append, List.length_replicate, List.length_cons]
  rwa [Nat.add_right_comm] at hcon

end

/-! The two commands (43_cavlc.md R236, R237). -/

section
variable {s : State}

theorem ruleCvRdlevel_eq (hm : s.cur.mode = .dec) (h : s.a0.toNat ≤ 6 ∧ s.a1.toNat ≤ 1) : ruleCvRdlevel s =
    readLevel s.bufByte s.params.maxLevelPrefix s.a0.toNat (decide (s.a1 = 1)) s.cur >>= fun x =>
      .ok { s with cur := x.2, y0 := intWord x.1.1, y1 := natWord x.1.2 } := by
  rw [ruleCvRdlevel, require_pos _ hm, ok_bind, require_pos _ h]
  rfl

theorem ruleCvRdlevel_einval (hm : s.cur.mode = .dec) (h : ¬(s.a0.toNat ≤ 6 ∧ s.a1.toNat ≤ 1)) :
    ruleCvRdlevel s = .error .einval := by
  rw [ruleCvRdlevel, require_pos _ hm, ok_bind, require_neg _ h]
  rfl

theorem natAbs_sext32_le (w : Word) : (sext32 w).natAbs ≤ 2 ^ 31 := by
  have := BitVec.le_toInt w
  have := BitVec.toInt_lt (x := w)
  unfold sext32
  omega

/-- CV_RDLEVEL over the bits of the level a register holds. -/
theorem exec_cvRdlevel_levelBits {w : Word} {r : List Bool} (hf : s.status.fault = false) (hm : s.cur.mode = .dec)
    (ha : s.a0.toNat ≤ 6 ∧ s.a1.toNat ≤ 1) (h0 : sext32 w ≠ 0) (hone : ¬(s.a1 = 1 ∧ (sext32 w).natAbs = 1))
    (hpre : (levelFields s.a0.toNat (levelCodeFor (decide (s.a1 = 1)) (sext32 w))).1 ≤ s.params.maxLevelPrefix)
    (hr : s.remaining = levelBits s.a0.toNat (decide (s.a1 = 1)) (sext32 w) ++ r) :
    ∃ c, exec .cvRdlevel s = .next (State.complete .ok { s with
        cur := c, y0 := w, y1 := natWord (nextSuffixLength s.a0.toNat (sext32 w)) }) ∧
      Consumed s.bufByte s.cur c (levelBits s.a0.toNat (decide (s.a1 = 1)) (sext32 w)).length r := by
  have hw : intWord (sext32 w) = w := BitVec.ofInt_toInt
  obtain ⟨c, hread, hcon⟩ := readLevel_levelBits ha.1 (natAbs_sext32_le w) h0 (by simpa using hone) hpre hr
  refine ⟨c, exec_ok (i := .cvRdlevel) nofun hf ?_, hcon⟩
  rw [ruleOf, ruleCvRdlevel_eq hm ha, hread, ok_bind, hw]

/-- The operands CV_WRLEVEL takes (43_cavlc.md R237). -/
def WrlevelLegal (s : State) : Prop :=
  (s.a0.toNat ≤ 6 ∧ s.a1.toNat ≤ 1 ∧ sext32 s.a2 ≠ 0) ∧ ¬(s.a1 = 1 ∧ (sext32 s.a2).natAbs = 1)

theorem wrlevelLegal_iff : WrlevelLegal s ↔
    s.a0.toNat ≤ 6 ∧ s.a1.toNat ≤ 1 ∧ s.a2 ≠ 0 ∧ ¬(s.a1 = 1 ∧ s.a2.toInt.natAbs = 1) := by
  have hzero : s.a2 = 0 ↔ sext32 s.a2 = 0 := BitVec.toInt_inj.symm
  rw [WrlevelLegal, ne_eq s.a2, hzero, and_assoc, and_assoc]
  rfl

theorem ruleCvWrlevel_eq (hm : s.cur.mode = .enc) (h : WrlevelLegal s) : ruleCvWrlevel s =
    writeLevel s.params s.a0.toNat (decide (s.a1 = 1)) (sext32 s.a2) s.stream >>= fun x =>
      .ok { s.setStream x.2 with y1 := natWord x.1 } := by
  rw [ruleCvWrlevel, require_pos _ hm, ok_bind]
  simp only [require_pos _ h.1, require_pos _ h.2]
  rfl

theorem ruleCvWrlevel_einval (hm : s.cur.mode = .enc) (h : ¬WrlevelLegal s) : ruleCvWrlevel s = .error .einval := by
  rw [ruleCvWrlevel, require_pos _ hm, ok_bind]
  by_cases hops : s.a0.toNat ≤ 6 ∧ s.a1.toNat ≤ 1 ∧ sext32 s.a2 ≠ 0
  · simp only [require_pos _ hops, ok_bind, require_neg _ fun hone => h ⟨hops, hone⟩]
    rfl
  · simp only [require_neg _ hops]
    rfl

theorem State.Inv.maxLevelPrefix_range (h : s.Inv) : 15 ≤ s.params.maxLevelPrefix ∧ s.params.maxLevelPrefix ≤ 31 := by
  have := h.params
  simp [Params.wf] at this
  omega

end

end Sys2Proof.Machine

open Sys2Proof Sys2Proof.Machine

/-- Settles O32: `readLevel_append` reads the code, and the statement's arithmetic is that of the rule. -/
theorem levelReads : Obligations.LevelReads := by
  intro s hf hm
  refine ⟨?_, fun r h0 h1 hr => ?_, fun h => exec_error (i := .cvRdlevel) nofun hf (ruleCvRdlevel_einval hm (by omega))⟩
  · rintro _ p _ code _ suffix r rfl hsL ha1 hp rfl hlen hr hcode rfl
    obtain ⟨c, hread, hcon⟩ := readLevel_append (off := decide (s.a1 = 1)) hp hlen hr
    rw [levelCodeOf_eq (code := code) (by simpa only [decide_eq_true_eq] using hcode), levelValOf_eq,
      nextSuffixLength_eq] at hread
    rw [hlen] at hcon
    exact ⟨c, exec_ok (i := .cvRdlevel) nofun hf (by rw [ruleOf, ruleCvRdlevel_eq hm ⟨hsL, ha1⟩, hread]; rfl), hcon⟩
  · refine exec_error (i := .cvRdlevel) nofun hf ?_
    rw [ruleOf, ruleCvRdlevel_eq hm ⟨h0, h1⟩, readLevel, readZeroRun_long _ _ _ hr]
    rfl

/-- Settles O33: CV_WRLEVEL puts `levelBits` of its level, and those are read back as it. -/
theorem levelRoundTrip : Obligations.LevelRoundTrip := by
  rintro s pre hinv hf hm (rfl : pre = (levelFields s.a0.toNat (levelCodeFor (decide (s.a1 = 1)) (sext32 s.a2))).1)
  refine ⟨fun h0 h1 h2 hone => ?_, fun h => exec_error (i := .cvWrlevel) nofun hf (ruleCvWrlevel_einval hm ?_)⟩
  · have hlegal : WrlevelLegal s := wrlevelLegal_iff.2 ⟨h0, h1, h2, hone⟩
    have hrule := ruleCvWrlevel_eq hm hlegal
    rw [writeLevel_eq] at hrule
    refine ⟨fun hpre hroom => ?_, fun hpre => exec_error (i := .cvWrlevel) nofun hf ?_,
      fun h => (levelPrefix_le_of_small h0 h).trans hinv.maxLevelPrefix_range.1⟩
    · have hlen := levelBits_length_le h0 (natAbs_sext32_le s.a2) (hpre.trans hinv.maxLevelPrefix_range.2)
      obtain ⟨u, hu, -, happ⟩ := putBits_state hinv hf hm hlen hroom
      rw [if_pos hpre, hu] at hrule
      refine ⟨u, _, nextSuffixLength s.a0.toNat (sext32 s.a2), exec_ok (i := .cvWrlevel) nofun hf hrule, happ,
        fun d r hdf hdm ha0 ha1 hmax hr => ?_⟩
      simp only [← ha0, ← ha1] at hr hpre h0 h1 hone ⊢
      exact exec_cvRdlevel_levelBits hdf hdm ⟨h0, h1⟩ hlegal.1.2.2 hone (hmax ▸ hpre) hr
    · rw [ruleOf, hrule, if_neg hpre.not_ge]
      rfl
  · rw [wrlevelLegal_iff]
    rintro ⟨h0, h1, h2, hone⟩
    rcases h with h | h | h | h
    · exact h.not_ge h0
    · exact h.not_ge h1
    · exact h2 h
    · exact hone h

end

