-- ==== Sys2Proof/Proofs/NeighbourCounts.lean ====
section
/-!
CV_NC: the neighbouring blocks MB_NBBLK names, their counts, and nC (43_cavlc.md R220, R221, R231;
46_mb_addressing.md R336 to R345).
-/

namespace Sys2Proof.Machine

/-! Block kinds (43_cavlc.md R220). -/

theorem kindNeeds_eq (cat kind : Nat) : kindNeeds cat kind =
    decide ((kind = 1 ∨ kind = 2 → cat = 3) ∧ (kind = 3 ∨ kind = 4 ∨ kind = 5 → cat = 1 ∨ cat = 2)) := by
  match kind with
  | 0 | 1 | 2 | 3 | 4 | 5 => simp [kindNeeds]
  | n + 6 => simp [kindNeeds]

/-- The chroma kinds that have blocks in the picture need CHROMA_ARRAY_TYPE 1 or 2. -/
theorem chromaKind_cat {cat kind : Nat} (hneeds : kindNeeds cat kind = true) (hk : 2 < kind) (hk5 : kind ≤ 5) :
    cat = 1 ∨ cat = 2 := by
  rw [kindNeeds_eq, decide_eq_true_eq] at hneeds
  exact hneeds.2 (by omega)

theorem kindRange_eq {cat kind : Nat} (hneeds : kindNeeds cat kind = true) (hk : kind ≤ 5) :
    kindRange cat kind = if kind ≤ 2 then 16 else if kind = 5 then 1 else if cat = 1 then 4 else 8 := by
  by_cases h2 : kind ≤ 2
  · interval_cases kind <;> rfl
  · have hcat := chromaKind_cat hneeds (by omega) hk
    have hkind : kind = 3 ∨ kind = 4 ∨ kind = 5 := by omega
    rcases hkind with rfl | rfl | rfl
    · rcases hcat with rfl | rfl <;> rfl
    · rcases hcat with rfl | rfl <;> rfl
    · rfl

/-! The macroblock that covers a location (46_mb_addressing.md R336, R338, R339). -/

section
variable {s : State}

/-- The covering macroblock of a location, in either addressing mode, as `State.nbLoc` takes it. -/
def State.covering (s : State) (maxH : Nat) (r : Region) (yN : Int) : Covering :=
  if s.geom.mbaffFrame then s.mbaffCovering maxH r yN else s.plainCovering r yN

theorem State.avail_lt {a : Int} (h : s.avail a = true) : a.toNat < s.currMbAddr.toNat := by
  simp only [State.avail, Bool.and_eq_true, decide_eq_true_eq] at h
  omega

theorem State.mbaffCovering_addr {maxH : Nat} {r : Region} {yN : Int} (h : (s.mbaffCovering maxH r yN).avail = true) :
    s.avail (s.mbaffCovering maxH r yN).addr = true ∨ (s.mbaffCovering maxH r yN).addr = s.currMbAddr.toNat := by
  cases r with
  | left => exact .inl (Bool.and_eq_true_iff.1 h).2
  | above =>
    left
    simp only [State.mbaffCovering] at h ⊢
    split at h
    · exact (Bool.and_eq_true_iff.1 h).2
    · exact h
    · split_ifs at h ⊢
      · exact (Bool.and_eq_true_iff.1 h).2
      · exact (Bool.and_eq_true_iff.1 h).2
    · exact (Bool.and_eq_true_iff.1 h).2
  | current => exact .inr rfl
  | outside => exact absurd h Bool.false_ne_true

theorem State.plainCovering_addr {r : Region} {yN : Int} (h : (s.plainCovering r yN).avail = true) :
    s.avail (s.plainCovering r yN).addr = true ∨ (s.plainCovering r yN).addr = s.currMbAddr.toNat := by
  cases r with
  | left =>
    simp only [State.plainCovering, State.leftMb] at h ⊢
    split_ifs at h ⊢
    · exact .inl (Bool.and_eq_true_iff.1 h).1
    · exact .inl (Bool.and_eq_true_iff.1 h).1
  | above =>
    simp only [State.plainCovering, State.aboveMb] at h ⊢
    split_ifs at h ⊢
    · exact .inl h
    · exact .inl h
  | current => exact .inr rfl
  | outside => exact absurd h Bool.false_ne_true

/-- The address of an available macroblock fits Y0: it is at most CurrMbAddr. -/
theorem State.covering_addr_lt {maxH : Nat} {r : Region} {yN : Int} (h : (s.covering maxH r yN).avail = true) :
    (s.covering maxH r yN).addr.toNat < 2 ^ 32 := by
  have hcurr := s.currMbAddr.isLt
  have hcases : s.avail (s.covering maxH r yN).addr = true ∨ (s.covering maxH r yN).addr = s.currMbAddr.toNat := by
    unfold State.covering at h ⊢
    split_ifs at h ⊢
    · exact s.mbaffCovering_addr h
    · exact s.plainCovering_addr h
  rcases hcases with ha | ha
  · exact (s.avail_lt ha).trans hcurr
  · rw [ha]
    exact hcurr

theorem mbaffLeft_row_ge {frame top field : Bool} {maxH : Nat} {a yN : Int} (h : -1 ≤ yN) :
    -2 ≤ (mbaffLeft frame top field maxH a yN).2 := by
  unfold mbaffLeft
  repeat' split
  all_goals
    dsimp only
    omega

theorem State.mbaffCovering_row_ge {maxH : Nat} {r : Region} {yN : Int} (h : -1 ≤ yN) :
    -2 ≤ (s.mbaffCovering maxH r yN).yM := by
  cases r with
  | left => exact mbaffLeft_row_ge h
  | above =>
    simp only [State.mbaffCovering]
    repeat' split
    all_goals
      dsimp only
      omega
  | current => exact h.trans' (by decide)
  | outside => exact (by decide : (-2 : Int) ≤ 0)

/-- Next to a block the row in the covering macroblock is at most two above it (Table 6-4's row 2 * yN). -/
theorem State.covering_row_ge {maxH : Nat} {r : Region} {yN : Int} (h : -1 ≤ yN) : -2 ≤ (s.covering maxH r yN).yM := by
  have hplain : -2 ≤ (s.plainCovering r yN).yM := by
    cases r with
    | left | above | current => exact h.trans' (by decide)
    | outside => exact (by decide : (-2 : Int) ≤ 0)
  unfold State.covering
  split
  · exact s.mbaffCovering_row_ge h
  · exact hplain

/-! The neighbour of a block (46_mb_addressing.md R338 to R345). -/

theorem State.nbLoc_of_classify {plane : Plane} {maxW maxH : Nat} {xN yN : Int} {r : Region}
    (hsize : planeSize s.geom plane = (maxW, maxH)) (hr : classify maxW maxH xN yN = .ok r) :
    s.nbLoc plane xN yN = .ok (if (s.covering maxH r yN).avail then
      ⟨some (s.covering maxH r yN).addr.toNat, ruleRem (xN + maxW) maxW,
        ruleRem ((s.covering maxH r yN).yM + maxH) maxH⟩ else ⟨none, 0, 0⟩) := by
  simp only [State.nbLoc, hsize, hr, ok_bind]
  exact (apply_ite Except.ok _ _ _).symm

theorem State.nbBlockAt_eq (plane : Plane) (idx : Nat → Nat → Nat) (above : Bool) (x y : Nat) :
    s.nbBlockAt plane idx above x y = s.nbLoc plane (nbOffset above x y).1 (nbOffset above x y).2 >>= fun n =>
      .ok ⟨n.addr, if n.addr.isSome then idx n.xW n.yW else 0⟩ := by
  cases above <;> rfl

/-- The regions that are answered (46_mb_addressing.md R338). -/
theorem classify_ok {maxW maxH : Nat} {xN yN : Int} (hw : xN < maxW) (h : 0 ≤ xN ∨ 0 ≤ yN) :
    ∃ r, classify maxW maxH xN yN = .ok r := by
  unfold classify
  split_ifs
  · omega
  · exact ⟨_, rfl⟩
  · exact ⟨_, rfl⟩
  · exact ⟨_, rfl⟩
  · omega
  · exact ⟨_, rfl⟩

theorem ruleRem_lt {x : Int} {m : Nat} (hx : 0 ≤ x) (hm : 0 < m) : ruleRem x m < m := by
  rw [ruleRem, if_pos hx]
  exact Nat.mod_lt _ hm

/-- A location next to a block of the macroblock has an answer: an address that fits a register, and a place in the
covering macroblock. -/
theorem State.nbLoc_beside {plane : Plane} {maxW maxH : Nat} {xN yN : Int}
    (hsize : planeSize s.geom plane = (maxW, maxH)) (hW : 1 ≤ maxW) (hH : 2 ≤ maxH) (hx : -1 ≤ xN)
    (hw : xN < maxW) (hy : -1 ≤ yN) (h : 0 ≤ xN ∨ 0 ≤ yN) :
    ∃ n, s.nbLoc plane xN yN = .ok n ∧ (∀ a, n.addr = some a → a < 2 ^ 32) ∧ n.xW < maxW ∧ n.yW < maxH := by
  obtain ⟨r, hr⟩ := classify_ok (maxH := maxH) hw h
  refine ⟨_, s.nbLoc_of_classify hsize hr, ?_⟩
  split
  · next havail =>
    have hrow := s.covering_row_ge (maxH := maxH) (r := r) hy
    refine ⟨fun a ha => ?_, ruleRem_lt (by omega) hW, ruleRem_lt (by omega) (by omega)⟩
    obtain rfl := Option.some.inj ha
    exact s.covering_addr_lt havail
  · exact ⟨nofun, hW, Nat.lt_of_lt_of_le (by decide) hH⟩

theorem State.nbBlockAt_ok {plane : Plane} {idx : Nat → Nat → Nat} {above : Bool} {maxW maxH x y : Nat}
    (hsize : planeSize s.geom plane = (maxW, maxH)) (hH : 2 ≤ maxH) (hx : x < maxW)
    (hidx : ∀ xW yW, xW < maxW → yW < maxH → idx xW yW < 2 ^ 32) :
    ∃ b, s.nbBlockAt plane idx above x y = .ok b ∧ (∀ a, b.addr = some a → a < 2 ^ 32) ∧ b.blk < 2 ^ 32 := by
  have hloc : ∃ n, s.nbLoc plane (nbOffset above x y).1 (nbOffset above x y).2 = .ok n ∧
      (∀ a, n.addr = some a → a < 2 ^ 32) ∧ n.xW < maxW ∧ n.yW < maxH := by
    have hoff : -1 ≤ (nbOffset above x y).1 ∧ (nbOffset above x y).1 < maxW ∧ -1 ≤ (nbOffset above x y).2 ∧
        (0 ≤ (nbOffset above x y).1 ∨ 0 ≤ (nbOffset above x y).2) := by
      cases above <;> simp [nbOffset] <;> omega
    obtain ⟨hx1, hxW, hy1, hor⟩ := hoff
    exact s.nbLoc_beside hsize (by omega) hH hx1 hxW hy1 hor
  obtain ⟨n, hn, haddr, hxW, hyW⟩ := hloc
  refine ⟨⟨n.addr, if n.addr.isSome then idx n.xW n.yW else 0⟩, ?_, haddr, ?_⟩
  · rw [s.nbBlockAt_eq, hn, ok_bind]
  · dsimp only
    split
    · exact hidx _ _ hxW hyW
    · decide

/-- The kind of MB_NBBLK whose blocks DeriveNC asks about (43_cavlc.md R221). -/
theorem State.ncBlock_eq_nbBlk (kind idx : Nat) (above : Bool) :
    s.ncBlock kind idx above = s.nbBlk (if kind ≤ 2 then 0 else 1) idx above := by
  unfold State.ncBlock State.nbBlk
  split <;> rfl

/-- MbWidthC and MbHeightC where there are chroma blocks (10_state.md R43). -/
theorem chroma_planeSize {g : Geometry} (hcat : g.cat = 1 ∨ g.cat = 2) :
    planeSize g .chroma = (8, if g.cat = 1 then 8 else 16) := by
  rcases hcat with h | h <;> simp [planeSize, Geometry.mbWidthC, Geometry.mbHeightC, h]

theorem State.nbBlk_ok {kind idx : Nat} {above : Bool}
    (hkind : kind = 0 ∨ kind = 1 ∧ (s.geom.cat = 1 ∨ s.geom.cat = 2)) :
    ∃ b, s.nbBlk kind idx above = .ok b ∧ (∀ a, b.addr = some a → a < 2 ^ 32) ∧ b.blk < 2 ^ 32 := by
  rcases hkind with rfl | ⟨rfl, hcat⟩
  · exact s.nbBlockAt_ok (plane := .luma) rfl (by decide) (by omega) fun xW yW hx hy => by
      unfold luma4x4Idx
      omega
  · exact s.nbBlockAt_ok (chroma_planeSize hcat) (by split <;> decide) (by omega) fun xW yW hx hy => by
      unfold chroma4x4Idx
      split at hy <;> omega

/-- MB_NBBLK's registers name the block (46_mb_addressing.md R345). -/
theorem State.nbblkNames_of {dir : Bool} {kind idx : Nat} {b : NbBlock} (hf : s.status.fault = false)
    (hready : s.geom.valid = true ∧ s.currValid = true)
    (hkind : kind = 0 ∨ kind = 1 ∧ (s.geom.cat = 1 ∨ s.geom.cat = 2)) (hidx : idx < nbBlkRange s.geom kind)
    (hb : s.nbBlk kind idx dir = .ok b) (haddr : ∀ a, b.addr = some a → a < 2 ^ 32) (hblk : b.blk < 2 ^ 32) :
    s.NbblkNames dir kind idx b := by
  have hrule : ruleMbNbblk dir kind idx s =
      .ok { s with y0 := nbAddrWord b.addr, y1 := boolWord b.addr.isSome, y2 := natWord b.blk } := by
    rw [ruleMbNbblk, require_pos _ hready, ok_bind, require_pos _ (by omega), ok_bind, require_pos _ (by omega),
      ok_bind, require_pos _ hidx, ok_bind, hb]
    rfl
  refine ⟨_, exec_ok (i := .mbNbblk dir kind idx) nofun hf hrule, hf, ?_⟩
  cases hopt : b.addr with
  | none => exact .inl ⟨rfl, rfl⟩
  | some a =>
    refine .inr ⟨rfl, congrArg some ?_, ?_⟩
    · exact (Nat.mod_eq_of_lt (haddr a hopt)).symm
    · exact (Nat.mod_eq_of_lt hblk).symm

/-! nC from the counts (43_cavlc.md R221, R231). -/

section
variable {kind k : Nat} (hk : k = if kind ≤ 2 then 0 else 1) (hneeds : kindNeeds s.geom.cat kind = true) (h5 : kind < 5)
include hk hneeds h5

theorem nbBlkKind_of_kind : k = 0 ∨ k = 1 ∧ (s.geom.cat = 1 ∨ s.geom.cat = 2) := by
  split at hk
  · exact .inl hk
  · exact .inr ⟨hk, chromaKind_cat hneeds (by omega) h5.le⟩

theorem nbBlkRange_of_kind : nbBlkRange s.geom k = kindRange s.geom.cat kind := by
  rw [kindRange_eq hneeds h5.le]
  split at hk
  · next h2 => rw [hk, if_pos h2]; rfl
  · next h2 =>
    rcases chromaKind_cat hneeds (by omega) h5.le with h | h <;>
      simp [nbBlkRange, Geometry.mbHeightC, hk, h2, h5.ne, h]

/-- DeriveNC of a block that is no chroma DC block: the two blocks MB_NBBLK names, and nC from their counts. -/
theorem State.deriveNC_of_blocks {idx : Nat} (hf : s.status.fault = false)
    (hready : s.geom.valid = true ∧ s.currValid = true) (hidx : idx < kindRange s.geom.cat kind) :
    ∃ a b, s.NbblkNames false k idx a ∧ s.NbblkNames true k idx b ∧ s.deriveNC kind idx =
      .ok (combineCounts (s.nbCount (kindComponent kind) a) (s.nbCount (kindComponent kind) b)) := by
  have hkind := nbBlkKind_of_kind hk hneeds h5
  rw [← nbBlkRange_of_kind hk hneeds h5] at hidx
  obtain ⟨a, ha, haddrA, hblkA⟩ := s.nbBlk_ok (idx := idx) (above := false) hkind
  obtain ⟨b, hb, haddrB, hblkB⟩ := s.nbBlk_ok (idx := idx) (above := true) hkind
  refine ⟨a, b, s.nbblkNames_of hf hready hkind hidx ha haddrA hblkA,
    s.nbblkNames_of hf hready hkind hidx hb haddrB hblkB, ?_⟩
  rw [State.deriveNC, if_neg h5.ne, s.ncBlock_eq_nbBlk, s.ncBlock_eq_nbBlk, ← hk, ha, hb]
  rfl

end

theorem ruleCvNc_eq {kind idx : Nat} (hneeds : kindNeeds s.geom.cat kind = true)
    (hready : s.geom.valid = true ∧ s.currValid = true) (hblock : kind ≤ 5 ∧ idx < kindRange s.geom.cat kind) :
    ruleCvNc kind idx s = s.deriveNC kind idx >>= fun nC => .ok { s with y0 := intWord nC } := by
  rw [ruleCvNc, require_pos _ hneeds, ok_bind, require_pos _ hready, ok_bind, require_pos _ hblock]
  rfl

theorem ruleCvNc_einval {kind idx : Nat} (hneeds : kindNeeds s.geom.cat kind = true)
    (hready : s.geom.valid = true ∧ s.currValid = true) (hblock : ¬(kind ≤ 5 ∧ idx < kindRange s.geom.cat kind)) :
    ruleCvNc kind idx s = .error .einval := by
  rw [ruleCvNc, require_pos _ hneeds, ok_bind, require_pos _ hready, ok_bind, require_neg _ hblock]
  rfl

theorem ruleCvNc_estate {kind idx : Nat}
    (h : kindNeeds s.geom.cat kind = false ∨ s.geom.valid = false ∨ s.currValid = false) :
    ruleCvNc kind idx s = .error .estate := by
  rw [ruleCvNc]
  by_cases hneeds : kindNeeds s.geom.cat kind = true
  · rw [require_pos _ hneeds, ok_bind, require_neg _ fun hready => by simp [hneeds, hready.1, hready.2] at h]
    rfl
  · rw [require_neg _ hneeds]
    rfl

/-! The count of one neighbouring block (43_cavlc.md R221). -/

theorem State.nbCount_none {c : Nat} {b : NbBlock} (h : b.addr = none) : s.nbCount c b = none := by
  rw [State.nbCount, h]

theorem State.nbCount_some {a c : Nat} {b : NbBlock} {e m : MbEntry} (h : b.addr = some a)
    (he : Table.find s.mb a = some e) (hm : Table.find s.mb s.currMbAddr.toNat = some m) : s.nbCount c b =
      if s.geom.cipDp = true ∧ m.intra = true ∧ e.intra = false then none
      else if e.skip then some 0 else if e.ipcm then some 16 else some (e.nzAt c b.blk) := by
  simp only [State.nbCount, h, State.mbEntry, he, hm, Option.getD_some, Bool.and_eq_true, Bool.not_eq_true', and_assoc]

theorem MbEntry.nzAt_eq (e : MbEntry) {c k : Nat} (hc : c ≤ 2) (hk : k < 16) :
    ∃ n : BitVec 5, e.nz[16 * c + k]? = some n ∧ e.nzAt c k = n.toNat := by
  have hlt : 16 * c + k < 48 := by omega
  refine ⟨_, Vector.getElem?_eq_getElem hlt, ?_⟩
  rw [MbEntry.nzAt, Vector.getElem?_eq_getElem hlt]
  rfl

end

end Sys2Proof.Machine

open Sys2Proof Sys2Proof.Machine

/-- Settles O29: `State.deriveNC_of_blocks` names the two blocks, and the cases of nC are those of `combineCounts`. -/
theorem cvNcFromNeighbourCounts : Obligations.CvNcFromNeighbourCounts := by
  refine ⟨?_, fun s c b => ⟨s.nbCount_none, fun a e m hb he hm => ?_⟩⟩
  · rintro kind idx cat _ comp _ s hf (rfl : cat = s.geom.cat) rfl rfl hcomp
    rw [← kindNeeds_eq]
    refine ⟨fun hneeds hgeom hcurr hk hidx => ?_,
      fun h => exec_error (i := .cvNc kind idx) nofun hf (ruleCvNc_estate h),
      fun hneeds hgeom hcurr h => exec_error (i := .cvNc kind idx) nofun hf (ruleCvNc_einval hneeds ⟨hgeom, hcurr⟩ ?_)⟩
    · rw [← kindRange_eq hneeds hk] at hidx
      have hrule := ruleCvNc_eq hneeds ⟨hgeom, hcurr⟩ ⟨hk, hidx⟩
      refine ⟨fun h5 => exec_ok (i := .cvNc kind idx) nofun hf ?_, fun h5 => ?_⟩
      · rw [ruleOf, hrule, State.deriveNC, if_pos h5, ok_bind]
        split <;> rfl
      · obtain ⟨a, b, ha, hb, hnC⟩ := s.deriveNC_of_blocks rfl hneeds h5 hf ⟨hgeom, hcurr⟩ hidx
        have hcomp' : kindComponent kind = comp := by
          rw [hcomp]
          interval_cases kind <;> rfl
        rw [hnC, hcomp'] at hrule
        refine ⟨a, b, combineCounts (s.nbCount comp a) (s.nbCount comp b), ha, hb,
          exec_ok (i := .cvNc kind idx) nofun hf ?_, fun nA nB hA hB => ?_, fun nA hA hB => ?_, fun nB hA hB => ?_,
          fun hA hB => ?_⟩
        · rw [ruleOf, hrule, ok_bind, intWord, BitVec.ofInt_natCast]
          rfl
        all_goals rw [hA, hB, combineCounts]
    · rintro ⟨hk, hidx⟩
      rw [kindRange_eq hneeds hk] at hidx
      omega
  · rw [s.nbCount_some hb he hm]
    refine ⟨fun h => if_pos h, fun h => ?_⟩
    rw [if_neg h]
    refine ⟨fun hskip => if_pos hskip, fun hskip hipcm => ?_, fun hskip hipcm hc hblk => ?_⟩
    · rw [hskip, hipcm]
      rfl
    · obtain ⟨n, hn, hnz⟩ := e.nzAt_eq hc hblk
      refine ⟨n, hn, ?_⟩
      rw [hskip, hipcm, ← hnz]
      rfl

end

