-- ==== Sys2Proof/Proofs/CabacContexts.lean ====
section
/-!
The CABAC contexts: CB_CTXINIT, CB_CTXSET and CB_CTXGET (44_cabac_engine.md R270 to R275).
-/

namespace Sys2Proof.Machine

/-! The initial value of a context (44_cabac_engine.md R272). -/

theorem clip3_eq {lo hi : Int} (h : lo ≤ hi) (v : Int) : clip3 lo hi v = max lo (min hi v) := by
  unfold clip3
  omega

theorem ctxOfPre_low {pre : Int} (h0 : 0 ≤ pre) (h : pre ≤ 63) :
    ctxOfPre pre.toNat = ⟨BitVec.ofInt 6 (63 - pre), false⟩ := by
  obtain ⟨k, rfl⟩ := Int.eq_ofNat_of_zero_le h0
  have hk : k ≤ 63 := by omega
  rw [Int.toNat_natCast, ctxOfPre, if_pos hk, ← BitVec.ofInt_natCast, Int.natCast_sub hk]
  rfl

theorem ctxOfPre_high {pre : Int} (h : 64 ≤ pre) : ctxOfPre pre.toNat = ⟨BitVec.ofInt 6 (pre - 64), true⟩ := by
  obtain ⟨k, rfl⟩ := Int.eq_ofNat_of_zero_le (show 0 ≤ pre by omega)
  have hk : 64 ≤ k := by omega
  rw [Int.toNat_natCast, ctxOfPre, if_neg (by omega), ← BitVec.ofInt_natCast, Int.natCast_sub hk]
  rfl

section
variable {p : Params} {t c : Nat} {q : Int}

theorem initCtx_noRow (hc : c ≠ 276) (h : cabacInitMN p t c = none) : initCtx p t q c = none := by
  rw [initCtx, if_neg hc, h]

theorem initCtx_row {m n : Int} (hc : c ≠ 276) (h : cabacInitMN p t c = some (m, n)) :
    initCtx p t q c = some (ctxOfPre (max 1 (min 126 ((m * max 0 (min 51 q)) / 16 + n))).toNat) := by
  rw [initCtx, if_neg hc, h, ← clip3_eq (by decide), ← clip3_eq (by decide)]

end

section
variable {s : State} {t c : Nat}

/-- The operands CB_CTXINIT takes (44_cabac_engine.md R273). -/
def CtxinitLegal (t : Nat) (s : State) : Prop := t ≤ 3 ∧ -48 ≤ sext32 s.a0 ∧ sext32 s.a0 ≤ 51

theorem ruleCbCtxinit_eq (h : CtxinitLegal t s) : ruleCbCtxinit t s =
    .ok { s with ctx := Table.build (initCtx s.params t (sext32 s.a0)) Config.numCtx 0 } := by
  obtain ⟨ht, hq⟩ := h
  simp only [ruleCbCtxinit, require_pos _ ht, require_pos _ hq]
  rfl

theorem ruleCbCtxinit_einval (h : ¬CtxinitLegal t s) : ruleCbCtxinit t s = .error .einval := by
  by_cases ht : t ≤ 3
  · simp only [ruleCbCtxinit, require_pos _ ht, require_neg _ fun hq => h ⟨ht, hq⟩]
    rfl
  · simp only [ruleCbCtxinit, require_neg _ ht]
    rfl

/-- What CB_CTXINIT leaves in the context memory (44_cabac_engine.md R273). -/
theorem find_initialContexts (p : Params) (t : Nat) (q : Int) (c : Nat) :
    Table.find (Table.build (initCtx p t q) Config.numCtx 0) c = if c < 1024 then initCtx p t q c else none := by
  rw [Table.find_build]
  simp [Config.numCtx]

/-! One context (44_cabac_engine.md R274, R275). -/

/-- A0 of CB_CTXSET has no bit above bit 6 (44_cabac_engine.md R274). -/
theorem wordField_above_six {w : Word} : wordField w 7 25 = 0 ↔ w.toNat < 128 := by
  have := w.isLt
  simp only [wordField, bitField]
  omega

theorem ruleCbCtxset_eq (hc : c ≤ 1023) (ha : s.a0.toNat < 128) : ruleCbCtxset c s =
    .ok { s with ctx := Table.put s.ctx c ⟨s.a0.setWidth 6, s.a0.getLsbD 6⟩ } := by
  have hstate : BitVec.ofNat 6 (wordField s.a0 0 6) = s.a0.setWidth 6 := by
    apply BitVec.eq_of_toNat_eq
    simp [wordField, bitField]
  have hmps : wordBit s.a0 6 = s.a0.getLsbD 6 := by
    simp [wordBit, bitAt, BitVec.getLsbD, Nat.testBit_eq_decide_div_mod_eq]
  rw [ruleCbCtxset, require_pos _ hc, require_pos _ (wordField_above_six.2 ha), hstate, hmps]
  rfl

theorem ruleCbCtxset_einval (h : 1023 < c ∨ 128 ≤ s.a0.toNat) : ruleCbCtxset c s = .error .einval := by
  by_cases hc : c ≤ 1023
  · have ha : ¬s.a0.toNat < 128 := (h.resolve_left hc.not_gt).not_gt
    rw [ruleCbCtxset, require_pos _ hc, require_neg _ (wordField_above_six.not.2 ha)]
    rfl
  · rw [ruleCbCtxset, require_neg _ hc]
    rfl

theorem ruleCbCtxget_some {x : Ctx} {w : Word} (hc : c ≤ 1023) (hx : Table.find s.ctx c = some x)
    (hw : natWord (64 * x.valMPS.toNat + x.pStateIdx.toNat) = w) : ruleCbCtxget c s = .ok { s with y0 := w } := by
  rw [ruleCbCtxget, require_pos _ hc, hx, ← hw]
  rfl

theorem ruleCbCtxget_none (hc : c ≤ 1023) (hx : Table.find s.ctx c = none) : ruleCbCtxget c s = .error .estate := by
  rw [ruleCbCtxget, require_pos _ hc, hx]
  rfl

theorem ruleCbCtxget_einval (hc : 1023 < c) : ruleCbCtxget c s = .error .einval := by
  rw [ruleCbCtxget, require_neg _ hc.not_ge]
  rfl

end

/-- The word CB_CTXGET gives for the context CB_CTXSET made of it. -/
theorem ctxWord_of_fields {w : Word} (h : w.toNat < 128) :
    natWord (64 * (w.getLsbD 6).toNat + (w.setWidth 6).toNat) = w := by
  have hbit : (w.getLsbD 6).toNat = w.toNat / 64 := by
    rw [BitVec.getLsbD, Nat.toNat_testBit]
    omega
  apply BitVec.eq_of_toNat_eq
  rw [hbit, natWord, BitVec.toNat_ofNat, BitVec.toNat_setWidth]
  omega

/-! The transition after a symbol (44_cabac_engine.md R271). -/

/-- The context after a most probable symbol, as the statements write it (44_cabac_engine.md R271). -/
theorem Ctx.afterMps_eq (x : Ctx) : x.afterMps =
    ⟨if x.pStateIdx = 63 then 63 else if x.pStateIdx = 62 then 62 else x.pStateIdx + 1, x.valMPS⟩ := by
  have htrans : ∀ i : BitVec 6, BitVec.ofNat 6 (transIdxMPS i.toNat) =
      if i = 63 then 63 else if i = 62 then 62 else i + 1 := by decide
  rw [← htrans]
  rfl

end Sys2Proof.Machine

open Sys2Proof Sys2Proof.Machine

/-- Settles O38: CB_CTXINIT builds the table of `initCtx`, whose clipped initialisation value is the statement's. -/
theorem contextInitialisation : Obligations.ContextInitialisation := by
  rintro t s q hf rfl
  refine ⟨fun ht hlo hhi => ⟨_, exec_ok (i := .cbCtxinit t) nofun hf (ruleCbCtxinit_eq ⟨ht, hlo, hhi⟩), fun c hc => ?_,
    find_initialContexts _ _ _ 276, fun c hc hne => ⟨fun hnone => ?_, fun m n pre hrow hpre => ?_⟩⟩,
    fun h => exec_error (i := .cbCtxinit t) nofun hf (ruleCbCtxinit_einval ?_)⟩
  · rw [find_initialContexts, if_neg hc.not_gt]
  · rw [find_initialContexts, if_pos hc, initCtx_noRow hne hnone]
  · rw [find_initialContexts, if_pos hc, initCtx_row hne hrow]
    subst hpre
    exact ⟨fun h => congrArg some (ctxOfPre_low (by omega) h), fun h => congrArg some (ctxOfPre_high h)⟩
  · rintro ⟨ht, hlo, hhi⟩
    unfold sext32 at hlo hhi
    omega

/-- Settles O39: CB_CTXSET puts one entry in the table, and CB_CTXGET finds it there. -/
theorem contextSetAndGet : Obligations.ContextSetAndGet := by
  intro c s hf
  refine ⟨fun hc ha => ⟨_, exec_ok (i := .cbCtxset c) nofun hf (ruleCbCtxset_eq hc ha), rfl, Table.find_put_same _ _ _,
    fun k hk => Table.find_put_other _ _ _ _ hk,
    exec_ok (i := .cbCtxget c) nofun hf
      (ruleCbCtxget_some hc (Table.find_put_same _ _ _) (ctxWord_of_fields ha))⟩,
    fun hc x hx => exec_ok (i := .cbCtxget c) nofun hf (ruleCbCtxget_some hc hx rfl),
    fun hc hx => exec_error (i := .cbCtxget c) nofun hf (ruleCbCtxget_none hc hx),
    fun h => exec_error (i := .cbCtxset c) nofun hf (ruleCbCtxset_einval h),
    fun hc => exec_error (i := .cbCtxget c) nofun hf (ruleCbCtxget_einval hc)⟩

end

