-- ==== Sys2Proof/Proofs/CabacEncoder.lean ====
section
/-!
The CABAC encoding engine: CB_EDEC, CB_EBYP and CB_ETERM (44_cabac_engine.md R276 to R282).
-/

namespace Sys2Proof.Machine

/-! PutBit and RenormE from a stream with room (44_cabac_engine.md R276). -/

/-- The part of a run that `Renorm` follows, with no bits written yet. -/
def EncRun.toRenorm (r : EncRun) : Renorm := ⟨r.low, r.outstanding, r.first, []⟩

/-- A run after `n` turns of `RenormE()` have left it the stream `u` (44_cabac_engine.md R276). -/
def EncRun.turned (n : Nat) (u : Stream) (r : EncRun) : EncRun where
  low := (Renorm.turns n r.toRenorm).low
  range := r.range * 2 ^ n
  outstanding := (Renorm.turns n r.toRenorm).outstanding
  first := (Renorm.turns n r.toRenorm).first
  stream := u
  ctx := r.ctx

section
variable {free : Nat → Byte} {p : Params} {r : EncRun} {n : Nat}

/-- `PutBit(b)` when its bit and the outstanding ones fit, and `n` more. -/
theorem EncRun.putBit_ok (hg : 1 ≤ p.growBlock) (ho : EncOk p (r.stream.rd free) r.stream.cur)
    (h : hasRoom p r.stream.cur (r.outstanding + 1 + n)) (b : Bool) :
    ∃ u, r.putBit p b = .ok { r with first := false, outstanding := 0, stream := u } ∧
      StreamStep free p r.stream u (engineBits r.first r.outstanding b) ∧ hasRoom p u.cur n := by
  obtain ⟨r', hr', hroom⟩ := EncRun.putBit_room (b := b) hg ho h
  obtain ⟨heq, hstep⟩ := EncRun.putBit_spec hg ho hr'
  exact ⟨r'.stream, by rw [hr', ← heq], hstep, hroom⟩

/-- `RenormE()` when the outstanding bits and 8 more fit, and `n` more. -/
theorem EncRun.renorm_ok (hg : 1 ≤ p.growBlock) (ho : EncOk p (r.stream.rd free) r.stream.cur) (hfit : r.Fits)
    (hleast : 2 ≤ r.range) (hmost : r.range ≤ 510) (hout : r.outstanding + 8 < 2 ^ 32)
    (h : hasRoom p r.stream.cur (r.outstanding + 8 + n)) :
    ∃ k u, 256 ≤ r.range * 2 ^ k ∧ r.range * 2 ^ k ≤ 510 ∧ EncRun.renorm p 8 r = .ok (r.turned k u) ∧
      StreamStep free p r.stream u (Renorm.turns k r.toRenorm).bits ∧
      hasRoom p u.cur ((Renorm.turns k r.toRenorm).outstanding + n) := by
  obtain ⟨r', hr', hroom, -⟩ := EncRun.renorm_room hg ho hfit hout h
  obtain ⟨k, hge, hle, hrange, hctx, hlow, hout', hfirst, hstep⟩ :=
    EncRun.renorm_turns hg ho hmost (by omega) hr'
  have heq : r' = r.turned k r'.stream := by
    rw [EncRun.turned, EncRun.toRenorm, ← hlow, ← hrange, ← hout', ← hfirst, ← hctx]
  exact ⟨k, r'.stream, hge, hle, by rw [hr', ← heq], hstep, by rwa [hout'] at hroom⟩

/-- A codIRange of 2 takes 7 turns (44_cabac_engine.md R282). -/
theorem turns_of_two (hge : 256 ≤ 2 * 2 ^ n) (hle : 2 * 2 ^ n ≤ 510) : n = 7 := by
  have hlt : n < 8 := (Nat.pow_lt_pow_iff_right (by decide : 1 < 2)).1 (by omega : 2 ^ n < 2 ^ 8)
  interval_cases n <;> omega

/-- The bits `EncodeFlush()` writes when its turns have left `t` (44_cabac_engine.md R282). -/
def Renorm.flushBits (t : Renorm) : List Bool :=
  t.bits ++ engineBits t.first t.outstanding (decide (t.low / 512 % 2 = 1)) ++ [decide (t.low / 256 % 2 = 1), true]

theorem lastFlushBits (low : Nat) :
    fieldBits (2 * (low / 256 % 2) + 1) 2 = [decide (low / 256 % 2 = 1), true] := by
  obtain h | h := Nat.mod_two_eq_zero_or_one (low / 256) <;> rw [h] <;> rfl

/-- `EncodeFlush()` past its turns: a bit put and two more (44_cabac_engine.md R282). -/
theorem EncRun.flush_of_renorm {t : EncRun} (hg : 1 ≤ p.growBlock)
    (ht : EncRun.renorm p 8 { r with range := 2 } = .ok t)
    (ho : EncOk p (t.stream.rd free) t.stream.cur) (h : hasRoom p t.stream.cur (t.outstanding + 1 + 2)) :
    ∃ u, r.flush p = .ok { t with first := false, outstanding := 0, stream := u } ∧
      StreamStep free p t.stream u (engineBits t.first t.outstanding (decide (t.low / 512 % 2 = 1)) ++
        [decide (t.low / 256 % 2 = 1), true]) := by
  obtain ⟨v, hput, hstep, hroom⟩ := EncRun.putBit_ok hg ho h (decide (t.low / 512 % 2 = 1))
  obtain ⟨u, hlast, hstep', -⟩ := putBits_ok (n := 0) hg [decide (t.low / 256 % 2 = 1), true] hstep.ok hroom
  refine ⟨u, ?_, hstep.trans hstep'⟩
  have hbit : t.low.testBit 9 = decide (t.low / 512 % 2 = 1) := Nat.testBit_eq_decide_div_mod_eq
  rw [EncRun.flush, ht, ok_bind, hbit, hput, ok_bind, writeBits_eq, lastFlushBits, hlast]
  rfl

/-- `EncodeFlush()` when the outstanding bits and 11 more fit (44_cabac_engine.md R282). -/
theorem EncRun.flush_ok (hg : 1 ≤ p.growBlock) (ho : EncOk p (r.stream.rd free) r.stream.cur)
    (hfit : r.low + 2 ≤ 1024) (hout : r.outstanding + 8 < 2 ^ 32) (h : hasRoom p r.stream.cur (r.outstanding + 11)) :
    ∃ u, r.flush p = .ok ⟨(Renorm.turns 7 r.toRenorm).low, 256, 0, false, u, r.ctx⟩ ∧
      StreamStep free p r.stream u (Renorm.turns 7 r.toRenorm).flushBits := by
  obtain ⟨k, v, hge, hle, hrenorm, hstep, hroom⟩ :=
    EncRun.renorm_ok (r := { r with range := 2 }) (n := 3) hg ho hfit (le_refl 2) (by decide : 2 ≤ 510) hout h
  obtain rfl := turns_of_two hge hle
  have hturned : EncRun.turned 7 v { r with range := 2 } = ⟨(Renorm.turns 7 r.toRenorm).low, 256,
      (Renorm.turns 7 r.toRenorm).outstanding, (Renorm.turns 7 r.toRenorm).first, v, r.ctx⟩ := rfl
  have hsame : EncRun.toRenorm { r with range := 2 } = r.toRenorm := rfl
  rw [hturned] at hrenorm
  rw [hsame] at hstep hroom
  generalize Renorm.turns 7 r.toRenorm = t at *
  obtain ⟨u, hflush, hstep'⟩ := EncRun.flush_of_renorm hg hrenorm hstep.ok hroom
  refine ⟨u, hflush, ?_⟩
  rw [Renorm.flushBits, List.append_assoc]
  exact hstep.trans hstep'

end

/-! The commands. -/

section
variable {s : State}

theorem State.Inv.encoderOk (hi : s.Inv) (hf : s.status.fault = false) (ha : s.enc.active = true) :
    s.cur.mode = .enc ∧ s.enc.Ok := (hi.running hf).eact ha

/-- A state whose engine registers alone a run has changed. -/
theorem setEncRun_encRun (ha : s.enc.active = true) (low outstanding : Nat) (first : Bool) (u : Stream) :
    s.setEncRun true { s.encRun with low := low, outstanding := outstanding, first := first, stream := u } =
      { s.setStream u with
        enc := { s.enc with low := BitVec.ofNat 10 low, outstanding := natWord outstanding, first := first } } := by
  have hrange : BitVec.ofNat 9 s.enc.range.toNat = s.enc.range := by simp
  simp only [State.setEncRun, EncRun.encoder, State.encRun, hrange, ha]
  rfl

/-- A command whose rule only renormalises the run `r`. -/
theorem exec_encRenorm {i : Instr} {r : EncRun} (hir : i ≠ .reset) (hi : s.Inv) (hf : s.status.fault = false)
    (hm : s.cur.mode = .enc)
    (hrule : ruleOf i s = EncRun.renorm s.params 8 r >>= fun t => .ok (s.setEncRun true t))
    (hstream : r.stream = s.stream) (hfit : r.Fits) (hleast : 2 ≤ r.range) (hmost : r.range ≤ 510)
    (hout : r.outstanding + 8 < 2 ^ 32) (hr : s.HasRoom (r.outstanding + 8)) :
    ∃ n u, 256 ≤ r.range * 2 ^ n ∧ r.range * 2 ^ n ≤ 510 ∧
      exec i s = .next (State.complete .ok (s.setEncRun true (r.turned n u))) ∧
      Appended s (s.setStream u) (Renorm.turns n r.toRenorm).bits := by
  obtain ⟨n, u, hge, hle, hrenorm, hstep, -⟩ := EncRun.renorm_ok (free := s.bufFree) (n := 0) hi.growBlock_pos
    (hstream ▸ hi.encOk hf hm) hfit hleast hmost hout (hstream ▸ hr)
  exact ⟨n, u, hge, hle, exec_ok hir hf (by rw [hrule, hrenorm, ok_bind]), (hstream ▸ hstep).appended rfl rfl rfl⟩

/-! CB_EDEC (44_cabac_engine.md R278, R279). -/

section
variable {c lps : Nat} {x : Ctx}

theorem ruleCbEdec_eq (hm : s.cur.mode = .enc) (ha : s.enc.active = true) (hc : c ≤ 1023) (hb : s.a0.toNat ≤ 1) :
    ruleCbEdec c s =
      s.encRun.decision s.params c (decide (s.a0 = 1)) >>= fun r => .ok (s.setEncRun true r) := by
  rw [ruleCbEdec, require_pos _ ⟨hm, ha⟩, require_pos _ ⟨hc, hb⟩]
  rfl

theorem EncRun.decision_none {p : Params} {r : EncRun} (hx : Table.find r.ctx c = none) (bin : Bool) :
    r.decision p c bin = .error .estate := by
  rw [EncRun.decision, hx]

theorem EncRun.decision_mps {p : Params} {r : EncRun} (hx : Table.find r.ctx c = some x)
    (hlps : lps = rangeTabLPS x.pStateIdx.toNat (r.range / 64 % 4)) :
    r.decision p c x.valMPS =
      EncRun.renorm p 8 { r with range := r.range - lps, ctx := Table.put r.ctx c x.afterMps } := by
  rw [EncRun.decision, hx, hlps]
  exact if_neg (not_not_intro rfl)

theorem EncRun.decision_lps {p : Params} {r : EncRun} {bin : Bool} (hx : Table.find r.ctx c = some x)
    (hlps : lps = rangeTabLPS x.pStateIdx.toNat (r.range / 64 % 4)) (hb : bin ≠ x.valMPS) :
    r.decision p c bin = EncRun.renorm p 8
      { r with low := r.low + (r.range - lps), range := lps, ctx := Table.put r.ctx c x.afterLps } := by
  rw [EncRun.decision, hx, hlps]
  exact if_pos hb

theorem ruleCbEdec_einval (hm : s.cur.mode = .enc) (ha : s.enc.active = true) (h : 1023 < c ∨ 1 < s.a0.toNat) :
    ruleCbEdec c s = .error .einval := by
  rw [ruleCbEdec, require_pos _ ⟨hm, ha⟩, require_neg _ (by omega)]
  rfl

end

/-! CB_EBYP (44_cabac_engine.md R280). -/

theorem ruleCbEbyp_eq (hm : s.cur.mode = .enc) (ha : s.enc.active = true) (hb : s.a0.toNat ≤ 1) :
    ruleCbEbyp s = s.encRun.bypass s.params (decide (s.a0 = 1)) >>= fun r => .ok (s.setEncRun true r) := by
  rw [ruleCbEbyp, require_pos _ ⟨hm, ha⟩, require_pos _ hb]
  rfl

theorem ruleCbEbyp_einval (hm : s.cur.mode = .enc) (ha : s.enc.active = true) (hb : 1 < s.a0.toNat) :
    ruleCbEbyp s = .error .einval := by
  rw [ruleCbEbyp, require_pos _ ⟨hm, ha⟩, require_neg _ hb.not_ge]
  rfl

section
variable {p : Params} {r : EncRun} {bin : Bool} {low : Nat}

theorem EncRun.bypass_one (hlow : low = 2 * r.low + (if bin then r.range else 0)) (h : 1024 ≤ low) :
    r.bypass p bin = EncRun.putBit p true { r with low := low } >>= fun t => .ok { t with low := t.low - 1024 } := by
  subst hlow
  exact if_pos h

theorem EncRun.bypass_zero (hlow : low = 2 * r.low + (if bin then r.range else 0)) (h : low < 512) :
    r.bypass p bin = EncRun.putBit p false { r with low := low } := by
  subst hlow
  exact (if_neg (by omega)).trans (if_pos h)

theorem EncRun.bypass_outstanding (hlow : low = 2 * r.low + (if bin then r.range else 0)) (h : 512 ≤ low)
    (h' : low < 1024) : r.bypass p bin = EncRun.incOutstanding { r with low := low - 512 } := by
  subst hlow
  exact (if_neg h'.not_ge).trans (if_neg h.not_gt)

end

/-- CB_EBYP when it puts a bit, which leaves `low'` in codILow. -/
theorem exec_cbEbyp_put {b : Bool} {low low' : Nat} (hi : s.Inv) (hf : s.status.fault = false)
    (ha : s.enc.active = true) (hb : s.a0.toNat ≤ 1) (hr : s.HasRoom (s.enc.outstanding.toNat + 1))
    (hbypass : ∀ u, EncRun.putBit s.params b { s.encRun with low := low } =
        .ok { s.encRun with low := low, outstanding := 0, first := false, stream := u } →
      s.encRun.bypass s.params (decide (s.a0 = 1)) =
        .ok { s.encRun with low := low', outstanding := 0, first := false, stream := u }) :
    ∃ u, exec .cbEbyp s = .next (State.complete .ok { s.setStream u with
        enc := { s.enc with low := BitVec.ofNat 10 low', outstanding := 0, first := false } }) ∧
      Appended s (s.setStream u) (engineBits s.enc.first s.enc.outstanding.toNat b) := by
  obtain ⟨hm, -⟩ := hi.encoderOk hf ha
  obtain ⟨u, hput, hstep, -⟩ := EncRun.putBit_ok (free := s.bufFree) (r := { s.encRun with low := low }) (n := 0)
    hi.growBlock_pos (hi.encOk hf hm) hr b
  refine ⟨u, ?_, hstep.appended rfl rfl rfl⟩
  rw [exec_ok (i := .cbEbyp) nofun hf (by rw [ruleOf, ruleCbEbyp_eq hm ha hb, hbypass u hput, ok_bind]),
    setEncRun_encRun ha]
  rfl

theorem EncRun.incOutstanding_ok {r : EncRun} (h : r.outstanding + 1 < 2 ^ 32) :
    r.incOutstanding = .ok { r with outstanding := r.outstanding + 1 } := by
  rw [EncRun.incOutstanding, require_pos _ (by omega)]
  rfl

theorem EncRun.incOutstanding_full {r : EncRun} (h : r.outstanding = 2 ^ 32 - 1) :
    r.incOutstanding = .error .eproto := by
  rw [EncRun.incOutstanding, require_neg _ (by omega)]
  rfl

/-! CB_ETERM (44_cabac_engine.md R281, R282). -/

theorem ruleCbEterm_zero (hm : s.cur.mode = .enc) (ha : s.enc.active = true) (h0 : s.a0 = 0) : ruleCbEterm s =
    EncRun.renorm s.params 8 { s.encRun with range := s.enc.range.toNat - 2 } >>=
      fun r => .ok (s.setEncRun true r) := by
  rw [ruleCbEterm, require_pos _ ⟨hm, ha⟩, require_pos _ (by rw [h0]; decide)]
  exact if_neg (by rw [h0]; decide)

theorem ruleCbEterm_one (hm : s.cur.mode = .enc) (ha : s.enc.active = true) (h1 : s.a0 = 1) : ruleCbEterm s =
    EncRun.flush s.params { s.encRun with
      range := s.enc.range.toNat - 2, low := s.enc.low.toNat + (s.enc.range.toNat - 2) } >>=
      fun r => .ok (s.setEncRun false r) := by
  rw [ruleCbEterm, require_pos _ ⟨hm, ha⟩, require_pos _ (by rw [h1]; decide)]
  exact if_pos h1

theorem ruleCbEterm_einval (hm : s.cur.mode = .enc) (ha : s.enc.active = true) (hb : 1 < s.a0.toNat) :
    ruleCbEterm s = .error .einval := by
  rw [ruleCbEterm, require_pos _ ⟨hm, ha⟩, require_neg _ hb.not_ge]
  rfl

end

end Sys2Proof.Machine

open Sys2Proof Sys2Proof.Machine

/-- Settles O41: either interval is renormalised, and `EncRun.renorm_ok` says what RenormE leaves. -/
theorem encodeDecisionBin : Obligations.EncodeDecisionBin := by
  intro c s hi hf ha
  obtain ⟨hm, hlow, hleast, hmost⟩ := hi.encoderOk hf ha
  refine ⟨fun x y lps base low hc hb hx hlps hmps hlpsCase hout hr => ?_, fun hc hb hx => ?_,
    fun h => exec_error (i := .cbEdec c) nofun hf (ruleCbEdec_einval hm ha h)⟩
  · obtain ⟨hlps2, hlps240, hlps128⟩ := rangeTabLPS_bounds _ _ x.pStateIdx.isLt hleast hmost
    rw [← hlps] at hlps2 hlps240 hlps128
    have hcase : (low + base ≤ 1024 ∧ 2 ≤ base ∧ base ≤ 510) ∧ ruleCbEdec c s = EncRun.renorm s.params 8
        { s.encRun with low := low, range := base, ctx := Table.put s.ctx c y } >>=
          fun r => .ok (s.setEncRun true r) := by
      rw [ruleCbEdec_eq hm ha hc hb]
      by_cases hbin : decide (s.a0 = 1) = x.valMPS
      · obtain ⟨rfl, rfl, rfl⟩ := hmps hbin
        rw [hbin, EncRun.decision_mps hx hlps, ← x.afterMps_eq]
        exact ⟨by omega, rfl⟩
      · obtain ⟨rfl, rfl, rfl⟩ := hlpsCase hbin
        rw [EncRun.decision_lps hx hlps hbin]
        exact ⟨by omega, rfl⟩
    obtain ⟨⟨hfit, hbase2, hbase510⟩, hrule⟩ := hcase
    obtain ⟨n, u, hge, hle, hexec, happ⟩ :=
      exec_encRenorm (i := .cbEdec c) nofun hi hf hm hrule rfl hfit hbase2 hbase510 hout hr
    exact ⟨n, _, u, hge, hle, rfl, hexec, happ⟩
  · refine exec_error (i := .cbEdec c) nofun hf ?_
    rw [ruleOf, ruleCbEdec_eq hm ha hc hb, EncRun.decision_none hx, error_bind]

/-- Settles O42: the bypass bin's codILow chooses between a bit put and a bit counted. -/
theorem encodeBypassBin : Obligations.EncodeBypassBin := by
  intro s low hi hf ha hlow
  obtain ⟨hm, -⟩ := hi.encoderOk hf ha
  have hlow' : low = 2 * s.encRun.low + (if decide (s.a0 = 1) then s.encRun.range else 0) := by
    simpa [State.encRun] using hlow
  refine ⟨fun hb h hr => exec_cbEbyp_put (b := true) (low := low) hi hf ha hb hr fun u hu => ?_,
    fun hb h hr => exec_cbEbyp_put (b := false) (low := low) hi hf ha hb hr fun u hu => ?_,
    fun hb h h' => ⟨fun hout => ?_, fun hout => ?_⟩,
    fun hb => exec_error (i := .cbEbyp) nofun hf (ruleCbEbyp_einval hm ha hb)⟩
  · rw [EncRun.bypass_one hlow' h, hu]
    rfl
  · rw [EncRun.bypass_zero hlow' h, hu]
  · have hcount : natWord (s.enc.outstanding.toNat + 1) = s.enc.outstanding + 1 := by
      simp [natWord, BitVec.ofNat_add]
    rw [← hcount]
    refine (exec_ok (i := .cbEbyp) nofun hf ?_).trans
      (congrArg (fun t => Host.Outcome.next (State.complete .ok t))
        (setEncRun_encRun ha (low - 512) (s.enc.outstanding.toNat + 1) s.enc.first s.stream))
    rw [ruleOf, ruleCbEbyp_eq hm ha hb, EncRun.bypass_outstanding hlow' h h', EncRun.incOutstanding_ok hout]
    rfl
  · refine exec_error (i := .cbEbyp) nofun hf ?_
    have hfull : s.enc.outstanding.toNat = 2 ^ 32 - 1 := congrArg BitVec.toNat hout
    rw [ruleOf, ruleCbEbyp_eq hm ha hb, EncRun.bypass_outstanding hlow' h h', EncRun.incOutstanding_full hfull,
      error_bind]

/-- Settles O43: a 0 is renormalised as a decision bin is, and a 1 runs `EncodeFlush()`. -/
theorem encodeTerminateBin : Obligations.EncodeTerminateBin := by
  intro s hi hf ha
  obtain ⟨hm, hlow, hleast, hmost⟩ := hi.encoderOk hf ha
  refine ⟨fun h0 hout hr => ?_, fun h1 hout hr => ?_,
    fun hb => exec_error (i := .cbEterm) nofun hf (ruleCbEterm_einval hm ha hb)⟩
  · obtain ⟨n, u, hge, hle, hexec, happ⟩ :=
      exec_encRenorm (i := .cbEterm) nofun hi hf hm (ruleCbEterm_zero hm ha h0) rfl
        (by show s.enc.low.toNat + (s.enc.range.toNat - 2) ≤ 1024; omega) (by show 2 ≤ s.enc.range.toNat - 2; omega)
        (by show s.enc.range.toNat - 2 ≤ 510; omega) hout hr
    exact ⟨n, _, u, hge, hle, rfl, hexec, happ⟩
  · obtain ⟨u, hflush, hstep⟩ := EncRun.flush_ok (free := s.bufFree)
      (r := { s.encRun with range := s.enc.range.toNat - 2, low := s.enc.low.toNat + (s.enc.range.toNat - 2) })
      hi.growBlock_pos (hi.encOk hf hm) (by show s.enc.low.toNat + (s.enc.range.toNat - 2) + 2 ≤ 1024; omega) hout hr
    exact ⟨_, u, rfl, exec_ok (i := .cbEterm) nofun hf (by rw [ruleOf, ruleCbEterm_one hm ha h1, hflush]; rfl),
      hstep.appended rfl rfl rfl⟩

end

