-- ==== Sys2Proof/Proofs/CabacDecoder.lean ====
section
/-!
The start of both CABAC engines, the decoding engine's bins, and CB_DBIN (44_cabac_engine.md R277, R283 to R287).
-/

namespace Sys2Proof.Machine

section
variable {s : State}

/-! CB_EINIT and CB_DINIT (44_cabac_engine.md R277, R283). -/

theorem ruleCbEinit_eq (hm : s.cur.mode = .enc) : ruleCbEinit s = .ok { s with enc := ⟨0, 510, 0, true, true⟩ } := by
  rw [ruleCbEinit, require_pos _ hm]
  rfl

theorem ruleCbDinit_eq (hm : s.cur.mode = .dec) : ruleCbDinit s =
    readBits s.bufByte 9 s.cur >>= fun x => require (x.1 < 510) .eproto >>= fun _ =>
      .ok { s with cur := x.2, dec := ⟨510, BitVec.ofNat 9 x.1, true⟩ } := by
  rw [ruleCbDinit, require_pos _ hm]
  rfl

/-! RenormD (44_cabac_engine.md R284). -/

theorem DecRun.renorm_of_ge (rd : Nat → Byte) {fuel : Nat} {r : DecRun} (h : 256 ≤ r.range) :
    DecRun.renorm rd fuel r = .ok r := by
  cases fuel with
  | zero => rfl
  | succ fuel => exact if_neg h.not_gt

/-- A dRange of 2 or more needs at most 8 turns, the fuel `DecRun.renorm` is given. -/
theorem turns_le_eight {base n : Nat} (h2 : 2 ≤ base) (hle : base * 2 ^ n ≤ 510) : n ≤ 8 := by
  have hpow : 2 * 2 ^ n ≤ base * 2 ^ n := Nat.mul_le_mul_right _ h2
  exact ((Nat.pow_lt_pow_iff_right (by decide : 1 < 2)).1 (by omega : 2 ^ n < 2 ^ 8)).le

section
variable {i : Instr} {t : State} {bin : Bool} {base off n : Nat}

/-- A command whose rule renormalises and stores the run over the state `t`: n bits there to read. -/
theorem exec_decRenorm (hir : i ≠ .reset) (hf : s.status.fault = false)
    (hrule : ruleOf i s = DecRun.renorm s.bufByte 8 ⟨base, off, s.cur⟩ >>= fun r => .ok (t.setDecRun true bin r))
    (hn : n ≤ 8) (hge : 256 ≤ base * 2 ^ n) (hle : base * 2 ^ n ≤ 510) {bs r : List Bool} (hlen : bs.length = n)
    (h : s.remaining = bs ++ r) :
    ∃ d, exec i s = .next (State.complete .ok
        (t.setDecRun true bin ⟨base * 2 ^ n, off * 2 ^ n + bitsNat bs, d⟩)) ∧ Consumed s.bufByte s.cur d n r := by
  obtain ⟨d, hrenorm, hcon⟩ := DecRun.renorm_append n 8 bs ⟨base, off, s.cur⟩ r hn hlen hge hle h
  rw [bitsValue_eq, hlen] at hrenorm
  exact ⟨d, exec_ok hir hf (by rw [hrule, hrenorm, ok_bind]), hcon⟩

/-- The same with too few bits to read. -/
theorem exec_decRenorm_short (hir : i ≠ .reset) (hf : s.status.fault = false)
    (hrule : ruleOf i s = DecRun.renorm s.bufByte 8 ⟨base, off, s.cur⟩ >>= fun r => .ok (t.setDecRun true bin r))
    (hn : n ≤ 8) (hle : base * 2 ^ n ≤ 510) (h : s.remaining.length < n) :
    exec i s = .next (s.failWith .eio i.opcode) :=
  exec_error hir hf (by rw [hrule, DecRun.renorm_short n 8 ⟨base, off, s.cur⟩ hn hle h, error_bind])

end

theorem State.Inv.decoderOk (hi : s.Inv) (hf : s.status.fault = false) (ha : s.dec.active = true) :
    s.cur.mode = .dec ∧ s.dec.Ok := (hi.running hf).dact ha

/-! CB_DDEC (44_cabac_engine.md R284). -/

section
variable {c lps : Nat} {x : Ctx}

theorem ruleCbDdec_mps (hm : s.cur.mode = .dec) (ha : s.dec.active = true) (hc : c ≤ 1023)
    (hx : Table.find s.ctx c = some x) (hlps : lps = rangeTabLPS x.pStateIdx.toNat (s.dec.range.toNat / 64 % 4))
    (h : s.dec.offset.toNat < s.dec.range.toNat - lps) : ruleCbDdec c s =
      DecRun.renorm s.bufByte 8 ⟨s.dec.range.toNat - lps, s.dec.offset.toNat, s.cur⟩ >>= fun r =>
        .ok (State.setDecRun { s with ctx := Table.put s.ctx c x.afterMps } true x.valMPS r) := by
  subst hlps
  rw [ruleCbDdec, require_pos _ ⟨hm, ha⟩, require_pos _ hc, hx]
  exact if_neg h.not_ge

theorem ruleCbDdec_lps (hm : s.cur.mode = .dec) (ha : s.dec.active = true) (hc : c ≤ 1023)
    (hx : Table.find s.ctx c = some x) (hlps : lps = rangeTabLPS x.pStateIdx.toNat (s.dec.range.toNat / 64 % 4))
    (h : s.dec.range.toNat - lps ≤ s.dec.offset.toNat) : ruleCbDdec c s =
      DecRun.renorm s.bufByte 8 ⟨lps, s.dec.offset.toNat - (s.dec.range.toNat - lps), s.cur⟩ >>= fun r =>
        .ok (State.setDecRun { s with ctx := Table.put s.ctx c x.afterLps } true (!x.valMPS) r) := by
  subst hlps
  rw [ruleCbDdec, require_pos _ ⟨hm, ha⟩, require_pos _ hc, hx]
  exact if_pos h

theorem ruleCbDdec_none (hm : s.cur.mode = .dec) (ha : s.dec.active = true) (hc : c ≤ 1023)
    (hx : Table.find s.ctx c = none) : ruleCbDdec c s = .error .estate := by
  rw [ruleCbDdec, require_pos _ ⟨hm, ha⟩, require_pos _ hc, hx]
  rfl

theorem ruleCbDdec_einval (hm : s.cur.mode = .dec) (ha : s.dec.active = true) (hc : 1023 < c) :
    ruleCbDdec c s = .error .einval := by
  rw [ruleCbDdec, require_pos _ ⟨hm, ha⟩, require_neg _ hc.not_ge]
  rfl

end

/-! CB_DBYP (44_cabac_engine.md R285). -/

/-- The registers a run without a change of dRange leaves. -/
theorem dec_of_same_range (ha : s.dec.active = true) (off : Nat) :
    (⟨BitVec.ofNat 9 s.dec.range.toNat, BitVec.ofNat 9 off, true⟩ : Decoder) =
      { s.dec with offset := BitVec.ofNat 9 off } := by
  simp [ha]

section
variable {b : Bool} {d : Cursor} {off : Nat}

theorem ruleCbDbyp_one (hm : s.cur.mode = .dec) (ha : s.dec.active = true)
    (hread : getBit s.bufByte s.cur = .ok (b, d)) (hoff : off = 2 * s.dec.offset.toNat + b.toNat)
    (h : s.dec.range.toNat ≤ off) : ruleCbDbyp s = .ok { s with
      cur := d, dec := { s.dec with offset := BitVec.ofNat 9 (off - s.dec.range.toNat) }, y0 := 1 } := by
  subst hoff
  rw [ruleCbDbyp, require_pos _ ⟨hm, ha⟩, ← dec_of_same_range ha]
  show getBit s.bufByte s.cur >>= _ = _
  rw [hread]
  exact if_pos h

theorem ruleCbDbyp_zero (hm : s.cur.mode = .dec) (ha : s.dec.active = true)
    (hread : getBit s.bufByte s.cur = .ok (b, d)) (hoff : off = 2 * s.dec.offset.toNat + b.toNat)
    (h : off < s.dec.range.toNat) : ruleCbDbyp s = .ok { s with
      cur := d, dec := { s.dec with offset := BitVec.ofNat 9 off }, y0 := 0 } := by
  subst hoff
  rw [ruleCbDbyp, require_pos _ ⟨hm, ha⟩, ← dec_of_same_range ha]
  show getBit s.bufByte s.cur >>= _ = _
  rw [hread]
  exact if_neg h.not_ge

theorem ruleCbDbyp_eio (hm : s.cur.mode = .dec) (ha : s.dec.active = true) (h : s.remaining = []) :
    ruleCbDbyp s = .error .eio := by
  rw [ruleCbDbyp, require_pos _ ⟨hm, ha⟩]
  show getBit s.bufByte s.cur >>= _ = _
  rw [getBit_nil h]
  rfl

end

/-! CB_DTERM (44_cabac_engine.md R286). -/

theorem ruleCbDterm_end (hm : s.cur.mode = .dec) (ha : s.dec.active = true)
    (h : s.dec.range.toNat - 2 ≤ s.dec.offset.toNat) : ruleCbDterm s =
      .ok (s.setDecRun false true ⟨s.dec.range.toNat - 2, s.dec.offset.toNat, s.cur⟩) := by
  rw [ruleCbDterm, require_pos _ ⟨hm, ha⟩]
  exact if_pos h

theorem ruleCbDterm_go (hm : s.cur.mode = .dec) (ha : s.dec.active = true)
    (h : s.dec.offset.toNat < s.dec.range.toNat - 2) : ruleCbDterm s =
      DecRun.renorm s.bufByte 8 ⟨s.dec.range.toNat - 2, s.dec.offset.toNat, s.cur⟩ >>= fun r =>
        .ok (s.setDecRun true false r) := by
  rw [ruleCbDterm, require_pos _ ⟨hm, ha⟩]
  exact if_neg h.not_ge

/-- The registers after CB_DTERM without a turn. -/
theorem dec_of_less_two (h : 2 ≤ s.dec.range.toNat) (active : Bool) :
    (⟨BitVec.ofNat 9 (s.dec.range.toNat - 2), BitVec.ofNat 9 s.dec.offset.toNat, active⟩ : Decoder) =
      ⟨s.dec.range - 2, s.dec.offset, active⟩ := by
  have hrange : BitVec.ofNat 9 (s.dec.range.toNat - 2) = s.dec.range - 2 := by
    bv_omega
  have hoff : BitVec.ofNat 9 s.dec.offset.toNat = s.dec.offset := by simp
  rw [hrange, hoff]

end

end Sys2Proof.Machine

open Sys2Proof Sys2Proof.Machine

/-- Settles O40: CB_EINIT reads nothing, and CB_DINIT checks the value of its 9 bits. -/
theorem enginesStart : Obligations.EnginesStart := by
  intro s hf
  refine ⟨fun hm => exec_ok (i := .cbEinit) nofun hf (ruleCbEinit_eq hm),
    fun hm bs r hlen h => ⟨fun hv => ?_, fun hv => ?_⟩, fun hm h => ?_⟩
  · obtain ⟨c, hread, hcon⟩ := readBits_append hlen h
    refine ⟨c, exec_ok (i := .cbDinit) nofun hf ?_, hcon⟩
    rw [ruleOf, ruleCbDinit_eq hm, hread, ok_bind, require_pos _ hv, ok_bind]
  · obtain ⟨c, hread, -⟩ := readBits_append hlen h
    refine exec_error (i := .cbDinit) nofun hf ?_
    rw [ruleOf, ruleCbDinit_eq hm, hread, ok_bind, require_neg _ hv.not_gt, error_bind]
  · refine exec_error (i := .cbDinit) nofun hf ?_
    rw [ruleOf, ruleCbDinit_eq hm, readBits_short h, error_bind]

/-- Settles O44: dOffset lies in one of the two intervals, and the rule renormalises that one. -/
theorem decodeDecisionBin : Obligations.DecodeDecisionBin := by
  intro c s hi hf ha
  obtain ⟨hm, -, hleast, hmost⟩ := hi.decoderOk hf ha
  refine ⟨fun x y lps base off n bin hc hx hlps hmps hlpsCase hge hle => ?_,
    fun hc hx => exec_error (i := .cbDdec c) nofun hf (ruleCbDdec_none hm ha hc hx),
    fun hc => exec_error (i := .cbDdec c) nofun hf (ruleCbDdec_einval hm ha hc)⟩
  obtain ⟨hlps2, -, hlps128⟩ := rangeTabLPS_bounds _ _ x.pStateIdx.isLt hleast hmost
  rw [← hlps] at hlps2 hlps128
  have hcase : 2 ≤ base ∧ ruleCbDdec c s = DecRun.renorm s.bufByte 8 ⟨base, off, s.cur⟩ >>= fun r =>
      .ok (State.setDecRun { s with ctx := Table.put s.ctx c y } true bin r) := by
    by_cases h : s.dec.offset.toNat < s.dec.range.toNat - lps
    · obtain ⟨rfl, rfl, rfl, rfl⟩ := hmps h
      rw [← x.afterMps_eq]
      exact ⟨by omega, ruleCbDdec_mps hm ha hc hx hlps h⟩
    · obtain ⟨rfl, rfl, rfl, rfl⟩ := hlpsCase (Nat.le_of_not_lt h)
      exact ⟨hlps2, ruleCbDdec_lps hm ha hc hx hlps (Nat.le_of_not_lt h)⟩
  obtain ⟨hbase, hrule⟩ := hcase
  have hn := turns_le_eight hbase hle
  exact ⟨fun bs r hlen h => exec_decRenorm (i := .cbDdec c) nofun hf hrule hn hge hle hlen h,
    fun h => exec_decRenorm_short (i := .cbDdec c) nofun hf hrule hn hle h⟩

/-- Settles O45: CB_DBYP compares after its bit, and CB_DTERM renormalises by at most one bit. -/
theorem decodeBypassAndTerminate : Obligations.DecodeBypassAndTerminate := by
  intro s hi hf ha
  obtain ⟨hm, -, hleast, hmost⟩ := hi.decoderOk hf ha
  refine ⟨fun b r off h hoff => ?_, fun h => exec_error (i := .cbDbyp) nofun hf (ruleCbDbyp_eio hm ha h), fun h => ?_,
    fun h hge => ?_, fun h hlt => ⟨fun b r hrem => ?_, fun hrem => ?_⟩⟩
  · obtain ⟨d, hread, hcon⟩ := getBit_cons h
    exact ⟨fun hle => ⟨d, exec_ok (i := .cbDbyp) nofun hf (ruleCbDbyp_one hm ha hread hoff hle), hcon⟩,
      fun hlt => ⟨d, exec_ok (i := .cbDbyp) nofun hf (ruleCbDbyp_zero hm ha hread hoff hlt), hcon⟩⟩
  · rw [exec_ok (i := .cbDterm) nofun hf (ruleCbDterm_end hm ha h), State.setDecRun, dec_of_less_two (by omega)]
    rfl
  · have hrenorm := DecRun.renorm_of_ge s.bufByte (fuel := 8)
      (r := ⟨s.dec.range.toNat - 2, s.dec.offset.toNat, s.cur⟩) (by show 256 ≤ s.dec.range.toNat - 2; omega)
    rw [exec_ok (i := .cbDterm) nofun hf (by rw [ruleOf, ruleCbDterm_go hm ha h, hrenorm, ok_bind]), State.setDecRun,
      dec_of_less_two (by omega), ← ha]
    rfl
  · obtain ⟨d, hexec, hcon⟩ := exec_decRenorm (i := .cbDterm) (n := 1) nofun hf (ruleCbDterm_go hm ha h) (by decide)
      (by omega) (by omega) (bs := [b]) rfl hrem
    refine ⟨d, ?_, hcon⟩
    have hoff : s.dec.offset.toNat * 2 ^ 1 + bitsNat [b] = 2 * s.dec.offset.toNat + b.toNat := by
      simp [bitsNat, Nat.mul_comm]
    rw [hexec, hoff, Nat.pow_one, Nat.mul_comm _ 2]
    rfl
  · exact exec_decRenorm_short (i := .cbDterm) (n := 1) nofun hf (ruleCbDterm_go hm ha h) (by decide) (by omega)
      (by rw [hrem]; decide)

/-- Settles O46: the word decodes by the round trip, and the rule of CB_DBIN fails whatever the state. -/
theorem decodeBinIsRefused : Obligations.DecodeBinIsRefused := by
  intro f8 f16 s
  refine ⟨fun h8 h16 => decode_encode (i := .cbDbin f8 f16) ?_, fun hf => runCommand_faulted hf,
    fun hf => ⟨_, exec_error (i := .cbDbin f8 f16) nofun hf rfl, rfl, ?_⟩⟩
  · rw [Instr.wellFormed, decide_eq_true h8, decide_eq_true h16]
    rfl
  · rw [State.failWith_status, Status.failWith, hf]
    rfl

end

