-- ==== Sys2Proof/Proofs/CabacBinarization.lean ====
section
/-!
CABAC binarization: the bin strings and their length, and BN_ENC (45_cabac_binarization.md R310 to R316).
-/

namespace Sys2Proof.Machine

/-! The strings (45_cabac_binarization.md R312 to R314). -/

theorem truncatedUnaryBins_eq {v cMax : Nat} :
    truncatedUnaryBins v cMax = List.replicate v true ++ if v < cMax then [false] else [] := by
  unfold truncatedUnaryBins
  split
  · rfl
  · rw [List.append_nil]

theorem ceilLog2_spec {x : Nat} (h : x ≤ 2 ^ 33) : x ≤ 2 ^ ceilLog2 x ∧ ∀ l, l < ceilLog2 x → 2 ^ l < x :=
  ceilLog2From_spec 33 0 x (by rwa [Nat.zero_add]) fun _ hl => absurd hl (Nat.not_lt_zero _)

theorem ceilLog2_le {x n : Nat} (h : x ≤ 2 ^ n) (hn : n ≤ 33) : ceilLog2 x ≤ n := by
  obtain ⟨-, hleast⟩ := ceilLog2_spec (h.trans (Nat.pow_le_pow_right (by decide) hn))
  exact not_lt.1 fun hlt => (hleast n hlt).not_ge h

theorem fixedLengthBins_length (v cMax : Nat) : (fixedLengthBins v cMax).length = ceilLog2 (cMax + 1) := by
  simp [fixedLengthBins]

/-- A UEGk string without a suffix (45_cabac_binarization.md R314). -/
theorem uegkBins_of_lt {k uCoff : Nat} {signed : Bool} {v : Int} (h : v.natAbs < uCoff) :
    uegkBins k signed uCoff v =
      List.replicate v.natAbs true ++ false :: if signed = true ∧ v ≠ 0 then [decide (v < 0)] else [] := by
  rw [uegkBins, Nat.min_eq_right h.le, truncatedUnaryBins_eq, if_pos h, if_neg h.not_ge, List.append_nil,
    List.append_assoc]
  rfl

/-- A UEGk string with its suffix (45_cabac_binarization.md R314). -/
theorem uegkBins_of_le {k uCoff : Nat} {signed : Bool} {v : Int} (h : uCoff ≤ v.natAbs) :
    uegkBins k signed uCoff v = List.replicate uCoff true ++ (expGolombSuffix 40 k (v.natAbs - uCoff) ++
      if signed = true ∧ v ≠ 0 then [decide (v < 0)] else []) := by
  rw [uegkBins, Nat.min_eq_left h, truncatedUnaryBins_eq, if_neg (lt_irrefl _), if_pos h, List.append_nil,
    List.append_assoc]

/-- A suffix of 40 ones or more would stand for more than 32 bits hold. -/
theorem suffixOnes_lt {k j v : Nat} (hv : v < 2 ^ 33) (h : 2 ^ k * (2 ^ j - 1) ≤ v) : j < 40 := by
  by_contra hj
  have hpow : 2 ^ 40 ≤ 2 ^ j := Nat.pow_le_pow_right (by decide) (not_lt.1 hj)
  have hle : 2 ^ j - 1 ≤ 2 ^ k * (2 ^ j - 1) := Nat.le_mul_of_pos_left _ (Nat.two_pow_pos k)
  omega

/-! The strings' length (45_cabac_binarization.md R316). -/

/-- The suffix of UEGk has at most j ones, a zero and k + j bits, for a j whose ones stand for no more than sufS. -/
theorem expGolombSuffix_length (fuel k suf : Nat) :
    ∃ j, (expGolombSuffix fuel k suf).length ≤ k + 2 * j + 1 ∧ 2 ^ (k + j) ≤ suf + 2 ^ k := by
  induction fuel generalizing k suf with
  | zero => exact ⟨0, Nat.zero_le _, Nat.le_add_left _ _⟩
  | succ fuel ih =>
    unfold expGolombSuffix
    split
    · next hle =>
      obtain ⟨j, hlen, hpow⟩ := ih (k + 1) (suf - 2 ^ k)
      refine ⟨j + 1, by rw [List.length_cons]; omega, ?_⟩
      rw [show k + (j + 1) = k + 1 + j by omega]
      rw [Nat.pow_succ 2 k] at hpow
      omega
    · exact ⟨0, by rw [List.length_cons, fieldBits_length], Nat.le_add_left _ _⟩

/-- The leading ones and the suffix of UEGk together, for a value whose size fits n bits. -/
theorem uegkParts_length {n k j uCoff suf : Nat} (hn : n = 31 ∨ n = 32) (hk : k < 16) (hu : uCoff ≤ 32)
    (hfit : uCoff + suf ≤ 2 ^ n) (hpow : 2 ^ (k + j) ≤ suf + 2 ^ k) : uCoff + (k + 2 * j + 1) ≤ n + 63 := by
  have hk15 : 2 ^ k ≤ 2 ^ 15 := Nat.pow_le_pow_right (by decide) (by omega)
  have hn15 : 2 ^ 15 < 2 ^ n := Nat.pow_lt_pow_right (by decide) (by omega)
  have hsum : k + j ≤ n := by
    by_contra hlt
    have : 2 ^ (n + 1) ≤ 2 ^ (k + j) := Nat.pow_le_pow_right (by decide) (by omega)
    rw [Nat.pow_succ] at this
    omega
  by_cases hj : j ≤ 30
  · omega
  · obtain ⟨rfl, rfl⟩ | ⟨rfl, rfl⟩ | ⟨rfl, rfl⟩ : (k = 0 ∧ j = 31) ∨ (k = 1 ∧ j = 31) ∨ (k = 0 ∧ j = 32) := by omega
    all_goals obtain rfl | rfl := hn <;> omega

/-- The sign bin of UEGk makes up for the bit a signed value's size has less. -/
theorem uegkBins_length_le_95 {k uCoff : Nat} {signed : Bool} {v : Int} (hk : k < 16) (hu : uCoff ≤ 32)
    (hv : v.natAbs ≤ 2 ^ (if signed then 31 else 32)) : (uegkBins k signed uCoff v).length ≤ 95 := by
  obtain ⟨n, hn, hfit, hsign⟩ : ∃ n, (n = 31 ∨ n = 32) ∧ v.natAbs ≤ 2 ^ n ∧
      (if signed = true ∧ v ≠ 0 then [decide (v < 0)] else []).length + n ≤ 32 := by
    cases signed
    · exact ⟨32, .inr rfl, hv, le_refl 32⟩
    · exact ⟨31, .inl rfl, hv, by split <;> simp⟩
  obtain hlt | hle := Nat.lt_or_ge v.natAbs uCoff
  · rw [uegkBins_of_lt hlt, List.length_append, List.length_replicate, List.length_cons]
    omega
  · obtain ⟨j, hlen, hpow⟩ := expGolombSuffix_length 40 k (v.natAbs - uCoff)
    have hboth := uegkParts_length hn hk hu (by omega) hpow
    rw [uegkBins_of_le hle, List.length_append, List.length_replicate, List.length_append]
    omega

/-! The commands that replace the bin buffer (45_cabac_binarization.md R310 to R314). -/

/-- A command that completes without a failure has a rule that answers. -/
theorem exec_completes {i : Instr} {s t : State} (hi : i ≠ .reset) (h : exec i s = .next t)
    (ht : t.status.fault = false) : ∃ u, ruleOf i s = .ok u ∧ t = u.complete .ok := by
  obtain ⟨hs, -, rfl⟩ | hu | ⟨e, -, rfl⟩ := exec_cases hi h
  · exact absurd (hs.symm.trans ht) (by decide)
  · exact hu
  · cases ht

section
variable {i : Instr} {s t : State} {c : Prop} [Decidable c] {bs : List Bool}
  (hrule : ruleOf i s = require c .einval >>= fun _ => .ok (s.setBins bs)) (hir : i ≠ .reset)
include hrule hir

theorem exec_setBins (hf : s.status.fault = false) (hc : c) : ∃ t, exec i s = .next t ∧ BinsReplaced s t bs :=
  ⟨_, exec_ok hir hf (by rw [hrule, require_pos _ hc, ok_bind]), binsReplaced_setBins⟩

theorem exec_setBins_einval (hf : s.status.fault = false) (hc : ¬c) :
    exec i s = .next (s.failWith .einval i.opcode) :=
  exec_error hir hf (by rw [hrule, require_neg _ hc, error_bind])

theorem binLen_of_exec_setBins (h : exec i s = .next t) (ht : t.status.fault = false) : c ∧ t.binLen = bs.length := by
  obtain ⟨u, hu, rfl⟩ := exec_completes hir h ht
  obtain ⟨hc, hu⟩ := require_bind_eq_ok.1 (hrule.symm.trans hu)
  obtain rfl := Except.ok.inj hu
  exact ⟨hc, rfl⟩

end

section
variable (s : State)

theorem ruleOf_bnU : ruleOf .bnU s =
    require (s.a0.toNat ≤ 127) .einval >>= fun _ => .ok (s.setBins (unaryBins s.a0.toNat)) := rfl

/-- BN_TU's two checks as one. -/
theorem ruleOf_bnTu : ruleOf .bnTu s = require (s.a1.toNat ≤ 127 ∧ s.a0.toNat ≤ s.a1.toNat) .einval >>= fun _ =>
    .ok (s.setBins (truncatedUnaryBins s.a0.toNat s.a1.toNat)) := by
  rw [ruleOf, ruleBnTu]
  by_cases hmax : s.a1.toNat ≤ 127
  · simp only [hmax, true_and]
    rfl
  · rw [require_neg _ hmax, require_neg (c := s.a1.toNat ≤ 127 ∧ s.a0.toNat ≤ s.a1.toNat) _ fun h => hmax h.1]
    rfl

theorem ruleOf_bnFl : ruleOf .bnFl s = require (s.a0.toNat ≤ s.a1.toNat) .einval >>= fun _ =>
    .ok (s.setBins (fixedLengthBins s.a0.toNat s.a1.toNat)) := rfl

theorem ruleOf_bnUegk (k : Nat) (signed : Bool) : ruleOf (.bnUegk k signed) s =
    require (s.a1.toNat ≤ 32) .einval >>= fun _ =>
      .ok (s.setBins (uegkBins k signed s.a1.toNat (if signed then s.a0.toInt else s.a0.toNat))) := rfl

end

/-- The value BN_UEGK takes has at most 31 bits beside its sign (45_cabac_binarization.md R314). -/
theorem uegkOperand_natAbs_le (signed : Bool) (w : Word) :
    (if signed then w.toInt else (w.toNat : Int)).natAbs ≤ 2 ^ (if signed then 31 else 32) := by
  cases signed
  · exact w.isLt.le
  · exact natAbs_sext32_le w

/-! Coding bins (45_cabac_binarization.md R315). -/

/-- What a run of the encoding engine holds between bins. -/
structure EncRun.Ok (free : Nat → Byte) (p : Params) (r : EncRun) : Prop where
  stream : EncOk p (r.stream.rd free) r.stream.cur
  fits : r.Fits
  least : 256 ≤ r.range
  most : r.range ≤ 510
  outstanding : r.outstanding < 2 ^ 32

section
variable {free : Nat → Byte} {p : Params} {c n : Nat} {b : Bool} {bs : List Bool} {r t : EncRun}

theorem encodeBins_singleton : encodeBins p c [b] r = encodeBin p c b r := by
  rw [encodeBins]
  cases encodeBin p c b r <;> rfl

theorem encodeBins_cons_ok (hb : encodeBins p c [b] r = .ok t) : encodeBins p c (b :: bs) r = encodeBins p c bs t := by
  rw [encodeBins, ← encodeBins_singleton, hb, ok_bind]

theorem encodeBin_keeps (hg : 1 ≤ p.growBlock) (h : r.Ok free p) (ht : encodeBin p c b r = .ok t) :
    t.Ok free p ∧ (∃ w, StreamStep free p r.stream t.stream w) ∧
      ∀ d, (Table.find r.ctx d).isSome = true → (Table.find t.ctx d).isSome = true := by
  obtain ⟨ho, hfit, hleast, hmost, hout⟩ := h
  unfold encodeBin at ht
  split at ht
  · obtain ⟨hs, hfit', hrange, hout'⟩ := EncRun.bypass_spec hg ho hfit hmost ht
    exact ⟨⟨hs.ok, hfit', hrange ▸ hleast, hrange ▸ hmost, hout'⟩, hs.stream, fun d hd => hs.ctx ▸ hd⟩
  · obtain ⟨x, -, ⟨w, hw⟩, hctx, hfit', hleast', hmost', hout'⟩ := EncRun.decision_spec hg ho hfit hout hleast hmost ht
    exact ⟨⟨hw.ok, hfit', hleast', hmost', hout'⟩, ⟨w, hw⟩, fun d hd => hctx ▸ Table.isSome_find_put hd⟩

/-- A bin is coded when its context is valid and 8 bits beside the outstanding ones fit. -/
theorem encodeBin_room (hg : 1 ≤ p.growBlock) (h : r.Ok free p)
    (hc : c = 0xFFFF ∨ (Table.find r.ctx c).isSome = true) (hout : r.outstanding + 8 < 2 ^ 32)
    (hroom : hasRoom p r.stream.cur (r.outstanding + 8 + n)) :
    ∃ t, encodeBin p c b r = .ok t ∧ hasRoom p t.stream.cur (t.outstanding + n) ∧
      t.outstanding ≤ r.outstanding + 8 := by
  unfold encodeBin
  split
  · obtain ⟨t, ht, hroom', hle⟩ := EncRun.bypass_room (bin := b) (n := n) hg h.stream (by omega)
      (hasRoom_mono (by omega) hroom)
    exact ⟨t, ht, hroom', by omega⟩
  · next hne =>
    obtain ⟨x, hx⟩ := Option.isSome_iff_exists.1 (hc.resolve_left hne)
    exact EncRun.decision_room hg h.stream h.fits h.least h.most hx hout hroom

/-- Bins are coded when 8 bits for each fit beside the outstanding ones. -/
theorem encodeBins_room (hg : 1 ≤ p.growBlock) (h : r.Ok free p)
    (hc : c = 0xFFFF ∨ bs = [] ∨ (Table.find r.ctx c).isSome = true) (hout : r.outstanding + 8 * bs.length < 2 ^ 32)
    (hroom : hasRoom p r.stream.cur (r.outstanding + 8 * bs.length)) :
    ∃ t w, encodeBins p c bs r = .ok t ∧ StreamStep free p r.stream t.stream w := by
  induction bs generalizing r with
  | nil => exact ⟨r, [], rfl, StreamStep.refl h.stream⟩
  | cons b bs ih =>
    rw [List.length_cons] at hout hroom
    have hc' : c = 0xFFFF ∨ (Table.find r.ctx c).isSome = true := hc.imp_right fun hc => hc.resolve_left nofun
    obtain ⟨t, ht, hroom', hle⟩ := encodeBin_room (b := b) (n := 8 * bs.length) hg h hc' (by omega)
      (by rwa [show r.outstanding + 8 + 8 * bs.length = r.outstanding + 8 * (bs.length + 1) by omega])
    obtain ⟨hok, ⟨w, hw⟩, hctx⟩ := encodeBin_keeps hg h ht
    obtain ⟨u, w', hu, hw'⟩ := ih hok (hc'.imp_right fun hx => .inr (hctx c hx)) (by omega) hroom'
    exact ⟨u, w ++ w', by rw [encodeBins, ht, ok_bind, hu], hw.trans hw'⟩

/-- The registers hold a run whole (10_state.md R39). -/
theorem encRun_setEncRun {active : Bool} {s : State} (h : r.Ok free p) : (s.setEncRun active r).encRun = r := by
  obtain ⟨-, hfit, hleast, hmost, hout⟩ := h
  unfold EncRun.Fits at hfit
  have hlow : (BitVec.ofNat 10 r.low).toNat = r.low := (BitVec.toNat_ofNat ..).trans (Nat.mod_eq_of_lt (by omega))
  have hrange : (BitVec.ofNat 9 r.range).toNat = r.range :=
    (BitVec.toNat_ofNat ..).trans (Nat.mod_eq_of_lt (by omega))
  have hcount : (natWord r.outstanding).toNat = r.outstanding := (BitVec.toNat_ofNat ..).trans (Nat.mod_eq_of_lt hout)
  show EncRun.mk (BitVec.ofNat 10 r.low).toNat (BitVec.ofNat 9 r.range).toNat (natWord r.outstanding).toNat
    r.first r.stream r.ctx = r
  rw [hlow, hrange, hcount]

end

/-! BN_ENC (45_cabac_binarization.md R315). -/

section
variable {s t : State} {c : Nat}

theorem State.Inv.encRunOk (hi : s.Inv) (hf : s.status.fault = false) (ha : s.enc.active = true) :
    s.encRun.Ok s.bufFree s.params := by
  obtain ⟨hm, hlow, hleast, hmost⟩ := hi.encoderOk hf ha
  exact ⟨hi.encOk hf hm, hlow, hleast, hmost, s.enc.outstanding.isLt⟩

theorem State.binSlice_succ (first n : Nat) :
    s.binSlice first (n + 1) = s.binAt first :: s.binSlice (first + 1) n := by
  simp [State.binSlice, List.range_succ_eq_map, Function.comp_def, Nat.add_assoc, Nat.add_comm 1]

theorem State.binSlice_length (first n : Nat) : (s.binSlice first n).length = n := by simp [State.binSlice]

theorem ruleBnEnc_eq (hm : s.cur.mode = .enc) (ha : s.enc.active = true) (hc : c ≤ 1023 ∨ c = 0xFFFF)
    (hb : s.a0.toNat + s.a1.toNat ≤ s.binLen) : ruleBnEnc c s =
      encodeBins s.params c (s.binSlice s.a0.toNat s.a1.toNat) s.encRun >>= fun r => .ok (s.setEncRun true r) := by
  rw [ruleBnEnc, require_pos _ ⟨hm, ha⟩, require_pos _ hc, require_pos _ hb]
  rfl

theorem ruleBnEnc_einval (hm : s.cur.mode = .enc) (ha : s.enc.active = true)
    (h : ¬(c ≤ 1023 ∨ c = 0xFFFF) ∨ s.binLen < s.a0.toNat + s.a1.toNat) : ruleBnEnc c s = .error .einval := by
  rw [ruleBnEnc, require_pos _ ⟨hm, ha⟩, ok_bind]
  by_cases hc : c ≤ 1023 ∨ c = 0xFFFF
  · rw [require_pos _ hc, ok_bind, require_neg _ (h.resolve_left (not_not_intro hc)).not_ge, error_bind]
  · rw [require_neg _ hc, error_bind]

/-- What BN_ENC has coded when it completes without a failure. -/
theorem bins_of_exec_bnEnc (h : exec (.bnEnc c) s = .next t) (ht : t.status.fault = false) :
    ∃ r, encodeBins s.params c (s.binSlice s.a0.toNat s.a1.toNat) s.encRun = .ok r ∧
      t = State.complete .ok (s.setEncRun true r) := by
  obtain ⟨u, hu, rfl⟩ := exec_completes (i := .bnEnc c) nofun h ht
  obtain ⟨-, hu⟩ := require_bind_eq_ok.1 hu
  obtain ⟨-, hu⟩ := require_bind_eq_ok.1 hu
  obtain ⟨-, hu⟩ := require_bind_eq_ok.1 hu
  obtain ⟨r, hr, hu⟩ := bind_eq_ok.1 hu
  exact ⟨r, hr, congrArg (State.complete .ok) (Except.ok.inj hu).symm⟩

/-- CB_EBYP or CB_EDEC codes the bin in A0 as BN_ENC codes one of its bins. -/
theorem ruleOf_codeBin (hm : s.cur.mode = .enc) (ha : s.enc.active = true) (hc : c ≤ 1023 ∨ c = 0xFFFF) (b : Bool) :
    ruleOf (if c = 0xFFFF then .cbEbyp else .cbEdec c) { s with a0 := if b then 1 else 0 } =
      encodeBin s.params c b s.encRun >>= fun r => .ok (State.setEncRun { s with a0 := if b then 1 else 0 } true r) := by
  have hbit : (if b then (1 : Word) else 0).toNat ≤ 1 := by cases b <;> decide
  have hbin : decide ((if b then (1 : Word) else 0) = 1) = b := by cases b <;> rfl
  unfold encodeBin
  split
  · refine (ruleCbEbyp_eq (s := { s with a0 := if b then 1 else 0 }) hm ha hbit).trans ?_
    rw [hbin]
    rfl
  · next hne =>
    refine (ruleCbEdec_eq (s := { s with a0 := if b then 1 else 0 }) hm ha (hc.resolve_right hne) hbit).trans ?_
    rw [hbin]
    rfl

end

section
variable {s t e : State} {c n : Nat} (hm : s.cur.mode = .enc) (ha : s.enc.active = true)
  (hf : s.status.fault = false) (hc : c ≤ 1023 ∨ c = 0xFFFF) (hb : s.a0.toNat + s.a1.toNat ≤ s.binLen)
include hm ha hf hc hb

theorem exec_bnEnc {r : EncRun} (h : encodeBins s.params c (s.binSlice s.a0.toNat s.a1.toNat) s.encRun = .ok r) :
    exec (.bnEnc c) s = .next (State.complete .ok (s.setEncRun true r)) :=
  exec_ok (i := .bnEnc c) nofun hf (by rw [ruleOf, ruleBnEnc_eq hm ha hc hb, h, ok_bind])

theorem exec_bnEnc_none (h0 : s.a1 = 0) : exec (.bnEnc c) s = .next (s.complete .ok) := by
  have hsame : s.setEncRun true s.encRun = s :=
    (setEncRun_encRun ha s.encRun.low s.encRun.outstanding s.enc.first s.stream).trans (by simp [State.encRun, natWord])
  rw [exec_bnEnc hm ha hf hc hb (r := s.encRun) (by rw [h0]; rfl), hsame]

theorem exec_bnEnc_one (h1 : s.a1 = 1)
    (h : exec (if c = 0xFFFF then .cbEbyp else .cbEdec c) { s with a0 := if s.binAt s.a0.toNat then 1 else 0 } = .next t)
    (ht : t.status.fault = false) : exec (.bnEnc c) s = .next { t with a0 := s.a0 } := by
  obtain ⟨u, hu, rfl⟩ := exec_completes (by split <;> nofun) h ht
  obtain ⟨r, hr, hu⟩ := bind_eq_ok.1 ((ruleOf_codeBin hm ha hc _).symm.trans hu)
  obtain rfl := Except.ok.inj hu
  have hslice : s.binSlice s.a0.toNat s.a1.toNat = [s.binAt s.a0.toNat] := by
    rw [h1]
    rfl
  exact exec_bnEnc hm ha hf hc hb (by rw [hslice, encodeBins_singleton, hr])

/-- The registers carry the run from the first bin to the rest. -/
theorem exec_bnEnc_more (hi : s.Inv) (h : s.a1.toNat = n + 1)
    (hfirst : exec (.bnEnc c) { s with a1 := 1 } = .next t) (ht : t.status.fault = false)
    (hrest : exec (.bnEnc c) { t with a0 := s.a0 + 1, a1 := natWord n } = .next e) (he : e.status.fault = false) :
    exec (.bnEnc c) s = .next { e with a0 := s.a0, a1 := s.a1 } := by
  obtain ⟨r, hr, rfl⟩ := bins_of_exec_bnEnc hfirst ht
  obtain ⟨q, hq, rfl⟩ := bins_of_exec_bnEnc hrest he
  have hr' : encodeBins s.params c [s.binAt s.a0.toNat] s.encRun = .ok r := hr
  obtain ⟨hok, -, -⟩ := encodeBin_keeps hi.growBlock_pos (hi.encRunOk hf ha) (encodeBins_singleton.symm.trans hr')
  have ha0 : (s.a0 + 1).toNat = s.a0.toNat + 1 := by
    have := hi.binLen
    bv_omega
  have ha1 : (natWord n).toNat = n := (BitVec.toNat_ofNat ..).trans (Nat.mod_eq_of_lt (by omega))
  have hq' : encodeBins s.params c (s.binSlice (s.a0 + 1).toNat (natWord n).toNat) (s.setEncRun true r).encRun = .ok q :=
    hq
  rw [encRun_setEncRun hok, ha0, ha1] at hq'
  exact exec_bnEnc hm ha hf hc hb (by rw [h, State.binSlice_succ, encodeBins_cons_ok hr', hq'])

theorem exec_bnEnc_room (hi : s.Inv) (hx : c = 0xFFFF ∨ s.a1 = 0 ∨ ∃ x, Table.find s.ctx c = some x)
    (hout : s.enc.outstanding.toNat + 8 * s.a1.toNat < 2 ^ 32)
    (hroom : s.HasRoom (s.enc.outstanding.toNat + 8 * s.a1.toNat)) :
    ∃ r bs, exec (.bnEnc c) s = .next (State.complete .ok (s.setEncRun true r)) ∧
      Appended s (State.complete .ok (s.setEncRun true r)) bs := by
  have hlen := s.binSlice_length s.a0.toNat s.a1.toNat
  have hx' : c = 0xFFFF ∨ s.binSlice s.a0.toNat s.a1.toNat = [] ∨ (Table.find s.ctx c).isSome = true :=
    hx.imp_right (Or.imp (fun h0 => by rw [h0]; rfl) Option.isSome_iff_exists.2)
  obtain ⟨r, w, hr, hw⟩ := encodeBins_room hi.growBlock_pos (hi.encRunOk hf ha) hx' (by rw [hlen]; exact hout)
    (by rw [hlen]; exact hroom)
  exact ⟨r, w, exec_bnEnc hm ha hf hc hb hr, hw.appended rfl rfl rfl⟩

theorem exec_bnEnc_estate (hc' : c ≤ 1023) (h0 : s.a1 ≠ 0) (hx : Table.find s.ctx c = none) :
    exec (.bnEnc c) s = .next (s.failWith .estate 0x54) := by
  obtain ⟨n, hn⟩ := Nat.exists_eq_succ_of_ne_zero fun h => h0 (BitVec.eq_of_toNat_eq h)
  refine exec_error (i := .bnEnc c) nofun hf ?_
  rw [ruleOf, ruleBnEnc_eq hm ha hc hb, hn, State.binSlice_succ, encodeBins, encodeBin, if_neg (by omega),
    EncRun.decision_none hx, error_bind, error_bind]

end

end Sys2Proof.Machine

open Sys2Proof Sys2Proof.Machine

/-- Settles O47: each rule is one check before `State.setBins` of its string, and the strings are those of R311 to
R314. -/
theorem binStrings : Obligations.BinStrings := by
  intro s hf
  refine ⟨exec_setBins (ruleOf_bnU s) nofun hf, fun h => exec_setBins_einval (ruleOf_bnU s) nofun hf h.not_ge,
    fun hmax hle => ?_, fun h => exec_setBins_einval (ruleOf_bnTu s) nofun hf (by omega), fun hle => ?_,
    fun h => exec_setBins_einval (ruleOf_bnFl s) nofun hf h.not_ge, fun k signed v sign hk hu hv hsign => ?_,
    fun k signed h => exec_setBins_einval (ruleOf_bnUegk s k signed) nofun hf h.not_ge⟩
  · rw [← truncatedUnaryBins_eq]
    exact exec_setBins (ruleOf_bnTu s) nofun hf ⟨hmax, hle⟩
  · have hlt := s.a1.isLt
    obtain ⟨hfits, hleast⟩ := ceilLog2_spec (x := s.a1.toNat + 1) (by omega)
    obtain ⟨t, ht, hbins⟩ := exec_setBins (ruleOf_bnFl s) nofun hf hle
    rw [← fixedLengthBins_length s.a0.toNat] at hfits hleast
    refine ⟨t, _, ht, hbins, hfits, hleast, ?_⟩
    rw [fixedLengthBins_reverse, ← fixedLengthBins_length s.a0.toNat]
    exact bitsNat_fieldBits _ _ (by omega)
  · have hstring := exec_setBins (ruleOf_bnUegk s k signed) nofun hf hu
    have hle := uegkOperand_natAbs_le signed s.a0
    rw [← hv] at hstring hle
    refine ⟨fun hlt => ?_, fun j x hsum hx => ?_⟩
    · rwa [uegkBins_of_lt hlt, ← hsign] at hstring
    · have hj : j < 40 := suffixOnes_lt (k := k) (v := v.natAbs)
        (hle.trans_lt (by cases signed <;> decide)) (by omega)
      have hsuf : v.natAbs - s.a1.toNat = 2 ^ k * (2 ^ j - 1) + bitsNat x := by omega
      rw [uegkBins_of_le (by omega), hsuf, expGolombSuffix_eq 40 k j x hx hj, ← hsign] at hstring
      simpa only [List.append_assoc, List.cons_append] using hstring

/-- Settles O48: BINLEN is the length of the string of the rule, whose operands its check has bounded. -/
theorem binStringBound : Obligations.BinStringBound := by
  intro s t
  refine ⟨fun h ht => ?_, fun h ht => ?_, fun h ht => ?_, fun k signed hk h ht => ?_⟩
  · obtain ⟨hv, hlen⟩ := binLen_of_exec_setBins (ruleOf_bnU s) nofun h ht
    rw [hlen, unaryBins_length]
    omega
  · obtain ⟨⟨hmax, hv⟩, hlen⟩ := binLen_of_exec_setBins (ruleOf_bnTu s) nofun h ht
    exact hlen.trans_le ((truncatedUnaryBins_length_le hv).trans hmax)
  · obtain ⟨-, hlen⟩ := binLen_of_exec_setBins (ruleOf_bnFl s) nofun h ht
    rw [hlen, fixedLengthBins_length]
    exact ceilLog2_le s.a1.isLt (by decide)
  · obtain ⟨hu, hlen⟩ := binLen_of_exec_setBins (ruleOf_bnUegk s k signed) nofun h ht
    exact hlen.trans_le (uegkBins_length_le_95 hk hu (uegkOperand_natAbs_le signed s.a0))

/-- Settles O49: `encodeBins` codes a first bin and then the rest, and 8 bits of room for each bin are enough. -/
theorem binEncode : Obligations.BinEncode := by
  intro c s hi hf ha hc
  obtain ⟨hm, -⟩ := hi.encoderOk hf ha
  refine ⟨fun hb => ⟨exec_bnEnc_none hm ha hf hc hb, fun h1 t h ht => exec_bnEnc_one hm ha hf hc hb h1 h ht,
      fun n t e h hfirst ht hrest he => exec_bnEnc_more hm ha hf hc hb hi h hfirst ht hrest he,
      fun hx hout hroom => ?_, exec_bnEnc_estate hm ha hf hc hb⟩,
    fun hb => exec_error (i := .bnEnc c) nofun hf (ruleBnEnc_einval hm ha (.inr hb)),
    fun k hk hk' => exec_error (i := .bnEnc k) nofun hf (ruleBnEnc_einval hm ha (.inl (by omega)))⟩
  obtain ⟨r, bs, hexec, happ⟩ := exec_bnEnc_room hm ha hf hc hb hi hx hout hroom
  exact ⟨_, bs, hexec, rfl, rfl, happ⟩

end

