-- ==== Sys2Proof/Proofs/MbTable.lean ====
section
/-!
The MB info table: MB_SLICE, MB_BEGIN, MB_SETNZ and MB_GET (46_mb_addressing.md R330 to R334).
-/

namespace Sys2Proof.Machine

/-! Checks. -/

/-- A check fails with its code also when what follows it fails with that code. -/
theorem require_bind_error {α : Type} {c : Prop} [Decidable c] {e : Code} {f : Unit → Except Code α}
    (h : c → f () = .error e) : (require c e >>= f) = .error e := by
  unfold require
  split
  · exact h ‹_›
  · rfl

theorem wordBit_eq_getLsbD (w : Word) (i : Nat) : wordBit w i = w.getLsbD i := by
  rw [wordBit, bitAt, BitVec.getLsbD, Nat.testBit_eq_decide_div_mod_eq]

/-! MB_SLICE (46_mb_addressing.md R331; 30_encoding.md R101, R103). -/

theorem eq_mbSlice_of_opcode_eq {i : Instr} (h : i.opcode = 0x60) : i = .mbSlice := by
  cases i with
  | mbSlice => rfl
  | _ => cases h

/-- A word of MB_SLICE's opcode other than its own is no command's word. -/
theorem encode_ne_of_mbSlice_opcode {w : Word} (hopc : wordOpc w = 0x60) (hw : w ≠ encode .mbSlice) (i : Instr)
    (hi : i.wellFormed = true) : encode i ≠ w := by
  rintro rfl
  obtain ⟨hopcode, -, -⟩ := fields_of_decode (decode_encode hi)
  obtain rfl := eq_mbSlice_of_opcode_eq (hopcode.trans hopc)
  exact hw rfl

theorem ruleMbNbmb_estate {dir : Bool} {s : State} (h : s.geom.valid = false ∨ s.currValid = false) :
    ruleMbNbmb dir s = .error .estate :=
  require_bind_estate fun hready => by simp [hready.1, hready.2] at h

/-! MB_BEGIN (46_mb_addressing.md R332). -/

section
variable {s : State}

/-- MB_BEGIN's check of FIELD, in the words of `MbBeginLegal`. -/
theorem fieldFlagOk_iff {a : Nat} {field : Bool} : fieldFlagOk s a field = true ↔
    (s.geom.mbaffFrame = false → field = s.geom.fieldPic) ∧
      (s.geom.mbaffFrame = true → a % 2 = 1 → ∀ e, Table.find s.mb (a - 1) = some e → field = e.field) := by
  unfold fieldFlagOk State.mbValid State.mbEntry
  cases hm : s.geom.mbaffFrame with
  | false => simp
  | true => cases he : Table.find s.mb (a - 1) <;> simp [or_iff_not_imp_left]

/-- The reserved bits of MB_BEGIN's flags word are 0. -/
theorem flags_reserved_iff {w : Word} :
    (wordField w 4 4 = 0 ∧ wordField w 16 16 = 0) ↔ (w.toNat / 16 % 16 = 0 ∧ w.toNat / 2 ^ 16 = 0) := by
  have := w.isLt
  simp only [wordField, bitField]
  omega

theorem newMbEntry_eq (w : Word) : newMbEntry w = ⟨w.getLsbD 0, w.getLsbD 1, w.getLsbD 2, w.getLsbD 3,
    BitVec.ofNat 8 (w.toNat / 256), Vector.replicate 48 0, Vector.replicate 12 0⟩ := by
  have htype : BitVec.ofNat 8 (wordField w 8 8) = BitVec.ofNat 8 (w.toNat / 256) := by
    apply BitVec.eq_of_toNat_eq
    simp [wordField, bitField]
  simp only [newMbEntry, wordBit_eq_getLsbD, htype]

/-- MB_BEGIN past its operand checks. -/
theorem ruleMbBegin_of_legal (hgeom : s.geom.valid = true) (h : MbBeginLegal s) : ruleMbBegin s =
    (require (s.a0.toNat < s.params.maxMbs) .enomem >>= fun _ => .ok { s with
      mb := Table.put s.mb s.a0.toNat (newMbEntry s.a1), currMbAddr := s.a0, currValid := true }) := by
  have hfield := fieldFlagOk_iff.2 ⟨h.fieldPicture, h.fieldPair⟩
  have horder := Bool.eq_false_or_eq_true s.currValid |>.symm.imp_right h.order
  have hipcm := Bool.eq_false_or_eq_true (s.a1.getLsbD 1) |>.symm.imp_right h.ipcmIntra
  have hskip := Bool.eq_false_or_eq_true (s.a1.getLsbD 0) |>.symm.imp_right h.skipInter
  simp only [ruleMbBegin, wordBit_eq_getLsbD, require_pos _ hgeom, require_pos _ (flags_reserved_iff.2 h.zeros),
    require_pos _ h.inPicture, require_pos _ horder, require_pos _ h.skipOrIpcm, require_pos _ hipcm,
    require_pos _ hskip, require_pos _ hfield, ok_bind]
  rfl

theorem ruleMbBegin_eq (hgeom : s.geom.valid = true) (h : MbBeginLegal s) (ha : s.a0.toNat < s.params.maxMbs) :
    ruleMbBegin s = .ok { s with
      mb := Table.put s.mb s.a0.toNat (newMbEntry s.a1), currMbAddr := s.a0, currValid := true } := by
  rw [ruleMbBegin_of_legal hgeom h, require_pos _ ha, ok_bind]

theorem ruleMbBegin_enomem (hgeom : s.geom.valid = true) (h : MbBeginLegal s) (ha : s.params.maxMbs ≤ s.a0.toNat) :
    ruleMbBegin s = .error .enomem := by
  rw [ruleMbBegin_of_legal hgeom h, require_neg _ ha.not_gt, error_bind]

theorem ruleMbBegin_einval (hgeom : s.geom.valid = true) (h : ¬MbBeginLegal s) : ruleMbBegin s = .error .einval := by
  simp only [ruleMbBegin, wordBit_eq_getLsbD, require_pos _ hgeom, ok_bind]
  refine require_bind_error fun hzeros => require_bind_error fun hpic => require_bind_error fun horder =>
    require_bind_error fun hboth => require_bind_error fun hipcm => require_bind_error fun hskip =>
    require_bind_error fun hfield => absurd ?_ h
  obtain ⟨hpicture, hpair⟩ := fieldFlagOk_iff.1 hfield
  exact ⟨flags_reserved_iff.1 hzeros, hpic, fun hv => horder.resolve_left (by simp [hv]), hboth,
    fun h1 => hipcm.resolve_left (by simp [h1]), fun h0 => hskip.resolve_left (by simp [h0]), hpicture, hpair⟩

theorem ruleMbBegin_estate (hgeom : s.geom.valid = false) : ruleMbBegin s = .error .estate :=
  require_bind_estate (by simp [hgeom])

/-! MB_SETNZ (46_mb_addressing.md R333). -/

/-- An MB entry with `n` written to NZ8[c][j], as `State.storeNz8` writes it. -/
def MbEntry.setNz8 (e : MbEntry) (c j n : Nat) : MbEntry :=
  { e with nz8 := e.nz8.setIfInBounds (4 * c + j) (BitVec.ofNat 7 n) }

theorem MbEntry.nz8At_setNz8 (e : MbEntry) {c c' j j' n : Nat} (hc : c ≤ 2) (hj : j < 4) (hj' : j' < 4) (hn : n < 128) :
    (e.setNz8 c' j' n).nz8At c j = if c = c' ∧ j = j' then n else e.nz8At c j := by
  have hlt : 4 * c + j < 12 := by omega
  have hiff : 4 * c' + j' = 4 * c + j ↔ c = c' ∧ j = j' := by omega
  simp only [MbEntry.nz8At, MbEntry.setNz8, Vector.getElem?_eq_getElem hlt, Vector.getElem_setIfInBounds, hiff,
    Option.getD_some]
  split
  · rw [BitVec.toNat_ofNat, Nat.mod_eq_of_lt hn]
  · rfl

variable {comp blk : Nat} {e : MbEntry}

theorem ruleMbSetnz_nz (hv : s.currValid = true) (hc : comp ≤ 2) (hb : blk ≤ 15 ∧ s.a0.toNat ≤ 16)
    (he : Table.find s.mb s.currMbAddr.toNat = some e) : ruleMbSetnz comp false blk s =
      .ok { s with mb := Table.put s.mb s.currMbAddr.toNat (e.setNz comp blk s.a0.toNat) } := by
  rw [ruleMbSetnz, require_pos _ hv, ok_bind, require_pos _ hc, ok_bind, if_neg Bool.false_ne_true, require_pos _ hb,
    ok_bind, State.storeNz, he]
  rfl

theorem ruleMbSetnz_nz8 (hv : s.currValid = true) (hc : comp ≤ 2) (hb : blk ≤ 3 ∧ s.a0.toNat ≤ 64)
    (he : Table.find s.mb s.currMbAddr.toNat = some e) : ruleMbSetnz comp true blk s =
      .ok { s with mb := Table.put s.mb s.currMbAddr.toNat (e.setNz8 comp blk s.a0.toNat) } := by
  rw [ruleMbSetnz, require_pos _ hv, ok_bind, require_pos _ hc, ok_bind, if_pos rfl, require_pos _ hb, ok_bind,
    State.storeNz8, he]
  rfl

theorem ruleMbSetnz_nz_einval (hv : s.currValid = true) (h : 2 < comp ∨ 15 < blk ∨ 16 < s.a0.toNat) :
    ruleMbSetnz comp false blk s = .error .einval := by
  rw [ruleMbSetnz, require_pos _ hv, ok_bind, if_neg Bool.false_ne_true]
  exact require_bind_error fun hc => require_bind_error fun hb => by omega

theorem ruleMbSetnz_nz8_einval (hv : s.currValid = true) (h : 2 < comp ∨ 3 < blk ∨ 64 < s.a0.toNat) :
    ruleMbSetnz comp true blk s = .error .einval := by
  rw [ruleMbSetnz, require_pos _ hv, ok_bind, if_pos rfl]
  exact require_bind_error fun hc => require_bind_error fun hb => by omega

theorem ruleMbSetnz_estate {size8 : Bool} (hv : s.currValid = false) :
    ruleMbSetnz comp size8 blk s = .error .estate :=
  require_bind_estate (by simp [hv])

/-! MB_GET (46_mb_addressing.md R334). -/

/-- The selector word with its reserved bits 0 is its three fields: blkIdx, comp and SIZE8. -/
theorem mbGetSelector_iff {w : Word} {c k : Nat} {size8 : Bool} :
    (wordField w 4 4 = 0 ∧ wordField w 10 2 = 0 ∧ wordField w 13 19 = 0) ∧ wordField w 8 2 = c ∧ wordField w 0 4 = k ∧
        wordBit w 12 = size8 ↔
      c ≤ 3 ∧ k ≤ 15 ∧ w.toNat = k + 256 * c + 4096 * size8.toNat := by
  have := w.isLt
  cases size8 <;> simp only [wordField, bitField, wordBit, bitAt, decide_eq_true_eq, decide_eq_false_iff_not,
    Bool.toNat_true, Bool.toNat_false] <;> omega

theorem ruleMbGet_eq {c k : Nat} {size8 : Bool} (hc : c ≤ 2) (hk : k ≤ 15) (h8 : size8 = true → k ≤ 3)
    (hsel : s.a1.toNat = k + 256 * c + 4096 * size8.toNat) (ha : s.a0.toNat < s.params.maxMbs) : ruleMbGet s =
      .ok { s with
        y0 := (mbGetResult s s.a0.toNat c k size8).1
        y1 := (mbGetResult s s.a0.toNat c k size8).2 } := by
  obtain ⟨hzeros, hcomp, hblk, hsize⟩ := mbGetSelector_iff.2 ⟨hc.trans (by decide), hk, hsel⟩
  have hrange : s.a0.toNat < s.params.maxMbs ∧ c ≤ 2 ∧ (size8 = false ∨ k ≤ 3) :=
    ⟨ha, hc, Bool.eq_false_or_eq_true size8 |>.symm.imp_right h8⟩
  simp only [ruleMbGet, require_pos _ hzeros, hcomp, hblk, hsize, require_pos _ hrange, ok_bind]
  rfl

theorem ruleMbGet_einval (h : s.params.maxMbs ≤ s.a0.toNat ∨
    ¬∃ (c k : Nat) (size8 : Bool), c ≤ 2 ∧ k ≤ 15 ∧ (size8 = true → k ≤ 3) ∧
      s.a1.toNat = k + 256 * c + 4096 * size8.toNat) : ruleMbGet s = .error .einval := by
  refine require_bind_error fun hzeros => require_bind_error fun hrange => ?_
  obtain ⟨ha, hc, h8⟩ := hrange
  obtain ⟨-, hk, hsel⟩ := mbGetSelector_iff.1 ⟨hzeros, rfl, rfl, rfl⟩
  exact absurd ⟨_, _, _, hc, hk, fun hsize => h8.resolve_left (by simp [hsize]), hsel⟩ (h.resolve_left ha.not_ge)

end

end Sys2Proof.Machine

open Sys2Proof Sys2Proof.Machine

/-- Settles O50: the cleared table lists nothing, without a current macroblock MB_NBMB is ESTATE, and MB_SLICE is the
only command of its opcode. -/
theorem mbSliceRule : Obligations.MbSliceRule := by
  refine ⟨rfl, fun s hf => ⟨⟨_, exec_ok (i := .mbSlice) nofun hf rfl, rfl, fun _ => rfl, fun dir => ?_⟩,
    fun w hopc hw => ?_⟩⟩
  · exact exec_error (i := .mbNbmb dir) nofun hf (ruleMbNbmb_estate (.inr rfl))
  · have hnext := wordsOutsideTheMapFail w s (encode_ne_of_mbSlice_opcode hopc hw)
    rw [hopc, hf] at hnext
    exact hnext

/-- Settles O51: the seven operand checks are `MbBeginLegal`, and the new entry is the only change of the table. -/
theorem mbBeginEntersMacroblock : Obligations.MbBeginEntersMacroblock := by
  intro s hf
  refine ⟨fun hgeom hlegal ha => ⟨_, exec_ok (i := .mbBegin) nofun hf (ruleMbBegin_eq hgeom hlegal ha), rfl, ?_,
      fun a hne => Table.find_put_other _ _ _ _ hne⟩,
    fun hgeom hlegal ha => exec_error (i := .mbBegin) nofun hf (ruleMbBegin_enomem hgeom hlegal ha),
    fun hgeom hlegal => exec_error (i := .mbBegin) nofun hf (ruleMbBegin_einval hgeom hlegal),
    fun hgeom => exec_error (i := .mbBegin) nofun hf (ruleMbBegin_estate hgeom)⟩
  rw [← newMbEntry_eq]
  exact Table.find_put_same _ _ _

/-- Settles O52: MB_SETNZ puts the current entry back with one count changed; MB_GET's selector is its three fields. -/
theorem mbCountsWriteAndRead : Obligations.MbCountsWriteAndRead := by
  refine ⟨fun comp blk s hf => ⟨fun hv hc e he => ⟨fun hb hn => ?_, fun hb hn => ?_⟩,
      fun hv h => exec_error (i := .mbSetnz comp false blk) nofun hf (ruleMbSetnz_nz_einval hv h),
      fun hv h => exec_error (i := .mbSetnz comp true blk) nofun hf (ruleMbSetnz_nz8_einval hv h),
      fun size8 hv => exec_error (i := .mbSetnz comp size8 blk) nofun hf (ruleMbSetnz_estate hv)⟩,
    fun s hf => ⟨fun c k size8 hc hk h8 hsel ha => ?_,
      fun h => exec_error (i := .mbGet) nofun hf (ruleMbGet_einval h)⟩⟩
  · exact ⟨_, e.setNz comp blk s.a0.toNat,
      exec_ok (i := .mbSetnz comp false blk) nofun hf (ruleMbSetnz_nz hv hc ⟨hb, hn⟩ he), rfl, Table.find_put_same _ _ _,
      rfl, fun c k hc' hk => e.nzAt_setNz hc' (by omega) (by omega) (by omega),
      fun a ha => Table.find_put_other _ _ _ _ ha⟩
  · exact ⟨_, e.setNz8 comp blk s.a0.toNat,
      exec_ok (i := .mbSetnz comp true blk) nofun hf (ruleMbSetnz_nz8 hv hc ⟨hb, hn⟩ he), rfl, Table.find_put_same _ _ _,
      rfl, fun c k hc' hk => e.nz8At_setNz8 hc' (by omega) (by omega) (by omega),
      fun a ha => Table.find_put_other _ _ _ _ ha⟩
  · have hget := exec_ok (i := .mbGet) nofun hf (ruleMbGet_eq hc hk h8 hsel ha)
    refine ⟨fun hnone => ?_, fun e he => ?_⟩
    · rwa [mbGetResult, hnone] at hget
    · rwa [mbGetResult, he] at hget

end

