-- ==== Sys2Proof/Proofs/NeighbourLocations.lean ====
section
/-!
Neighbouring locations and blocks: MB_NBLOC outside and inside MBAFF frames, MB_NBMB and MB_NBBLK
(46_mb_addressing.md R335 to R345).
-/

namespace Sys2Proof.Machine

/-! The regions (46_mb_addressing.md R338). -/

section
variable {maxW maxH : Nat} {x y : Int}

theorem classify_left (hx : x < 0) (hy : 0 ≤ y) (hyH : y < maxH) : classify maxW maxH x y = .ok .left := by
  rw [classify, if_neg (by omega), if_pos (by omega)]

theorem classify_above (hx : 0 ≤ x) (hxW : x < maxW) (hy : y < 0) : classify maxW maxH x y = .ok .above := by
  rw [classify, if_neg (by omega), if_neg (by omega), if_pos (by omega)]

theorem classify_current (hx : 0 ≤ x) (hxW : x < maxW) (hy : 0 ≤ y) (hyH : y < maxH) :
    classify maxW maxH x y = .ok .current := by
  rw [classify, if_neg (by omega), if_neg (by omega), if_neg (by omega), if_pos (by omega)]

theorem classify_outside (hy : 0 ≤ y) (h : (maxW : Int) ≤ x ∨ (maxH : Int) ≤ y) :
    classify maxW maxH x y = .ok .outside := by
  rw [classify, if_neg (by omega), if_neg (by omega), if_neg (by omega), if_neg (by omega), if_neg (by omega)]

theorem classify_einval (h : (x < 0 ∧ y < 0) ∨ ((maxW : Int) ≤ x ∧ y < 0)) :
    classify maxW maxH x y = .error .einval := by
  by_cases hx : x < 0
  · rw [classify, if_pos (by omega)]
  · rw [classify, if_neg (by omega), if_neg (by omega), if_neg (by omega), if_neg (by omega), if_pos (by omega)]

end

theorem State.nbLoc_of_classify_error {s : State} {plane : Plane} {maxW maxH : Nat} {xN yN : Int} {e : Code}
    (hsize : planeSize s.geom plane = (maxW, maxH)) (he : classify maxW maxH xN yN = .error e) :
    s.nbLoc plane xN yN = .error e := by
  simp only [State.nbLoc, hsize, he, error_bind]

theorem ruleRem_of_lt {v : Int} {m : Nat} (h0 : 0 ≤ v) (hm : v < m) : ruleRem v m = v.toNat := by
  rw [ruleRem, if_pos h0, Nat.mod_eq_of_lt (by omega)]

theorem ruleRem_add_self {v : Int} {m : Nat} (h0 : 0 ≤ v) (hm : v < m) : ruleRem (v + m) m = v.toNat := by
  rw [ruleRem, if_pos (by omega), Int.toNat_add h0 (by omega), Int.toNat_natCast, Nat.add_mod_right,
    Nat.mod_eq_of_lt (by omega)]

/-! MB_NBLOC (46_mb_addressing.md R341). -/

/-- The plane MB_NBLOC's field names (46_mb_addressing.md R341). -/
def planeOf (chroma : Bool) : Plane := if chroma then .chroma else .luma

/-- MB_NBLOC passes its state checks, in a plane of macroblocks of `maxW` by `maxH` samples. -/
structure NbLocReady (chroma : Bool) (s : State) (maxW maxH : Nat) : Prop where
  fault : s.status.fault = false
  setup : s.geom.valid = true ∧ s.currValid = true
  plane : chroma = false ∨ s.geom.cat = 1 ∨ s.geom.cat = 2
  size : planeSize s.geom (planeOf chroma) = (maxW, maxH)
  width : maxW = 8 ∨ maxW = 16
  height : maxH = 8 ∨ maxH = 16

/-- The macroblock a location is found in, if it is available. -/
def Covering.found (c : Covering) : Option Nat := if c.avail then some c.addr.toNat else none

section
variable {chroma : Bool} {s : State} {maxW maxH : Nat}

theorem nbLocReady_of (hf : s.status.fault = false) (hgeom : s.geom.valid = true) (hcurr : s.currValid = true)
    (hcat : chroma = true → s.geom.cat = 1 ∨ s.geom.cat = 2) (hW : maxW = if chroma then 8 else 16)
    (hH : maxH = if chroma = true ∧ s.geom.cat = 1 then 8 else 16) : NbLocReady chroma s maxW maxH := by
  refine ⟨hf, ⟨hgeom, hcurr⟩, Bool.eq_false_or_eq_true chroma |>.symm.imp_right hcat, ?_, ?_, ?_⟩
  · rw [hW, hH]
    cases chroma with
    | false => rfl
    | true =>
      simp only [true_and, if_true]
      exact chroma_planeSize (hcat rfl)
  · rw [hW]
    split
    · exact .inl rfl
    · exact .inr rfl
  · rw [hH]
    split
    · exact .inl rfl
    · exact .inr rfl

theorem ruleMbNbloc_estate (h : s.geom.valid = false ∨ s.currValid = false ∨
    (chroma = true ∧ s.geom.cat ≠ 1 ∧ s.geom.cat ≠ 2)) : ruleMbNbloc chroma s = .error .estate := by
  refine require_bind_error fun hsetup => require_bind_estate fun hplane => ?_
  simp only [hsetup.1, hsetup.2, Bool.true_eq_false, false_or] at h
  obtain ⟨hchroma, h1, h2⟩ := h
  simp [hchroma, h1, h2] at hplane

section
variable (h : NbLocReady chroma s maxW maxH)
include h

/-- MB_NBLOC past its state checks. -/
theorem ruleMbNbloc_eq : ruleMbNbloc chroma s =
    (require (-(maxW : Int) ≤ s.a0.toInt ∧ -(maxH : Int) ≤ s.a1.toInt) .einval >>= fun _ =>
      s.nbLoc (planeOf chroma) s.a0.toInt s.a1.toInt >>= fun n => .ok { s with
        y0 := nbAddrWord n.addr, y1 := boolWord n.addr.isSome, y2 := natWord n.xW, y3 := natWord n.yW }) := by
  have hsize : planeSize s.geom (if chroma then .chroma else .luma) = (maxW, maxH) := h.size
  simp only [ruleMbNbloc, require_pos _ h.setup, require_pos _ h.plane, ok_bind, hsize]
  rfl

theorem exec_mbNbloc_of_nbLoc {n : NbResult} (hx : -(maxW : Int) ≤ s.a0.toInt) (hy : -(maxH : Int) ≤ s.a1.toInt)
    (hn : s.nbLoc (planeOf chroma) s.a0.toInt s.a1.toInt = .ok n) :
    exec (.mbNbloc chroma) s = .next (State.complete .ok { s with
      y0 := nbAddrWord n.addr, y1 := boolWord n.addr.isSome, y2 := natWord n.xW, y3 := natWord n.yW }) := by
  refine exec_ok (i := .mbNbloc chroma) nofun h.fault ?_
  rw [ruleOf, ruleMbNbloc_eq h, require_pos _ ⟨hx, hy⟩, ok_bind, hn, ok_bind]

/-- MB_NBLOC's answer for a location of an answered region. -/
theorem exec_mbNbloc_of_region {r : Region} (hx : -(maxW : Int) ≤ s.a0.toInt) (hy : -(maxH : Int) ≤ s.a1.toInt)
    (hr : classify maxW maxH s.a0.toInt s.a1.toInt = .ok r) :
    exec (.mbNbloc chroma) s = .next (nbLocAnswer s (s.covering maxH r s.a1.toInt).found
      (ruleRem (s.a0.toInt + maxW) maxW) (ruleRem ((s.covering maxH r s.a1.toInt).yM + maxH) maxH)) := by
  rw [exec_mbNbloc_of_nbLoc h hx hy (s.nbLoc_of_classify h.size hr), Covering.found]
  split <;> rfl

theorem exec_mbNbloc_left {addr : Option Nat} {yM : Int} (hx : -(maxW : Int) ≤ s.a0.toInt) (hx0 : s.a0.toInt < 0)
    (hy : 0 ≤ s.a1.toInt) (hyH : s.a1.toInt < maxH) (hfound : (s.covering maxH .left s.a1.toInt).found = addr)
    (hrow : (s.covering maxH .left s.a1.toInt).yM = yM) (hyM : 0 ≤ yM) (hlt : yM < maxH) :
    exec (.mbNbloc chroma) s = .next (nbLocAnswer s addr (s.a0.toInt + maxW).toNat yM.toNat) := by
  rw [exec_mbNbloc_of_region h hx (by omega) (classify_left hx0 hy hyH), hfound, hrow,
    ruleRem_of_lt (by omega) (by omega), ruleRem_add_self hyM hlt]

theorem exec_mbNbloc_above {addr : Option Nat} {yM : Int} (hx : 0 ≤ s.a0.toInt) (hxW : s.a0.toInt < maxW)
    (hy : -(maxH : Int) ≤ s.a1.toInt) (hy0 : s.a1.toInt < 0)
    (hfound : (s.covering maxH .above s.a1.toInt).found = addr)
    (hrow : (s.covering maxH .above s.a1.toInt).yM = yM) (hyM : -(maxH : Int) ≤ yM) (hlt : yM < 0) :
    exec (.mbNbloc chroma) s = .next (nbLocAnswer s addr s.a0.toInt.toNat (yM + maxH).toNat) := by
  rw [exec_mbNbloc_of_region h (by omega) hy (classify_above hx hxW hy0), hfound, hrow, ruleRem_add_self hx hxW,
    ruleRem_of_lt (by omega) (by omega)]

theorem exec_mbNbloc_none {r : Region} (hx : -(maxW : Int) ≤ s.a0.toInt) (hy : -(maxH : Int) ≤ s.a1.toInt)
    (hr : classify maxW maxH s.a0.toInt s.a1.toInt = .ok r) (havail : (s.covering maxH r s.a1.toInt).avail = false) :
    exec (.mbNbloc chroma) s = .next (nbLocAnswer s none 0 0) := by
  rw [exec_mbNbloc_of_region h hx hy hr, Covering.found, havail]
  rfl

theorem exec_mbNbloc_current (hx : 0 ≤ s.a0.toInt) (hxW : s.a0.toInt < maxW) (hy : 0 ≤ s.a1.toInt)
    (hyH : s.a1.toInt < maxH) : exec (.mbNbloc chroma) s =
      .next (nbLocAnswer s (some s.currMbAddr.toNat) s.a0.toInt.toNat s.a1.toInt.toNat) := by
  have hcov : s.covering maxH .current s.a1.toInt = ⟨s.currMbAddr.toNat, true, s.a1.toInt⟩ := ite_self _
  rw [exec_mbNbloc_of_region h (by omega) (by omega) (classify_current hx hxW hy hyH), hcov, ruleRem_add_self hx hxW,
    ruleRem_add_self hy hyH]
  rfl

theorem exec_mbNbloc_outside (hx : -(maxW : Int) ≤ s.a0.toInt) (hy : 0 ≤ s.a1.toInt)
    (hout : (maxW : Int) ≤ s.a0.toInt ∨ (maxH : Int) ≤ s.a1.toInt) :
    exec (.mbNbloc chroma) s = .next (nbLocAnswer s none 0 0) := by
  have hcov : s.covering maxH .outside s.a1.toInt = ⟨0, false, 0⟩ := ite_self _
  exact exec_mbNbloc_none h hx (by omega) (classify_outside hy hout) (congrArg Covering.avail hcov)

theorem exec_mbNbloc_einval (hbad : s.a0.toInt < -(maxW : Int) ∨ s.a1.toInt < -(maxH : Int) ∨
      (s.a0.toInt < 0 ∧ s.a1.toInt < 0) ∨ ((maxW : Int) ≤ s.a0.toInt ∧ s.a1.toInt < 0)) :
    exec (.mbNbloc chroma) s = .next (s.failWith .einval 0x65) := by
  refine exec_error (i := .mbNbloc chroma) nofun h.fault ((ruleMbNbloc_eq h).trans ?_)
  refine require_bind_error fun hrange => ?_
  rw [State.nbLoc_of_classify_error h.size (classify_einval (by omega)), error_bind]

end

end

/-! Availability (46_mb_addressing.md R335, R336). -/

section
variable {s : State}

theorem State.avail_natCast {n : Nat} (h : n < s.currMbAddr.toNat) : s.avail n = s.mbValid n := by
  simp [State.avail, h]

theorem State.avail_of_neg {a : Int} (h : a < 0) : s.avail a = false := by
  rw [State.avail, decide_eq_false h.not_ge]
  rfl

theorem width_pos (h : s.geom.valid = true) : 0 < s.geom.width := by
  simp only [Geometry.valid, Bool.and_eq_true, decide_eq_true_eq] at h
  exact h.1.1

theorem Covering.found_of_avail {a : Nat} {avail : Bool} {y : Int} :
    (⟨a, avail, y⟩ : Covering).found = if avail = true then some a else none := rfl

theorem Covering.found_of_not_avail {c : Covering} (h : c.avail = false) : c.found = none := by
  rw [Covering.found, h]
  rfl

/-! Outside MBAFF frames (46_mb_addressing.md R336, R338). -/

section
variable (hplain : s.geom.mbaffFrame = false)
include hplain

theorem State.covering_plain (maxH : Nat) (r : Region) (y : Int) : s.covering maxH r y = s.plainCovering r y := by
  rw [State.covering, hplain]
  rfl

theorem State.leftMb_plain : s.leftMb = ⟨(s.currMbAddr.toNat : Int) - 1,
    s.avail ((s.currMbAddr.toNat : Int) - 1) && decide (s.currMbAddr.toNat % s.geom.width ≠ 0)⟩ := by
  rw [State.leftMb, hplain]
  rfl

theorem State.aboveMb_plain : s.aboveMb = ⟨(s.currMbAddr.toNat : Int) - s.geom.width,
    s.avail ((s.currMbAddr.toNat : Int) - s.geom.width)⟩ := by
  rw [State.aboveMb, hplain]
  rfl

theorem State.found_left_plain (maxH : Nat) (y : Int) : (s.covering maxH .left y).found =
    if s.currMbAddr.toNat % s.geom.width ≠ 0 ∧ s.mbValid (s.currMbAddr.toNat - 1) = true then
      some (s.currMbAddr.toNat - 1) else none := by
  rw [s.covering_plain hplain, State.plainCovering, s.leftMb_plain hplain]
  by_cases hcol : s.currMbAddr.toNat % s.geom.width = 0
  · simp [Covering.found, hcol]
  · have hpos : 0 < s.currMbAddr.toNat := Nat.pos_of_ne_zero fun h0 => hcol (by rw [h0, Nat.zero_mod])
    have haddr : (s.currMbAddr.toNat : Int) - 1 = (s.currMbAddr.toNat - 1 : Nat) := by omega
    rw [haddr, s.avail_natCast (by omega), Covering.found_of_avail]
    simp [hcol]

theorem State.found_above_plain (hw : 0 < s.geom.width) (maxH : Nat) (y : Int) : (s.covering maxH .above y).found =
    if s.geom.width ≤ s.currMbAddr.toNat ∧ s.mbValid (s.currMbAddr.toNat - s.geom.width) = true then
      some (s.currMbAddr.toNat - s.geom.width) else none := by
  rw [s.covering_plain hplain, State.plainCovering, s.aboveMb_plain hplain]
  by_cases hrow : s.geom.width ≤ s.currMbAddr.toNat
  · rw [← Int.ofNat_sub hrow, s.avail_natCast (by omega), Covering.found_of_avail]
    simp [hrow]
  · rw [Covering.found_of_not_avail (s.avail_of_neg (by omega)), if_neg fun h => hrow h.1]

theorem State.row_left_plain (maxH : Nat) (y : Int) : (s.covering maxH .left y).yM = y := by
  rw [s.covering_plain hplain]
  rfl

theorem State.row_above_plain (maxH : Nat) (y : Int) : (s.covering maxH .above y).yM = y := by
  rw [s.covering_plain hplain]
  rfl

end

/-! In MBAFF frames: Table 6-4 (46_mb_addressing.md R336, R339). -/

/-- Table 6-4's rows for the left pair, in the statement's words: macroblock `add` of a pair whose field flag is
`pairField`, and the row `yM` in it, for row `y` of macroblock `curr`, whose field flag is `field`. -/
structure LeftRow (field pairField : Bool) (curr maxH y add yM : Nat) : Prop where
  frameFrame : field = false → pairField = false → add = curr % 2 ∧ yM = y
  frameField : field = false → pairField = true → add = y % 2 ∧ yM = (y + (if curr % 2 = 0 then 0 else maxH)) / 2
  fieldFrame : field = true → pairField = false →
    add = (if y < maxH / 2 then 0 else 1) ∧ yM = (2 * y + curr % 2) - add * maxH
  fieldField : field = true → pairField = true → add = curr % 2 ∧ yM = y

/-- Table 6-4's rows for the pair above, in the statement's words, as `LeftRow`. -/
structure AboveRow (field pairField : Bool) (curr maxH : Nat) (y : Int) (add : Nat) (yM : Int) : Prop where
  fieldField : field = true → curr % 2 = 0 → pairField = true → add = 0 ∧ yM = y
  fieldFrame : field = true → curr % 2 = 0 → pairField = false → add = 1 ∧ yM = 2 * y ∧ -(maxH : Int) / 2 ≤ y
  others : field = false ∨ curr % 2 = 1 → add = 1 ∧ yM = y

section
variable {field pairField : Bool} {curr maxH add : Nat}

theorem LeftRow.row_lt {y yM : Nat} (h : LeftRow field pairField curr maxH y add yM) (hyH : y < maxH) :
    yM < maxH := by
  cases field <;> cases pairField
  · exact (h.frameFrame rfl rfl).2.trans_lt hyH
  · have hrow := (h.frameField rfl rfl).2
    split at hrow <;> omega
  · obtain ⟨hadd, hrow⟩ := h.fieldFrame rfl rfl
    split at hadd <;> subst hadd <;> omega
  · exact (h.fieldField rfl rfl).2.trans_lt hyH

theorem LeftRow.add_le {y yM : Nat} (h : LeftRow field pairField curr maxH y add yM) : add ≤ 1 := by
  cases field <;> cases pairField
  · have hadd := (h.frameFrame rfl rfl).1
    omega
  · have hadd := (h.frameField rfl rfl).1
    omega
  · have hadd := (h.fieldFrame rfl rfl).1
    split at hadd <;> omega
  · have hadd := (h.fieldField rfl rfl).1
    omega

/-- A pair like the current one: the macroblock at the same place in it, and the same row. -/
theorem mbaffLeft_same (field top : Bool) (maxH : Nat) (a y : Int) :
    mbaffLeft (!field) top field maxH a y = (if top then a else a + 1, y) := by
  cases field <;> cases top <;> rfl

theorem mbaffLeft_frameField (top : Bool) (maxH : Nat) (a y : Int) : mbaffLeft true top true maxH a y =
    (if y % 2 = 0 then a else a + 1, (y + (if top then 0 else maxH)) / 2) := by
  cases top with
  | true =>
    simp only [mbaffLeft, if_true, Nat.cast_zero, Int.add_zero]
    split <;> rfl
  | false =>
    simp only [mbaffLeft, Bool.false_eq_true, if_false]
    split <;> rfl

theorem mbaffLeft_fieldFrame (top : Bool) (maxH : Nat) (a y : Int) : mbaffLeft false top false maxH a y =
    if y < maxH / 2 then (a, 2 * y + (if top then 0 else 1)) else (a + 1, 2 * y + (if top then 0 else 1) - maxH) := by
  cases top with
  | true => simp only [mbaffLeft, if_true, Int.add_zero]
  | false => rfl

/-- Table 6-4's rows are `mbaffLeft`. -/
theorem mbaffLeft_eq {y yM : Nat} (a : Int) (h : LeftRow field pairField curr maxH y add yM)
    (hH : maxH = 8 ∨ maxH = 16) :
    mbaffLeft (!field) (decide (curr % 2 = 0)) pairField maxH a y = (a + add, (yM : Int)) := by
  cases field <;> cases pairField
  · obtain ⟨hadd, hrow⟩ := h.frameFrame rfl rfl
    rw [mbaffLeft_same, Prod.mk.injEq]
    simp only [decide_eq_true_eq]
    omega
  · obtain ⟨hadd, hrow⟩ := h.frameField rfl rfl
    rw [Bool.not_false, mbaffLeft_frameField, Prod.mk.injEq]
    simp only [decide_eq_true_eq]
    omega
  · obtain ⟨hadd, hrow⟩ := h.fieldFrame rfl rfl
    rw [Bool.not_true, mbaffLeft_fieldFrame]
    simp only [decide_eq_true_eq]
    split at hadd
    · subst hadd
      rw [if_pos (by omega), Prod.mk.injEq]
      omega
    · subst hadd
      rw [if_neg (by omega), Prod.mk.injEq]
      omega
  · obtain ⟨hadd, hrow⟩ := h.fieldField rfl rfl
    rw [mbaffLeft_same, Prod.mk.injEq]
    simp only [decide_eq_true_eq]
    omega

end

theorem AboveRow.row_bounds {field pairField : Bool} {curr maxH add : Nat} {y yM : Int}
    (h : AboveRow field pairField curr maxH y add yM) (hy : -(maxH : Int) ≤ y) (hy0 : y < 0)
    (hH : maxH = 8 ∨ maxH = 16) : -(maxH : Int) ≤ yM ∧ yM < 0 := by
  by_cases hout : field = false ∨ curr % 2 = 1
  · obtain ⟨-, rfl⟩ := h.others hout
    exact ⟨hy, hy0⟩
  · obtain ⟨hfield, hcurr⟩ := not_or.1 hout
    rw [Bool.not_eq_false] at hfield
    cases hpair : pairField with
    | true =>
      obtain ⟨-, rfl⟩ := h.fieldField hfield (by omega) hpair
      exact ⟨hy, hy0⟩
    | false =>
      obtain ⟨-, rfl, hhalf⟩ := h.fieldFrame hfield (by omega) hpair
      omega

/-- A location above the pair, or above a field macroblock, is in the pair above (46_mb_addressing.md R339). -/
theorem State.mbaffCovering_above {maxH : Nat} {y : Int} {m : MbEntry}
    (hm : Table.find s.mb s.currMbAddr.toNat = some m) (hout : m.field = true ∨ s.currMbAddr.toNat % 2 = 0) :
    s.mbaffCovering maxH .above y =
      if m.field = true ∧ s.currMbAddr.toNat % 2 = 0 then
        if (s.mbEntry s.aboveMb.addr.toNat).field then ⟨s.aboveMb.addr, s.aboveMb.avail && s.avail s.aboveMb.addr, y⟩
        else ⟨s.aboveMb.addr + 1, s.aboveMb.avail && s.avail (s.aboveMb.addr + 1), 2 * y⟩
      else ⟨s.aboveMb.addr + 1, s.aboveMb.avail && s.avail (s.aboveMb.addr + 1), y⟩ := by
  have hcurr : s.mbEntry s.currMbAddr.toNat = m := by rw [State.mbEntry, hm]; rfl
  rw [State.mbaffCovering, hcurr]
  cases hfield : m.field with
  | false =>
    have htop : s.currMbAddr.toNat % 2 = 0 := hout.resolve_left (by simp [hfield])
    simp [htop]
  | true =>
    obtain htop | htop := Nat.mod_two_eq_zero_or_one s.currMbAddr.toNat
    · simp [htop]
    · simp [htop]

section
variable {maxH : Nat} {y : Int} {m e : MbEntry} (hmbaff : s.geom.mbaffFrame = true)
include hmbaff

theorem State.covering_mbaff (maxH : Nat) (r : Region) (y : Int) : s.covering maxH r y = s.mbaffCovering maxH r y := by
  rw [State.covering, hmbaff]
  rfl

theorem State.leftMb_mbaff : s.leftMb = ⟨2 * ((s.currMbAddr.toNat / 2 : Nat) - 1 : Int),
    s.avail (2 * ((s.currMbAddr.toNat / 2 : Nat) - 1 : Int)) &&
      decide (s.currMbAddr.toNat / 2 % s.geom.width ≠ 0)⟩ := by
  rw [State.leftMb, hmbaff]
  rfl

theorem State.aboveMb_mbaff : s.aboveMb = ⟨2 * ((s.currMbAddr.toNat / 2 : Nat) - (s.geom.width : Int)),
    s.avail (2 * ((s.currMbAddr.toNat / 2 : Nat) - (s.geom.width : Int)))⟩ := by
  rw [State.aboveMb, hmbaff]
  rfl

/-- The left pair, where there is one. -/
theorem State.leftMb_pair (hcol : s.currMbAddr.toNat / 2 % s.geom.width ≠ 0) :
    s.leftMb = ⟨(2 * (s.currMbAddr.toNat / 2 - 1) : Nat), s.mbValid (2 * (s.currMbAddr.toNat / 2 - 1))⟩ := by
  have hpos : 0 < s.currMbAddr.toNat / 2 := Nat.pos_of_ne_zero fun h0 => hcol (by rw [h0, Nat.zero_mod])
  have haddr : 2 * ((s.currMbAddr.toNat / 2 : Nat) - 1 : Int) = (2 * (s.currMbAddr.toNat / 2 - 1) : Nat) := by omega
  rw [s.leftMb_mbaff hmbaff, haddr, s.avail_natCast (by omega), decide_eq_true hcol, Bool.and_true]

/-- The pair above, where there is one. -/
theorem State.aboveMb_pair (hw : 0 < s.geom.width) (hrow : s.geom.width ≤ s.currMbAddr.toNat / 2) :
    s.aboveMb = ⟨(2 * (s.currMbAddr.toNat / 2 - s.geom.width) : Nat),
      s.mbValid (2 * (s.currMbAddr.toNat / 2 - s.geom.width))⟩ := by
  have haddr : 2 * ((s.currMbAddr.toNat / 2 : Nat) - (s.geom.width : Int)) =
      (2 * (s.currMbAddr.toNat / 2 - s.geom.width) : Nat) := by omega
  rw [s.aboveMb_mbaff hmbaff, haddr, s.avail_natCast (by omega)]

theorem State.leftMb_unavailable (h : s.currMbAddr.toNat / 2 % s.geom.width = 0 ∨
    s.mbValid (2 * (s.currMbAddr.toNat / 2 - 1)) = false) : s.leftMb.avail = false := by
  by_cases hcol : s.currMbAddr.toNat / 2 % s.geom.width = 0
  · rw [s.leftMb_mbaff hmbaff, hcol]
    exact Bool.and_false _
  · rw [s.leftMb_pair hmbaff hcol]
    exact h.resolve_left hcol

theorem State.aboveMb_unavailable (hw : 0 < s.geom.width) (h : s.currMbAddr.toNat / 2 < s.geom.width ∨
    s.mbValid (2 * (s.currMbAddr.toNat / 2 - s.geom.width)) = false) : s.aboveMb.avail = false := by
  by_cases hrow : s.currMbAddr.toNat / 2 < s.geom.width
  · rw [s.aboveMb_mbaff hmbaff]
    exact s.avail_of_neg (by omega)
  · rw [s.aboveMb_pair hmbaff hw (by omega)]
    exact h.resolve_left hrow

theorem State.left_unavailable (h : s.leftMb.avail = false) : (s.covering maxH .left y).avail = false := by
  simp [s.covering_mbaff hmbaff, State.mbaffCovering, h]

theorem State.covering_left_pair {add y yM : Nat} (hcol : s.currMbAddr.toNat / 2 % s.geom.width ≠ 0)
    (hm : Table.find s.mb s.currMbAddr.toNat = some m)
    (he : Table.find s.mb (2 * (s.currMbAddr.toNat / 2 - 1)) = some e)
    (hrow : LeftRow m.field e.field s.currMbAddr.toNat maxH y add yM) (hH : maxH = 8 ∨ maxH = 16) :
    s.covering maxH .left y = ⟨(2 * (s.currMbAddr.toNat / 2 - 1) + add : Nat),
      s.mbValid (2 * (s.currMbAddr.toNat / 2 - 1) + add), yM⟩ := by
  have hadd := hrow.add_le
  have hpos : 0 < s.currMbAddr.toNat / 2 := Nat.pos_of_ne_zero fun h0 => hcol (by rw [h0, Nat.zero_mod])
  have hvalid : s.mbValid (2 * (s.currMbAddr.toNat / 2 - 1)) = true := by rw [State.mbValid, he]; rfl
  simp only [s.covering_mbaff hmbaff, State.mbaffCovering, s.leftMb_pair hmbaff hcol, State.mbEntry, hm, he,
    Int.toNat_natCast, Option.getD_some, mbaffLeft_eq _ hrow hH, hvalid, Bool.true_and, ← Nat.cast_add]
  rw [s.avail_natCast (by omega)]

theorem State.covering_above_framePair (hm : Table.find s.mb s.currMbAddr.toNat = some m) (hframe : m.field = false)
    (hbottom : s.currMbAddr.toNat % 2 = 1) : s.covering maxH .above y =
      ⟨(s.currMbAddr.toNat - 1 : Nat), s.mbValid (s.currMbAddr.toNat - 1), y⟩ := by
  have haddr : (s.currMbAddr.toNat : Int) - 1 = (s.currMbAddr.toNat - 1 : Nat) := by omega
  have hcurr : s.mbEntry s.currMbAddr.toNat = m := by rw [State.mbEntry, hm]; rfl
  rw [s.covering_mbaff hmbaff, State.mbaffCovering, hcurr, hframe, decide_eq_false (by omega), haddr,
    s.avail_natCast (by omega)]
  rfl

theorem State.above_unavailable (hm : Table.find s.mb s.currMbAddr.toNat = some m)
    (hout : m.field = true ∨ s.currMbAddr.toNat % 2 = 0) (h : s.aboveMb.avail = false) :
    (s.covering maxH .above y).avail = false := by
  rw [s.covering_mbaff hmbaff, s.mbaffCovering_above hm hout, h]
  split_ifs <;> rfl

theorem State.covering_above_pair {add : Nat} {yM : Int} (hw : 0 < s.geom.width)
    (hrow : s.geom.width ≤ s.currMbAddr.toNat / 2) (hm : Table.find s.mb s.currMbAddr.toNat = some m)
    (he : Table.find s.mb (2 * (s.currMbAddr.toNat / 2 - s.geom.width)) = some e)
    (hout : m.field = true ∨ s.currMbAddr.toNat % 2 = 0)
    (habove : AboveRow m.field e.field s.currMbAddr.toNat maxH y add yM) :
    s.covering maxH .above y = ⟨(2 * (s.currMbAddr.toNat / 2 - s.geom.width) + add : Nat),
      s.mbValid (2 * (s.currMbAddr.toNat / 2 - s.geom.width) + add), yM⟩ := by
  have hvalid : s.mbValid (2 * (s.currMbAddr.toNat / 2 - s.geom.width)) = true := by rw [State.mbValid, he]; rfl
  have hpair : s.mbEntry (2 * (s.currMbAddr.toNat / 2 - s.geom.width)) = e := by rw [State.mbEntry, he]; rfl
  rw [s.covering_mbaff hmbaff, s.mbaffCovering_above hm hout, s.aboveMb_pair hmbaff hw hrow, Int.toNat_natCast, hpair,
    hvalid]
  have htopMb : 2 * (s.currMbAddr.toNat / 2 - s.geom.width) < s.currMbAddr.toNat := by omega
  have hbottomMb : 2 * (s.currMbAddr.toNat / 2 - s.geom.width) + 1 < s.currMbAddr.toNat := by omega
  simp only [Bool.true_and, ← Nat.cast_succ, s.avail_natCast htopMb, s.avail_natCast hbottomMb]
  split_ifs with htop hfield
  · obtain ⟨rfl, rfl⟩ := habove.fieldField htop.1 htop.2 hfield
    rfl
  · obtain ⟨rfl, rfl, -⟩ := habove.fieldFrame htop.1 htop.2 (Bool.eq_false_of_not_eq_true hfield)
    rfl
  · obtain ⟨rfl, rfl⟩ := habove.others
      ((not_and_or.1 htop).imp Bool.eq_false_of_not_eq_true Nat.mod_two_ne_zero.1)
    rfl

end

/-! MB_NBMB and MB_NBBLK (46_mb_addressing.md R337, R340, R342 to R345). -/

/-- The block's top-left sample, in the statement's words, for each kind of MB_NBBLK (46_mb_addressing.md R342 to
R344). -/
structure BlockPlace (kind idx x y : Nat) : Prop where
  luma4x4 : kind = 0 → x = idx / 4 % 2 * 8 + idx % 4 % 2 * 4 ∧ y = idx / 4 / 2 * 8 + idx % 4 / 2 * 4
  chroma4x4 : kind = 1 → x = idx % 2 * 4 ∧ y = idx / 2 * 4
  luma8x8 : kind = 2 → x = idx % 2 * 8 ∧ y = idx / 2 * 8

/-- The index of the block at a location, for each kind of MB_NBBLK (46_mb_addressing.md R340). -/
def blockIndex (kind : Nat) : Nat → Nat → Nat :=
  if kind = 0 then luma4x4Idx else if kind = 1 then chroma4x4Idx else luma8x8Idx

section
variable {kind idx x y : Nat} {dir : Bool}

theorem State.nbBlk_eq (hkind : kind ≤ 2) (hplace : BlockPlace kind idx x y) : s.nbBlk kind idx dir =
    s.nbLoc (planeOf (decide (kind = 1))) (nbOffset dir x y).1 (nbOffset dir x y).2 >>= fun n =>
      .ok ⟨n.addr, if n.addr.isSome then blockIndex kind n.xW n.yW else 0⟩ := by
  rw [← State.nbBlockAt_eq]
  obtain rfl | rfl | rfl : kind = 0 ∨ kind = 1 ∨ kind = 2 := by omega
  · obtain ⟨rfl, rfl⟩ := hplace.luma4x4 rfl
    rfl
  · obtain ⟨rfl, rfl⟩ := hplace.chroma4x4 rfl
    rfl
  · obtain ⟨rfl, rfl⟩ := hplace.luma8x8 rfl
    rfl

theorem nbBlkRange_eq {g : Geometry} (hkind : kind ≤ 2) (hcat : kind = 1 → g.cat = 1 ∨ g.cat = 2) :
    nbBlkRange g kind = if kind = 0 then 16 else if kind = 2 then 4 else if g.cat = 1 then 4 else 8 := by
  obtain rfl | rfl | rfl : kind = 0 ∨ kind = 1 ∨ kind = 2 := by omega
  · rfl
  · rcases hcat rfl with h | h <;> simp [nbBlkRange, Geometry.mbHeightC, h]
  · rfl

/-- Every block lies in its macroblock. -/
theorem BlockPlace.inside (hkind : kind ≤ 2) (hplace : BlockPlace kind idx x y)
    (hcat : kind = 1 → s.geom.cat = 1 ∨ s.geom.cat = 2) (hidx : idx < nbBlkRange s.geom kind) :
    x < (if decide (kind = 1) then 8 else 16) ∧
      y < if decide (kind = 1) = true ∧ s.geom.cat = 1 then 8 else 16 := by
  rw [nbBlkRange_eq hkind hcat] at hidx
  obtain rfl | rfl | rfl : kind = 0 ∨ kind = 1 ∨ kind = 2 := by omega
  · obtain ⟨rfl, rfl⟩ := hplace.luma4x4 rfl
    have hidx16 : idx < 16 := hidx
    show _ < 16 ∧ _ < 16
    omega
  · obtain ⟨rfl, rfl⟩ := hplace.chroma4x4 rfl
    rcases hcat rfl with hc | hc
    · have hidx4 : idx < 4 := by simpa [hc] using hidx
      rw [hc]
      show _ < 8 ∧ _ < 8
      omega
    · have hidx8 : idx < 8 := by simpa [hc] using hidx
      rw [hc]
      show _ < 8 ∧ _ < 16
      omega
  · obtain ⟨rfl, rfl⟩ := hplace.luma8x8 rfl
    have hidx4 : idx < 4 := hidx
    show _ < 16 ∧ _ < 16
    omega

theorem ruleMbNbblk_estate {kind idx : Nat} (h : s.geom.valid = false ∨ s.currValid = false ∨
    (kind = 1 ∧ s.geom.cat ≠ 1 ∧ s.geom.cat ≠ 2)) : ruleMbNbblk dir kind idx s = .error .estate := by
  refine require_bind_error fun hsetup => require_bind_estate fun hcat => ?_
  simp only [hsetup.1, hsetup.2, Bool.true_eq_false, false_or] at h
  obtain ⟨hkind, h1, h2⟩ := h
  simp [hkind, h1, h2] at hcat

section
variable (hsetup : s.geom.valid = true ∧ s.currValid = true)
include hsetup

theorem ruleMbNbblk_einval (hcat : kind = 1 → s.geom.cat = 1 ∨ s.geom.cat = 2)
    (hbad : 2 < kind ∨ nbBlkRange s.geom kind ≤ idx) : ruleMbNbblk dir kind idx s = .error .einval := by
  rw [ruleMbNbblk, require_pos _ hsetup, ok_bind, require_pos _ (Decidable.not_or_of_imp hcat), ok_bind]
  exact require_bind_error fun hkind => require_bind_error fun hidx => by omega

theorem ruleMbNbblk_eq (hcat : kind = 1 → s.geom.cat = 1 ∨ s.geom.cat = 2) (hkind : kind ≤ 2)
    (hidx : idx < nbBlkRange s.geom kind) : ruleMbNbblk dir kind idx s = s.nbBlk kind idx dir >>= fun n =>
      .ok { s with y0 := nbAddrWord n.addr, y1 := boolWord n.addr.isSome, y2 := natWord n.blk } := by
  rw [ruleMbNbblk, require_pos _ hsetup, ok_bind, require_pos _ (Decidable.not_or_of_imp hcat), ok_bind,
    require_pos _ hkind, ok_bind, require_pos _ hidx]
  rfl

theorem ruleMbNbmb_eq : ruleMbNbmb dir s = s.nbLoc .luma (nbOffset dir 0 0).1 (nbOffset dir 0 0).2 >>= fun n =>
    .ok { s with y0 := nbAddrWord n.addr, y1 := boolWord n.addr.isSome } := by
  rw [ruleMbNbmb, require_pos _ hsetup]
  rfl

end

/-- The location MB_NBLOC is asked about beside the sample (x, y). -/
theorem toInt_beside (hx : x ≤ 16) (hy : y ≤ 16) :
    (natWord x - if dir then 0 else 1 : Word).toInt = (nbOffset dir x y).1 ∧
      (natWord y - if dir then 1 else 0 : Word).toInt = (nbOffset dir x y).2 := by
  have hdec : ∀ n : Nat, n ≤ 16 → (natWord n - 0).toInt = n ∧ (natWord n - 1).toInt = n - 1 := by decide
  cases dir with
  | false => exact ⟨(hdec x hx).2, (hdec y hy).1⟩
  | true => exact ⟨(hdec x hx).1, (hdec y hy).2⟩

/-- MB_NBLOC beside the sample (x, y) of the macroblock. -/
theorem exec_mbNbloc_beside {chroma : Bool} {maxW maxH : Nat} (h : NbLocReady chroma s maxW maxH) (hx : x < maxW)
    (hy : y < maxH) : ∃ n, s.nbLoc (planeOf chroma) (nbOffset dir x y).1 (nbOffset dir x y).2 = .ok n ∧
      n.xW < maxW ∧ n.yW < maxH ∧
      ∀ a0 a1 : Word, a0.toInt = (nbOffset dir x y).1 → a1.toInt = (nbOffset dir x y).2 →
        exec (.mbNbloc chroma) { s with a0 := a0, a1 := a1 } = .next (State.complete .ok { s with
          a0 := a0, a1 := a1
          y0 := nbAddrWord n.addr, y1 := boolWord n.addr.isSome, y2 := natWord n.xW, y3 := natWord n.yW }) := by
  have hW := h.width
  have hH := h.height
  have hoff : -1 ≤ (nbOffset dir x y).1 ∧ (nbOffset dir x y).1 < maxW ∧ -1 ≤ (nbOffset dir x y).2 ∧
      (0 ≤ (nbOffset dir x y).1 ∨ 0 ≤ (nbOffset dir x y).2) := by
    cases dir <;> simp [nbOffset] <;> omega
  obtain ⟨hx1, hxW, hy1, hor⟩ := hoff
  obtain ⟨n, hn, -, hnx, hny⟩ := s.nbLoc_beside h.size (by omega) (by omega) hx1 hxW hy1 hor
  refine ⟨n, hn, hnx, hny, fun a0 a1 ha0 ha1 => ?_⟩
  have hready : NbLocReady chroma { s with a0 := a0, a1 := a1 } maxW maxH :=
    ⟨h.fault, h.setup, h.plane, h.size, h.width, h.height⟩
  refine exec_mbNbloc_of_nbLoc (n := n) hready ?_ ?_ ?_
  · show -(maxW : Int) ≤ a0.toInt
    omega
  · show -(maxH : Int) ≤ a1.toInt
    omega
  · show s.nbLoc (planeOf chroma) a0.toInt a1.toInt = .ok n
    rw [ha0, ha1, hn]

/-- The index MB_NBBLK gives, from MB_NBLOC's Y registers. -/
theorem blockIndex_of_y {n : NbResult} {b : Nat} (hx : n.xW < 2 ^ 32) (hy : n.yW < 2 ^ 32)
    (hb : b = if n.addr.isSome then blockIndex kind n.xW n.yW else 0) :
    (boolWord n.addr.isSome = 0 → b = 0) ∧
      (boolWord n.addr.isSome = 1 → b = blockIndex kind (natWord n.xW).toNat (natWord n.yW).toNat) := by
  subst hb
  rw [natWord_toNat hx, natWord_toNat hy]
  cases n.addr with
  | none => exact ⟨fun _ => rfl, fun h => absurd h (by decide)⟩
  | some a => exact ⟨fun h => absurd (show (1 : Word) = 0 from h) (by decide), fun _ => rfl⟩

end

end

end Sys2Proof.Machine

open Sys2Proof Sys2Proof.Machine

/-- Settles O53: each region of `classify` is answered from its covering macroblock, in the plain addressing mode. -/
theorem neighbourLocations : Obligations.NeighbourLocations := by
  rintro chroma s _ _ maxW maxH _ _ hf rfl rfl rfl rfl hW hH
  refine ⟨fun hgeom hcurr hplain hcat => ?_, fun h => exec_error (i := .mbNbloc chroma) nofun hf (ruleMbNbloc_estate h)⟩
  have hready := nbLocReady_of hf hgeom hcurr hcat hW hH
  refine ⟨fun hx hx0 hy hyH => ?_, fun hx hxW hy hy0 => ?_, exec_mbNbloc_current hready, exec_mbNbloc_outside hready,
    exec_mbNbloc_einval hready⟩
  · exact exec_mbNbloc_left hready hx hx0 hy hyH (s.found_left_plain hplain maxH _) (s.row_left_plain hplain maxH _)
      hy hyH
  · exact exec_mbNbloc_above hready hx hxW hy hy0 (s.found_above_plain hplain (width_pos hgeom) maxH _)
      (s.row_above_plain hplain maxH _) hy hy0

/-- Settles O54: Table 6-4's rows are those of `mbaffLeft` and `State.mbaffCovering`. -/
theorem neighbourLocationsMbaff : Obligations.NeighbourLocationsMbaff := by
  rintro chroma s _ _ maxW maxH _ _ _ m hf hgeom hcurr hmbaff hcat rfl hm rfl rfl rfl rfl hW hH
  have hready := nbLocReady_of hf hgeom hcurr hcat hW hH
  refine ⟨fun hx hx0 hy hyH => ⟨fun hnone => ?_, fun e add yM hcol he h1 h2 h3 h4 => ?_⟩,
    fun hx hxW hy hy0 => ⟨fun hframe hbottom => ?_, fun hout => ⟨fun hnone => ?_,
      fun e add yM hrow he h1 h2 h3 => ?_⟩⟩,
    exec_mbNbloc_current hready, exec_mbNbloc_outside hready, exec_mbNbloc_einval hready⟩
  · exact exec_mbNbloc_none hready hx (by omega) (classify_left hx0 hy hyH)
      (s.left_unavailable hmbaff (s.leftMb_unavailable hmbaff hnone))
  · have hrow : LeftRow m.field e.field _ maxH s.a1.toInt.toNat add yM := ⟨h1, h2, h3, h4⟩
    have hlt := hrow.row_lt (by omega)
    have hcov := s.covering_left_pair hmbaff hcol hm he hrow hready.height
    rw [Int.toNat_of_nonneg hy] at hcov
    exact exec_mbNbloc_left hready hx hx0 hy hyH (congrArg Covering.found hcov) (congrArg Covering.yM hcov)
      (Int.natCast_nonneg yM) (Int.ofNat_lt.2 hlt)
  · have hcov := s.covering_above_framePair (maxH := maxH) (y := s.a1.toInt) hmbaff hm hframe hbottom
    exact exec_mbNbloc_above hready hx hxW hy hy0 (congrArg Covering.found hcov) (congrArg Covering.yM hcov) hy hy0
  · exact exec_mbNbloc_none hready (by omega) hy (classify_above hx hxW hy0)
      (s.above_unavailable hmbaff hm hout (s.aboveMb_unavailable hmbaff (width_pos hgeom) hnone))
  · have habove : AboveRow m.field e.field _ maxH s.a1.toInt add yM := ⟨h1, h2, h3⟩
    have hcov := s.covering_above_pair hmbaff (width_pos hgeom) hrow hm he hout habove
    obtain ⟨hyM, hlt⟩ := habove.row_bounds hy hy0 hready.height
    exact exec_mbNbloc_above hready hx hxW hy hy0 (congrArg Covering.found hcov) (congrArg Covering.yM hcov) hyM hlt

/-- Settles O55: MB_NBMB and MB_NBBLK ask `State.nbLoc` for the location MB_NBLOC is given here. -/
theorem neighbourBlocks : Obligations.NeighbourBlocks := by
  refine fun dir s hf => ⟨fun hgeom hcurr => ⟨?_, fun kind idx x y blocks hkind hcat hblocks h0 h1 h2 => ?_,
    fun idx hc1 hc2 => ?_, fun kind idx hkind => ?_⟩, fun h => ⟨?_, fun kind idx => ?_⟩⟩
  · have hready : NbLocReady false s 16 16 := nbLocReady_of hf hgeom hcurr nofun rfl rfl
    obtain ⟨n, hn, -, -, hloc⟩ := exec_mbNbloc_beside (x := 0) (y := 0) (dir := dir) hready (by decide) (by decide)
    have hdir := hloc (if dir then 0 else -1) (if dir then -1 else 0) (by cases dir <;> rfl) (by cases dir <;> rfl)
    refine ⟨_, hdir, hf, exec_ok (i := .mbNbmb dir) nofun hf ?_⟩
    rw [ruleOf, ruleMbNbmb_eq ⟨hgeom, hcurr⟩]
    exact congrArg (· >>= _) hn
  · have hplace : BlockPlace kind idx x y := ⟨h0, h1, h2⟩
    rw [← nbBlkRange_eq hkind hcat] at hblocks
    subst hblocks
    refine ⟨fun hidx => ?_, fun hidx => exec_error (i := .mbNbblk dir kind idx) nofun hf
      (ruleMbNbblk_einval ⟨hgeom, hcurr⟩ hcat (.inr hidx))⟩
    obtain ⟨hx, hy⟩ := hplace.inside hkind hcat hidx
    have hready := nbLocReady_of (chroma := decide (kind = 1)) hf hgeom hcurr (fun hk => hcat (of_decide_eq_true hk))
      rfl rfl
    obtain ⟨n, hn, hnx, hny, hloc⟩ := exec_mbNbloc_beside (dir := dir) hready hx hy
    have hW := hready.width
    have hH := hready.height
    obtain ⟨ha0, ha1⟩ := toInt_beside (dir := dir) (x := x) (y := y) (by omega) (by omega)
    obtain ⟨hnone, hsome⟩ := blockIndex_of_y (n := n) (kind := kind) (by omega) (by omega) rfl
    refine ⟨_, _, hloc _ _ ha0 ha1, hf, hnone, fun hy1 hk => ?_, fun hy1 hk => ?_, fun hy1 hk => ?_,
      exec_ok (i := .mbNbblk dir kind idx) nofun hf ?_⟩
    · subst hk
      exact hsome hy1
    · subst hk
      exact hsome hy1
    · subst hk
      exact hsome hy1
    · rw [ruleOf, ruleMbNbblk_eq ⟨hgeom, hcurr⟩ hcat hkind hidx, s.nbBlk_eq hkind hplace, hn]
      rfl
  · exact exec_error (i := .mbNbblk dir 1 idx) nofun hf (ruleMbNbblk_estate (.inr (.inr ⟨rfl, hc1, hc2⟩)))
  · exact exec_error (i := .mbNbblk dir kind idx) nofun hf
      (ruleMbNbblk_einval ⟨hgeom, hcurr⟩ (by omega) (.inl hkind))
  · exact exec_error (i := .mbNbmb dir) nofun hf (ruleMbNbmb_estate h)
  · exact exec_error (i := .mbNbblk dir kind idx) nofun hf (ruleMbNbblk_estate (h.imp_right .inl))

end

