-- ==== Sys2Proof/Proofs/SliceGroups.lean ====
section
/-!
Slice groups: both maps SG_GEN computes, their bounds, SGID and the queries (47_slice_group_map.md R370 to R384).
-/

namespace Sys2Proof.Machine

section
variable {sg : SliceGroups} {w h n i : Nat}

theorem SliceGroups.inRectangle_iff {g : Nat} : sg.inRectangle w g i = true ↔ sg.InRectangle w g i := by
  simp only [SliceGroups.inRectangle, SliceGroups.InRectangle, Bool.and_eq_true, decide_eq_true_eq, and_assoc]

/-- SG_GEN's check of the parameters, in the words of `SliceGroups.Legal` (47_slice_group_map.md R381). -/
theorem SliceGroups.legal_iff : sg.Legal w n ↔ sg.num = 0 ∨ sg.paramsOk w n = true := by
  refine or_congr_right ?_
  unfold SliceGroups.paramsOk
  split
  all_goals next ht => simp [ht, and_assoc]

/-! Map type 0: the runs of the groups in turn (47_slice_group_map.md R372). -/

theorem interleavedMap_inside_run (sg : SliceGroups) (g : Nat) {k left : Nat} (hk : k ≤ left) (hn : k < n) :
    (interleavedMap sg n g left)[k]? = some g := by
  induction k generalizing n left with
  | zero =>
    obtain ⟨n, rfl⟩ := Nat.exists_eq_succ_of_ne_zero hn.ne'
    cases left <;> rfl
  | succ k ih =>
    obtain ⟨n, rfl⟩ := Nat.exists_eq_succ_of_ne_zero (Nat.ne_zero_of_lt hn)
    obtain ⟨left, rfl⟩ := Nat.exists_eq_succ_of_ne_zero (Nat.ne_zero_of_lt hk)
    exact ih (Nat.le_of_succ_le_succ hk) (Nat.lt_of_succ_lt_succ hn)

theorem interleavedMap_past_run (sg : SliceGroups) (n g left k : Nat) :
    (interleavedMap sg (n + (left + 1)) g left)[k + (left + 1)]? =
      (interleavedMap sg n (if g = sg.num then 0 else g + 1) (sg.runLengthAt (if g = sg.num then 0 else g + 1)))[k]? := by
  induction left with
  | zero => rfl
  | succ left ih => exact ih

theorem add_runsBefore_succ (sg : SliceGroups) (n g : Nat) :
    n + sg.runsBefore (g + 1) = n + (sg.runLengthAt g + 1) + sg.runsBefore g := by
  rw [SliceGroups.runsBefore, Nat.add_comm (sg.runsBefore g), ← Nat.add_assoc]

theorem interleavedMap_past_groups (sg : SliceGroups) (n k : Nat) {g : Nat} (hg : g ≤ sg.num) :
    (interleavedMap sg (n + sg.runsBefore g) 0 (sg.runLengthAt 0))[k + sg.runsBefore g]? =
      (interleavedMap sg n g (sg.runLengthAt g))[k]? := by
  induction g generalizing n k with
  | zero => rfl
  | succ g ih =>
    rw [add_runsBefore_succ, add_runsBefore_succ, ih _ _ (by omega), interleavedMap_past_run, if_neg (by omega)]

theorem interleavedMap_past_turns (sg : SliceGroups) (n k q : Nat) :
    (interleavedMap sg (n + q * sg.runsBefore (sg.num + 1)) 0 (sg.runLengthAt 0))[k + q * sg.runsBefore (sg.num + 1)]? =
      (interleavedMap sg n 0 (sg.runLengthAt 0))[k]? := by
  induction q with
  | zero => simp
  | succ q ih =>
    rw [Nat.succ_mul, ← Nat.add_assoc, ← Nat.add_assoc, add_runsBefore_succ sg (n + _), add_runsBefore_succ sg (k + _),
      interleavedMap_past_groups _ _ _ le_rfl, interleavedMap_past_run, if_pos rfl, ih]

/-- Map unit `j` of the run of group `g` in turn `q`. -/
theorem interleavedMap_getElem? {g j q : Nat} (hg : g ≤ sg.num) (hj : j ≤ sg.runLengthAt g)
    (hi : i = q * sg.runsBefore (sg.num + 1) + sg.runsBefore g + j) (hn : i < n) :
    (interleavedMap sg n 0 (sg.runLengthAt 0))[i]? = some g := by
  obtain ⟨m, rfl⟩ : ∃ m, n = m + sg.runsBefore g + q * sg.runsBefore (sg.num + 1) :=
    ⟨n - q * sg.runsBefore (sg.num + 1) - sg.runsBefore g, by omega⟩
  rw [show i = j + sg.runsBefore g + q * sg.runsBefore (sg.num + 1) by omega, interleavedMap_past_turns,
    interleavedMap_past_groups _ _ _ hg]
  exact interleavedMap_inside_run sg g hj (by omega)

/-! Map types 2, 4 and 5 (47_slice_group_map.md R374, R376, R377). -/

theorem foregroundGroup_of_lowest {g : Nat} (hg : g < sg.num) (hin : sg.InRectangle w g i)
    (hlow : ∀ k, k < g → ¬sg.InRectangle w k i) : foregroundGroup sg w i = g := by
  have hfind : ((List.range sg.num).find? fun g => sg.inRectangle w g i) = some g := by
    simpa [List.find?_range_eq_some, ← Bool.not_eq_true, SliceGroups.inRectangle_iff] using ⟨hin, hg, hlow⟩
  rw [foregroundGroup, hfind, Option.getD_some]

theorem foregroundGroup_of_none (hout : ∀ g, g < sg.num → ¬sg.InRectangle w g i) :
    foregroundGroup sg w i = sg.num := by
  have hfind : ((List.range sg.num).find? fun g => sg.inRectangle w g i) = none := by
    simpa [List.find?_range_eq_none, ← Bool.not_eq_true, SliceGroups.inRectangle_iff] using hout
  rw [foregroundGroup, hfind, Option.getD_none]

theorem upperLeftSize_eq (dir : Bool) (n m0 : Nat) :
    upperLeftSize dir n m0 = if dir.toNat = 1 then n - m0 else m0 := by
  cases dir <;> rfl

/-! A map unit of each type (47_slice_group_map.md R372 to R378). -/

theorem getElem?_map_range (f : Nat → Nat) (hi : i < n) : ((List.range n).map f)[i]? = some (f i) := by
  rw [List.getElem?_map, List.getElem?_range hi, Option.map_some]

theorem unitMap_single (hnum : sg.num = 0) (hi : i < w * h) : (sg.unitMap w h)[i]? = some 0 := by
  rw [SliceGroups.unitMap, if_pos hnum, List.getElem?_replicate, if_pos hi]

section
variable (hnum : 0 < sg.num)
include hnum

theorem unitMap_interleaved (ht : sg.mapType = 0) {g j q : Nat} (hg : g ≤ sg.num) (hj : j ≤ sg.runLengthAt g)
    (hq : i = q * sg.runsBefore (sg.num + 1) + sg.runsBefore g + j) (hi : i < w * h) :
    (sg.unitMap w h)[i]? = some g := by
  simp only [SliceGroups.unitMap, if_neg hnum.ne', ht]
  exact interleavedMap_getElem? hg hj hq hi

theorem unitMap_dispersed (ht : sg.mapType = 1) (hi : i < w * h) :
    (sg.unitMap w h)[i]? = some (dispersedGroup sg.num w i) := by
  simp only [SliceGroups.unitMap, if_neg hnum.ne', ht]
  exact getElem?_map_range _ hi

theorem unitMap_foreground (ht : sg.mapType = 2) (hi : i < w * h) :
    (sg.unitMap w h)[i]? = some (foregroundGroup sg w i) := by
  simp only [SliceGroups.unitMap, if_neg hnum.ne', ht]
  exact getElem?_map_range _ hi

theorem unitMap_boxOut (ht : sg.mapType = 3) (hw : 1 ≤ w) (hh : 1 ≤ h) :
    (∀ v ∈ sg.unitMap w h, v ≤ 1) ∧ (sg.unitMap w h).count 0 = sg.mapUnitsInGroup0 (w * h) := by
  simp only [SliceGroups.unitMap, if_neg hnum.ne', ht]
  obtain ⟨-, hbits, hcount⟩ := boxOutMap_spec (m0 := sg.mapUnitsInGroup0 (w * h)) (Bool.toNat_le sg.changeDir) hw hh
    (Nat.min_le_right _ _)
  exact ⟨fun v hv => by have := hbits v hv; omega, hcount⟩

theorem unitMap_raster (ht : sg.mapType = 4) (hi : i < w * h) : (sg.unitMap w h)[i]? =
    some (scanGroup sg.changeDir (upperLeftSize sg.changeDir (w * h) (sg.mapUnitsInGroup0 (w * h))) i) := by
  simp only [SliceGroups.unitMap, if_neg hnum.ne', ht]
  exact getElem?_map_range _ hi

theorem unitMap_wipe (ht : sg.mapType = 5) (hi : i < w * h) : (sg.unitMap w h)[i]? = some (scanGroup sg.changeDir
    (upperLeftSize sg.changeDir (w * h) (sg.mapUnitsInGroup0 (w * h))) (i % w * h + i / w)) := by
  simp only [SliceGroups.unitMap, if_neg hnum.ne', ht]
  exact getElem?_map_range _ hi

theorem unitMap_explicit (ht : sg.mapType = 6) (hi : i < w * h) :
    (sg.unitMap w h)[i]? = some (sg.groupId i).toNat := by
  simp only [SliceGroups.unitMap, if_neg hnum.ne', ht]
  exact getElem?_map_range _ hi

end

end

/-! SG_GEN (47_slice_group_map.md R381). -/

/-- The state SG_GEN's rule answers with: both maps written over the old ones (47_slice_group_map.md R381). -/
def State.withMaps (s : State) : State :=
  let units := s.sg.unitMap s.geom.width s.geom.heightMapUnits
  { s with sg := { s.sg with
    mapUnits := overlay (units.map (BitVec.ofNat 3)) s.sg.mapUnits
    mbGroups := overlay ((s.geom.mbMap units).map (BitVec.ofNat 3)) s.sg.mbGroups
    mapValid := true } }

theorem getElem?_overlay {α : Type} {new old : List α} {i : Nat} {v : α} (h : new[i]? = some v) :
    (overlay new old)[i]? = some v := by
  rw [overlay, List.getElem?_append_left (List.getElem?_eq_some_iff.1 h).1, h]

section
variable {s : State} {i : Nat}

theorem ruleSgGen_estate (hgeom : s.geom.valid = false) : ruleSgGen s = .error .estate :=
  require_bind_estate (by simp [hgeom])

section
variable (hgeom : s.geom.valid = true)
include hgeom

theorem ruleSgGen_enomem (h : s.params.maxMapUnits < s.geom.picSizeInMapUnits ∨
    2 * s.params.maxMapUnits < s.geom.picSizeInMbs) : ruleSgGen s = .error .enomem := by
  rw [ruleSgGen, require_pos _ hgeom, ok_bind, require_neg _ (by omega), error_bind]

section
variable (hunits : s.geom.picSizeInMapUnits ≤ s.params.maxMapUnits)
  (hmbs : s.geom.picSizeInMbs ≤ 2 * s.params.maxMapUnits)
include hunits hmbs

theorem ruleSgGen_eproto (hlegal : ¬s.sg.Legal s.geom.width s.geom.picSizeInMapUnits) :
    ruleSgGen s = .error .eproto := by
  rw [ruleSgGen, require_pos _ hgeom, ok_bind, require_pos _ ⟨hunits, hmbs⟩, ok_bind,
    require_neg _ (mt SliceGroups.legal_iff.2 hlegal), error_bind]

theorem ruleSgGen_eq (hlegal : s.sg.Legal s.geom.width s.geom.picSizeInMapUnits) :
    ruleSgGen s = .ok s.withMaps := by
  rw [ruleSgGen, require_pos _ hgeom, ok_bind, require_pos _ ⟨hunits, hmbs⟩, ok_bind,
    require_pos _ (SliceGroups.legal_iff.1 hlegal), ok_bind]
  rfl

end

theorem sizes_pos_of_valid : 1 ≤ s.geom.width ∧ 1 ≤ s.geom.heightMapUnits := by
  simp only [Geometry.valid, Bool.and_eq_true, decide_eq_true_eq] at hgeom
  exact hgeom.1

/-- Each macroblock of the picture takes its group from a map unit of the picture (47_slice_group_map.md R379). -/
theorem mapUnitOfMb_lt (hi : i < s.geom.picSizeInMbs) : s.geom.mapUnitOfMb i < s.geom.picSizeInMapUnits := by
  obtain ⟨hw, -⟩ := sizes_pos_of_valid hgeom
  unfold Geometry.picSizeInMbs Geometry.picHeightInMbs Geometry.frameHeightInMbs at hi
  unfold Geometry.mapUnitOfMb Geometry.picSizeInMapUnits
  generalize s.geom.width = w at *
  generalize s.geom.heightMapUnits = h at *
  cases hframe : s.geom.frameMbsOnly with
  | true =>
    have hfield : s.geom.fieldPic = false := by
      simp only [Geometry.valid, hframe, Bool.true_and, Bool.not_or, Bool.and_eq_true, Bool.not_eq_true'] at hgeom
      exact hgeom.2.1
    simpa [hframe, hfield] using hi
  | false =>
    cases hfield : s.geom.fieldPic with
    | true => simpa [hframe, hfield] using hi
    | false =>
      have hi : i < 2 * (w * h) := by simpa [hframe, hfield, Nat.mul_left_comm] using hi
      rw [if_neg (by decide)]
      split
      · omega
      · have hcol : i % w < w := Nat.mod_lt i hw
        have hrow : i / (2 * w) + 1 ≤ h := Nat.div_lt_of_lt_mul (by rwa [Nat.mul_assoc])
        calc i / (2 * w) * w + i % w < (i / (2 * w) + 1) * w :=
            (Nat.add_lt_add_left hcol _).trans_eq (Nat.succ_mul _ w).symm
          _ ≤ h * w := Nat.mul_le_mul_right w hrow
          _ = w * h := Nat.mul_comm h w

end

/-- The entry SG_GEN writes for a map unit. -/
theorem mapUnits_withMaps {v : Nat} (hv : (s.sg.unitMap s.geom.width s.geom.heightMapUnits)[i]? = some v) :
    s.withMaps.sg.mapUnits[i]? = some (BitVec.ofNat 3 v) :=
  getElem?_overlay (by rw [List.getElem?_map, hv, Option.map_some])

section
variable (hgeom : s.geom.valid = true) (hlegal : s.sg.Legal s.geom.width s.geom.picSizeInMapUnits)
include hgeom hlegal

theorem unitMap_bounded : (s.sg.unitMap s.geom.width s.geom.heightMapUnits).length = s.geom.picSizeInMapUnits ∧
    ∀ v ∈ s.sg.unitMap s.geom.width s.geom.heightMapUnits, v ≤ s.sg.num := by
  obtain ⟨hw, hh⟩ := sizes_pos_of_valid hgeom
  exact unitMap_spec s.sg _ _ hw hh (SliceGroups.legal_iff.1 hlegal)

/-- A map unit that has a value has it after SG_GEN: it is at most num, so it fits its 3 bits. -/
theorem toNat_mapUnit_withMaps {v : Nat} (hv : (s.sg.unitMap s.geom.width s.geom.heightMapUnits)[i]? = some v) :
    (s.withMaps.mapUnit i).toNat = v := by
  have hle : v ≤ s.sg.num := (unitMap_bounded hgeom hlegal).2 v (List.mem_of_getElem? hv)
  have hnum : s.sg.num < 8 := s.sg.numMinus1.isLt
  rw [State.mapUnit, mapUnits_withMaps hv, Option.getD_some, BitVec.toNat_ofNat, Nat.mod_eq_of_lt (by omega)]

theorem exists_unitMap_value (hi : i < s.geom.picSizeInMapUnits) :
    ∃ v, (s.sg.unitMap s.geom.width s.geom.heightMapUnits)[i]? = some v :=
  ⟨_, List.getElem?_eq_getElem (hi.trans_eq (unitMap_bounded hgeom hlegal).1.symm)⟩

/-- The macroblock map is the unit map at `Geometry.mapUnitOfMb` (47_slice_group_map.md R379). -/
theorem mbGroup_withMaps (hi : i < s.geom.picSizeInMbs) :
    s.withMaps.mbGroup i = s.withMaps.mapUnit (s.geom.mapUnitOfMb i) := by
  obtain ⟨v, hv⟩ := exists_unitMap_value hgeom hlegal (mapUnitOfMb_lt hgeom hi)
  have hgroup : s.withMaps.sg.mbGroups[i]? = some (BitVec.ofNat 3 v) :=
    getElem?_overlay (by rw [List.getElem?_map, Geometry.mbMap, getElem?_map_range _ hi, hv]; rfl)
  rw [State.mbGroup, State.mapUnit, mapUnits_withMaps hv, hgroup]
  rfl

/-- The map units of the picture after SG_GEN are the computed map, one after another. -/
theorem map_mapUnit_withMaps : (List.range s.geom.picSizeInMapUnits).map (fun i => (s.withMaps.mapUnit i).toNat) =
    s.sg.unitMap s.geom.width s.geom.heightMapUnits := by
  obtain ⟨hlen, -⟩ := unitMap_bounded hgeom hlegal
  refine List.ext_getElem (by rw [List.length_map, List.length_range, hlen]) fun i _ hi => ?_
  rw [List.getElem_map, List.getElem_range, toNat_mapUnit_withMaps hgeom hlegal (List.getElem?_eq_getElem hi)]

theorem mapUnit_withMaps_boxOut_le (hnum : 0 < s.sg.num) (ht : s.sg.mapType = 3) (hi : i < s.geom.picSizeInMapUnits) :
    (s.withMaps.mapUnit i).toNat ≤ 1 := by
  obtain ⟨hw, hh⟩ := sizes_pos_of_valid hgeom
  refine (unitMap_boxOut hnum ht hw hh).1 _ ?_
  rw [← map_mapUnit_withMaps hgeom hlegal]
  exact List.mem_map.2 ⟨i, List.mem_range.2 hi, rfl⟩

theorem boxOut_zero_units (hnum : 0 < s.sg.num) (ht : s.sg.mapType = 3) :
    ((List.range s.geom.picSizeInMapUnits).filter fun i => decide (s.withMaps.mapUnit i = 0)).length =
      s.sg.mapUnitsInGroup0 s.geom.picSizeInMapUnits := by
  obtain ⟨hw, hh⟩ := sizes_pos_of_valid hgeom
  obtain ⟨-, hcount⟩ := unitMap_boxOut hnum ht hw hh
  rw [← map_mapUnit_withMaps hgeom hlegal, List.count_eq_countP, List.countP_map] at hcount
  rw [← List.countP_eq_length_filter]
  refine (List.countP_congr fun i _ => ?_).trans hcount
  simp [← BitVec.toNat_inj]

end

/-! SG_IDWR (47_slice_group_map.md R380). -/

theorem ruleSgIdwr_eq (ha : s.a0.toNat < s.params.maxMapUnits) (hid : s.a1.toNat ≤ 7) : ruleSgIdwr s =
    .ok (State.clearMapValid { s with sg := s.sg.setGroupId s.a0.toNat (BitVec.ofNat 3 s.a1.toNat) }) := by
  rw [ruleSgIdwr, require_pos _ ⟨ha, hid⟩, ok_bind]
  rfl

theorem ruleSgIdwr_einval (h : s.params.maxMapUnits ≤ s.a0.toNat ∨ 7 < s.a1.toNat) :
    ruleSgIdwr s = .error .einval := by
  rw [ruleSgIdwr, require_neg _ (by omega), error_bind]

theorem SliceGroups.groupId_setGroupId_same {sg : SliceGroups} (hwf : Table.wf sg.sgid = true) (v : BitVec 3) :
    (sg.setGroupId i v).groupId i = v := by
  unfold SliceGroups.setGroupId SliceGroups.groupId
  by_cases hv : v = 0
  · simp only [hv, if_true, Table.find_drop_same _ _ hwf, Option.getD_none]
  · simp only [hv, if_false, Table.find_put_same, Option.getD_some]

theorem SliceGroups.groupId_setGroupId_other (sg : SliceGroups) {a : Nat} (v : BitVec 3) (h : i ≠ a) :
    (sg.setGroupId a v).groupId i = sg.groupId i := by
  unfold SliceGroups.setGroupId SliceGroups.groupId
  by_cases hv : v = 0
  · simp only [hv, if_true, Table.find_drop_other _ _ _ h]
  · simp only [hv, if_false, Table.find_put_other _ _ _ _ h]

/-! SG_MBGRP and SG_NEXT (47_slice_group_map.md R382, R383). -/

theorem ruleSgMbgrp_estate (hv : s.sg.mapValid = false) : ruleSgMbgrp s = .error .estate :=
  require_bind_estate (by simp [hv])

theorem ruleSgNext_estate (hv : s.sg.mapValid = false) : ruleSgNext s = .error .estate :=
  require_bind_estate (by simp [hv])

section
variable (hv : s.sg.mapValid = true)
include hv

theorem ruleSgMbgrp_einval (ha : s.geom.picSizeInMbs ≤ s.a0.toNat) : ruleSgMbgrp s = .error .einval := by
  rw [ruleSgMbgrp, require_pos _ hv, ok_bind, require_neg _ ha.not_gt, error_bind]

theorem ruleSgNext_einval (ha : s.geom.picSizeInMbs ≤ s.a0.toNat) : ruleSgNext s = .error .einval := by
  simp only [ruleSgNext, require_pos _ hv, require_neg _ ha.not_gt, ok_bind, error_bind]

theorem ruleSgMbgrp_eq (ha : s.a0.toNat < s.geom.picSizeInMbs) :
    ruleSgMbgrp s = .ok { s with y0 := (s.mbGroup s.a0.toNat).setWidth 32 } := by
  rw [ruleSgMbgrp, require_pos _ hv, ok_bind, require_pos _ ha, ok_bind, natWord, BitVec.ofNat_toNat]
  rfl

theorem ruleSgNext_eq (ha : s.a0.toNat < s.geom.picSizeInMbs) : ruleSgNext s = .ok { s with
    y0 := nextAddrWord (s.nextInGroup (s.mbGroup s.a0.toNat) (s.geom.picSizeInMbs - (s.a0.toNat + 1))
      (s.a0.toNat + 1)) } := by
  simp only [ruleSgNext, require_pos _ hv, require_pos _ ha, ok_bind]
  rfl

end

theorem nextAddrWord_toNat (h : i < 2 ^ 32) : (nextAddrWord i).toNat = i := by
  rw [nextAddrWord, if_pos h, natWord_toNat h]

/-- SG_NEXT's search from `a` on ends at the first macroblock of the group, or past the last of the `n`. -/
theorem nextInGroup_spec (s : State) (g : BitVec 3) (n a : Nat) :
    a ≤ s.nextInGroup g n a ∧ s.nextInGroup g n a ≤ a + n ∧
      (s.nextInGroup g n a < a + n → s.mbGroup (s.nextInGroup g n a) = g) ∧
      ∀ k, a ≤ k → k < s.nextInGroup g n a → s.mbGroup k ≠ g := by
  induction n generalizing a with
  | zero => exact ⟨le_rfl, le_rfl, fun h => absurd h (lt_irrefl _), fun k hak hk => absurd hk hak.not_gt⟩
  | succ n ih =>
    unfold State.nextInGroup
    split
    · next hg => exact ⟨le_rfl, Nat.le_add_right _ _, fun _ => hg, fun k hak hk => absurd hk hak.not_gt⟩
    · next hg =>
      obtain ⟨hle, hend, hfound, hbefore⟩ := ih (a + 1)
      refine ⟨by omega, by omega, fun h => hfound (by omega), fun k hak hk => ?_⟩
      obtain rfl | hlt := hak.eq_or_lt
      · exact hg
      · exact hbefore k hlt hk

end

end Sys2Proof.Machine

open Sys2Proof Sys2Proof.Machine

/-- Settles O56: SG_GEN's rule writes `State.withMaps`, whose map units are `SliceGroups.unitMap` of the map type. -/
theorem sgGenComputesMaps : Obligations.SgGenComputesMaps := by
  intro s w h n size num m0 upper dir hf hw hh hn hsize hnum hdir hm0 hupper
  subst hw hh hn hsize hnum hdir hm0 hupper
  refine ⟨fun hgeom hunits hmbs hlegal => ⟨_, exec_ok (i := .sgGen) nofun hf (ruleSgGen_eq hgeom hunits hmbs hlegal),
      rfl, rfl, fun i hi => ?_, boxOut_zero_units hgeom hlegal, fun i hi => mbGroup_withMaps hgeom hlegal hi⟩,
    fun hgeom => exec_error (i := .sgGen) nofun hf (ruleSgGen_estate hgeom),
    fun hgeom h => exec_error (i := .sgGen) nofun hf (ruleSgGen_enomem hgeom h),
    fun hgeom hunits hmbs hlegal => exec_error (i := .sgGen) nofun hf (ruleSgGen_eproto hgeom hunits hmbs hlegal)⟩
  have hval : ∀ {v}, (s.sg.unitMap s.geom.width s.geom.heightMapUnits)[i]? = some v → (s.withMaps.mapUnit i).toNat = v :=
    toNat_mapUnit_withMaps hgeom hlegal
  refine ⟨fun hnum => BitVec.eq_of_toNat_eq (hval (unitMap_single hnum hi)),
    fun hnum ht g j q hg hj hq => hval (unitMap_interleaved hnum ht hg hj hq hi),
    fun hnum ht => hval (unitMap_dispersed hnum ht hi),
    fun hnum ht => ⟨fun g hg hin hlow => ?_, fun hout => ?_⟩,
    fun hnum ht => mapUnit_withMaps_boxOut_le hgeom hlegal hnum ht hi,
    fun hnum ht => ?_, fun hnum ht => ?_,
    fun hnum ht => BitVec.eq_of_toNat_eq (hval (unitMap_explicit hnum ht hi))⟩
  · exact (hval (unitMap_foreground hnum ht hi)).trans (foregroundGroup_of_lowest hg hin hlow)
  · exact (hval (unitMap_foreground hnum ht hi)).trans (foregroundGroup_of_none hout)
  · have h := hval (unitMap_raster hnum ht hi)
    rwa [upperLeftSize_eq] at h
  · have h := hval (unitMap_wipe hnum ht hi)
    rwa [upperLeftSize_eq] at h

/-- Settles O57: an SG_GEN that leaves FAULT = 0 ran its rule, and the maps it wrote are `MapOk`. -/
theorem sliceGroupMapBounds : Obligations.SliceGroupMapBounds := by
  intro s t h ht
  obtain ⟨hs, -, rfl⟩ | ⟨u, hu, rfl⟩ | ⟨e, -, rfl⟩ := exec_cases (i := .sgGen) nofun h
  · exact absurd (hs.symm.trans ht) nofun
  · obtain ⟨-, hunitsLen, hgroupsLen, hunits, hgroups⟩ := ruleSgGen_mapOk hu
    refine ⟨fun i hi => ⟨_, List.getElem?_eq_getElem (Nat.lt_of_lt_of_le hi hunitsLen), ?_⟩,
      fun i hi => ⟨_, List.getElem?_eq_getElem (Nat.lt_of_lt_of_le hi hgroupsLen), ?_⟩⟩
    · exact hunits _ (List.mem_take_iff_getElem.2 ⟨i, lt_min hi (Nat.lt_of_lt_of_le hi hunitsLen), rfl⟩)
    · exact hgroups _ (List.mem_take_iff_getElem.2 ⟨i, lt_min hi (Nat.lt_of_lt_of_le hi hgroupsLen), rfl⟩)
  · exact absurd ht nofun

/-- Settles O58: SG_IDWR changes one entry of SGID, and SG_NEXT's search stops at the first macroblock of the group. -/
theorem sgIdsAndQueries : Obligations.SgIdsAndQueries := by
  intro s a size hf ha hsize
  subst ha hsize
  refine ⟨fun ha hid => ⟨_, exec_ok (i := .sgIdwr) nofun hf (ruleSgIdwr_eq ha hid), rfl, rfl, fun hinv => ?_,
      fun i hi => s.sg.groupId_setGroupId_other _ hi⟩,
    fun h => exec_error (i := .sgIdwr) nofun hf (ruleSgIdwr_einval h),
    fun hv ha => ⟨exec_ok (i := .sgMbgrp) nofun hf (ruleSgMbgrp_eq hv ha), ?_⟩,
    fun hv ha => ⟨exec_error (i := .sgMbgrp) nofun hf (ruleSgMbgrp_einval hv ha),
      exec_error (i := .sgNext) nofun hf (ruleSgNext_einval hv ha)⟩,
    fun hv => ⟨exec_error (i := .sgMbgrp) nofun hf (ruleSgMbgrp_estate hv),
      exec_error (i := .sgNext) nofun hf (ruleSgNext_estate hv)⟩⟩
  · have hsame : (s.sg.setGroupId s.a0.toNat (BitVec.ofNat 3 s.a1.toNat)).groupId s.a0.toNat = BitVec.ofNat 3 s.a1.toNat :=
      SliceGroups.groupId_setGroupId_same hinv.memories.sgid _
    exact (congrArg BitVec.toNat hsame).trans (Nat.mod_eq_of_lt (Nat.lt_succ_of_le hid))
  · obtain ⟨hle, hend, hfound, hbefore⟩ := nextInGroup_spec s (s.mbGroup s.a0.toNat)
      (s.geom.picSizeInMbs - (s.a0.toNat + 1)) (s.a0.toNat + 1)
    rw [Nat.add_sub_of_le ha] at hend hfound
    exact ⟨_, _, exec_ok (i := .sgNext) nofun hf (ruleSgNext_eq hv ha), nextAddrWord_toNat, hle, hend, hfound, hbefore⟩

end

