-- ==== Sys2Proof/Proofs/StatusWrites.lean ====
section
/-!
Every command completes, and how it writes STATUS as it does (60_exceptions.md R400, R404).
-/

namespace Sys2Proof.Machine

theorem runRule_answers (opc : Nat) (rule : State → Except Code State) (s : State) :
    ∃ t, runRule opc rule s = .next t := by
  unfold runRule
  split
  · exact ⟨_, rfl⟩
  · exact ⟨_, rfl⟩

theorem runCommand_answers (opc : Nat) (rule : State → Except Code State) (s : State) :
    ∃ t, runCommand opc rule s = .next t := by
  unfold runCommand
  split
  · exact ⟨_, rfl⟩
  · exact runRule_answers opc rule s

/-- `st'` is what a command with opcode `opc`, RESET apart, makes of `st`: it completes with OK or EFAULTED, or it fails
with another code (60_exceptions.md R400). -/
inductive Status.Completes (opc : Nat) (st : Status) : Status → Prop
  | done {c : Code} (hc : c = .ok ∨ c = .efaulted) : Status.Completes opc st (st.complete c)
  | failed {e : Code} (he : e ≠ .ok ∧ e ≠ .efaulted) : Status.Completes opc st (st.failWith e opc)

/-- A rule leaves STATUS alone when it answers, and never fails with OK or EFAULTED when it does not. -/
theorem exec_completes_status {i : Instr} {s t : State} (hi : i ≠ .reset) (h : exec i s = .next t) :
    s.status.Completes i.opcode t.status := by
  obtain ⟨-, -, rfl⟩ | ⟨u, hu, rfl⟩ | ⟨e, he, rfl⟩ := exec_cases hi h
  · exact .done (.inr rfl)
  · rw [← (ruleOf_writesOnly i s u hu).status]
    exact .done (.inl rfl)
  · exact .failed (honest_ruleOf i s e he)

theorem rejectWord_completes_status {opc : Nat} {s t : State} (h : rejectWord opc s = .next t) :
    s.status.Completes opc t.status := by
  obtain rfl := Host.Outcome.next.inj ((rejectWord_eq_next opc s).symm.trans h)
  split
  · exact .done (.inr rfl)
  · exact .failed ⟨nofun, nofun⟩

/-- The opcode of a word is that of the command it decodes to, so FAILOP is the word's OPC field in either case. -/
theorem issueWord_completes_status {w : Word} {s t : State} (hw : decode w ≠ .ok .reset) (h : issueWord w s = .next t) :
    s.status.Completes (wordOpc w) t.status := by
  cases hd : decode w with
  | ok i =>
    obtain ⟨hopc, -, -⟩ := fields_of_decode hd
    rw [← hopc]
    exact exec_completes_status (fun hi => hw (hi ▸ hd)) ((issueWord_of_decode s hd).symm.trans h)
  | error r => exact rejectWord_completes_status ((issueWord_of_reject s hd).symm.trans h)

theorem issueWord_reset_status {w : Word} {s t : State} (hw : decode w = .ok .reset) (h : issueWord w s = .next t) :
    t.status = ⟨.ok, false, 0⟩ := by
  obtain rfl := Host.Outcome.next.inj ((issueWord_of_decode s hw).symm.trans h)
  rfl

end Sys2Proof.Machine

open Sys2Proof Sys2Proof.Machine

/-- Settles O9: a completion with OK or EFAULTED writes CODE only, and a failure has one of the other codes. -/
theorem statusAfterCommand : Obligations.StatusAfterCommand := by
  refine fun w s t h => ⟨fun hw => issueWord_reset_status hw h, fun hw => ?_⟩
  have hst := issueWord_completes_status hw h
  generalize t.status = st at hst
  cases hst with
  | done hc => exact ⟨fun _ => ⟨rfl, rfl⟩, fun hn => absurd hc (not_or.2 hn)⟩
  | failed he => exact ⟨fun hc => absurd he (not_and_or.2 (hc.imp not_not_intro not_not_intro)), fun _ => ⟨rfl, rfl⟩⟩

/-- Settles O7: NOP and CSR_RD always run their rules, RESET has no rule, and every other command is `runCommand` of
its rule. -/
theorem everyCommandCompletes : Obligations.EveryCommandCompletes := by
  intro i s
  cases i with
  | nop => exact ⟨_, exec_nop s⟩
  | reset => exact ⟨_, exec_reset s⟩
  | csrRd csr => exact runRule_answers _ (ruleCsrRd csr) s
  | _ =>
    rw [exec_eq_runCommand _ s rfl]
    exact runCommand_answers _ _ s

end

