-- ==== Sys2Proof/Proofs/Reset.lean ====
section
/-!
Power-on reset and RESET (70_reset_and_hazards.md R430; 40_control.md R141).
-/

namespace Sys2Proof.Machine

/-- A vector of one value reads as that value everywhere, past its end too where that is the default. -/
theorem replicate_getElem?_getD {α : Type} (n i : Nat) (a : α) : (Vector.replicate n a)[i]?.getD a = a := by
  rw [Vector.getElem?_replicate]
  split
  · rfl
  · rfl

theorem State.resetWith_atReset (p : Params) (k : Nat) (port : List HostAction) :
    (State.resetWith p k port).AtReset where
  operands := ⟨rfl, rfl, rfl, rfl⟩
  results := ⟨rfl, rfl, rfl, rfl⟩
  coef i := replicate_getElem?_getD 16 i 0
  bins := ⟨rfl, fun i => replicate_getElem?_getD 128 i false⟩
  cursor := rfl
  contexts _ := rfl
  encoder := rfl
  decoder := rfl
  status := rfl
  geometry := rfl
  derived := ⟨rfl, rfl, Nat.zero_div _, Nat.zero_mul _, Nat.zero_mul _, rfl, rfl, rfl⟩
  macroblocks := ⟨fun _ => rfl, rfl, rfl⟩
  sliceGroups := ⟨rfl, rfl, rfl, rfl, rfl, fun g =>
    ⟨Vector.getElem_replicate g.isLt, Vector.getElem_replicate g.isLt, Vector.getElem_replicate g.isLt⟩⟩
  groupIds _ := rfl
  map := ⟨rfl, rfl, rfl⟩

end Sys2Proof.Machine

open Sys2Proof Sys2Proof.Machine

/-- Settles O11: RESET answers with `State.resetWith` of the block's own parameters and pending host actions. -/
theorem resetGivesResetValues : Obligations.ResetGivesResetValues :=
  ⟨State.resetWith_atReset, fun s => ⟨s.recover, exec_reset s, State.resetWith_atReset _ _ _, rfl, rfl⟩⟩

/-- Settles O60: at reset no stream, engine, current macroblock or map is in use, and every table is empty. -/
theorem invariantAtReset : Obligations.InvariantAtReset := fun _ k port hp => State.resetWith_inv hp k port

end
